-- ==== Sys2Proof/Word.lean ====
section
/-! DEFINITION. The word types of QASTC-BC: a 32-bit register (R42), a byte of a buffer, a 128-bit physical
block (R16). -/

namespace Sys2Proof

/-- A register of the unit (R42). -/
abbrev Word := BitVec 32

/-- A byte of a buffer or of the bus (R90, R96). -/
abbrev Byte := BitVec 8

/-- A physical block, bit 0 least significant (R16). -/
abbrev Block := BitVec 128

end Sys2Proof
end

