-- ==== Sys2Proof/Syntax.lean ====
section
/-! DEFINITION. The instruction set in its two parts (R2): the command words of 30_encoding.md part A and the layouts
of the physical block of part B, one constructor for each row of the opcode table; and the symbolic block that PACK
and UNPACK translate to and from (R56). -/

namespace Sys2Proof

/-- One constructor for each row of spec/opcode_table.json. Operand fields hold the raw bits of the word (R121, R122);
the three `phys` rows are the layouts of a 128-bit block (R135, R136), which UNPACK reads. -/
inductive Instr where
  /-- R230 -/
  | nop
  /-- R231 -/
  | buildTables
  /-- R400; `A[0]` pack flag, `A[2:1]` input kind. -/
  | encodeBlock (pack : BitVec 1) (inKind : BitVec 2)
  /-- R290 -/
  | pack
  /-- R291 -/
  | unpack
  /-- R350; `A[2:1]` output kind. -/
  | decodeTexels (outKind : BitVec 2)
  /-- R245 -/
  | iseBitcount (count : BitVec 8) (level : BitVec 5)
  /-- R232; `index` is `C[7:5]` above `A` (R122). -/
  | qlookup (level : BitVec 5) (table : BitVec 3) (index : BitVec 11)
  /-- R233; `index` is `B[7:6]` above `A` (R122). -/
  | plookup (count : BitVec 3) (index : BitVec 10) (query : BitVec 8)
  /-- R234; `mode` is `B[2:0]` above `A` (R122). -/
  | modeinfo (mode : BitVec 11)
  /-- R235 -/
  | dlookup (decim : BitVec 8) (texel : BitVec 8) (entry : BitVec 2) (grid : BitVec 1)
  /-- R123: an opcode 0x0B..0xFF with any operand bits. -/
  | reservedOp (op : BitVec 8) (operands : BitVec 24)
  /-- R136: format bit, reserved bits, the four extents, the four channels. -/
  | physVoidExtent (format : BitVec 1) (reserved : BitVec 2) (sMin sMax tMin tMax : BitVec 13)
      (r g b a : BitVec 16)
  /-- R135 with partition count 1; `body` is `blk[127:17]`. -/
  | physNormal1p (mode : BitVec 11) (cem : BitVec 4) (body : BitVec 111)
  /-- R135 with partition count 2..4; `body` is `blk[127:29]`. -/
  | physNormalMp (mode : BitVec 11) (pcMinus1 : BitVec 2) (partIndex : BitVec 10) (cemLow : BitVec 6)
      (body : BitVec 99)
  deriving DecidableEq, Repr

/-- Whether the instruction is a physical block rather than a command word. -/
def Instr.isBlock : Instr → Bool
  | .nop | .buildTables | .encodeBlock _ _ | .pack | .unpack | .decodeTexels _ | .iseBitcount _ _
  | .qlookup _ _ _ | .plookup _ _ _ | .modeinfo _ | .dlookup _ _ _ _ | .reservedOp _ _ => false
  | .physVoidExtent _ _ _ _ _ _ _ _ _ _ | .physNormal1p _ _ _ | .physNormalMp _ _ _ _ _ => true

/-- The four channels of a color in the order R, G, B, A (R20). -/
structure Rgba (α : Type) where
  r : α
  g : α
  b : α
  a : α
  deriving DecidableEq, Repr, Inhabited

def Rgba.map {α β : Type} (f : α → β) (x : Rgba α) : Rgba β := ⟨f x.r, f x.g, f x.b, f x.a⟩

/-- Channel `c`: 0 = R, 1 = G, 2 = B, otherwise A (R20). -/
def Rgba.chan {α : Type} (x : Rgba α) : Nat → α
  | 0 => x.r
  | 1 => x.g
  | 2 => x.b
  | _ => x.a

def Rgba.toList {α : Type} (x : Rgba α) : List α := [x.r, x.g, x.b, x.a]

/-- The color with the channels `f 0`, `f 1`, `f 2`, `f 3`. -/
def Rgba.ofFn {α : Type} (f : Nat → α) : Rgba α := ⟨f 0, f 1, f 2, f 3⟩

/-- The decode profile (R48); the value 3 of the register is reserved. -/
inductive Profile where
  | ldrSrgb | ldr | hdr | reserved
  deriving DecidableEq, Repr

/-- A symbolic block that is neither constant nor an error block (R56 to R62), with exactly the entries in use:
one CEM for each partition, the color values in sequence order, one or two planes of weights. -/
structure NormalSym where
  mode : BitVec 11
  partIndex : BitVec 10
  matched : Bool
  ccs : BitVec 2
  cq : BitVec 5
  cems : List (BitVec 4)
  colors : List Byte
  w0 : List Byte
  w1 : List Byte
  deriving DecidableEq, Repr, Inhabited

/-- The partition count `PC` of a normal block (R57). -/
def NormalSym.pc (n : NormalSym) : Nat := n.cems.length

/-- The symbolic block of R56: the error block of R293, a constant-color block (`BLOCK_MODE` -2 when `fp16`, else -1,
R58), or a normal block. -/
inductive Sym where
  | error
  | const (fp16 : Bool) (color : Rgba (BitVec 16))
  | normal (n : NormalSym)
  deriving DecidableEq, Repr

end Sys2Proof
end

