-- ==== Sys2Proof/WellFormed.lean ====
section
/-! DEFINITION. Which terms of Instr are words of their own row: a reserved opcode lies in 0x0B..0xFF (R123), a normal
block is not marked as a void extent (R132, R137), and a multi-partition block has a partition count above 1 (R135). -/

namespace Sys2Proof

/-- `M[8:0] = 0x1FC` marks a constant-color block (R132). -/
def voidExtentMark (mode : BitVec 11) : Bool := mode.extractLsb' 0 9 == 0x1FC#9

def Instr.wf : Instr → Bool
  | .nop | .buildTables | .encodeBlock _ _ | .pack | .unpack | .decodeTexels _ | .iseBitcount _ _
  | .qlookup _ _ _ | .plookup _ _ _ | .modeinfo _ | .dlookup _ _ _ _ => true
  | .reservedOp op _ => 0x0B ≤ op.toNat
  | .physVoidExtent _ _ _ _ _ _ _ _ _ _ => true
  | .physNormal1p mode _ _ => !voidExtentMark mode
  | .physNormalMp mode pcMinus1 _ _ _ => !voidExtentMark mode && pcMinus1 != 0

end Sys2Proof
end

