-- ==== Sys2Proof/Decode.lean ====
section
/-! DEFINITION. Decoding command words (R120 to R123) and physical blocks (R135 to R137), and the encoder written from
the same tables. Four bytes are a command word, sixteen a physical block; both little-endian (R90, R91). -/

namespace Sys2Proof

/-- Why bytes are no instruction. -/
inductive Reject where
  /-- An operand bit that the opcode's row of R121 does not name is 1 (R123). The unit reports ILLEGAL_COMMAND. -/
  | operandBits (op : Byte)
  /-- Neither the 4 bytes of a command word nor the 16 of a block (R120, R137). -/
  | length (bytes : Nat)
  deriving DecidableEq, Repr

/-- The command `i` if the operand bits the row does not name are all 0 (R123). -/
def requireZero (unnamedZero : Bool) (op : Byte) (i : Instr) : Except Reject Instr :=
  if unnamedZero then .ok i else .error (.operandBits op)

/-- R121 to R123 over `OP[7:0]`, `A[15:8]`, `B[23:16]`, `C[31:24]`. -/
def decodeCommand (w : Word) : Except Reject Instr :=
  let op := w.extractLsb' 0 8
  match op.toNat with
  | 0x00 => requireZero (w.extractLsb' 8 24 == 0) op .nop
  | 0x01 => requireZero (w.extractLsb' 8 24 == 0) op .buildTables
  | 0x02 => requireZero (w.extractLsb' 11 21 == 0) op (.encodeBlock (w.extractLsb' 8 1) (w.extractLsb' 9 2))
  | 0x03 => requireZero (w.extractLsb' 8 24 == 0) op .pack
  | 0x04 => requireZero (w.extractLsb' 8 24 == 0) op .unpack
  | 0x05 => requireZero (w.extractLsb' 8 1 == 0 && w.extractLsb' 11 21 == 0) op
      (.decodeTexels (w.extractLsb' 9 2))
  | 0x06 => requireZero (w.extractLsb' 21 11 == 0) op
      (.iseBitcount (w.extractLsb' 8 8) (w.extractLsb' 16 5))
  | 0x07 => requireZero (w.extractLsb' 21 3 == 0 && w.extractLsb' 27 2 == 0) op
      (.qlookup (w.extractLsb' 16 5) (w.extractLsb' 24 3) (w.extractLsb' 29 3 ++ w.extractLsb' 8 8))
  | 0x08 => requireZero (w.extractLsb' 19 3 == 0) op
      (.plookup (w.extractLsb' 16 3) (w.extractLsb' 22 2 ++ w.extractLsb' 8 8) (w.extractLsb' 24 8))
  | 0x09 => requireZero (w.extractLsb' 19 13 == 0) op
      (.modeinfo (w.extractLsb' 16 3 ++ w.extractLsb' 8 8))
  | 0x0A => requireZero (w.extractLsb' 26 5 == 0) op
      (.dlookup (w.extractLsb' 8 8) (w.extractLsb' 16 8) (w.extractLsb' 24 2) (w.extractLsb' 31 1))
  | _ => .ok (.reservedOp op (w.extractLsb' 8 24))

/-- The layout of a block (R137): a void extent by `blk[8:0]`, else one partition or several by `blk[12:11]` (R135).
Whether the block-mode field is reserved or illegal is judged by the meaning (R294), which gives the error block. -/
def decodeBlock (blk : Block) : Instr :=
  if blk.extractLsb' 0 9 == 0x1FC#9 then
    .physVoidExtent (blk.extractLsb' 9 1) (blk.extractLsb' 10 2) (blk.extractLsb' 12 13) (blk.extractLsb' 25 13)
      (blk.extractLsb' 38 13) (blk.extractLsb' 51 13) (blk.extractLsb' 64 16) (blk.extractLsb' 80 16)
      (blk.extractLsb' 96 16) (blk.extractLsb' 112 16)
  else if blk.extractLsb' 11 2 == 0#2 then
    .physNormal1p (blk.extractLsb' 0 11) (blk.extractLsb' 13 4) (blk.extractLsb' 17 111)
  else
    .physNormalMp (blk.extractLsb' 0 11) (blk.extractLsb' 11 2) (blk.extractLsb' 13 10) (blk.extractLsb' 23 6)
      (blk.extractLsb' 29 99)

/-- Sixteen bytes, byte 0 holding bits 7..0 (R16, R91). -/
def blockOfBytes (bs : List Byte) : Block :=
  BitVec.ofNat 128 (bs.foldr (fun b acc => b.toNat + 256 * acc) 0)

/-- Byte `k` of a block is its bits `8k+7 .. 8k` (R16). -/
def bytesOfBlock (blk : Block) : List Byte := (List.range 16).map fun k => blk.extractLsb' (8 * k) 8

/-- The bytes of a word, least significant first (R90). -/
def bytesOfWord (w : Word) : List Byte := (List.range 4).map fun k => w.extractLsb' (8 * k) 8

/-- Total on any bytes: a command word, a physical block, or a rejection by name. -/
def decode : List Byte → Except Reject Instr
  | [b0, b1, b2, b3] => decodeCommand (b3 ++ b2 ++ b1 ++ b0)
  | bs => if bs.length = 16 then .ok (decodeBlock (blockOfBytes bs)) else .error (.length bs.length)

/-- R136, low bits first: 0x1FC, format, reserved bits, S, T, R, G, B, A. -/
def voidExtentBlock (format : BitVec 1) (reserved : BitVec 2) (sMin sMax tMin tMax : BitVec 13)
    (r g b a : BitVec 16) : Block :=
  a ++ b ++ g ++ r ++ tMax ++ tMin ++ sMax ++ sMin ++ reserved ++ format ++ 0x1FC#9

/-- R135 with one partition: block mode, partition count - 1 = 0, CEM, the rest. -/
def normal1pBlock (mode : BitVec 11) (cem : BitVec 4) (body : BitVec 111) : Block :=
  body ++ cem ++ 0#2 ++ mode

/-- R135 with several partitions: block mode, partition count - 1, partition index, CEM field, the rest. -/
def normalMpBlock (mode : BitVec 11) (pcMinus1 : BitVec 2) (partIndex : BitVec 10) (cemLow : BitVec 6)
    (body : BitVec 99) : Block :=
  body ++ cemLow ++ partIndex ++ pcMinus1 ++ mode

/-- The bytes of an instruction, from the encoding tables of R121 and R122 (commands) and R135, R136 (blocks). -/
def encode : Instr → List Byte
  | .nop => bytesOfWord 0x00000000#32
  | .buildTables => bytesOfWord 0x00000001#32
  | .encodeBlock pack inKind => bytesOfWord (0#21 ++ inKind ++ pack ++ 0x02#8)
  | .pack => bytesOfWord 0x00000003#32
  | .unpack => bytesOfWord 0x00000004#32
  | .decodeTexels outKind => bytesOfWord (0#21 ++ outKind ++ 0#1 ++ 0x05#8)
  | .iseBitcount count level => bytesOfWord (0#11 ++ level ++ count ++ 0x06#8)
  | .qlookup level table index =>
      bytesOfWord (index.extractLsb' 8 3 ++ 0#2 ++ table ++ 0#3 ++ level ++ index.extractLsb' 0 8 ++ 0x07#8)
  | .plookup count index query =>
      bytesOfWord (query ++ index.extractLsb' 8 2 ++ 0#3 ++ count ++ index.extractLsb' 0 8 ++ 0x08#8)
  | .modeinfo mode => bytesOfWord (0#13 ++ mode.extractLsb' 8 3 ++ mode.extractLsb' 0 8 ++ 0x09#8)
  | .dlookup decim texel entry grid => bytesOfWord (grid ++ 0#5 ++ entry ++ texel ++ decim ++ 0x0A#8)
  | .reservedOp op operands => bytesOfWord (operands ++ op)
  | .physVoidExtent format reserved sMin sMax tMin tMax r g b a =>
      bytesOfBlock (voidExtentBlock format reserved sMin sMax tMin tMax r g b a)
  | .physNormal1p mode cem body => bytesOfBlock (normal1pBlock mode cem body)
  | .physNormalMp mode pcMinus1 partIndex cemLow body =>
      bytesOfBlock (normalMpBlock mode pcMinus1 partIndex cemLow body)

/-- Whether a row to which the opcode table gives `nbits` bits is a command word: 32 bits, or the opcode byte alone
(the reserved opcodes' row); any other size is the low bits of a physical block (log entry 20). -/
def isCommandSize (nbits : Nat) : Bool := nbits == 32 || nbits ≤ 8

/-- The bytes of an instruction whose bits are `w`, as the hardware holds them, the bits above `nbits` being 0. -/
def tableBytes (nbits w : Nat) : List Byte :=
  let bits := w % 2 ^ nbits
  if isCommandSize nbits then bytesOfWord (BitVec.ofNat 32 bits) else bytesOfBlock (BitVec.ofNat 128 bits)

/-- The instruction the decoder reads from the bits `w`, numbered as the opcode table numbers them. -/
def decodeTableWord (nbits w : Nat) : Option Instr :=
  match decode (tableBytes nbits w) with
  | .ok i => some i
  | .error _ => none

end Sys2Proof
end

