-- ==== Sys2Proof/Config.lean ====
section
/-! DEFINITION. The fixed constants of R9 and the open parameters of R11, the latter without a body: no proof can see
what they are. -/

namespace Sys2Proof

/-! ## Fixed constants (R9) -/

def Config.blockBits : Nat := 128
def Config.numFootprints : Nat := 14
/-- `MAX_TEXELS`; a 2-D footprint reaches 144 (90_conflicts.md C3). -/
def Config.maxTexels : Nat := 216
def Config.numQuantLevels : Nat := 21
def Config.numWeightLevels : Nat := 12
def Config.maxPartitions : Nat := 4
def Config.partitionIndexCount : Nat := 1024
def Config.maxDecimationModes : Nat := 87
def Config.blockModeCount : Nat := 2048
def Config.maxWeights : Nat := 64
def Config.minWeightBits : Nat := 24
def Config.maxWeightBits : Nat := 96
/-- `MAX_WEIGHTS_PER_TEXEL`: how many weights a texel is infilled from (R360). -/
def Config.maxWeightsPerTexel : Nat := 4
/-- `NUM_CEM`: the color endpoint modes, `2 ^ 4` values of the CEM field. -/
def Config.numCem : Nat := 16
def Config.maxColorValues : Nat := 18
def Config.minColorLevel : Nat := 4
def Config.qlookupBuckets : Nat := 1025
/-- `KMEANS_TEXELS`: the bound of the partition ranking of the reference policy (R442), which lies within
`search_policy`. -/
def Config.kmeansTexels : Nat := 64

/-! ## Open parameters -/

/-- What `search_policy` is a function of (R412): the footprint, the profile, the three effective cutoffs, the texels
`t < bw * bh` and their error weights, a binary32 weight `w` as the exact number `w * 2^149` (log entry 15). -/
structure SearchInput where
  bw : Nat
  bh : Nat
  profile : Profile
  plimit : BitVec 16
  cut : BitVec 17
  iters : BitVec 8
  texels : List (Rgba Byte)
  weights : List (Rgba Nat)
  deriving DecidableEq, Repr

/-- The candidates `search_policy` proposes (R412, D16); the model evaluates those that lie in `Cand` (log entry 15). -/
opaque Config.searchPolicy : SearchInput → List NormalSym

/-- `quality_map`, its three results on 0..100 (R54, D12; log entry 13). -/
opaque Config.qualityPlimit : Nat → BitVec 16
opaque Config.qualityCut : Nat → Fin 65537
opaque Config.qualityIters : Nat → BitVec 8

/-- `block_mode_percentile bw bh m`, in units of 1/65536 rounded up, which decides every comparison with the cutoff
(R181, R185, D15; log entry 14). -/
opaque Config.blockModePercentile : Nat → Nat → Nat → Fin 65537

/-- `hdr_unpack`: the endpoints of an HDR CEM from its unquantized values (R14, D20; log entries 18, 39). -/
opaque Config.hdrUnpack : Nat → List Nat → Rgba (BitVec 16) × Rgba (BitVec 16)

/-- `out8_hdr`: the 8-bit output of an interpolated HDR value (R14, R376; log entry 18). -/
opaque Config.out8Hdr : BitVec 16 → Byte

/-- `err_round`: whether an error that is no binary64 value is rounded up (R53, D21; log entry 17). -/
opaque Config.errRoundUp : Nat → Bool

/-- `eps_tie` is `epsTieNum / (epsTieDen + 1)` (R413, D27; log entry 16). -/
opaque Config.epsTieNum : Nat
opaque Config.epsTieDen : Nat

/-- The index `cquant(q, v)` gives at the levels 1 and 3, which have no `cunq` to be near to (R216, R262; log entry
24). -/
opaque Config.unstatedColorIndex : Nat → Nat → Nat

/-- `N_INSTANCES - 1`: the instances are numbered `0 .. otherInstances` (R485, D19; log entry 12). -/
opaque Config.otherInstances : Nat

/-- What a read of a register other than `STATUS` returns while the instance is busy, fresh at each read (R99; log
entry 7). -/
opaque Config.busyRead : Nat → Word

/-- What a host read of a buffer byte never written since reset number `epoch` returns (R55; log entry 6). -/
opaque Config.unwrittenByte : Nat → Nat → Byte

end Sys2Proof
end

