-- ==== Sys2Proof/Machine/State.lean ====
section
/-! DEFINITION. The state of QASTC-BC: every register of R43 and R485, the table memory (R66), the buffers as one byte
memory, the instance in hand, and the model's own record of what the host will do next (log entry 1). -/

namespace Sys2Proof.Machine

/-- The status codes of R470. -/
inductive Code where
  | ok | unsupportedInput | unsupportedOutput | internalFailure | configError | notConfigured | illegalCommand
  | badOperand
  deriving DecidableEq, Repr

/-- A block footprint, width and height in texels (R170). -/
structure Footprint where
  bw : Nat
  bh : Nat
  deriving DecidableEq, Repr

/-- The table memory with `STATUS.TABLES_VALID` (R66 to R71): no value, tables that a configuration write has
invalidated, or valid tables. The content is a function of the footprint the tables were built for (R67; log entry 3). -/
inductive TableMem where
  | noValue
  | stale (fp : Footprint)
  | valid (fp : Footprint)
  deriving DecidableEq, Repr

/-- The private registers of one instance but for its buffers (R485): `STATUS.CODE`, `STATUS.ERRBLK`, the command that
is running (`STATUS.BUSY` is 1 while there is one, R46), `RESULT`, `ERR_OUT_HI:ERR_OUT_LO`. -/
structure Inst where
  code : Code
  errblk : Bool
  running : Option Word
  result : Word
  errOut : BitVec 64
  deriving DecidableEq, Repr

/-- The registers of an instance after reset (R510). -/
def Inst.reset : Inst := { code := .ok, errblk := false, running := none, result := 0, errOut := 0 }

/-- The bytes of the buffers that hold a value, by host bus address `0x2000 * instance + offset` (R93, R485), addresses
rising; an unlisted byte holds no value (R78; log entry 5). -/
abbrev Memory := List Host.Cell

/-- What happens next outside the commands: the host's bus accesses and reset (R96, R511), the poll loop of R125 with
the number of busy readings it will see, and the completion of an instance's running command (R530; log entry 1). -/
inductive Move where
  | read (addr : Nat) (bytes : Nat)
  | write (addr : Nat) (bytes : Nat) (value : Word)
  | poll (unit : Nat) (busyReads : Nat)
  | complete (unit : Nat)
  | reset
  deriving DecidableEq, Repr

structure State where
  /-- `CFG_FOOTPRINT.BW` and `CFG_FOOTPRINT.BH` (R47). -/
  cfgBw : BitVec 4
  cfgBh : BitVec 4
  /-- `CFG_PROFILE.PROFILE` (R48). -/
  cfgProfile : BitVec 2
  /-- `CFG_QUALITY.Q` (R49). -/
  cfgQuality : BitVec 8
  /-- `CFG_CONST_TOL.TOL` (R50). -/
  cfgConstTol : BitVec 16
  /-- `CFG_ERROR_COLOR` (R51). -/
  cfgErrorColor : Rgba Byte
  /-- `EFF_PLIMIT`, `EFF_BMCUTOFF`, `EFF_MAXITERS` (R54). -/
  effPlimit : BitVec 16
  effCut : BitVec 17
  effIters : BitVec 8
  /-- The table memory and `STATUS.TABLES_VALID` (R66, R68). -/
  tables : TableMem
  /-- The instance in hand and its registers (R485). -/
  cur : Nat
  inst : Inst
  /-- The registers of the other instances, those that differ from reset, by rising number (log entry 12). -/
  others : List (Nat × Inst)
  /-- `PHYS`, `SYM`, `TEXIN`, `TEXOUT`, `EWB` of every instance (R55 to R65). -/
  mem : Memory
  /-- The moves still to come (log entry 1). -/
  script : List Move
  /-- What the bus returned for the last host read (log entry 11). -/
  rdata : Word
  /-- How many free values busy reads have drawn (log entry 7). -/
  draws : Nat
  /-- How many resets there have been (log entry 6). -/
  epoch : Nat
  deriving DecidableEq, Repr

/-- Why the machine stops with a fault. -/
inductive Fault where
  /-- A command reads the buffer byte at this bus address, which holds no value (R478). Raised by PACK, UNPACK,
  DECODE_TEXELS and ENCODE_BLOCK; safe. -/
  | readNoValue (addr : Nat)
  deriving DecidableEq, Repr

/-- Why a step is refused. -/
inductive Refusal where
  /-- The instruction has no meaning yet. Raised by exec's arms; safe. -/
  | notModelled (mnemonic : String)
  /-- A host access of another width or alignment than R96 allows (R97). Raised by bus reads and writes; safe. -/
  | accessWidth (addr : Nat) (bytes : Nat)
  /-- A host write to a register other than `CMD` of a busy instance (R99, R521). Raised by bus writes; safe. -/
  | writeWhileBusy (addr : Nat)
  /-- A configuration write while another instance is busy (R520). Raised by bus writes; safe. -/
  | configWhileBusy (addr : Nat)
  /-- BUILD_TABLES issued while another instance is busy (R520). Raised by a write to `CMD`; safe. -/
  | buildWhileBusy (unit : Nat)
  /-- An access to an instance beyond `N_INSTANCES` (R485; log entry 23). Raised by host moves; safe. -/
  | noSuchInstance (unit : Nat)
  deriving DecidableEq, Repr

/-- The machine after reset (R510), nothing scheduled. -/
def State.reset : State where
  cfgBw := 4
  cfgBh := 4
  cfgProfile := 1
  cfgQuality := 50
  cfgConstTol := 0
  cfgErrorColor := ⟨0x80, 0x80, 0x80, 0xFF⟩
  effPlimit := 0
  effCut := 0
  effIters := 0
  tables := .noValue
  cur := 0
  inst := Inst.reset
  others := []
  mem := []
  script := []
  rdata := 0
  draws := 0
  epoch := 0

/-- What a meaning or a step answers. -/
abbrev Result := Host.Outcome State Fault Refusal

end Sys2Proof.Machine
end

