-- ==== Sys2Proof/Machine/Ops.lean ====
section
/-! DEFINITION. The named operations over memory and registers that the meanings share: bytes and runs of bytes of the
buffers, the instance in hand, and ending a command, with a status code as `raise Status(code)` does (R18, R472) or
with its effect. There is no return from a raise (R473). -/

namespace Sys2Proof.Machine

/-! ## The byte memory (log entry 5) -/

/-- The byte at an address, or no value (R78). -/
def Memory.read : Memory → Nat → Option Byte
  | [], _ => none
  | (k, v) :: m, a => if a = k then some v else Memory.read m a

/-- The memory with the byte at `a` written, addresses still rising. -/
def Memory.write : Memory → Nat → Byte → Memory
  | [], a, b => [(a, b)]
  | (k, v) :: m, a, b =>
    if a < k then (a, b) :: (k, v) :: m
    else if a = k then (a, b) :: m
    else (k, v) :: Memory.write m a b

/-- The bytes `bs` written from `a` upward. -/
def Memory.writeList : Memory → Nat → List Byte → Memory
  | m, _, [] => m
  | m, a, b :: bs => Memory.writeList (Memory.write m a b) (a + 1) bs

/-- The canonical form: addresses strictly rising. An unlisted byte holds no value, so no entry equals it. -/
abbrev Memory.wf (m : Memory) : Prop := m.Pairwise fun x y => x.1 < y.1

/-- `n` bytes from `a` upward, or the first address among them that holds no value. -/
def Memory.readList (m : Memory) : Nat → Nat → Except Nat (List Byte)
  | _, 0 => .ok []
  | a, n + 1 =>
    match m.read a with
    | none => .error a
    | some b =>
      match Memory.readList m (a + 1) n with
      | .error e => .error e
      | .ok bs => .ok (b :: bs)

/-! ## The buffers of the instance in hand -/

/-- The size of one instance's register space (R93, R485). -/
def instanceStride : Nat := 0x2000

/-- The host bus address of offset 0 of the instance in hand (R485). -/
def State.base (s : State) : Nat := instanceStride * s.cur

/-- `n` bytes of the instance's register space at `off`, or the bus address of one that holds no value (R478). -/
def State.load (s : State) (off n : Nat) : Except Nat (List Byte) := s.mem.readList (s.base + off) n

/-- The bytes `bs` stored at `off` of the instance's register space. -/
def State.store (s : State) (off : Nat) (bs : List Byte) : State :=
  { s with mem := s.mem.writeList (s.base + off) bs }

/-- The little-endian number held by bytes (R90). -/
def leNat (bs : List Byte) : Nat := bs.foldr (fun b acc => b.toNat + 256 * acc) 0

/-- The low `n` bytes of a number, little-endian (R90). -/
def leBytes : Nat → Nat → List Byte
  | 0, _ => []
  | n + 1, v => BitVec.ofNat 8 v :: leBytes n (v / 256)

/-! ## The instances (log entry 12) -/

/-- The registers of an instance other than the one in hand; one not listed is as after reset. -/
def lookupInst (k : Nat) : List (Nat × Inst) → Inst
  | [] => Inst.reset
  | (j, r) :: rest => if k = j then r else lookupInst k rest

/-- The list without instance `k`. -/
def dropInst (k : Nat) (l : List (Nat × Inst)) : List (Nat × Inst) := l.filter fun e => e.1 != k

/-- The list with instance `k` put in its place, numbers rising. -/
def insertInst (k : Nat) (r : Inst) : List (Nat × Inst) → List (Nat × Inst)
  | [] => [(k, r)]
  | (j, q) :: rest => if k < j then (k, r) :: (j, q) :: rest else (j, q) :: insertInst k r rest

/-- The list with instance `k` put in its place unless it is as after reset, so that it stays canonical. -/
def putInst (k : Nat) (r : Inst) (l : List (Nat × Inst)) : List (Nat × Inst) :=
  if r = Inst.reset then l else insertInst k r l

/-- The same machine with instance `k` in hand. -/
def State.focus (s : State) (k : Nat) : State :=
  if k = s.cur then s
  else { s with
    cur := k
    inst := lookupInst k s.others
    others := putInst s.cur s.inst (dropInst k s.others) }

/-- The registers of instance `k`, in hand or not. -/
def State.instOf (s : State) (k : Nat) : Inst := if k = s.cur then s.inst else lookupInst k s.others

/-- `STATUS.BUSY` of the instance in hand (R46). -/
def State.busy (s : State) : Bool := s.inst.running.isSome

/-- Whether an instance other than the one in hand is busy (R520). -/
def State.otherBusy (s : State) : Bool := s.others.any fun e => e.2.running.isSome

/-- Whether the unit has an instance `k` (R485). Instance 0 always exists. -/
def instanceExists (k : Nat) : Bool := k == 0 || decide (k ≤ Config.otherInstances)

/-! ## Ending a command -/

/-- The command is over: its status code stands in `STATUS.CODE` and `BUSY` is 0 (R46, R472). -/
def State.finish (c : Code) (s : State) : State := { s with inst := { s.inst with code := c, running := none } }

/-- `raise Status(code)`: the command ends and writes nothing but `STATUS` (R18, R472). -/
def State.raise (s : State) (c : Code) : Result := .next (s.finish c)

/-- The command completes with `STATUS.CODE <- OK`. -/
def State.complete (s : State) : Result := .next (s.finish .ok)

/-- `RESULT <- v` (R52). -/
def State.setResult (s : State) (v : Nat) : State :=
  { s with inst := { s.inst with result := BitVec.ofNat 32 v } }

/-- The command completes with a result. -/
def State.answer (s : State) (v : Nat) : Result := (s.setResult v).complete

/-- A command that uses the tables: NOT_CONFIGURED unless they are valid (R68, R471); `f` gets the footprint they were
built for. -/
def State.withTables (s : State) (f : Footprint → Result) : Result :=
  match s.tables with
  | .valid fp => f fp
  | .noValue | .stale _ => s.raise .notConfigured

/-- What a command does with a buffer it reads: with no value there, the fault of R478. -/
def withBytes {α : Type} (r : Except Nat α) (f : α → Result) : Result :=
  match r with
  | .ok x => f x
  | .error a => .fault (.readNoValue a)

end Sys2Proof.Machine
end

