-- ==== Sys2Proof/Machine/Flags.lean ====
section
/-! DEFINITION. The unit has no condition codes (R77). Its flags are those of `STATUS` (R46): the word the host reads,
and the operations that write `TABLES_VALID` and `ERRBLK`. -/

namespace Sys2Proof.Machine

/-- The number of a status code (R470). -/
def Code.toNat : Code → Nat
  | .ok => 0
  | .unsupportedInput => 1
  | .unsupportedOutput => 2
  | .internalFailure => 3
  | .configError => 4
  | .notConfigured => 5
  | .illegalCommand => 6
  | .badOperand => 7

/-- `STATUS.TABLES_VALID` (R46, R68), one bit for all instances (log entry 4). -/
def TableMem.isValid : TableMem → Bool
  | .valid _ => true
  | .noValue | .stale _ => false

/-- A configuration write, or a BUILD_TABLES that fails, clears `TABLES_VALID` and leaves the tables (R68, R231). -/
def TableMem.invalidate : TableMem → TableMem
  | .valid fp => .stale fp
  | t => t

/-- The word the host reads from `STATUS` (R46): `CODE[3:0]`, `BUSY[8]`, `TABLES_VALID[9]`, `ERRBLK[10]`. -/
def State.statusWord (s : State) : Word :=
  BitVec.ofNat 32 (s.inst.code.toNat + 256 * s.busy.toNat + 512 * s.tables.isValid.toNat
    + 1024 * s.inst.errblk.toNat)

/-- `STATUS.ERRBLK <- b` (R77). -/
def State.setErrblk (s : State) (b : Bool) : State := { s with inst := { s.inst with errblk := b } }

/-- `STATUS.TABLES_VALID <- 0` (R68). -/
def State.invalidate (s : State) : State := { s with tables := s.tables.invalidate }

/-- The profile a 2-bit register value selects (R48). -/
def Profile.ofBits (p : BitVec 2) : Profile :=
  match p.toNat with
  | 0 => .ldrSrgb
  | 1 => .ldr
  | 2 => .hdr
  | _ => .reserved

/-- `CFG_PROFILE` (R48). -/
def State.profile (s : State) : Profile := Profile.ofBits s.cfgProfile

end Sys2Proof.Machine
end

