-- ==== Sys2Proof/Machine/Bits.lean ====
section
/-! DEFINITION. Bit fields: of numbers (R15), of the 128-bit block (R16, R17), and runs of fields laid out low bits
first, which the integer sequences are made of (R243 to R246). -/

namespace Sys2Proof.Machine

/-- `v[lo+n-1 : lo]` (R15). -/
def field (v lo n : Nat) : Nat := v / 2 ^ lo % 2 ^ n

/-- `v[i]` (R15). -/
def bit (v i : Nat) : Nat := field v i 1

/-- `read_bits(blk, pos, n)`; bits outside 0..127 read 0 (R16). -/
def readBits (blk : Block) (pos n : Nat) : Nat := field blk.toNat pos n

/-- `write_bits(blk, pos, n, v)` (R16). -/
def writeBits (blk : Block) (pos n v : Nat) : Block :=
  (blk &&& ~~~(BitVec.ofNat 128 ((2 ^ n - 1) * 2 ^ pos))) ||| BitVec.ofNat 128 (v % 2 ^ n * 2 ^ pos)

/-- The number whose bit `k` is bit `n - 1 - k` of `v`. -/
def reverseBits : Nat → Nat → Nat
  | 0, _ => 0
  | n + 1, v => v % 2 * 2 ^ n + reverseBits n (v / 2)

/-- `rev(blk)`, as a number (R17). -/
def revBlock (blk : Block) : Nat := reverseBits 128 blk.toNat

/-- `round_half_up(x)` (R215, R355, R441). -/
def roundHalfUp (x : ℚ) : ℤ := ⌊x + 1 / 2⌋

/-- Fields `(value, width)` laid out low bits first, as one number. -/
def packFields : List (Nat × Nat) → Nat
  | [] => 0
  | (v, n) :: rest => v % 2 ^ n + 2 ^ n * packFields rest

/-- The fields of the given widths, low bits first, of a number. -/
def unpackFields : List Nat → Nat → List Nat
  | [], _ => []
  | n :: rest, x => x % 2 ^ n :: unpackFields rest (x / 2 ^ n)

end Sys2Proof.Machine
end

