-- ==== Sys2Proof/Machine/Ise.lean ====
section
/-! DEFINITION. 41_ise.md: the quantization levels, the bit cost of a sequence, trit and quint packing, sequence
encoding and decoding, and the unquantization of weights and colors. -/

namespace Sys2Proof.Machine

/-- One row of R208. -/
structure Level where
  values : Nat
  trits : Nat
  quints : Nat
  bits : Nat
  deriving DecidableEq, Repr

/-- R208, `q = 0..20`. -/
def levels : List Level :=
  [⟨2, 0, 0, 1⟩, ⟨3, 1, 0, 0⟩, ⟨4, 0, 0, 2⟩, ⟨5, 0, 1, 0⟩, ⟨6, 1, 0, 1⟩, ⟨8, 0, 0, 3⟩, ⟨10, 0, 1, 1⟩] ++
  [⟨12, 1, 0, 2⟩, ⟨16, 0, 0, 4⟩, ⟨20, 0, 1, 2⟩, ⟨24, 1, 0, 3⟩, ⟨32, 0, 0, 5⟩, ⟨40, 0, 1, 3⟩, ⟨48, 1, 0, 4⟩] ++
  [⟨64, 0, 0, 6⟩, ⟨80, 0, 1, 4⟩, ⟨96, 1, 0, 5⟩, ⟨128, 0, 0, 7⟩, ⟨160, 0, 1, 5⟩, ⟨192, 1, 0, 6⟩, ⟨256, 0, 0, 8⟩]

/-- Level `q`; past the table, a level of no values. -/
def level (q : Nat) : Level := levels.getD q ⟨0, 0, 0, 0⟩

/-- `values(q)` (R208). -/
def levelValues (q : Nat) : Nat := (level q).values

/-- `ise_bits(n, q)` (R241). -/
def iseBits (n q : Nat) : Nat :=
  let l := level q
  if l.trits = 1 then n * l.bits + (8 * n + 4) / 5
  else if l.quints = 1 then n * l.bits + (7 * n + 2) / 3
  else n * l.bits

/-! ## Trits and quints -/

/-- R247: `T[7:0]` to `(t0, t1, t2, t3, t4)`. -/
def unpackTrits (T : Nat) : List Nat :=
  let high := field T 2 3 = 7
  let C := if high then field T 5 3 * 4 + field T 0 2 else field T 0 5
  let t4 := if high then 2 else if field T 5 2 = 3 then 2 else bit T 7
  let t3 := if high then 2 else if field T 5 2 = 3 then bit T 7 else field T 5 2
  if field C 0 2 = 3 then
    [bit C 3 * 2 + bit C 2 * (1 - bit C 3), bit C 4, 2, t3, t4]
  else if field C 2 2 = 3 then
    [field C 0 2, 2, 2, t3, t4]
  else
    [bit C 1 * 2 + bit C 0 * (1 - bit C 1), field C 2 2, bit C 4, t3, t4]

/-- R248: `(t0, t1, t2, t3, t4)` to `T[7:0]`. -/
def packTrits (t0 t1 t2 t3 t4 : Nat) : Nat :=
  let C :=
    if t2 = 2 ∧ t1 = 2 then 0b01100 + t0
    else if t2 = 2 then 0b00011 + t0 * 4 + t1 * 16
    else t0 + t1 * 4 + t2 * 16
  if t3 = 2 ∧ t4 = 2 then field C 2 3 * 32 + 0b111 * 4 + field C 0 2
  else if t4 = 2 then bit t3 0 * 128 + 0b11 * 32 + field C 0 5
  else bit t4 0 * 128 + field t3 0 2 * 32 + field C 0 5

/-- R249: `Q[6:0]` to `(q0, q1, q2)`. -/
def unpackQuints (Q : Nat) : List Nat :=
  if field Q 1 2 = 3 ∧ field Q 5 2 = 0 then
    let n := 1 - bit Q 0
    [4, 4, bit Q 0 * 4 + bit Q 4 * n * 2 + bit Q 3 * n]
  else
    let q2 := if field Q 1 2 = 3 then 4 else field Q 5 2
    let C := if field Q 1 2 = 3 then field Q 3 2 * 8 + (3 - field Q 5 2) * 2 + bit Q 0 else field Q 0 5
    if field C 0 3 = 5 then [field C 3 2, 4, q2] else [field C 0 3, field C 3 2, q2]

/-- R250: `(q0, q1, q2)` to `Q[6:0]`. -/
def packQuints (q0 q1 q2 : Nat) : Nat :=
  if q1 = 4 ∧ q0 = 4 then
    0b0000110 ||| (if q2 = 4 then 1 else q2 * 8)
  else
    let C := if q1 = 4 then q0 * 8 + 0b101 else q1 * 8 + q0
    if q2 = 4 then (3 - field C 1 2) * 32 + field C 3 2 * 8 + 0b11 * 2 + bit C 0
    else field q2 0 2 * 32 + field C 0 5

/-! ## Sequences -/

/-- How the items of a level are grouped: five to a trit group, three to a quint group, one to a plain one
(R243, R244, R246). -/
def groupItems (q : Nat) : Nat :=
  let l := level q
  if l.trits = 1 then 5 else if l.quints = 1 then 3 else 1

/-- The bits of one group (R243, R244, R246). -/
def groupBits (q : Nat) : Nat :=
  let l := level q
  if l.trits = 1 then 5 * l.bits + 8 else if l.quints = 1 then 3 * l.bits + 7 else l.bits

/-- One group, low offset first (R243, R244, R246); an absent item is 0 (R251). -/
def encodeGroup (q : Nat) (v : List Nat) : Nat :=
  let l := level q
  let b := l.bits
  let m := fun k => v.getD k 0 % 2 ^ b
  let h := fun k => v.getD k 0 / 2 ^ b
  if l.trits = 1 then
    let T := packTrits (h 0) (h 1) (h 2) (h 3) (h 4)
    packFields [(m 0, b), (field T 0 2, 2), (m 1, b), (field T 2 2, 2), (m 2, b), (bit T 4, 1), (m 3, b),
      (field T 5 2, 2), (m 4, b), (bit T 7, 1)]
  else if l.quints = 1 then
    let Q := packQuints (h 0) (h 1) (h 2)
    packFields [(m 0, b), (field Q 0 3, 3), (m 1, b), (field Q 3 2, 2), (m 2, b), (field Q 5 2, 2)]
  else
    packFields [(m 0, b)]

/-- The items of one group (R240, R243, R244, R246). -/
def decodeGroup (q x : Nat) : List Nat :=
  let l := level q
  let b := l.bits
  if l.trits = 1 then
    let f := unpackFields [b, 2, b, 2, b, 1, b, 2, b, 1] x
    let g := fun k => f.getD k 0
    let t := unpackTrits (g 1 + g 3 * 4 + g 5 * 16 + g 7 * 32 + g 9 * 128)
    [t.getD 0 0 * 2 ^ b + g 0, t.getD 1 0 * 2 ^ b + g 2, t.getD 2 0 * 2 ^ b + g 4, t.getD 3 0 * 2 ^ b + g 6,
      t.getD 4 0 * 2 ^ b + g 8]
  else if l.quints = 1 then
    let f := unpackFields [b, 3, b, 2, b, 2] x
    let g := fun k => f.getD k 0
    let u := unpackQuints (g 1 + g 3 * 8 + g 5 * 32)
    [u.getD 0 0 * 2 ^ b + g 0, u.getD 1 0 * 2 ^ b + g 2, u.getD 2 0 * 2 ^ b + g 4]
  else
    [x % 2 ^ b]

/-- `g` groups of items, one above the other. -/
def encodeGroups (q : Nat) : Nat → List Nat → Nat
  | 0, _ => 0
  | g + 1, v => encodeGroup q (v.take (groupItems q)) + 2 ^ groupBits q * encodeGroups q g (v.drop (groupItems q))

/-- The items of `g` groups. -/
def decodeGroups (q : Nat) : Nat → Nat → List Nat
  | 0, _ => []
  | g + 1, x => decodeGroup q (x % 2 ^ groupBits q) ++ decodeGroups q g (x / 2 ^ groupBits q)

/-- How many groups hold `n` items. -/
def groupCount (n q : Nat) : Nat := (n + groupItems q - 1) / groupItems q

/-- `ise_encode(v, q)` as a number of `ise_bits(n, q)` bits (R251). The items that fill up the last group are 0, so what
`iseDecode` reads may not re-encode to the bits it was read from, beyond the aliases that R253 names (log entry 38). -/
def iseEncode (v : List Nat) (q : Nat) : Nat :=
  encodeGroups q (groupCount v.length q) v % 2 ^ iseBits v.length q

/-- `ise_decode(n, q, bits)`; bits at offsets from `ise_bits(n, q)` on read 0, and the items of the last group past the
first `n` are dropped whatever they are (R252, log entry 38). -/
def iseDecode (n q x : Nat) : List Nat :=
  (decodeGroups q (groupCount n q) (x % 2 ^ iseBits n q)).take n

/-! ## Unquantization -/

/-- `replicate(m, b, n)`: copies of the `b`-bit value until at least `n` bits, the top `n` kept (R260). -/
def replicateBits (m b n : Nat) : Nat :=
  let copies := (n + b - 1) / b
  packFields (List.replicate copies (m, b)) / 2 ^ (copies * b - n)

/-- A bit pattern written most significant bit first, each bit a bit of `m` or 0 (R261, R263). -/
def bitPattern (m : Nat) (pat : List (Option Nat)) : Nat :=
  pat.foldl (fun acc b => acc * 2 + (match b with | some i => bit m i | none => 0)) 0

/-- The row of R261 for a weight level: the pattern and `C`. -/
def weightRow : Nat → List (Option Nat) × Nat
  | 4 => ([none, none, none, none, none, none, none], 50)
  | 6 => ([none, none, none, none, none, none, none], 28)
  | 7 => ([some 1, none, none, none, some 1, none, some 1], 23)
  | 9 => ([some 1, none, none, none, none, some 1, none], 13)
  | 10 => ([some 2, some 1, none, none, none, some 2, some 1], 11)
  | _ => ([], 0)

/-- The weight in 0..63 before the last step of R260. -/
def weightBase (q v : Nat) : Nat :=
  let l := level q
  let b := l.bits
  let m := v % 2 ^ b
  let D := v / 2 ^ b
  if l.trits = 0 ∧ l.quints = 0 then replicateBits m b 6
  else if b = 0 then
    if l.trits = 1 then [0, 32, 63].getD D 0 else [0, 16, 32, 47, 63].getD D 0
  else
    let A := if bit m 0 = 1 then 0x7F else 0
    let T := (D * (weightRow q).2 + bitPattern m (weightRow q).1) ^^^ A
    (A &&& 0x20) ||| (T / 4)

/-- `unq(q, v)`, 0..64 (R260). -/
def unqWeight (q v : Nat) : Nat :=
  let w := weightBase q v
  if w > 32 then w + 1 else w

/-- The row of R263 for a color level: the pattern and `C`. -/
def colorRow : Nat → List (Option Nat) × Nat
  | 4 => ([none, none, none, none, none, none, none, none, none], 204)
  | 6 => ([none, none, none, none, none, none, none, none, none], 113)
  | 7 => ([some 1, none, none, none, some 1, none, some 1, some 1, none], 93)
  | 9 => ([some 1, none, none, none, none, some 1, some 1, none, none], 54)
  | 10 => ([some 2, some 1, none, none, none, some 2, some 1, some 2, some 1], 44)
  | 12 => ([some 2, some 1, none, none, none, none, some 2, some 1, some 2], 26)
  | 13 => ([some 3, some 2, some 1, none, none, none, some 3, some 2, some 1], 22)
  | 15 => ([some 3, some 2, some 1, none, none, none, none, some 3, some 2], 13)
  | 16 => ([some 4, some 3, some 2, some 1, none, none, none, some 4, some 3], 11)
  | 18 => ([some 4, some 3, some 2, some 1, none, none, none, none, some 4], 6)
  | 19 => ([some 5, some 4, some 3, some 2, some 1, none, none, none, some 5], 5)
  | _ => ([], 0)

/-- `cunq(q, v)`, 0..255 (R262). -/
def unqColor (q v : Nat) : Nat :=
  let l := level q
  let b := l.bits
  let m := v % 2 ^ b
  let D := v / 2 ^ b
  if l.trits = 0 ∧ l.quints = 0 then replicateBits m b 8
  else
    let A := if bit m 0 = 1 then 0x1FF else 0
    let T := (D * (colorRow q).2 + bitPattern m (colorRow q).1) ^^^ A
    (A &&& 0x80) ||| (T / 4)

/-- `cunq` is defined at every level but 1 and 3 (R262). -/
def colorLevelDefined (q : Nat) : Bool := q ≤ 20 && q != 1 && q != 3

end Sys2Proof.Machine
end

