-- ==== Sys2Proof/Machine/Tables.lean ====
section
/-! DEFINITION. 40_tables.md: the content of the table memory as functions of the footprint it was built for (R66, R67):
footprints, decimation modes, block modes, partitionings, weight transfer tables, color tables, and the infill table of
43_reconstruct.md R360. -/

namespace Sys2Proof.Machine

/-! ## Footprints -/

/-- The 14 valid footprints (R170). -/
def Footprint.all : List Footprint :=
  [⟨4, 4⟩, ⟨5, 4⟩, ⟨5, 5⟩, ⟨6, 5⟩, ⟨6, 6⟩, ⟨8, 5⟩, ⟨8, 6⟩, ⟨8, 8⟩, ⟨10, 5⟩, ⟨10, 6⟩, ⟨10, 8⟩, ⟨10, 10⟩, ⟨12, 10⟩, ⟨12, 12⟩]

def Footprint.valid (fp : Footprint) : Bool := Footprint.all.contains fp

def Footprint.texels (fp : Footprint) : Nat := fp.bw * fp.bh

/-- Coordinates are doubled before hashing on footprints of less than 31 texels (R191). -/
def Footprint.small (fp : Footprint) : Bool := fp.texels < 31

/-! ## Decimation modes -/

/-- A weight grid, width and height (R176). -/
structure Grid where
  w : Nat
  h : Nat
  deriving DecidableEq, Repr

/-- The decimation modes in the order of their ids, W outer and H inner (R176). -/
def decimationModes (fp : Footprint) : List Grid :=
  (List.range' 2 11).flatMap fun w =>
    ((List.range' 2 11).filter fun h => w ≤ fp.bw && h ≤ fp.bh && w * h ≤ Config.maxWeights).map fun h => ⟨w, h⟩

/-- The decimation id of a grid (R176, R180). -/
def decimationId (fp : Footprint) (g : Grid) : Nat := (decimationModes fp).idxOf g

/-- Whether a weight count and level keep within the bounds of R134 and R182. -/
def weightBitsLegal (n q : Nat) : Bool :=
  Config.minWeightBits ≤ iseBits n q && iseBits n q ≤ Config.maxWeightBits

/-- The largest weight level at which `n` weights are legal (R178). -/
def maxPrecision (n : Nat) : Option Nat :=
  ((List.range Config.numWeightLevels).filter fun q => weightBitsLegal n q).getLast?

/-- `maxprec_1plane` of R178, `none` for -1. -/
def maxPrecision1 (g : Grid) : Option Nat := maxPrecision (g.w * g.h)

/-- `maxprec_2planes` of R178, `none` for -1. -/
def maxPrecision2 (g : Grid) : Option Nat :=
  if 2 * (g.w * g.h) > Config.maxWeights then none else maxPrecision (2 * (g.w * g.h))

/-- The four `(weight index, factor)` entries of texel `(s, t)` (R360). -/
def infillEntries (fp : Footprint) (g : Grid) (s t : Nat) : List (Nat × Nat) :=
  let ds := (1024 + fp.bw / 2) / (fp.bw - 1)
  let dt := (1024 + fp.bh / 2) / (fp.bh - 1)
  let gs := (ds * s * (g.w - 1) + 32) / 64
  let gt := (dt * t * (g.h - 1) + 32) / 64
  let js := gs / 16
  let fs := gs % 16
  let jt := gt / 16
  let ft := gt % 16
  let v0 := js + jt * g.w
  let w11 := (fs * ft + 8) / 16
  let w10 := ft - w11
  let w01 := fs - w11
  let w00 := 16 + w11 - fs - ft
  [(v0, w00), (v0 + 1, w01), (v0 + g.w, w10), (v0 + g.w + 1, w11)]

/-- The entries of texel `t = x + y * bw` (R20, R179). -/
def texelEntries (fp : Footprint) (g : Grid) (t : Nat) : List (Nat × Nat) :=
  infillEntries fp g (t % fp.bw) (t / fp.bw)

/-- The weight-to-texel list: the texels whose entries name weight `i` with a factor, in rising order (R179). -/
def weightTexels (fp : Footprint) (g : Grid) (i : Nat) : List Nat :=
  (List.range fp.texels).filter fun t => (texelEntries fp g t).any fun e => e.1 == i && e.2 != 0

/-! ## Block modes -/

/-- What a block-mode field says (R130, R131): the grid, the dual-plane flag, the weight level. -/
structure BlockMode where
  grid : Grid
  dual : Bool
  wq : Nat
  deriving DecidableEq, Repr

/-- The weight level of range code `R` and high-precision bit `Hp` (R131). -/
def weightLevelOf (R hp : Nat) : Nat := R - 2 + 6 * hp

/-- R130 to R133: the decode of the block-mode field, `none` for a void extent or a reserved pattern. -/
def decodeMode (m : Nat) : Option BlockMode :=
  let A := field m 5 2
  let r0 := bit m 4
  let hp := bit m 9
  let d := bit m 10 == 1
  if field m 0 9 = 0x1FC then none
  else if field m 0 2 ≠ 0 then
    let wq := weightLevelOf (field m 0 2 * 2 + r0) hp
    match field m 2 2 with
    | 0 => some ⟨⟨field m 7 2 + 4, A + 2⟩, d, wq⟩
    | 1 => some ⟨⟨field m 7 2 + 8, A + 2⟩, d, wq⟩
    | 2 => some ⟨⟨A + 2, field m 7 2 + 8⟩, d, wq⟩
    | _ => if bit m 8 = 0 then some ⟨⟨A + 2, bit m 7 + 6⟩, d, wq⟩ else some ⟨⟨bit m 7 + 2, A + 2⟩, d, wq⟩
  else if field m 2 2 = 0 then none
  else
    let R := field m 2 2 * 2 + r0
    match field m 7 2 with
    | 0 => some ⟨⟨12, A + 2⟩, d, weightLevelOf R hp⟩
    | 1 => some ⟨⟨A + 2, 12⟩, d, weightLevelOf R hp⟩
    | 2 => some ⟨⟨A + 6, field m 9 2 + 6⟩, false, weightLevelOf R 0⟩
    | _ =>
      if A = 0 then some ⟨⟨6, 10⟩, d, weightLevelOf R hp⟩
      else if A = 1 then some ⟨⟨10, 6⟩, d, weightLevelOf R hp⟩
      else none

/-- `W * H * (1 + D)` (R131). -/
def BlockMode.weightCount (b : BlockMode) : Nat := b.grid.w * b.grid.h * (1 + b.dual.toNat)

/-- `weight_bits` (R180). -/
def BlockMode.weightBits (b : BlockMode) : Nat := iseBits b.weightCount b.wq

/-- The conditions of R180 on a decoded mode. -/
def BlockMode.legal (fp : Footprint) (b : BlockMode) : Bool :=
  b.weightCount ≤ Config.maxWeights && weightBitsLegal b.weightCount b.wq && b.grid.w ≤ fp.bw && b.grid.h ≤ fp.bh

/-- The entry of the block-mode table for a field value, if it is valid (R180); `permit_decode` is that there is one
(R181). -/
def blockMode (fp : Footprint) (m : Nat) : Option BlockMode := (decodeMode m).filter fun b => b.legal fp

/-- `permit_encode` (R181), against the cutoff `CUT / 65536` (log entries 14, 19). -/
def permitEncode (fp : Footprint) (cut : BitVec 17) (m : Nat) : Bool :=
  (blockMode fp m).isSome && decide ((Config.blockModePercentile fp.bw fp.bh m).val ≤ cut.toNat)

/-! ## Partitionings -/

/-- `hash52` on 32-bit words (R192). -/
def hash52 (p : Word) : Word :=
  let p := p ^^^ (p >>> 15)
  let p := p * 0xEEDE0891#32
  let p := p ^^^ (p >>> 5)
  let p := p + (p <<< 16)
  let p := p ^^^ (p >>> 7)
  let p := p ^^^ (p >>> 3)
  let p := p ^^^ (p <<< 6)
  p ^^^ (p >>> 17)

/-- `select_partition` (R192). -/
def selectPartition (seed0 x0 y0 z0 pc : Nat) (small : Bool) : Nat :=
  let x := if small then 2 * x0 else x0
  let y := if small then 2 * y0 else y0
  let z := if small then 2 * z0 else z0
  let seed := seed0 + 1024 * (pc - 1)
  let r := (hash52 (BitVec.ofNat 32 seed)).toNat
  let sq := fun v => v * v
  let s12 := field (r / 2 ^ 30 ||| r * 4) 0 4
  let first := if bit seed 1 = 1 then 4 else 5
  let other := if pc = 3 then 6 else 5
  let sh1 := if bit seed 0 = 1 then first else other
  let sh2 := if bit seed 0 = 1 then other else first
  let sh3 := if bit seed 4 = 1 then sh1 else sh2
  let odd := fun k => sq (field r k 4) / 2 ^ sh1
  let even := fun k => sq (field r k 4) / 2 ^ sh2
  let third := fun k => sq (field r k 4) / 2 ^ sh3
  let a := (odd 0 * x + even 4 * y + third 26 * z + r / 2 ^ 14) % 64
  let b := (odd 8 * x + even 12 * y + sq s12 / 2 ^ sh3 * z + r / 2 ^ 10) % 64
  let c := (odd 16 * x + even 20 * y + third 18 * z + r / 2 ^ 6) % 64
  let d := (odd 24 * x + even 28 * y + third 22 * z + r / 2 ^ 2) % 64
  let d := if pc ≤ 3 then 0 else d
  let c := if pc ≤ 2 then 0 else c
  let b := if pc ≤ 1 then 0 else b
  if a ≥ b ∧ a ≥ c ∧ a ≥ d then 0
  else if b ≥ c ∧ b ≥ d then 1
  else if c ≥ d then 2
  else 3

/-- `part(pc, s, t)`: the partition of texel `t`; 0 for one partition (R190). -/
def partitionOf (fp : Footprint) (pc index t : Nat) : Nat :=
  if pc = 1 then 0 else selectPartition index (t % fp.bw) (t / fp.bw) 0 pc fp.small

/-- `coverage_p(pc, s)`: the texels of partition `p` in rising order (R193). -/
def coverage (fp : Footprint) (pc index p : Nat) : List Nat :=
  (List.range fp.texels).filter fun t => partitionOf fp pc index t == p

/-- `count_p(pc, s)` (R193). -/
def partitionTexels (fp : Footprint) (pc index p : Nat) : Nat := (coverage fp pc index p).length

/-- `actual(pc, s)`: how many partitions have a texel (R193). -/
def actualPartitions (fp : Footprint) (pc index : Nat) : Nat :=
  ((List.range pc).filter fun p => partitionTexels fp pc index p != 0).length

/-- Whether a partitioning is encodable (R194). -/
def encodablePartitioning (fp : Footprint) (pc index : Nat) : Bool := actualPartitions fp pc index == pc

/-! ## Weight transfer tables and color tables -/

/-- Whether cost `x` beats cost `y`: less in the first part, or equal there and less in the second. -/
def beats (x y : Nat × Nat) : Bool := x.1 < y.1 || (x.1 == y.1 && x.2 < y.2)

/-- The candidate of least cost, the first of equals; `start` if there is none. -/
def leastBy (cost : Nat → Nat × Nat) : Nat → List Nat → Nat
  | best, [] => best
  | best, i :: rest => leastBy cost (if beats (cost i) (cost best) then i else best) rest

def absDiff (a b : Nat) : Nat := (a - b) + (b - a)

/-- `unq_flt(q, i)`, the float entry of the weight transfer table (R212). -/
def unqWeightFloat (q i : Nat) : ℚ := unqWeight q i / 64

/-- `prev(q, i)`: the index just below in the order of `unq`, or `i` at the bottom (R214). -/
def weightPrev (q i : Nat) : Nat :=
  match (List.range (levelValues q)).filter fun j => unqWeight q j < unqWeight q i with
  | [] => i
  | j :: rest => leastBy (fun k => (unqWeight q i - unqWeight q k, k)) j rest

/-- `next(q, i)`: the index just above, or `i` at the top (R214). -/
def weightNext (q i : Nat) : Nat :=
  match (List.range (levelValues q)).filter fun j => unqWeight q i < unqWeight q j with
  | [] => i
  | j :: rest => leastBy (fun k => (unqWeight q k - unqWeight q i, k)) j rest

/-- `closest(q, k)` for bucket `k`, ties to the smaller `unq` (R215). -/
def weightClosest (q k : Nat) : Nat :=
  leastBy (fun i => (absDiff (16 * unqWeight q i) k, unqWeight q i)) 0 (List.range (levelValues q))

/-- The bucket at which a float weight is looked up, the last one being 1024 (R215). -/
def weightBucket (w : ℚ) : Nat := min (roundHalfUp (w * (Config.qlookupBuckets - 1 : Nat))).toNat (Config.qlookupBuckets - 1)

/-- The index a continuous weight quantizes to (R215, R441). -/
def quantizeWeight (q : Nat) (w : ℚ) : Nat := weightClosest q (weightBucket w)

/-- `cquant(q, v)`, ties to the smaller `cunq` (R216); some index of the level where `cunq` is not defined (R262; log
entry 24). -/
def colorQuant (q v : Nat) : Nat :=
  if colorLevelDefined q then leastBy (fun i => (absDiff (unqColor q i) v, unqColor q i)) 0 (List.range (levelValues q))
  else Config.unstatedColorIndex q v % levelValues q

/-- The index a continuous endpoint value quantizes to (R441). -/
def quantizeEndpoint (q : Nat) (x : ℚ) : Nat := colorQuant q (roundHalfUp x).toNat

/-! ## Building (R231) -/

/-- `quality_map(min(Q, 100))`: the argument (R54). -/
def effectiveQuality (q : BitVec 8) : Nat := min q.toNat 100

end Sys2Proof.Machine
end

