-- ==== Sys2Proof/Machine/Transcoder.lean ====
section
/-! DEFINITION. 42_transcoder.md: reading a physical block into a symbolic block (R292 to R319), the well-formedness of a
symbolic block (R320) and writing it as a physical block (R321 to R324). -/

namespace Sys2Proof.Machine

/-! ## What both directions share -/

/-- `2 * ((CEM >> 2) + 1)`: the color values of one partition (R308, R377). -/
def cemValues (cem : Nat) : Nat := 2 * (cem / 4 + 1)

/-- `nvals` (R308). -/
def colorCount (cems : List Nat) : Nat := (cems.map cemValues).sum

/-- The color level that `avail` bits imply for `nvals` values, `none` for -1 (R310). -/
def colorLevel (nvals avail : Nat) : Option Nat :=
  ((List.range Config.numQuantLevels).filter fun q => iseBits nvals q ≤ avail).getLast?

/-- `hs`: how many extra bits the class form of the CEM field takes (R305). -/
def extraCemBits (pc : Nat) : Nat := 3 * pc - 4

/-- Where the color sequence starts (R296). -/
def colorStart (pc : Nat) : Nat := if pc = 1 then 17 else 29

/-- `below` after the fields under the weights are taken off (R296, R305, R307). -/
def colorEnd (weightBits pc : Nat) (shared dual : Bool) : Nat :=
  128 - weightBits - (if pc = 1 || shared then 0 else extraCemBits pc) - (if dual then 2 else 0)

/-! ## Reading -/

/-- `read_void_extent(blk)` (R292). -/
def readVoidExtent (blk : Block) : Sym :=
  let sLo := readBits blk 12 13
  let sHi := readBits blk 25 13
  let tLo := readBits blk 38 13
  let tHi := readBits blk 51 13
  let allOnes := sLo = 0x1FFF ∧ sHi = 0x1FFF ∧ tLo = 0x1FFF ∧ tHi = 0x1FFF
  if readBits blk 10 2 ≠ 0b11 then .error
  else if ¬allOnes ∧ (sLo ≥ sHi ∨ tLo ≥ tHi) then .error
  else
    .const (readBits blk 9 1 == 1) (Rgba.ofFn fun c => BitVec.ofNat 16 (readBits blk (64 + 16 * c) 16))

/-- The CEMs of a block with several partitions in class form (R305): `enc` is the CEM field with its extra bits. -/
def classCems (pc enc : Nat) : List Nat :=
  (List.range pc).map fun p => (field enc 0 2 - 1 + bit enc (2 + p)) * 4 + field enc (2 + pc + 2 * p) 2

/-- The CEMs of a block and whether it has the shared form (R296, R305). -/
def readCems (blk : Block) (pc weightBits : Nat) : List Nat × Bool :=
  let low := readBits blk 23 6
  if pc = 1 then ([readBits blk 13 4], true)
  else if field low 0 2 = 0 then (List.replicate pc (field low 2 4), true)
  else
    let hs := extraCemBits pc
    (classCems pc (low + readBits blk (128 - weightBits - hs) hs * 2 ^ 6), false)

/-- Every second item from the first (R318). -/
def evens : List Nat → List Nat
  | [] => []
  | [a] => [a]
  | a :: _ :: rest => a :: evens rest

/-- Every second item from the second (R318). -/
def odds : List Nat → List Nat
  | [] => []
  | [_] => []
  | _ :: b :: rest => b :: odds rest

def toBytes (l : List Nat) : List Byte := l.map (BitVec.ofNat 8)

def toNats (l : List Byte) : List Nat := l.map BitVec.toNat

/-- Steps 7 to 9 of `read_normal` (R311, R318, R319): the color values at `start`, the weights from bit 127 down. -/
def readValues (blk : Block) (b : BlockMode) (cems : List Nat) (shared : Bool) (cq : Nat) : Sym :=
  let pc := cems.length
  let below := colorEnd b.weightBits pc shared b.dual
  let colors := iseDecode (colorCount cems) cq (blk.toNat / 2 ^ colorStart pc)
  let weights := iseDecode b.weightCount b.wq (revBlock blk)
  .normal {
    mode := BitVec.ofNat 11 (readBits blk 0 11)
    partIndex := if pc = 1 then 0 else BitVec.ofNat 10 (readBits blk 13 10)
    matched := shared
    ccs := if b.dual then BitVec.ofNat 2 (readBits blk below 2) else 0
    cq := BitVec.ofNat 5 cq
    cems := cems.map (BitVec.ofNat 4)
    colors := toBytes colors
    w0 := toBytes (if b.dual then evens weights else weights)
    w1 := toBytes (if b.dual then odds weights else []) }

/-- `read_normal(blk)` (R294 to R319). -/
def readNormal (fp : Footprint) (blk : Block) : Sym :=
  match blockMode fp (readBits blk 0 11) with
  | none => .error
  | some b =>
    let pc := readBits blk 11 2 + 1
    if b.dual ∧ pc = 4 then .error
    else
      let (cems, shared) := readCems blk pc b.weightBits
      if colorCount cems > Config.maxColorValues then .error
      else
        match colorLevel (colorCount cems) (colorEnd b.weightBits pc shared b.dual - colorStart pc) with
        | none => .error
        | some cq => if cq < Config.minColorLevel then .error else readValues blk b cems shared cq

/-- What UNPACK reads from a block (R291). -/
def readBlock (fp : Footprint) (blk : Block) : Sym :=
  if readBits blk 0 9 = 0x1FC then readVoidExtent blk else readNormal fp blk

/-! ## Well-formedness -/

/-- The CEMs as numbers. -/
def cemNats (n : NormalSym) : List Nat := n.cems.map BitVec.toNat

/-- The least CEM class, capped at 2: the base of the class form (R320, R322). -/
def baseClass (cems : List Nat) : Nat := min ((cems.map (· / 4)).foldr min 3) 2

/-- Condition 4 of R320. -/
def cemFormOk (pc : Nat) (matched : Bool) (cems : List Nat) : Bool :=
  pc == 1 || (if matched then cems.all (· == cems.headD 0)
    else (cems.map (· / 4)).foldr max 0 - baseClass cems ≤ 1)

/-- Conditions 3 to 5 of R320, on everything but the color values and weights. -/
def headerOk (b : BlockMode) (partIndex : Nat) (matched : Bool) (cq : Nat) (cems : List Nat) : Bool :=
  let pc := cems.length
  1 ≤ pc && pc ≤ Config.maxPartitions && !(b.dual && pc == 4) && (pc != 1 || partIndex == 0) &&
    cemFormOk pc matched cems && colorCount cems ≤ Config.maxColorValues && Config.minColorLevel ≤ cq &&
    colorLevel (colorCount cems) (colorEnd b.weightBits pc matched b.dual - colorStart pc) == some cq

/-- Condition 6 of R320, on exactly the entries in use. -/
def valuesOk (b : BlockMode) (n : NormalSym) : Bool :=
  n.colors.length == colorCount (cemNats n) && n.colors.all (fun v => v.toNat < levelValues n.cq.toNat) &&
    n.w0.length == b.grid.w * b.grid.h && n.w0.all (fun v => v.toNat < levelValues b.wq) &&
    n.w1.length == (if b.dual then b.grid.w * b.grid.h else 0) && n.w1.all (fun v => v.toNat < levelValues b.wq)

/-- `wf(SYM)` for a normal block (R320, conditions 3 to 6). -/
def normalWf (fp : Footprint) (n : NormalSym) : Bool :=
  match blockMode fp n.mode.toNat with
  | none => false
  | some b => headerOk b n.partIndex.toNat n.matched n.cq.toNat (cemNats n) && valuesOk b n

/-- `wf(SYM)` (R320). -/
def symWf (fp : Footprint) : Sym → Bool
  | .error => false
  | .const _ _ => true
  | .normal n => normalWf fp n

/-! ## Writing -/

/-- `write_void_extent` on a zero block (R321). -/
def writeVoidExtent (fp16 : Bool) (color : Rgba (BitVec 16)) : Block :=
  let blk := writeBits 0 0 9 0x1FC
  let blk := writeBits blk 9 1 fp16.toNat
  let blk := writeBits blk 10 2 0b11
  let blk := writeBits blk 12 52 (2 ^ 52 - 1)
  let blk := writeBits blk 64 16 color.r.toNat
  let blk := writeBits blk 80 16 color.g.toNat
  let blk := writeBits blk 96 16 color.b.toNat
  writeBits blk 112 16 color.a.toNat

/-- The planes interleaved, plane 0 first (R318, R322). -/
def interleave : List Nat → List Nat → List Nat
  | a :: as, b :: bs => a :: b :: interleave as bs
  | as, [] => as
  | [], bs => bs

/-- The class form of the CEM field with its extra bits (R322). -/
def classField (cems : List Nat) : Nat :=
  let base := baseClass cems
  (base + 1) + packFields ((cems.map fun c => (c / 4 - base, 1)) ++ (cems.map fun c => (c % 4, 2))) * 4

/-- The partition index and CEM fields (R322). -/
def writeCems (blk : Block) (n : NormalSym) (weightBits : Nat) : Block :=
  let cems := cemNats n
  if n.pc = 1 then writeBits blk 13 4 (cems.headD 0)
  else
    let blk := writeBits blk 13 10 n.partIndex.toNat
    if n.matched then writeBits blk 23 6 (cems.headD 0 * 4)
    else
      let enc := classField cems
      let hs := extraCemBits n.pc
      writeBits (writeBits blk 23 6 enc) (128 - weightBits - hs) hs (enc / 2 ^ 6)

/-- `write_normal` on a zero block (R322); every bit not written is 0 (R323). -/
def writeNormal (b : BlockMode) (n : NormalSym) : Block :=
  let weights := if b.dual then interleave (toNats n.w0) (toNats n.w1) else toNats n.w0
  let blk := BitVec.ofNat 128 (reverseBits 128 (iseEncode weights b.wq))
  let blk := writeBits blk 0 11 n.mode.toNat
  let blk := writeBits blk 11 2 (n.pc - 1)
  let blk := writeCems blk n b.weightBits
  let blk :=
    if b.dual then writeBits blk (colorEnd b.weightBits n.pc n.matched b.dual) 2 n.ccs.toNat else blk
  writeBits blk (colorStart n.pc) (iseBits n.colors.length n.cq.toNat) (iseEncode (toNats n.colors) n.cq.toNat)

/-- The block PACK makes of a well-formed symbolic block (R290); an ill-formed one is never packed. -/
def packBlock (fp : Footprint) : Sym → Block
  | .error => 0
  | .const fp16 color => writeVoidExtent fp16 color
  | .normal n =>
    match blockMode fp n.mode.toNat with
    | none => 0
    | some b => writeNormal b n

end Sys2Proof.Machine
end

