-- ==== Sys2Proof/Machine/Reconstruct.lean ====
section
/-! DEFINITION. 43_reconstruct.md: what a decoder makes of a symbolic block: endpoint unpacking (R365 to R377), weight
infill (R362), interpolation and output (R380 to R382), constant blocks (R355), error blocks (R385). -/

namespace Sys2Proof.Machine

/-! ## Endpoints of the LDR CEMs -/

/-- `bit_transfer_signed(a, b)`: `(a', b')` with `a'` signed (R365). -/
def bitTransferSigned (a b : Nat) : Int × Int :=
  let b' := b / 2 ||| (a &&& 0x80)
  let a' := a / 2 &&& 0x3F
  (if a' &&& 0x20 ≠ 0 then (a' : Int) - 0x40 else a', b')

/-- `blue_contract(r, g, b, a)` (R365). -/
def blueContract (r g b a : Int) : Rgba Int := ⟨(r + b) / 2, (g + b) / 2, b, a⟩

/-- `clamp8` (R365). -/
def clamp8 (x : Int) : Nat := (min (max x 0) 255).toNat

/-- Base and offset pairs `(v1, v0)` after `bit_transfer_signed(v1, v0)`: offset first (R369, R372, R375). -/
def offsetPair (v0 v1 : Nat) : Int × Int := bitTransferSigned v1 v0

/-- R371 and R374: direct RGB with the two alphas. -/
def directEndpoints (v : Nat → Nat) (a0 a1 : Nat) : Rgba Int × Rgba Int :=
  if v 1 + v 3 + v 5 ≥ v 0 + v 2 + v 4 then (⟨v 0, v 2, v 4, a0⟩, ⟨v 1, v 3, v 5, a1⟩)
  else (blueContract (v 1) (v 3) (v 5) a1, blueContract (v 0) (v 2) (v 4) a0)

/-- R372 and R375: base and offset RGB; `a` is the alpha base, `da` its offset. -/
def offsetEndpoints (v : Nat → Nat) (a da : Int) : Rgba Int × Rgba Int :=
  let (d1, b0) := offsetPair (v 0) (v 1)
  let (d3, b2) := offsetPair (v 2) (v 3)
  let (d5, b4) := offsetPair (v 4) (v 5)
  if d1 + d3 + d5 ≥ 0 then (⟨b0, b2, b4, a⟩, ⟨b0 + d1, b2 + d3, b4 + d5, a + da⟩)
  else (blueContract (b0 + d1) (b2 + d3) (b4 + d5) (a + da), blueContract b0 b2 b4 a)

/-- R370 and R373: scaled RGB with the two alphas. -/
def scaleEndpoints (v : Nat → Nat) (a0 a1 : Nat) : Rgba Int × Rgba Int :=
  let lo := fun k => ((v k * v 3 / 256 : Nat) : Int)
  (⟨lo 0, lo 1, lo 2, a0⟩, ⟨v 0, v 1, v 2, a1⟩)

def grey (l a : Int) : Rgba Int := ⟨l, l, l, a⟩

/-- The 8-bit endpoints of an LDR CEM (R366 to R375) from its unquantized values; every channel within 0..255. An HDR
CEM has none here (R376). -/
def ldrEndpoints (cem : Nat) (vals : List Nat) : Rgba Nat × Rgba Nat :=
  let v := fun k => vals.getD k 0
  let e : Rgba Int × Rgba Int :=
    match cem with
    | 0 => (grey (v 0) 255, grey (v 1) 255)
    | 1 =>
      let l0 := v 0 / 4 ||| (v 1 &&& 0xC0)
      (grey l0 255, grey (min (l0 + (v 1 &&& 0x3F)) 255 : Nat) 255)
    | 4 => (grey (v 0) (v 2), grey (v 1) (v 3))
    | 5 =>
      let (d1, b0) := offsetPair (v 0) (v 1)
      let (d3, b2) := offsetPair (v 2) (v 3)
      (grey b0 b2, grey (b0 + d1) (b2 + d3))
    | 6 => scaleEndpoints v 255 255
    | 8 => directEndpoints v 255 255
    | 9 => offsetEndpoints v 255 0
    | 10 => scaleEndpoints v (v 4) (v 5)
    | 12 => directEndpoints v (v 6) (v 7)
    | 13 =>
      let (d7, b6) := offsetPair (v 6) (v 7)
      offsetEndpoints v b6 d7
    | _ => (grey 0 0, grey 0 0)
  (e.1.map clamp8, e.2.map clamp8)

/-- The HDR CEMs (R376). -/
def isHdrCem (cem : Nat) : Bool := [2, 3, 7, 11, 14, 15].contains cem

/-- An 8-bit endpoint as the 16-bit value interpolated in a profile (R380). -/
def expandEndpoint (profile : Profile) (e : Nat) : Nat :=
  if profile = .ldrSrgb then e * 256 + 0x80 else e * 256 + e

/-- The 16-bit endpoints of a partition from its unquantized values (R376, R380). Those of an HDR CEM are interpolated as
`hdr_unpack` gives them, not expanded: the model's reading (log entry 39). -/
def endpoints16 (profile : Profile) (cem : Nat) (vals : List Nat) : Rgba Nat × Rgba Nat :=
  if isHdrCem cem then
    let e := Config.hdrUnpack cem vals
    (e.1.map BitVec.toNat, e.2.map BitVec.toNat)
  else
    let e := ldrEndpoints cem vals
    (e.1.map (expandEndpoint profile), e.2.map (expandEndpoint profile))

/-! ## Weights -/

/-- The infilled weight of texel `t` from the unquantized grid weights (R361, R362). -/
def infilledWeight (fp : Footprint) (g : Grid) (u : List Nat) (t : Nat) : Nat :=
  (((texelEntries fp g t).map fun e => if e.2 = 0 then 0 else u.getD e.1 0 * e.2).sum + 8) / 16

/-! ## Texels -/

/-- Interpolation of two 16-bit endpoints by a weight 0..64 (R380), of HDR endpoints too (log entry 39). -/
def interpolate (c0 c1 w : Nat) : Nat := (c0 * (64 - w) + c1 * w + 32) / 64

/-- `out8(C, LDR)` (R382). -/
def out8 (c : Nat) : Nat := (c * 255 + 32767) / 65535

/-- The unquantized color values of each partition (R311, R365). -/
def splitColors : List Nat → List Nat → List (List Nat)
  | [], _ => []
  | cem :: cems, vals => vals.take (cemValues cem) :: splitColors cems (vals.drop (cemValues cem))

/-- `C(s, t, c)` for every channel: the 16-bit values of texel `t` before the output step (R380, R381, R425). -/
def texel16 (fp : Footprint) (profile : Profile) (b : BlockMode) (n : NormalSym) (t : Nat) : Rgba Nat :=
  let p := partitionOf fp n.pc n.partIndex.toNat t
  let vals := (splitColors (cemNats n) ((toNats n.colors).map (unqColor n.cq.toNat))).getD p []
  let e := endpoints16 profile ((cemNats n).getD p 0) vals
  let w0 := infilledWeight fp b.grid ((toNats n.w0).map (unqWeight b.wq)) t
  let w1 := infilledWeight fp b.grid ((toNats n.w1).map (unqWeight b.wq)) t
  Rgba.ofFn fun c =>
    interpolate (e.1.chan c) (e.2.chan c) (if b.dual ∧ c = n.ccs.toNat then w1 else w0)

/-- Whether some partition uses an HDR CEM (R376). -/
def usesHdr (n : NormalSym) : Bool := (cemNats n).any isHdrCem

/-- The output step of one 16-bit value (R380, R376; log entry 18). -/
def outputByte (profile : Profile) (hdrBlock : Bool) (c : Nat) : Byte :=
  if hdrBlock then Config.out8Hdr (BitVec.ofNat 16 c)
  else if profile = .ldrSrgb then BitVec.ofNat 8 (c / 256)
  else BitVec.ofNat 8 (out8 c)

/-- `texel(SYM, t)` (R380). -/
def texel (fp : Footprint) (profile : Profile) (b : BlockMode) (n : NormalSym) (t : Nat) : Rgba Byte :=
  (texel16 fp profile b n t).map (outputByte profile (usesHdr n))

/-! ## Constant blocks and error blocks -/

/-- `round_half_up(clamp(fp16(x), 0, 1) * 255)`, a NaN giving 0 (R355). The value is counted in units of 2^-24. -/
def fp16Byte (x : Nat) : Nat :=
  let e := field x 10 5
  let f := field x 0 10
  if bit x 15 = 1 then 0
  else if e = 31 then (if f = 0 then 255 else 0)
  else
    let units := if e = 0 then f else (1024 + f) * 2 ^ (e - 1)
    (min units (2 ^ 24) * 255 * 2 + 2 ^ 24) / 2 ^ 25

/-- One channel of a constant block (R355). -/
def constByte (profile : Profile) (fp16 : Bool) (x : BitVec 16) : Byte :=
  if fp16 then BitVec.ofNat 8 (fp16Byte x.toNat)
  else if profile = .ldrSrgb then BitVec.ofNat 8 (x.toNat / 256)
  else BitVec.ofNat 8 (out8 x.toNat)

/-- `block_is_error(SYM, profile)` (R385). -/
def blockIsError (profile : Profile) : Sym → Bool
  | .error => true
  | .const fp16 _ => fp16 && profile != .hdr
  | .normal n => usesHdr n && profile != .hdr

/-- The texels DECODE_TEXELS makes of a block (R350). -/
def decodedTexels (fp : Footprint) (profile : Profile) (errorColor : Rgba Byte) (s : Sym) : List (Rgba Byte) :=
  (List.range fp.texels).map fun t =>
    if blockIsError profile s then errorColor
    else
      match s with
      | .error => errorColor
      | .const fp16 color => color.map (constByte profile fp16)
      | .normal n =>
        match blockMode fp n.mode.toNat with
        | none => errorColor
        | some b => texel fp profile b n t

end Sys2Proof.Machine
end

