-- ==== Sys2Proof/Machine/Operands.lean ====
section
/-! DEFINITION. The operands of the commands: the data registers `PHYS`, `SYM`, `TEXIN`, `TEXOUT`, `EWB` as the commands
read and write them (R55 to R65). A command reads the `SYM` fields it needs, each
whole, in the order of R320 (log entry 8). -/

namespace Sys2Proof.Machine

/-! ## Offsets (R43, R57 to R62) -/

def offPhys : Nat := 0x040
def offSymCtrl : Nat := 0x100
def offSymMode : Nat := 0x104
def offSymPart : Nat := 0x108
def offSymCem : Nat := 0x10C
def offSymConst : Nat := 0x110
def offSymColor : Nat := 0x120
def offSymW0 : Nat := 0x140
def offSymW1 : Nat := 0x180
def offTexin : Nat := 0x400
def offTexout : Nat := 0x800
def offEwb : Nat := 0x1000

/-! ## PHYS (R55) -/

def State.readPhys (s : State) : Except Nat Block :=
  match s.load offPhys 16 with
  | .error a => .error a
  | .ok bs => .ok (blockOfBytes bs)

def State.writePhys (s : State) (blk : Block) : State := s.store offPhys (bytesOfBlock blk)

/-! ## SYM: the register image of a symbolic block -/

/-- `SYM_CTRL` (R57), its three bytes that hold something. -/
def symCtrlBytes (error matched : Bool) (pc ccs cq : Nat) : List Byte :=
  leBytes 3 (error.toNat + matched.toNat * 2 ^ 3 + pc * 2 ^ 8 + ccs * 2 ^ 12 + cq * 2 ^ 16)

/-- A list filled with zeros to `n` entries. -/
def padTo (n : Nat) (l : List Byte) : List Byte := l ++ List.replicate (n - l.length) 0

/-- `SYM_CEM` (R60): four bits a partition, 0 beyond `PC`. -/
def symCemBytes (cems : List Nat) : List Byte := leBytes 2 (packFields (cems.map fun c => (c, 4)))

/-- `SYM_COLOR` (R61): eight bytes a partition, 0 beyond the CEM's count and beyond `PC`. -/
def symColorBytes (cems : List Nat) (colors : List Byte) : List Byte :=
  padTo 32 (go cems colors)
where
  go : List Nat → List Byte → List Byte
    | [], _ => []
    | cem :: cems, vals => padTo 8 (vals.take (cemValues cem)) ++ go cems (vals.drop (cemValues cem))

/-- The eight pieces of the `SYM` image, `(offset, bytes)`: every byte of `SYM` that holds something (log entry 10).
Every entry not in use is 0 (R293, R319, R405). -/
def symImage : Sym → List (Nat × List Byte)
  | .error =>
    [(offSymCtrl, symCtrlBytes true false 0 0 0), (offSymMode, leBytes 4 0), (offSymPart, leBytes 2 0),
      (offSymCem, leBytes 2 0), (offSymConst, leBytes 8 0), (offSymColor, padTo 32 []), (offSymW0, padTo 64 []),
      (offSymW1, padTo 64 [])]
  | .const fp16 color =>
    [(offSymCtrl, symCtrlBytes false false 0 0 0),
      (offSymMode, leBytes 4 (if fp16 then 0xFFFFFFFE else 0xFFFFFFFF)), (offSymPart, leBytes 2 0),
      (offSymCem, leBytes 2 0), (offSymConst, (color.toList.map fun c => leBytes 2 c.toNat).flatten),
      (offSymColor, padTo 32 []), (offSymW0, padTo 64 []), (offSymW1, padTo 64 [])]
  | .normal n =>
    [(offSymCtrl, symCtrlBytes false n.matched n.pc n.ccs.toNat n.cq.toNat), (offSymMode, leBytes 4 n.mode.toNat),
      (offSymPart, leBytes 2 n.partIndex.toNat), (offSymCem, symCemBytes (cemNats n)), (offSymConst, leBytes 8 0),
      (offSymColor, symColorBytes (cemNats n) n.colors), (offSymW0, padTo 64 n.w0), (offSymW1, padTo 64 n.w1)]

/-- `SYM <- s`. -/
def State.writeSym (s : State) (sym : Sym) : State :=
  (symImage sym).foldl (fun t piece => t.store piece.1 piece.2) s

/-- What a command finds in `SYM`: a byte without a value that it needs, an ill-formed block (R320), or a block. -/
inductive SymRead where
  | noValue (addr : Nat)
  | illFormed
  | found (s : Sym)
  deriving DecidableEq, Repr

/-- Continue with the little-endian number in `n` bytes of `SYM`. -/
def State.symField (s : State) (off n : Nat) (f : Nat → SymRead) : SymRead :=
  match s.load off n with
  | .error a => .noValue a
  | .ok bs => f (leNat bs)

/-- Continue with `n` bytes of `SYM`. -/
def State.symBytes (s : State) (off n : Nat) (f : List Byte → SymRead) : SymRead :=
  match s.load off n with
  | .error a => .noValue a
  | .ok bs => f bs

/-- The color values in use, partition by partition (R61). -/
def State.symColors (s : State) : Nat → List Nat → (List Byte → SymRead) → SymRead
  | _, [], f => f []
  | p, cem :: cems, f =>
    s.symBytes (offSymColor + 8 * p) (cemValues cem) fun vals => s.symColors (p + 1) cems fun rest => f (vals ++ rest)

/-- A normal block from `SYM`, its `SYM_CTRL` and block mode already read (R320, conditions 3 to 6). Both bytes of `SYM_PART`
and of `SYM_CEM` are read whatever `PC` is, the model's choice (log entry 8). -/
def State.readNormalSym (s : State) (fp : Footprint) (ctrl mode : Nat) : SymRead :=
  match blockMode fp mode with
  | none => .illFormed
  | some b =>
    s.symField offSymPart 2 fun part => s.symField offSymCem 2 fun cemField =>
      let pc := field ctrl 8 3
      let cems := (List.range pc).map fun p => field cemField (4 * p) 4
      if headerOk b (field part 0 10) (bit ctrl 3 == 1) (field ctrl 16 5) cems then
        s.symColors 0 cems fun colors =>
        s.symBytes offSymW0 (b.grid.w * b.grid.h) fun w0 =>
        s.symBytes offSymW1 (if b.dual then b.grid.w * b.grid.h else 0) fun w1 =>
          let n : NormalSym := {
            mode := BitVec.ofNat 11 mode
            partIndex := BitVec.ofNat 10 part
            matched := bit ctrl 3 == 1
            ccs := BitVec.ofNat 2 (field ctrl 12 2)
            cq := BitVec.ofNat 5 (field ctrl 16 5)
            cems := cems.map (BitVec.ofNat 4)
            colors := colors
            w0 := w0
            w1 := w1 }
          if valuesOk b n then .found (.normal n) else .illFormed
      else .illFormed

/-- The block a command reads from `SYM`. The three bytes of `SYM_CTRL` that hold something are read whatever the block
is, an error block and a constant block too, the model's choice (log entry 8). `ERROR = 1` is the error block, whatever else stands there (R351, D11; log
entry 9); every other block is well formed (R320). -/
def State.readSym (s : State) (fp : Footprint) : SymRead :=
  s.symField offSymCtrl 3 fun ctrl =>
    if bit ctrl 0 = 1 then .found .error
    else
      s.symField offSymMode 4 fun mode =>
        if mode = 0xFFFFFFFF ∨ mode = 0xFFFFFFFE then
          if field ctrl 8 3 ≠ 0 then .illFormed
          else
            s.symField offSymConst 8 fun color =>
              .found (.const (mode == 0xFFFFFFFE) (Rgba.ofFn fun c => BitVec.ofNat 16 (field color (16 * c) 16)))
        else if mode < Config.blockModeCount then s.readNormalSym fp ctrl mode
        else .illFormed

/-- Continue a command with the block in `SYM`: a fault without a value (R478), `BAD_OPERAND` if ill formed (R477). -/
def State.withSym (s : State) (fp : Footprint) (f : Sym → Result) : Result :=
  match s.readSym fp with
  | .noValue a => .fault (.readNoValue a)
  | .illFormed => s.raise .badOperand
  | .found sym => f sym

/-! ## Texels and weights -/

/-- Bytes in groups of four, one group a color (R63, R65). -/
def groupFour {α : Type} : List α → List (Rgba α)
  | r :: g :: b :: a :: rest => ⟨r, g, b, a⟩ :: groupFour rest
  | _ => []

/-- `TEXIN` texels `0 .. n - 1` (R63). -/
def State.readTexin (s : State) (n : Nat) : Except Nat (List (Rgba Byte)) :=
  match s.load offTexin (4 * n) with
  | .error a => .error a
  | .ok bs => .ok (groupFour bs)

/-- `TEXOUT` texels from 0 on (R64). -/
def State.writeTexout (s : State) (texels : List (Rgba Byte)) : State :=
  s.store offTexout (texels.map Rgba.toList).flatten

/-- Bytes as little-endian 32-bit words (R65, R90). -/
def words : List Byte → List Nat
  | b0 :: b1 :: b2 :: b3 :: rest => leNat [b0, b1, b2, b3] :: words rest
  | _ => []

/-- Whether a binary32 error weight is finite and not negative; -0.0 is 0 (R65, R400). -/
def weightLegal (w : Nat) : Bool := field w 23 8 != 0xFF && (bit w 31 == 0 || field w 0 31 == 0)

/-- A finite binary32 value of no sign, in units of 2^-149, exactly (R19). -/
def weightUnits (w : Nat) : Nat :=
  let e := field w 23 8
  let f := field w 0 23
  if e = 0 then f else (2 ^ 23 + f) * 2 ^ (e - 1)

/-- The `EWB` words of texels `0 .. n - 1`, channel by channel (R65). -/
def State.readEwb (s : State) (n : Nat) : Except Nat (List Nat) :=
  match s.load offEwb (16 * n) with
  | .error a => .error a
  | .ok bs => .ok (words bs)

end Sys2Proof.Machine
end

