-- ==== Sys2Proof/Machine/TableCommands.lean ====
section
/-! DEFINITION. The commands that need no block: NOP and BUILD_TABLES (R230, R231), the lookups (R232 to R235),
ISE_BITCOUNT (R245), and the reserved opcodes (R123). -/

namespace Sys2Proof.Machine

/-- `NOP` (R230). -/
def execNop (s : State) : Result := s.complete

/-- The footprint in `CFG_FOOTPRINT` (R47). -/
def State.cfgFootprint (s : State) : Footprint := ⟨s.cfgBw.toNat, s.cfgBh.toNat⟩

/-- Tables for the configured footprint, and the cutoffs `quality_map` gives (R231; log entries 3, 13). -/
def State.buildTables (s : State) : State :=
  let q := effectiveQuality s.cfgQuality
  { s with
    tables := .valid s.cfgFootprint
    effPlimit := Config.qualityPlimit q
    effCut := BitVec.ofNat 17 (Config.qualityCut q).val
    effIters := Config.qualityIters q }

/-- `BUILD_TABLES` (R171, R231). -/
def execBuildTables (s : State) : Result :=
  if s.cfgFootprint.valid && s.profile != .reserved then s.buildTables.complete
  else s.invalidate.raise .configError

/-- The answer of `QLOOKUP`, `none` where a requirement of R232 fails (table 4 with R262). -/
def qlookupValue (q sel k : Nat) : Option Nat :=
  let weightIndex := decide (q ≤ 11 ∧ k < levelValues q)
  if q > 20 then none
  else
    match sel with
    | 0 => if weightIndex then some (unqWeight q k) else none
    | 1 => if weightIndex then some (weightPrev q k) else none
    | 2 => if weightIndex then some (weightNext q k) else none
    | 3 => if q ≤ 11 ∧ k ≤ 1024 then some (weightClosest q k) else none
    | 4 => if colorLevelDefined q ∧ k < levelValues q then some (unqColor q k) else none
    | 5 => if k ≤ 255 then some (colorQuant q k) else none
    | 6 =>
      if k = 0 then
        some (levelValues q * 2 ^ 16 + (level q).quints * 2 ^ 9 + (level q).trits * 2 ^ 8 + (level q).bits)
      else none
    | _ => none

/-- A lookup completes with its answer or raises `BAD_OPERAND` (R477). -/
def State.answerOrBad (s : State) : Option Nat → Result
  | some v => s.answer v
  | none => s.raise .badOperand

/-- `QLOOKUP` (R232). -/
def execQlookup (lvl : BitVec 5) (table : BitVec 3) (index : BitVec 11) (s : State) : Result :=
  s.withTables fun _ => s.answerOrBad (qlookupValue lvl.toNat table.toNat index.toNat)

/-- The answer of `PLOOKUP` (R233). -/
def plookupValue (fp : Footprint) (pc index query : Nat) : Option Nat :=
  let count := fun p => if p < pc then partitionTexels fp pc index p else 0
  if pc < 1 ∨ pc > 4 then none
  else if query < fp.texels then some (partitionOf fp pc index query)
  else if query = 0xFE then some (count 0 + count 1 * 2 ^ 8 + count 2 * 2 ^ 16 + count 3 * 2 ^ 24)
  else if query = 0xFF then some (encodablePartitioning fp pc index).toNat
  else none

/-- `PLOOKUP` (R233). -/
def execPlookup (count : BitVec 3) (index : BitVec 10) (query : BitVec 8) (s : State) : Result :=
  s.withTables fun fp => s.answerOrBad (plookupValue fp count.toNat index.toNat query.toNat)

/-- The answer of `MODEINFO` (R234). -/
def modeinfoValue (fp : Footprint) (cut : BitVec 17) (m : Nat) : Nat :=
  if field m 0 9 = 0x1FC then 2 ^ 31
  else
    match blockMode fp m with
    | none => 0
    | some b =>
      1 + b.dual.toNat * 2 ^ 1 + (permitEncode fp cut m).toNat * 2 ^ 2 + b.wq * 2 ^ 4 + b.grid.w * 2 ^ 8 +
        b.grid.h * 2 ^ 12 + b.weightBits * 2 ^ 16 + decimationId fp b.grid * 2 ^ 24

/-- `MODEINFO` (R234). -/
def execModeinfo (mode : BitVec 11) (s : State) : Result :=
  s.withTables fun fp => s.answer (modeinfoValue fp s.effCut mode.toNat)

/-- The answer of `DLOOKUP` (R235). -/
def dlookupValue (fp : Footprint) (d t k : Nat) (gridQuery : Bool) : Option Nat :=
  match (decimationModes fp)[d]? with
  | none => none
  | some g =>
    if gridQuery then some (g.w + g.h * 2 ^ 8)
    else if t ≥ fp.texels then none
    else
      let e := (texelEntries fp g t).getD k (0, 0)
      some ((if e.2 = 0 then 0 else e.1) + e.2 * 2 ^ 8)

/-- `DLOOKUP` (R235). -/
def execDlookup (decim texel : BitVec 8) (entry : BitVec 2) (grid : BitVec 1) (s : State) : Result :=
  s.withTables fun fp => s.answerOrBad (dlookupValue fp decim.toNat texel.toNat entry.toNat (grid == 1))

/-- `ISE_BITCOUNT` (R245); it needs no tables. -/
def execIseBitcount (count : BitVec 8) (lvl : BitVec 5) (s : State) : Result :=
  s.answerOrBad (if lvl.toNat > 20 then none else some (iseBits count.toNat lvl.toNat))

/-- What the unit does with a command word that is illegal (R123, R470). -/
def illegalCommand (s : State) : Result := s.raise .illegalCommand

/-- A reserved opcode does nothing but report `ILLEGAL_COMMAND` (R123). -/
def execReservedOp (_op : BitVec 8) (_operands : BitVec 24) (s : State) : Result := illegalCommand s

end Sys2Proof.Machine
end

