-- ==== Sys2Proof/Machine/Bus.lean ====
section
/-! DEFINITION. The host's accesses to the register space (R42 to R65, R90 to R99, R520, R521): which offsets hold what,
which widths are allowed, what a read returns and a write does. -/

namespace Sys2Proof.Machine

/-! ## The register space -/

/-- The bits of the byte at an offset that hold something; 0 where the offset holds nothing (R43, R57 to R65; log
entry 10). -/
def byteMask (off : Nat) : Byte :=
  if 0x040 ≤ off ∧ off < 0x050 then 0xFF
  else if off = 0x100 then 0x09
  else if off = 0x101 then 0x37
  else if off = 0x102 then 0x1F
  else if 0x104 ≤ off ∧ off < 0x109 then 0xFF
  else if off = 0x109 then 0x03
  else if 0x10C ≤ off ∧ off < 0x10E then 0xFF
  else if 0x110 ≤ off ∧ off < 0x118 then 0xFF
  else if 0x120 ≤ off ∧ off < 0x1C0 then 0xFF
  else if 0x400 ≤ off ∧ off < 0x640 then 0xFF
  else if 0x800 ≤ off ∧ off < 0xA40 then 0xFF
  else if 0x1000 ≤ off ∧ off < 0x1900 then 0xFF
  else 0

/-- `TEXOUT` is read-only (R64). -/
def readOnlyBuffer (off : Nat) : Bool := 0x800 ≤ off && off < 0xA40

/-- The control registers take aligned 32-bit accesses, everything else bytes, half-words and words at their own
alignment (R96; log entry 22). -/
def accessLegal (off bytes : Nat) : Bool :=
  if off < 0x040 then bytes == 4 && off % 4 == 0
  else (bytes == 1 || bytes == 2 || bytes == 4) && off % bytes == 0

/-! ## Reads -/

/-- A control register as the host reads it (R43, R45 to R54); `CMD` and the offsets that hold nothing read 0 (R42). The
bits above the fields of `CFG_QUALITY`, `CFG_CONST_TOL` and the `EFF` registers, of which R49, R50 and R54 do not speak,
read 0: the model's choice (log entry 36). -/
def State.readControl (s : State) (off : Nat) : Word :=
  match off with
  | 0x004 => s.statusWord
  | 0x008 => BitVec.ofNat 32 (s.cfgBw.toNat + s.cfgBh.toNat * 2 ^ 8)
  | 0x00C => s.cfgProfile.setWidth 32
  | 0x010 => s.cfgQuality.setWidth 32
  | 0x014 => s.cfgConstTol.setWidth 32
  | 0x018 => s.cfgErrorColor.a ++ s.cfgErrorColor.b ++ s.cfgErrorColor.g ++ s.cfgErrorColor.r
  | 0x01C => s.inst.result
  | 0x020 => s.inst.errOut.extractLsb' 0 32
  | 0x024 => s.inst.errOut.extractLsb' 32 32
  | 0x028 => s.effPlimit.setWidth 32
  | 0x02C => s.effCut.setWidth 32
  | 0x030 => s.effIters.setWidth 32
  | _ => 0

/-- A byte outside the control registers as the host reads it: 0 where nothing is held (R42), a free value where a
buffer holds none (R55; log entry 6). -/
def State.readBufferByte (s : State) (off : Nat) : Byte :=
  (match s.mem.read (s.base + off) with
    | some b => b
    | none => Config.unwrittenByte s.epoch (s.base + off)) &&& byteMask off

/-- `bytes` bytes of the register space from `off`, little-endian (R90). -/
def State.busValue (s : State) (off bytes : Nat) : Word :=
  if off < 0x040 then s.readControl off
  else BitVec.ofNat 32 (leNat ((List.range bytes).map fun k => s.readBufferByte (off + k)))

/-- The host reads: the value stands in `rdata`. While the instance is busy, every register but `STATUS` reads as any
value (R99; log entry 7), an offset that holds nothing too (log entry 35). -/
def State.busRead (s : State) (off bytes : Nat) : State :=
  if s.busy && off != 0x004 then
    { s with
      rdata := BitVec.ofNat 32 ((Config.busyRead s.draws).toNat % 2 ^ (8 * bytes))
      draws := s.draws + 1 }
  else { s with rdata := s.busValue off bytes }

/-! ## Writes -/

/-- Offsets of the configuration registers (R43). -/
def configOffset (off : Nat) : Bool := 0x008 ≤ off && off < 0x01C

/-- A write to a configuration register (R47 to R51); the three that the tables depend on clear `TABLES_VALID` (R68).
The bits that `CFG_FOOTPRINT` does not name are ignored (R47); that those of the other registers are is the model's choice
(log entry 36). -/
def State.writeConfig (s : State) (off : Nat) (v : Word) : State :=
  match off with
  | 0x008 => { s.invalidate with cfgBw := v.extractLsb' 0 4, cfgBh := v.extractLsb' 8 4 }
  | 0x00C => { s.invalidate with cfgProfile := v.extractLsb' 0 2 }
  | 0x010 => { s.invalidate with cfgQuality := v.extractLsb' 0 8 }
  | 0x014 => { s with cfgConstTol := v.extractLsb' 0 16 }
  | 0x018 => { s with cfgErrorColor :=
      ⟨v.extractLsb' 0 8, v.extractLsb' 8 8, v.extractLsb' 16 8, v.extractLsb' 24 8⟩ }
  | _ => s

/-- One byte of a buffer write; an offset that holds nothing and a read-only buffer ignore it (R42). -/
def State.writeBufferByte (s : State) (off : Nat) (b : Byte) : State :=
  if byteMask off = 0 ∨ readOnlyBuffer off then s else s.store off [b &&& byteMask off]

/-- The bytes of a buffer write, lowest first (R90). -/
def State.writeBuffer (s : State) : Nat → List Byte → State
  | _, [] => s
  | off, b :: bs => (s.writeBufferByte off b).writeBuffer (off + 1) bs

/-- Whether a command word is BUILD_TABLES. -/
def isBuildTables (w : Word) : Bool :=
  match decodeCommand w with
  | .ok i => i == .buildTables
  | .error _ => false

/-- A word written to `CMD`: the command starts if the instance is idle, else the write is dropped (R45, R99). A
BUILD_TABLES while another instance is busy is a host protocol violation (R520). Any other command starts beside a
BUILD_TABLES of another instance, which then waits for it (`State.waitsFor`; log entry 25). -/
def State.issue (s : State) (w : Word) : Result :=
  if s.busy then .next s
  else if isBuildTables w && s.otherBusy then .refused (.buildWhileBusy s.cur)
  else .next { s with inst := { s.inst with running := some w } }

/-- The host writes the low `bytes` bytes of `v` at `off` of the instance in hand. While it is busy, a write to anything but
`CMD` is a protocol violation (R99, R521), to an offset that holds nothing too (log entry 35). -/
def State.busWrite (s : State) (off bytes : Nat) (v : Word) : Result :=
  if off = 0 then s.issue v
  else if s.busy then .refused (.writeWhileBusy (s.base + off))
  else if configOffset off then
    if s.otherBusy then .refused (.configWhileBusy (s.base + off)) else .next (s.writeConfig off v)
  else if off < 0x040 then .next s
  else .next (s.writeBuffer off (leBytes bytes v.toNat))

/-- An access at a host bus address: the instance it falls on in hand, the offset in its register space (R93, R485). -/
def State.access (s : State) (addr bytes : Nat) (f : State → Nat → Result) : Result :=
  let k := addr / instanceStride
  let off := addr % instanceStride
  if !instanceExists k then .refused (.noSuchInstance k)
  else if !accessLegal off bytes then .refused (.accessWidth addr bytes)
  else f (s.focus k) off

end Sys2Proof.Machine
end

