-- ==== Sys2Proof/Machine/Encoder.lean ====
section
/-! DEFINITION. 44_encoder.md: the image block (R401), the constant-color shortcut (R405), the candidate set (R410,
R432), the error (R425) and its binary64 form (R53), the selection (R413, R415). -/

namespace Sys2Proof.Machine

/-! ## The image block and the weights -/

/-- The working object of R76 and R401: the texels `v[t][c]`, their UNORM16 form `u`, their float form `f`, the extremes
of each channel of `u`, the grayscale flag. -/
structure ImageBlock where
  v : List (Rgba Byte)
  u : List (Rgba Nat)
  f : List (Rgba ℚ)
  lo : Rgba Nat
  hi : Rgba Nat
  gray : Bool
  deriving DecidableEq, Repr

/-- `257 * v` (R401). -/
def unorm16 (v : Byte) : Nat := 257 * v.toNat

/-- `v / 255` (R401). -/
def floatForm (v : Byte) : ℚ := v.toNat / 255

/-- Channel `c` of a list of colors. -/
def channel {α : Type} (l : List (Rgba α)) (c : Nat) : List α := l.map fun x => x.chan c

def minOf (l : List Nat) : Nat := l.foldr min (l.headD 0)

def maxOf (l : List Nat) : Nat := l.foldr max 0

/-- `image_block(TEXIN)` (R401). -/
def imageBlock (texels : List (Rgba Byte)) : ImageBlock :=
  let u := texels.map fun x => x.map unorm16
  { v := texels
    u := u
    f := texels.map fun x => x.map floatForm
    lo := Rgba.ofFn fun c => minOf (channel u c)
    hi := Rgba.ofFn fun c => maxOf (channel u c)
    gray := texels.all fun x => x.r == x.g && x.g == x.b }

/-- `cw(t, S)`: the weight of a texel over a set of channels (R402). -/
def combinedWeight (w : Rgba Nat) (channels : List Nat) : Nat := (channels.map w.chan).sum

/-- A texel whose four weights are 0 (R402). -/
def zeroWeight (w : Rgba Nat) : Bool := w.toList.all (· == 0)

/-! ## The constant-color shortcut -/

/-- `V_c` (R405). -/
def midColor (blk : ImageBlock) : Rgba Nat := Rgba.ofFn fun c => (blk.lo.chan c + blk.hi.chan c) / 2

/-- `const_ok(blk, tol)` (R405). -/
def constOk (blk : ImageBlock) (tol : Nat) : Bool :=
  [0, 1, 2, 3].all fun c =>
    blk.hi.chan c - (midColor blk).chan c ≤ tol && (midColor blk).chan c - blk.lo.chan c ≤ tol

/-- `const_sym(blk)` (R405). -/
def constSym (blk : ImageBlock) : Sym := .const false ((midColor blk).map (BitVec.ofNat 16))

/-! ## The error -/

/-- The 16-bit values a decoder reconstructs at texel `t` (R425). -/
def reconstructed (fp : Footprint) (profile : Profile) (s : Sym) (t : Nat) : Rgba Nat :=
  match s with
  | .error => ⟨0, 0, 0, 0⟩
  | .const _ color => color.map BitVec.toNat
  | .normal n =>
    match blockMode fp n.mode.toNat with
    | none => ⟨0, 0, 0, 0⟩
    | some b => texel16 fp profile b n t

/-- `err(s)` in units of 2^-149, exactly (R19, R425). -/
def weightedError (inp : SearchInput) (s : Sym) : Nat :=
  ((List.range inp.texels.length).map fun t =>
    let w := inp.weights.getD t ⟨0, 0, 0, 0⟩
    let v := inp.texels.getD t ⟨0, 0, 0, 0⟩
    let C := reconstructed ⟨inp.bw, inp.bh⟩ inp.profile s t
    ([0, 1, 2, 3].map fun c => w.chan c * absDiff (C.chan c) (unorm16 (v.chan c)) ^ 2).sum).sum

/-- `to_binary64(err)` of a number of units of 2^-149: exact where it can be, else the value below or above as
`err_round` says (R53, R425; log entry 17). -/
def toBinary64 (units : Nat) : BitVec 64 :=
  if units = 0 then 0
  else
    let top := Nat.log2 units
    let exponent := (top + 874) * 2 ^ 52
    if top ≤ 52 then BitVec.ofNat 64 (exponent + (units * 2 ^ (52 - top) - 2 ^ 52))
    else
      let shift := top - 52
      let up := if units % 2 ^ shift = 0 then 0 else (Config.errRoundUp units).toNat
      BitVec.ofNat 64 (exponent + (units / 2 ^ shift - 2 ^ 52) + up)

/-! ## The candidate set -/

/-- The modes a candidate may use: those `permit_encode` allows, or, where it allows none, every valid mode (R410
condition 1, R432; log entry 15). -/
def allowedMode (inp : SearchInput) (m : Nat) : Bool :=
  let fp : Footprint := ⟨inp.bw, inp.bh⟩
  if (List.range Config.blockModeCount).any (permitEncode fp inp.cut) then permitEncode fp inp.cut m
  else (blockMode fp m).isSome

/-- Condition 2 of R410. -/
def partitioningAllowed (fp : Footprint) (n : NormalSym) : Bool :=
  n.pc == 1 || encodablePartitioning fp n.pc n.partIndex.toNat

/-- R427: `MATCHED` is 1 iff all CEMs are equal. -/
def matchedAsEmitted (n : NormalSym) : Bool := n.matched == (cemNats n).all (· == (cemNats n).headD 0)

/-- `Cand` (R410, R432). -/
def isCandidate (inp : SearchInput) (n : NormalSym) : Bool :=
  let fp : Footprint := ⟨inp.bw, inp.bh⟩
  normalWf fp n && allowedMode inp n.mode.toNat && partitioningAllowed fp n && !usesHdr n && matchedAsEmitted n

/-- The one-partition block of CEM 0 with all values 0 in mode `m`, a candidate wherever `m` is allowed. -/
def plainCandidate (fp : Footprint) (m : Nat) : NormalSym :=
  match blockMode fp m with
  | none => default
  | some b =>
    let size := b.grid.w * b.grid.h
    { mode := BitVec.ofNat 11 m
      partIndex := 0
      matched := true
      ccs := 0
      cq := BitVec.ofNat 5 ((colorLevel 2 (colorEnd b.weightBits 1 true b.dual - colorStart 1)).getD 0)
      cems := [0]
      colors := [0, 0]
      w0 := List.replicate size 0
      w1 := if b.dual then List.replicate size 0 else [] }

/-- A candidate that is there whatever `search_policy` proposes (R411, R432; log entry 15). -/
def someCandidate (inp : SearchInput) : NormalSym :=
  plainCandidate ⟨inp.bw, inp.bh⟩ (((List.range Config.blockModeCount).find? (allowedMode inp)).getD 0)

/-- The evaluated set `E`, a part of `Cand` and not empty (R412, R432; log entry 15). -/
def evaluated (inp : SearchInput) : List NormalSym :=
  match (Config.searchPolicy inp).filter (isCandidate inp) with
  | [] => [someCandidate inp]
  | E => E

/-! ## Selection -/

/-- `key(s)`: the packed block as a number (R413). -/
def packKey (fp : Footprint) (n : NormalSym) : Nat := (packBlock fp (.normal n)).toNat

/-- Whether an error counts as equal to the least one (R413, R415; log entry 16). -/
def nearLeast (least err : Nat) : Bool := (err - least) * (Config.epsTieDen + 1) ≤ Config.epsTieNum * least

/-- The first block of least `cost` of a list that starts with `best`. Blocks that differ only in the `CCS` of a single
plane have one cost, and R413 does not choose between them: that the first of the list is taken is the model's choice
(log entry 34). -/
def leastOf (cost : NormalSym → Nat × Nat) : NormalSym → List NormalSym → NormalSym
  | best, [] => best
  | best, n :: rest => leastOf cost (if beats (cost n) (cost best) then n else best) rest

/-- The least `(PC, key)` of the blocks of `E` whose error counts as least (R415). -/
def selectFrom (inp : SearchInput) (E : List NormalSym) : NormalSym :=
  let err := fun n => weightedError inp (.normal n)
  let least := minOf (E.map err)
  match E.filter fun n => nearLeast least (err n) with
  | [] => default
  | n :: rest => leastOf (fun k => (k.pc, packKey ⟨inp.bw, inp.bh⟩ k)) n rest

/-- `search(blk, EWB, config)` (R413, R415). -/
def search (inp : SearchInput) : Sym := .normal (selectFrom inp (evaluated inp))

/-- The block ENCODE_BLOCK emits (R400, R406). -/
def encodedSym (inp : SearchInput) (tol : Nat) : Sym :=
  let blk := imageBlock inp.texels
  if constOk blk tol then constSym blk else search inp

/-! ## Monotonicity (R430) -/

/-- The same block encoded at another quality: the cutoffs `quality_map` gives (R54). -/
def inputAtQuality (inp : SearchInput) (q : BitVec 8) : SearchInput :=
  { inp with
    plimit := Config.qualityPlimit (effectiveQuality q)
    cut := BitVec.ofNat 17 (Config.qualityCut (effectiveQuality q)).val
    iters := Config.qualityIters (effectiveQuality q) }

/-- `err(ENCODE at CFG_QUALITY = q)`, exactly (R425, R430). -/
def errorAtQuality (inp : SearchInput) (tol : Nat) (q : BitVec 8) : Nat :=
  weightedError (inputAtQuality inp q) (encodedSym (inputAtQuality inp q) tol)

/-- R430 for one block and two qualities. -/
def monotoneAt (inp : SearchInput) (tol : Nat) (q1 q2 : BitVec 8) : Prop :=
  q1.toNat ≤ q2.toNat → errorAtQuality inp tol q2 ≤ errorAtQuality inp tol q1

/-- R430, the joint requirement on `quality_map` and `search_policy`: a hypothesis on the two parameters, assumed
nowhere in the model (log entry 13). -/
def qualityMonotone : Prop := ∀ inp tol q1 q2, monotoneAt inp tol q1 q2

end Sys2Proof.Machine
end

