-- ==== Sys2Proof/Machine/BlockCommands.lean ====
section
/-! DEFINITION. The commands on a block: PACK and UNPACK (R290, R291) with the physical-block layouts UNPACK reads
(R135, R136), DECODE_TEXELS (R350), ENCODE_BLOCK (R400). -/

namespace Sys2Proof.Machine

/-! ## PACK and UNPACK -/

/-- `PACK` (R290). An error block is not well formed (R320). -/
def execPack (s : State) : Result :=
  s.withTables fun fp => s.withSym fp fun sym =>
    if symWf fp sym then (s.writePhys (packBlock fp sym)).complete else s.raise .badOperand

/-- `SYM <- s` or the error block, with `STATUS.ERRBLK` (R291). -/
def State.unpacked (s : State) (sym : Sym) : State := (s.writeSym sym).setErrblk (sym == .error)

/-- `UNPACK` (R291). -/
def execUnpack (s : State) : Result :=
  s.withTables fun fp => withBytes s.readPhys fun blk => (s.unpacked (readBlock fp blk)).complete

/-- UNPACK of a void-extent block (R136, R292; log entry 20). -/
def execPhysVoidExtent (format : BitVec 1) (reserved : BitVec 2) (sMin sMax tMin tMax : BitVec 13)
    (r g b a : BitVec 16) (s : State) : Result :=
  s.withTables fun _ =>
    (s.unpacked (readVoidExtent (voidExtentBlock format reserved sMin sMax tMin tMax r g b a))).complete

/-- UNPACK of a block with one partition (R135, R294 to R319; log entry 20). -/
def execPhysNormal1p (mode : BitVec 11) (cem : BitVec 4) (body : BitVec 111) (s : State) : Result :=
  s.withTables fun fp => (s.unpacked (readNormal fp (normal1pBlock mode cem body))).complete

/-- UNPACK of a block with several partitions (R135, R294 to R319; log entry 20). -/
def execPhysNormalMp (mode : BitVec 11) (pcMinus1 : BitVec 2) (partIndex : BitVec 10) (cemLow : BitVec 6)
    (body : BitVec 99) (s : State) : Result :=
  s.withTables fun fp => (s.unpacked (readNormal fp (normalMpBlock mode pcMinus1 partIndex cemLow body))).complete

/-! ## DECODE_TEXELS -/

/-- `DECODE_TEXELS` (R350). `ERRBLK` is cleared for a constant block as for a normal one: R350's layout leaves the constant
arm open, and the model takes R46's meaning of the flag (log entry 33). -/
def execDecodeTexels (outKind : BitVec 2) (s : State) : Result :=
  s.withTables fun fp =>
    if outKind ≠ 0 then s.raise .unsupportedOutput
    else s.withSym fp fun sym =>
      ((s.writeTexout (decodedTexels fp s.profile s.cfgErrorColor sym)).setErrblk
        (blockIsError s.profile sym)).complete

/-! ## ENCODE_BLOCK -/

/-- What `search` works on (R400, R412). -/
def State.searchInput (s : State) (fp : Footprint) (texels : List (Rgba Byte)) (ewb : List Nat) : SearchInput where
  bw := fp.bw
  bh := fp.bh
  profile := s.profile
  plimit := s.effPlimit
  cut := s.effCut
  iters := s.effIters
  texels := texels
  weights := groupFour (ewb.map weightUnits)

/-- The results of ENCODE_BLOCK: `SYM`, `ERR_OUT`, and `PHYS` with the pack flag (R400). With `SYM` it stores
`SYM_CTRL.ERROR = 0`, as R405 and R410 have it, where R77 does not count ENCODE_BLOCK among the writers of `ERROR`: the
model's choice (log entry 37). -/
def State.encoded (s : State) (fp : Footprint) (pack : Bool) (inp : SearchInput) : State :=
  let sym := encodedSym inp s.cfgConstTol.toNat
  let t := s.writeSym sym
  let t := { t with inst := { t.inst with errOut := toBinary64 (weightedError inp sym) } }
  if pack then t.writePhys (packBlock fp sym) else t

/-- `ENCODE_BLOCK` (R400). -/
def execEncodeBlock (pack : BitVec 1) (inKind : BitVec 2) (s : State) : Result :=
  s.withTables fun fp =>
    if inKind ≠ 0 then s.raise .unsupportedInput
    else withBytes (s.readEwb fp.texels) fun ewb =>
      if ewb.all weightLegal then
        withBytes (s.readTexin fp.texels) fun texels =>
          (s.encoded fp (pack == 1) (s.searchInput fp texels ewb)).complete
      else s.raise .badOperand

end Sys2Proof.Machine
end

