-- ==== Sys2Proof/Machine/Dispatch.lean ====
section
/-! DEFINITION. One arm per constructor of Instr: each calls its instruction's own meaning. -/

namespace Sys2Proof.Machine

def exec (i : Instr) (s : State) : Host.Outcome State Fault Refusal :=
  match i with
  | .nop => Sys2Proof.Machine.execNop s
  | .buildTables => Sys2Proof.Machine.execBuildTables s
  | .encodeBlock p k => Sys2Proof.Machine.execEncodeBlock p k s
  | .pack => Sys2Proof.Machine.execPack s
  | .unpack => Sys2Proof.Machine.execUnpack s
  | .decodeTexels k => Sys2Proof.Machine.execDecodeTexels k s
  | .iseBitcount n q => Sys2Proof.Machine.execIseBitcount n q s
  | .qlookup q t k => Sys2Proof.Machine.execQlookup q t k s
  | .plookup n k c => Sys2Proof.Machine.execPlookup n k c s
  | .modeinfo m => Sys2Proof.Machine.execModeinfo m s
  | .dlookup d t e g => Sys2Proof.Machine.execDlookup d t e g s
  | .reservedOp o x => Sys2Proof.Machine.execReservedOp o x s
  | .physVoidExtent f v s0 s1 t0 t1 r g b a => Sys2Proof.Machine.execPhysVoidExtent f v s0 s1 t0 t1 r g b a s
  | .physNormal1p m c x => Sys2Proof.Machine.execPhysNormal1p m c x s
  | .physNormalMp m n p c x => Sys2Proof.Machine.execPhysNormalMp m n p c x s

end Sys2Proof.Machine
end

