-- ==== Sys2Proof/Machine/Moves.lean ====
section
/-! DEFINITION. One move: a host access, a poll, the completion of a running command, the reset of the unit. -/

namespace Sys2Proof.Machine

/-- The running command word of the instance in hand, run from issue to completion: decoded, then its meaning, or
ILLEGAL_COMMAND where the decoder rejects it (R123, R471, R530). An idle instance has nothing to complete. -/
def State.runCommand (s : State) : Result :=
  match s.inst.running with
  | none => .next s
  | some w =>
    match decode (bytesOfWord w) with
    | .ok i => exec i s
    | .error _ => illegalCommand s

/-- The first busy instance other than the one in hand. -/
def State.firstBusyOther (s : State) : Option Nat := (s.others.find? fun e => e.2.running.isSome).map Prod.fst

/-- The instance whose command completes before that of the instance in hand: a BUILD_TABLES writes the tables only when no
other instance is busy, for which they are read-only (R486; log entry 25). -/
def State.waitsFor (s : State) : Option Nat :=
  if s.inst.running.any isBuildTables then s.firstBusyOther else none

/-- The running command of the instance in hand completes, or first that of the instance it waits for, `again` coming
next. -/
def State.completion (s : State) (again : List Move) : Result :=
  match s.waitsFor with
  | some j => (({ s with script := again } : State).focus j).runCommand
  | none => s.runCommand

/-- The whole unit reset (R511): a running command is abandoned; what the host does next stays as it is. -/
def State.afterReset (s : State) : State :=
  { State.reset with script := s.script, rdata := s.rdata, draws := s.draws, epoch := s.epoch + 1 }

/-- `rd 0x004` repeated until `BUSY = 0` (R125): a busy instance reads busy `busyReads` times more and then completes. -/
def State.poll (s : State) (busyReads : Nat) : Result :=
  let t := s.busRead 0x004 4
  if s.busy then
    match busyReads with
    | 0 => .next { t with script := .complete s.cur :: .poll s.cur 0 :: s.script }
    | n + 1 => .next { t with script := .poll s.cur n :: s.script }
  else .next t

/-- What a move does, already taken from the script. -/
def State.move (s : State) : Move → Result
  | .read addr bytes => s.access addr bytes fun t off => .next (t.busRead off bytes)
  | .write addr bytes v => s.access addr bytes fun t off => t.busWrite off bytes v
  | .poll k n => if instanceExists k then (s.focus k).poll n else .refused (.noSuchInstance k)
  | .complete k =>
    if instanceExists k then (s.focus k).completion (.complete k :: s.script) else .refused (.noSuchInstance k)
  | .reset => .next s.afterReset

/-- An instance that is busy, the one in hand first. -/
def State.busyInstance (s : State) : Option Nat := if s.busy then some s.cur else s.firstBusyOther

/-- With nothing scheduled, a running command completes (R531), and an idle unit keeps its state (R484). -/
def State.settle (s : State) : Result :=
  match s.busyInstance with
  | some k => (s.focus k).completion []
  | none => .next s

end Sys2Proof.Machine
end

