-- ==== Sys2Proof/Machine/Step.lean ====
section
/-! DEFINITION. One step of the unit: the next move of the script, or with none left the completion of a running
command (log entries 1, 2). -/

namespace Sys2Proof.Machine

def step (s : State) : Host.Outcome State Fault Refusal :=
  match s.script with
  | [] => s.settle
  | m :: rest => State.move { s with script := rest } m

/-- The state with the instruction `w` where the next step fetches it: its word running in the instance in hand and
its completion next in the script; for a physical block, the block in `PHYS` and UNPACK running (log entry 2). A BUILD_TABLES waits there
for the other instances that are busy (log entry 25). -/
def State.withFetchWord (s : State) (nbits w : Nat) : State :=
  let bits := w % 2 ^ nbits
  let word : Word := if isCommandSize nbits then BitVec.ofNat 32 bits else 0x00000004#32
  let t := if isCommandSize nbits then s else s.store offPhys (tableBytes nbits w)
  { t with script := .complete s.cur :: s.script, inst := { s.inst with running := some word } }

end Sys2Proof.Machine
end

