-- ==== Sys2Proof/Machine/HostProtocol.lean ====
section
/-! DEFINITION. The host's side of the protocol, as functions: where a block stands in the stream (R100, R103), which
image texels it holds (R101, R102), which worker handles it (R487), and the moves that the pseudo-commands of R126 and
the boot order of R515 expand to. The unit enforces none of it. -/

namespace Sys2Proof.Machine

/-- `ceil(a / b)`. -/
def ceilDiv (a b : Nat) : Nat := (a + b - 1) / b

/-- An image to be coded: its size in texels and the footprint of its blocks. -/
structure ImageShape where
  width : Nat
  height : Nat
  fp : Footprint
  deriving DecidableEq, Repr

/-- Block columns of the image (R100). -/
def ImageShape.columns (im : ImageShape) : Nat := ceilDiv im.width im.fp.bw

/-- Block rows of the image: `ceil(height / bh)` (R100, 90_conflicts.md C2). -/
def ImageShape.rows (im : ImageShape) : Nat := ceilDiv im.height im.fp.bh

def ImageShape.blocks (im : ImageShape) : Nat := im.columns * im.rows

/-- Index of block `(bx, by)` in the stream (R100). -/
def ImageShape.blockIndex (im : ImageShape) (bx by' : Nat) : Nat := bx + by' * im.columns

/-- Stream offset of the block of an index (R100). -/
def streamOffset (i : Nat) : Nat := i * 16

/-- Size of the stream (R103). -/
def ImageShape.streamSize (im : ImageShape) : Nat := im.columns * im.rows * 16

/-- The image texel the host puts at `(x, y)` of block `(bx, by)`: past the edge, the nearest one (R101). -/
def ImageShape.sourceTexel (im : ImageShape) (bx by' x y : Nat) : Nat × Nat :=
  (min (bx * im.fp.bw + x) (im.width - 1), min (by' * im.fp.bh + y) (im.height - 1))

/-- Whether the host copies `TEXOUT` texel `(x, y)` of block `(bx, by)` back to the image (R102). -/
def ImageShape.writesBack (im : ImageShape) (bx by' x y : Nat) : Bool :=
  bx * im.fp.bw + x < im.width && by' * im.fp.bh + y < im.height

/-- The block indices worker `k` of `n` handles (R487). -/
def workerBlocks (total n k : Nat) : List Nat :=
  let chunk := ceilDiv total n
  List.range' (k * chunk) (min ((k + 1) * chunk) total - k * chunk)

/-! ## Moves (R125, R126, R515); `base` is the bus address of the instance, 0x2000 times its number (R485) -/

/-- `wr OFFSET, VALUE` of a register. -/
def wr (base off : Nat) (v : Word) : Move := .write (base + off) 4 v

/-- `rd OFFSET` of a register. -/
def rd (base off : Nat) : Move := .read (base + off) 4

/-- A command issued and polled to its end, with so many busy readings on the way. -/
def commandAndPoll (base : Nat) (w : Word) (busyReads : Nat) : List Move :=
  [wr base 0x000 w, .poll (base / 0x2000) busyReads]

/-- `CONFIGURE bw, bh, profile, quality` (R126). -/
def configureMoves (base bw bh profile quality busyReads : Nat) : List Move :=
  [wr base 0x008 (BitVec.ofNat 32 (bw ||| bh <<< 8)), wr base 0x00C (BitVec.ofNat 32 profile),
    wr base 0x010 (BitVec.ofNat 32 quality)] ++ commandAndPoll base 0x00000001#32 busyReads

/-- `ENCODE_PACK` (R126). -/
def encodePackMoves (base busyReads : Nat) : List Move := commandAndPoll base 0x00000102#32 busyReads

/-- `DECODE_PHYS` (R126). -/
def decodePhysMoves (base busyReads : Nat) : List Move :=
  commandAndPoll base 0x00000004#32 busyReads ++ commandAndPoll base 0x00000005#32 busyReads

/-- `ROUNDTRIP` (R126). -/
def roundtripMoves (base busyReads : Nat) : List Move :=
  commandAndPoll base 0x00000004#32 busyReads ++ commandAndPoll base 0x00000003#32 busyReads

end Sys2Proof.Machine
end

