-- ==== Sys2Proof/Safety.lean ====
section
/-! DEFINITION. What counts as a good state and a safe run: the invariants of the unit, in the terms the statements
use, and a run that neither faults nor is refused. -/

namespace Sys2Proof.Machine

/-- The memory of the buffers is in its canonical form (log entry 5). -/
def State.memoryCanonical (s : State) : Prop := Memory.wf s.mem

/-- Valid tables are those of the configuration, and the configuration is one that BUILD_TABLES accepts (R68); tables
left stale were built for a valid footprint. -/
def State.tablesMatchConfig (s : State) : Prop :=
  match s.tables with
  | .noValue => True
  | .stale fp => fp.valid = true
  | .valid fp => fp = s.cfgFootprint ∧ fp.valid = true ∧ s.profile ≠ .reserved

/-- No instance shows `INTERNAL_FAILURE` (R476). -/
def State.noInternalFailure (s : State) : Prop := ∀ k, (s.instOf k).code ≠ .internalFailure

/-- The list of the other instances is canonical, and every instance it names exists (log entry 12). -/
def State.instancesCanonical (s : State) : Prop :=
  (s.others.Pairwise fun x y => x.1 < y.1) ∧
  (∀ e ∈ s.others, e.1 ≠ s.cur ∧ e.2 ≠ Inst.reset ∧ instanceExists e.1 = true) ∧ instanceExists s.cur = true

/-- No two instances run BUILD_TABLES at once (R520). -/
def State.oneBuilder (s : State) : Prop :=
  ∀ j k, (s.instOf j).running = some 0x00000001 → (s.instOf k).running = some 0x00000001 → j = k

/-- Every byte held is a byte of a buffer, and the bits the register map does not name are 0 (R43, R57 to R60; log entry
10). -/
def State.reservedBitsZero (s : State) : Prop :=
  ∀ c ∈ s.mem, byteMask (c.1 % instanceStride) ≠ 0 ∧ c.2 &&& byteMask (c.1 % instanceStride) = c.2

/-- The invariants together. -/
structure State.Inv (s : State) : Prop where
  memory : s.memoryCanonical
  tables : s.tablesMatchConfig
  codes : s.noInternalFailure
  instances : s.instancesCanonical
  reserved : s.reservedBitsZero
  builds : s.oneBuilder

/-! ## What a command leaves alone -/

/-- The configuration registers are the same (R47 to R51). -/
def State.sameConfig (s t : State) : Prop :=
  t.cfgBw = s.cfgBw ∧ t.cfgBh = s.cfgBh ∧ t.cfgProfile = s.cfgProfile ∧ t.cfgQuality = s.cfgQuality ∧
    t.cfgConstTol = s.cfgConstTol ∧ t.cfgErrorColor = s.cfgErrorColor

/-- The table memory, `TABLES_VALID` and the effective cutoffs are the same (R54, R66, R68). -/
def State.sameTables (s t : State) : Prop :=
  t.tables = s.tables ∧ t.effPlimit = s.effPlimit ∧ t.effCut = s.effCut ∧ t.effIters = s.effIters

/-- The other instances and the host's side are the same. -/
def State.sameOutside (s t : State) : Prop :=
  t.cur = s.cur ∧ t.others = s.others ∧ t.script = s.script ∧ t.rdata = s.rdata ∧ t.draws = s.draws ∧
    t.epoch = s.epoch

/-- Every byte of the buffers of every instance reads as before, but for the bus addresses `stored`. -/
def State.sameBytesBut (s t : State) (stored : Nat → Prop) : Prop :=
  ∀ a, ¬stored a → t.mem.read a = s.mem.read a

/-- The bus addresses of the `SYM` bytes that hold something, which `SYM <- s` stores to (R56 to R62). -/
def State.symAddress (s : State) (a : Nat) : Prop :=
  ∃ off, a = s.base + off ∧ offSymCtrl ≤ off ∧ off < offSymW1 + 64 ∧ byteMask off ≠ 0

/-- The bus addresses of `n` bytes at an offset of the instance in hand. -/
def State.bytesAt (s : State) (off n : Nat) (a : Nat) : Prop := s.base + off ≤ a ∧ a < s.base + off + n

/-- The instance in hand after a command that ends with a code and writes no other register of it. -/
def Inst.ended (r : Inst) (c : Code) : Inst := { r with code := c, running := none }

/-! ## Completion (R486, R530, R531) -/

/-- The next step is to complete the command of the instance that `u` has in hand: as the script says; or, with nothing
scheduled, as the instance in hand is busy, or else as that is the first one that is (log entry 1). With `again` next, it
is asked for once more. -/
inductive State.AsksFor (s : State) : State → List Move → Prop
  | scheduled {k : Nat} {rest : List Move} (hs : s.script = .complete k :: rest) (hk : instanceExists k = true) :
    s.AsksFor (({ s with script := rest } : State).focus k) (.complete k :: rest)
  | inHand (hs : s.script = []) (hb : s.busy = true) : s.AsksFor s []
  | firstBusy {before after : List (Nat × Inst)} {k : Nat} {r : Inst} (hs : s.script = []) (hb : s.busy = false)
    (ho : s.others = before ++ (k, r) :: after) (hf : ∀ e ∈ before, e.2.running = none) (hr : r.running ≠ none) :
    s.AsksFor (s.focus k) []

/-- The next step completes the running command word `w` of the instance that `u` has in hand: the one it is asked for; or,
if that is a BUILD_TABLES and another instance is busy, first the command of that one (R486; log entry 25). -/
inductive State.CompletesIn (s : State) : State → Word → Prop
  | itself {u : State} {again : List Move} {w : Word} (ha : s.AsksFor u again) (hw : u.inst.running = some w)
    (hi : w ≠ 0x00000001 ∨ ∀ e ∈ u.others, e.2.running = none) : s.CompletesIn u w
  | before {u : State} {again : List Move} {before after : List (Nat × Inst)} {j : Nat} {r : Inst} {w : Word}
    (ha : s.AsksFor u again) (hb : u.inst.running = some 0x00000001) (ho : u.others = before ++ (j, r) :: after)
    (hf : ∀ e ∈ before, e.2.running = none) (hr : r.running ≠ none) (hw : (u.instOf j).running = some w) :
    s.CompletesIn (({ u with script := again } : State).focus j) w

/-! ## Terms of the encoding rules -/

/-- The operand bits that the opcode's row of R121 does not name. -/
def unnamedBits (op : Nat) : Word :=
  match op with
  | 0x00 | 0x01 | 0x03 | 0x04 => 0xFFFFFF00
  | 0x02 => 0xFFFFF800
  | 0x05 => 0xFFFFF900
  | 0x06 => 0xFFE00000
  | 0x07 => 0x18E00000
  | 0x08 => 0x00380000
  | 0x09 => 0xFFF80000
  | 0x0A => 0x7C000000
  | _ => 0

/-- Whether a command needs the tables (R470, the row of NOT_CONFIGURED); the physical blocks do, as UNPACK does. -/
def usesTables : Instr → Bool
  | .nop | .buildTables | .iseBitcount _ _ | .reservedOp _ _ => false
  | .encodeBlock _ _ | .pack | .unpack | .decodeTexels _ | .qlookup _ _ _ | .plookup _ _ _ | .modeinfo _
  | .dlookup _ _ _ _ => true
  | .physVoidExtent _ _ _ _ _ _ _ _ _ _ | .physNormal1p _ _ _ | .physNormalMp _ _ _ _ _ => true

/-- A symbolic block on the fields in use (R325): `MATCHED` says nothing of a block with one partition, which always
has the shared form (R296), and `CCS` nothing of one with a single plane (R57). -/
def symInUse (fp : Footprint) : Sym → Sym
  | .normal n => .normal { n with
      matched := n.matched || n.pc == 1
      ccs := if ((blockMode fp n.mode.toNat).map BlockMode.dual).getD false then n.ccs else 0 }
  | s => s

/-- A run that goes on for ever without a fault or a refusal. -/
def State.Safe (s : State) : Prop := ∀ k, ∃ t : State, Host.Core.run Sys2Proof.core k s = .next t

end Sys2Proof.Machine
end

