-- ==== Sys2Proof/Certificates/Slice0/Obligations.lean ====
section
/-! DEFINITION. The statements for the provers, in the order of spec/: reset and the machine's steps, encodings, the bus,
the table commands, the transcoder, reconstruction, the encoder, whole-machine rules, invariants. -/

section Slice0Obligations

open Sys2Proof Sys2Proof.Machine

/-! ## Reset and steps -/

/-- R510: every instance shows the reset values, no buffer byte holds a value, no tables, no command. -/
def Obligations.ResetState : Prop :=
  ∀ k, let s := State.reset.focus k
    s.statusWord = 0 ∧ s.readControl 0x000 = 0 ∧ s.readControl 0x008 = 0x00000404 ∧ s.readControl 0x00C = 1 ∧
    s.readControl 0x010 = 50 ∧ s.readControl 0x014 = 0 ∧ s.readControl 0x018 = 0xFF808080 ∧
    s.readControl 0x01C = 0 ∧ s.readControl 0x020 = 0 ∧ s.readControl 0x024 = 0 ∧ s.readControl 0x028 = 0 ∧
    s.readControl 0x02C = 0 ∧ s.readControl 0x030 = 0 ∧ s.inst.running = none ∧ s.tables = .noValue ∧
    ∀ a, s.mem.read a = none

/-- R511: reset puts the whole unit in its reset state whatever was running, and no command is a reset. The model's own
fields `script`, `rdata`, `draws`, `epoch` go on (log entries 11, 29). -/
def Obligations.ResetAbandonsAll : Prop :=
  (∀ (s : State) rest, s.script = .reset :: rest →
    step s = .next { State.reset with script := rest, rdata := s.rdata, draws := s.draws, epoch := s.epoch + 1 }) ∧
  ∀ i (s t : State), exec i s = .next t → t.epoch = s.epoch

/-- A step that completes a running command is exec of the instruction its word decodes to, with its instance in hand: as
the script says, or with nothing scheduled that of the instance in hand or else of the first busy one. R486: a BUILD_TABLES
beside a busy instance lets the command of that one complete first (log entry 25). -/
def Obligations.StepRunsDecoded : Prop :=
  ∀ (s u : State) w i, s.CompletesIn u w → decode (bytesOfWord w) = .ok i → step s = exec i u

/-- R484 and R531: an idle unit with nothing scheduled keeps its state; a busy one completes a command in one step, that of
the instance in hand, or if that is idle the command of the first busy instance; a command that ends leaves its instance
idle. That a unit with nothing scheduled completes its commands in this order, but for a BUILD_TABLES that waits (log entry
25), is the model's choice (log entry 1). -/
def Obligations.IdleKeepsBusyEnds : Prop :=
  (∀ s : State, s.script = [] → s.busy = false → s.otherBusy = false → step s = .next s) ∧
  (∀ s t : State, s.script = [] → s.busy = true → step s = .next t → t.busy = false) ∧
  (∀ (s : State) before k r after w i, s.script = [] → s.busy = false → s.others = before ++ (k, r) :: after →
    k ≠ s.cur → (∀ e ∈ before, e.1 ≠ k ∧ e.2.running = none) → r.running = some w →
    (w ≠ 0x00000001 ∨ ∀ e ∈ after, e.2.running = none) → decode (bytesOfWord w) = .ok i →
    step s = exec i (s.focus k)) ∧
  ∀ i (s t : State), exec i s = .next t → t.busy = false

/-! ## Encodings -/

/-- Words written out from R121, R122, R135, R136, least significant byte first. -/
def Obligations.WordsDecode : Prop :=
  decode [0x02, 0x01, 0x00, 0x00] = .ok (.encodeBlock 1 0) ∧
  decode [0x05, 0x04, 0x00, 0x00] = .ok (.decodeTexels 2) ∧
  decode [0x06, 0x10, 0x07, 0x00] = .ok (.iseBitcount 16 7) ∧
  decode [0x07, 0x34, 0x0B, 0x63] = .ok (.qlookup 11 3 0x334) ∧
  decode [0x08, 0x05, 0x82, 0x09] = .ok (.plookup 2 0x205 9) ∧
  decode [0x09, 0x42, 0x05, 0x00] = .ok (.modeinfo 0x542) ∧
  decode [0x0A, 0x03, 0x05, 0x82] = .ok (.dlookup 3 5 2 1) ∧
  decode [0x0B, 0xFF, 0x00, 0x00] = .ok (.reservedOp 0x0B 0xFF) ∧
  decode [0xFC, 0xFD, 0xFF, 0xFF, 0xFF, 0xFF, 0xFF, 0xFF, 0xFF, 0xFF, 0, 0, 0, 0, 0xFF, 0xFF] =
    .ok (.physVoidExtent 0 3 0x1FFF 0x1FFF 0x1FFF 0x1FFF 0xFFFF 0 0 0xFFFF) ∧
  decode [0x42, 0x00, 0x01, 0xFE, 0x01, 0xFE, 0x01, 0xFE, 0x01, 0, 0, 0, 0xFF, 0xFF, 0, 0] =
    .ok (.physNormal1p 0x042 8 0x7FFF80000000FF00FF00FF00)

/-- Decode and encode agree: every well-formed instruction is what its own bytes decode to, and every instruction
decoded is well formed and has those bytes. -/
def Obligations.DecodeEncode : Prop :=
  (∀ i : Instr, i.wf = true → decode (encode i) = .ok i) ∧
  ∀ bs i, decode bs = .ok i → i.wf = true ∧ encode i = bs

/-- R123: a reserved opcode, or a set operand bit its row does not name, does nothing but report ILLEGAL_COMMAND; every
other word is a command. On any instance, scheduled or not. -/
def Obligations.IllegalCommands : Prop :=
  (∀ (s u : State) w, s.CompletesIn u w →
    ((w.extractLsb' 0 8).toNat ≥ 0x0B ∨ w &&& unnamedBits (w.extractLsb' 0 8).toNat ≠ 0) →
    step s = .next { u with inst := u.inst.ended .illegalCommand }) ∧
  (∀ w : Word, (w.extractLsb' 0 8).toNat < 0x0B → w &&& unnamedBits (w.extractLsb' 0 8).toNat = 0 →
    ∃ i, decode (bytesOfWord w) = .ok i ∧ ∀ op x, i ≠ .reservedOp op x) ∧
  ∀ op x (s : State), exec (.reservedOp op x) s = .next { s with inst := s.inst.ended .illegalCommand }

/-! ## The host's accesses -/

/-- R45, R99, R520, R522: a word written to CMD starts if the instance is idle, whatever the other instances run, and is
dropped if it is busy; only a BUILD_TABLES while another instance is busy is a protocol violation. That a command starts
beside a BUILD_TABLES of another instance, which waits for it, is the model's reading of R45 and R486 (log entry 25). -/
def Obligations.IssueCommand : Prop :=
  ∀ (s : State) w rest, s.script = .write s.base 4 w :: rest → instanceExists s.cur = true →
    (s.busy = true → step s = .next { s with script := rest }) ∧
    (s.busy = false → (w ≠ 0x00000001 ∨ ∀ e ∈ s.others, e.2.running = none) →
      step s = .next { s with script := rest, inst := { s.inst with running := some w } }) ∧
    (s.busy = false → w = 0x00000001 → (∃ e ∈ s.others, e.2.running ≠ none) →
      step s = .refused (.buildWhileBusy s.cur))

/-- R43, R45 to R54: STATUS as read, busy or not, with the code numbers of R470; the other control registers as an idle
instance reads them; CMD and the offsets that hold nothing read 0 (R42). Reading changes nothing. That the bits above the
fields of CFG_QUALITY, CFG_CONST_TOL and the EFF registers read 0 is the model's choice (log entry 36). -/
def Obligations.RegistersRead : Prop :=
  (∀ (s : State) rest, s.script = .read (s.base + 0x004) 4 :: rest → instanceExists s.cur = true →
    ∃ v : Word, step s = .next { s with script := rest, rdata := v } ∧
      (v.extractLsb' 0 4).toNat = s.inst.code.toNat ∧ v.extractLsb' 4 4 = 0 ∧
      v.extractLsb' 8 1 = BitVec.ofBool s.inst.running.isSome ∧
      (v.extractLsb' 9 1 = 1 ↔ ∃ fp, s.tables = .valid fp) ∧
      v.extractLsb' 10 1 = BitVec.ofBool s.inst.errblk ∧ v.extractLsb' 11 21 = 0) ∧
  [Code.ok, .unsupportedInput, .unsupportedOutput, .internalFailure, .configError, .notConfigured, .illegalCommand,
    .badOperand].map Code.toNat = [0, 1, 2, 3, 4, 5, 6, 7] ∧
  ∀ (s : State) off rest, s.script = .read (s.base + off) 4 :: rest → instanceExists s.cur = true →
    s.busy = false → off < 0x040 → off % 4 = 0 →
    ∃ v : Word, step s = .next { s with script := rest, rdata := v } ∧
      (off = 0x008 → v = 0#20 ++ s.cfgBh ++ 0#4 ++ s.cfgBw) ∧
      (off = 0x00C → v = 0#30 ++ s.cfgProfile) ∧
      (off = 0x010 → v = 0#24 ++ s.cfgQuality) ∧
      (off = 0x014 → v = 0#16 ++ s.cfgConstTol) ∧
      (off = 0x018 → v = s.cfgErrorColor.a ++ s.cfgErrorColor.b ++ s.cfgErrorColor.g ++ s.cfgErrorColor.r) ∧
      (off = 0x01C → v = s.inst.result) ∧
      (off = 0x020 → v = s.inst.errOut.extractLsb' 0 32) ∧
      (off = 0x024 → v = s.inst.errOut.extractLsb' 32 32) ∧
      (off = 0x028 → v = 0#16 ++ s.effPlimit) ∧
      (off = 0x02C → v = 0#15 ++ s.effCut) ∧
      (off = 0x030 → v = 0#24 ++ s.effIters) ∧
      (off = 0x000 ∨ off > 0x030 → v = 0)

/-- R47 to R51, R68, R98: a configuration write with every instance idle, and which ones clear TABLES_VALID. R520: one
through an idle instance while another is busy is a protocol violation. That the bits no field names are dropped is the
model's choice but for CFG_FOOTPRINT (log entry 36). -/
def Obligations.ConfigWrite : Prop :=
  (∀ (s : State) off v rest, s.script = .write (s.base + off) 4 v :: rest → instanceExists s.cur = true →
    s.busy = false → s.otherBusy = false →
    (off = 0x008 → step s = .next { s with
      script := rest, tables := s.tables.invalidate, cfgBw := v.extractLsb' 0 4, cfgBh := v.extractLsb' 8 4 }) ∧
    (off = 0x00C → step s = .next { s with
      script := rest, tables := s.tables.invalidate, cfgProfile := v.extractLsb' 0 2 }) ∧
    (off = 0x010 → step s = .next { s with
      script := rest, tables := s.tables.invalidate, cfgQuality := v.extractLsb' 0 8 }) ∧
    (off = 0x014 → step s = .next { s with script := rest, cfgConstTol := v.extractLsb' 0 16 }) ∧
    (off = 0x018 → step s = .next { s with
      script := rest
      cfgErrorColor := ⟨v.extractLsb' 0 8, v.extractLsb' 8 8, v.extractLsb' 16 8, v.extractLsb' 24 8⟩ })) ∧
  (∀ (s : State) off v rest, s.script = .write (s.base + off) 4 v :: rest → instanceExists s.cur = true →
    s.busy = false → s.otherBusy = true → off ∈ [0x008, 0x00C, 0x010, 0x014, 0x018] →
    step s = .refused (.configWhileBusy (s.base + off))) ∧
  ∀ t : TableMem, t.invalidate.isValid = false

/-- R42, R43, R64, R93: a write to a read-only register or buffer, or where nothing is held, changes nothing; a read
where nothing is held gives 0. Of every width that is an access there; which those are where nothing is held is the
model's reading of R96 (log entry 22). -/
def Obligations.NothingHeld : Prop :=
  (∀ (s : State) off bytes v rest, s.script = .write (s.base + off) bytes v :: rest → instanceExists s.cur = true →
    s.busy = false → accessLegal off bytes = true → off < instanceStride →
    (off = 0x004 ∨ (0x01C ≤ off ∧ off < 0x040) ∨ (0x050 ≤ off ∧ off < 0x100) ∨ (0x1C0 ≤ off ∧ off < 0x400) ∨
      (0x640 ≤ off ∧ off < 0x1000) ∨ 0x1900 ≤ off) →
    step s = .next { s with script := rest }) ∧
  ∀ (s : State) off bytes rest, s.script = .read (s.base + off) bytes :: rest → instanceExists s.cur = true →
    s.busy = false → accessLegal off bytes = true → off < instanceStride →
    ((0x034 ≤ off ∧ off < 0x040) ∨ (0x050 ≤ off ∧ off < 0x100) ∨ (0x1C0 ≤ off ∧ off < 0x400) ∨
      (0x640 ≤ off ∧ off < 0x800) ∨ (0xA40 ≤ off ∧ off < 0x1000) ∨ 0x1900 ≤ off) →
    step s = .next { s with script := rest, rdata := 0 }

/-- R96, R97, R99, R521: which widths and alignments are accesses; any other is refused, and a read of an allowed one
always answers. While the instance is busy a read of any register but STATUS gives a free value and nothing else
changes, and a write to anything but CMD is a protocol violation; that offsets which hold nothing are among them, busy or
not, is the model's choice (log entries 22, 35). R485: an access to instance `k` is one with `k` in hand, and bringing it
in hand changes no register, buffer or table of any instance. -/
def Obligations.AccessRules : Prop :=
  (∀ (s : State) k off bytes rest, instanceExists k = true → off < instanceStride →
    let allowed := if off < 0x040 then bytes = 4 ∧ off % 4 = 0
      else bytes = 1 ∨ (bytes = 2 ∧ off % 2 = 0) ∨ (bytes = 4 ∧ off % 4 = 0)
    let addr := instanceStride * k + off
    (s.script = .read addr bytes :: rest →
      (allowed → ∃ t, step s = .next t) ∧ (¬allowed → step s = .refused (.accessWidth addr bytes))) ∧
    ∀ v, s.script = .write addr bytes v :: rest → ¬allowed → step s = .refused (.accessWidth addr bytes)) ∧
  (∀ (s : State) k off bytes rest, instanceExists k = true → off < instanceStride →
    let addr := instanceStride * k + off
    (s.script = .read addr bytes :: rest ∨ ∃ v, s.script = .write addr bytes v :: rest) →
    step s = step (s.focus k)) ∧
  (∀ (s : State) k, (∀ e ∈ s.others, e.1 ≠ s.cur) →
    let t := s.focus k
    t.cur = k ∧ t.base = instanceStride * k ∧ t.inst = s.instOf k ∧ (∀ j, t.instOf j = s.instOf j) ∧
    s.sameConfig t ∧ s.sameTables t ∧ t.mem = s.mem ∧ t.script = s.script ∧ t.rdata = s.rdata ∧ t.draws = s.draws ∧
    t.epoch = s.epoch) ∧
  ∀ (s : State) off bytes rest, instanceExists s.cur = true → s.busy = true → off < instanceStride →
    accessLegal off bytes = true →
    (s.script = .read (s.base + off) bytes :: rest → off ≠ 0x004 →
      step s = .next { s with
        script := rest
        rdata := BitVec.ofNat 32 ((Config.busyRead s.draws).toNat % 2 ^ (8 * bytes))
        draws := s.draws + 1 }) ∧
    ∀ v, s.script = .write (s.base + off) bytes v :: rest → off ≠ 0x000 →
      step s = .refused (.writeWhileBusy (s.base + off))

/-- R55, R57 to R63, R65, R90, R96: what is written to a buffer of an idle instance is there little-endian, the bits that
SYM does not name dropped (log entry 10), is what the next read of it gives, and changes no other byte. And a read of
buffer bytes that hold values, whoever wrote them, TEXOUT (R64) included, gives them little-endian and changes nothing. -/
def Obligations.BufferReadBack : Prop :=
  let named : Nat → Byte := fun o =>
    if o = 0x100 then 0x09 else if o = 0x101 then 0x37 else if o = 0x102 then 0x1F else if o = 0x103 then 0
    else if o = 0x109 then 0x03 else if o = 0x10A ∨ o = 0x10B ∨ o = 0x10E ∨ o = 0x10F then 0
    else if 0x118 ≤ o ∧ o < 0x120 then 0 else 0xFF
  (∀ (s : State) off bytes v rest,
    s.script = .write (s.base + off) bytes v :: .read (s.base + off) bytes :: rest → instanceExists s.cur = true →
    s.busy = false → accessLegal off bytes = true →
    ((0x040 ≤ off ∧ off < 0x050) ∨ (0x100 ≤ off ∧ off < 0x1C0) ∨ (0x400 ≤ off ∧ off < 0x640) ∨
      (0x1000 ≤ off ∧ off < 0x1900)) →
    let stored := fun k => v.extractLsb' (8 * k) 8 &&& named (off + k)
    ∃ (m : Memory) (r : Word),
      step s = .next { s with mem := m, script := .read (s.base + off) bytes :: rest } ∧
      (∀ k < bytes, named (off + k) ≠ 0 → m.read (s.base + off + k) = some (stored k)) ∧
      (∀ a, (¬s.bytesAt off bytes a ∨ named (a - s.base) = 0) → m.read a = s.mem.read a) ∧
      step { s with mem := m, script := .read (s.base + off) bytes :: rest } =
        .next { s with mem := m, script := rest, rdata := r } ∧
      ∀ k < 4, r.extractLsb' (8 * k) 8 = if k < bytes then stored k else 0) ∧
  ∀ (s : State) off bytes (held : Nat → Byte) rest,
    s.script = .read (s.base + off) bytes :: rest → instanceExists s.cur = true →
    s.busy = false → accessLegal off bytes = true →
    ((0x040 ≤ off ∧ off < 0x050) ∨ (0x100 ≤ off ∧ off < 0x1C0) ∨ (0x400 ≤ off ∧ off < 0x640) ∨
      (0x800 ≤ off ∧ off < 0xA40) ∨ (0x1000 ≤ off ∧ off < 0x1900)) →
    (∀ k < bytes, named (off + k) ≠ 0 → s.mem.read (s.base + off + k) = some (held k)) →
    ∃ r : Word, step s = .next { s with script := rest, rdata := r } ∧
      ∀ k < 4, r.extractLsb' (8 * k) 8 = if k < bytes then held k &&& named (off + k) else 0

/-! ## The table commands -/

/-- R230, whole. -/
def Obligations.NopWritesStatus : Prop :=
  (∀ s : State, exec .nop s = .next { s with inst := s.inst.ended .ok }) ∧
  decode (bytesOfWord 0x00000000) = .ok .nop ∧
  ∀ w : Word, w.extractLsb' 0 8 = 0 → w.extractLsb' 8 24 ≠ 0 → ∃ r, decode (bytesOfWord w) = .error r

/-- R171, R231: BUILD_TABLES on each of the 14 footprints of R170 and on any other configuration. -/
def Obligations.BuildTables : Prop :=
  ∀ s : State,
    let fp : Nat × Nat := (s.cfgBw.toNat, s.cfgBh.toNat)
    let good := fp ∈ [(4, 4), (5, 4), (5, 5), (6, 5), (6, 6), (8, 5), (8, 6), (8, 8), (10, 5), (10, 6), (10, 8),
      (10, 10), (12, 10), (12, 12)] ∧ s.cfgProfile ≠ 3
    let q := min s.cfgQuality.toNat 100
    (good → ∃ cut : BitVec 17, cut.toNat = (Config.qualityCut q).val ∧
      exec .buildTables s = .next { s with
        tables := .valid ⟨fp.1, fp.2⟩
        effPlimit := Config.qualityPlimit q
        effCut := cut
        effIters := Config.qualityIters q
        inst := s.inst.ended .ok }) ∧
    (¬good → s.tables.invalidate.isValid = false ∧ exec .buildTables s = .next { s with
      tables := s.tables.invalidate, inst := s.inst.ended .configError })

/-- R68, R471, R512: every command that needs the tables reports NOT_CONFIGURED without them and writes nothing else,
whatever its operands. -/
def Obligations.NotConfigured : Prop :=
  ∀ i (s : State), usesTables i = true → s.tables.isValid = false →
    exec i s = .next { s with inst := s.inst.ended .notConfigured }

/-- R241, R245: ISE_BITCOUNT needs no tables. -/
def Obligations.IseBitcount : Prop :=
  ∀ (n : BitVec 8) (q : BitVec 5) (s : State),
    let l := level q.toNat
    (q.toNat > 20 → exec (.iseBitcount n q) s = .next { s with inst := s.inst.ended .badOperand }) ∧
    (q.toNat ≤ 20 → ∃ v : Word,
      exec (.iseBitcount n q) s = .next { s with inst := { s.inst.ended .ok with result := v } } ∧
      (l.trits = 0 → l.quints = 0 → v.toNat = n.toNat * l.bits) ∧
      (l.trits = 1 → v.toNat = n.toNat * l.bits + (8 * n.toNat + 4) / 5) ∧
      (l.quints = 1 → v.toNat = n.toNat * l.bits + (7 * n.toNat + 2) / 3))

/-- R232: QLOOKUP with valid tables. At the levels 1 and 3 `cquant` is some index of the level, the model's choice (log
entry 24). -/
def Obligations.Qlookup : Prop :=
  ∀ (q : BitVec 5) (sel : BitVec 3) (k : BitVec 11) (s : State) fp, s.tables = .valid fp →
    let answers := fun (v : Nat) =>
      exec (.qlookup q sel k) s = .next { s with inst := { s.inst.ended .ok with result := BitVec.ofNat 32 v } }
    let bad := exec (.qlookup q sel k) s = .next { s with inst := s.inst.ended .badOperand }
    let q := q.toNat
    let k := k.toNat
    let n := levelValues q
    (q > 20 → bad) ∧
    (q ≤ 20 →
      (sel = 0 → if q ≤ 11 ∧ k < n then answers (unqWeight q k) else bad) ∧
      (sel = 1 → if q ≤ 11 ∧ k < n then answers (weightPrev q k) else bad) ∧
      (sel = 2 → if q ≤ 11 ∧ k < n then answers (weightNext q k) else bad) ∧
      (sel = 3 → if q ≤ 11 ∧ k ≤ 1024 then answers (weightClosest q k) else bad) ∧
      (sel = 4 → if q ≠ 1 ∧ q ≠ 3 ∧ k < n then answers (unqColor q k) else bad) ∧
      (sel = 5 → if k ≤ 255 then answers (colorQuant q k) else bad) ∧
      (sel = 6 → if k = 0 then answers (n * 65536 + (level q).quints * 512 + (level q).trits * 256 + (level q).bits)
        else bad) ∧
      (sel = 7 → bad))

/-- R208: the 21 levels. R212, R213, R264: the unquantized weights of every weight level, distinct, with 0 and 64,
symmetric, and their float form; the color tables of the levels 4 to 12, and the identity at level 20. R262, R263: the color
values of the levels with a trit or a quint by the row of the level, a bit pattern written as the bits of `m` it takes (0 is
a zero bit), of the levels 14 and 17 by replication, and those of 95_test_vectors.md section 4. R217: at every level where
`cunq` is defined the values in rising order go from 0 to 255 and mirror each other. -/
def Obligations.UnquantizedTables : Prop :=
  ((List.range 21).map fun q => (levelValues q, (level q).trits, (level q).quints, (level q).bits)) =
    [(2, 0, 0, 1), (3, 1, 0, 0), (4, 0, 0, 2), (5, 0, 1, 0), (6, 1, 0, 1), (8, 0, 0, 3), (10, 0, 1, 1)] ++
    [(12, 1, 0, 2), (16, 0, 0, 4), (20, 0, 1, 2), (24, 1, 0, 3), (32, 0, 0, 5), (40, 0, 1, 3), (48, 1, 0, 4)] ++
    [(64, 0, 0, 6), (80, 0, 1, 4), (96, 1, 0, 5), (128, 0, 0, 7), (160, 0, 1, 5), (192, 1, 0, 6), (256, 0, 0, 8)] ∧
  (List.range 12).map (fun q => (List.range (levelValues q)).map (unqWeight q)) =
    [[0, 64], [0, 32, 64], [0, 21, 43, 64], [0, 16, 32, 48, 64], [0, 64, 12, 52, 25, 39],
      [0, 9, 18, 27, 37, 46, 55, 64], [0, 64, 7, 57, 14, 50, 21, 43, 28, 36],
      [0, 64, 17, 47, 5, 59, 23, 41, 11, 53, 28, 36],
      [0, 4, 8, 12, 17, 21, 25, 29, 35, 39, 43, 47, 52, 56, 60, 64]] ++
    [[0, 64, 16, 48, 3, 61, 19, 45, 6, 58, 23, 41, 9, 55, 26, 38, 13, 51, 29, 35],
      [0, 64, 8, 56, 16, 48, 24, 40, 2, 62, 11, 53, 19, 45, 27, 37, 5, 59, 13, 51, 22, 42, 30, 34],
      [0, 2, 4, 6, 8, 10, 12, 14, 16, 18, 20, 22, 24, 26, 28, 30, 34, 36, 38, 40, 42, 44, 46, 48, 50, 52, 54, 56,
        58, 60, 62, 64]] ∧
  (∀ q < 12, ((List.range (levelValues q)).map (unqWeight q)).Nodup ∧
    (∃ i < levelValues q, unqWeight q i = 0) ∧ (∃ i < levelValues q, unqWeight q i = 64) ∧
    ∀ i < levelValues q, ∃ j < levelValues q, unqWeight q j + unqWeight q i = 64) ∧
  ((List.range 9).map fun k => (List.range (levelValues (k + 4))).map (unqColor (k + 4))) =
    [[0, 255, 51, 204, 102, 153], [0, 36, 73, 109, 146, 182, 219, 255],
      [0, 255, 28, 227, 56, 199, 84, 171, 113, 142], [0, 255, 69, 186, 23, 232, 92, 163, 46, 209, 116, 139],
      [0, 17, 34, 51, 68, 85, 102, 119, 136, 153, 170, 187, 204, 221, 238, 255],
      [0, 255, 67, 188, 13, 242, 80, 175, 27, 228, 94, 161, 40, 215, 107, 148, 54, 201, 121, 134]] ++
    [[0, 255, 33, 222, 66, 189, 99, 156, 11, 244, 44, 211, 77, 178, 110, 145, 22, 233, 55, 200, 88, 167, 121, 134],
      [0, 8, 16, 24, 33, 41, 49, 57, 66, 74, 82, 90, 99, 107, 115, 123, 132, 140, 148, 156, 165, 173, 181, 189, 198,
        206, 214, 222, 231, 239, 247, 255],
      [0, 255, 32, 223, 65, 190, 97, 158, 6, 249, 39, 216, 71, 184, 104, 151, 13, 242, 45, 210, 78, 177, 110, 145,
        19, 236, 52, 203, 84, 171, 117, 138, 26, 229, 58, 197, 91, 164, 123, 132]] ∧
  (∀ v < 256, unqColor 20 v = v) ∧ (∀ q i, unqWeightFloat q i * 64 = unqWeight q i) ∧
  (let rows : List (Nat × List Nat × Nat) :=
      [(4, [0, 0, 0, 0, 0, 0, 0, 0, 0], 204), (6, [0, 0, 0, 0, 0, 0, 0, 0, 0], 113),
        (7, [1, 0, 0, 0, 1, 0, 1, 1, 0], 93), (9, [1, 0, 0, 0, 0, 1, 1, 0, 0], 54),
        (10, [2, 1, 0, 0, 0, 2, 1, 2, 1], 44), (12, [2, 1, 0, 0, 0, 0, 2, 1, 2], 26),
        (13, [3, 2, 1, 0, 0, 0, 3, 2, 1], 22), (15, [3, 2, 1, 0, 0, 0, 0, 3, 2], 13),
        (16, [4, 3, 2, 1, 0, 0, 0, 4, 3], 11), (18, [4, 3, 2, 1, 0, 0, 0, 0, 4], 6),
        (19, [5, 4, 3, 2, 1, 0, 0, 0, 5], 5)]
    ∀ row ∈ rows, ∀ v < levelValues row.1,
      let m := v % 2 ^ (level row.1).bits
      let D := v / 2 ^ (level row.1).bits
      let A := if m % 2 = 1 then 0x1FF else 0
      let B := (row.2.1.zipIdx.map fun e => if e.1 = 0 then 0 else m / 2 ^ e.1 % 2 * 2 ^ (8 - e.2)).sum
      unqColor row.1 v = (A &&& 0x80) ||| (((D * row.2.2 + B) ^^^ A) / 4)) ∧
  (∀ v < 64, unqColor 14 v = 4 * v + v / 16) ∧ (∀ v < 128, unqColor 17 v = 2 * v + v / 64) ∧
  ([0, 1].map (unqColor 0) = [0, 255] ∧ [0, 1, 2, 3].map (unqColor 2) = [0, 85, 170, 255] ∧
    (List.range 12).map (unqColor 16) = [0, 255, 8, 247, 16, 239, 24, 231, 32, 223, 40, 215]) ∧
  ∀ q ≤ 20, q ≠ 1 → q ≠ 3 →
    let n := levelValues q
    ∃ u : List Nat, u.Perm ((List.range n).map (unqColor q)) ∧ u.Pairwise (· < ·) ∧ u.head? = some 0 ∧
      u.getLast? = some 255 ∧ ∀ k < n, u.getD k 0 + u.getD (n - 1 - k) 0 = 255

/-- R214: the links go to the neighbours in the order of `unq`, and at the ends to the index itself. -/
def Obligations.WeightLinks : Prop :=
  ∀ q ≤ 11, ∀ i < levelValues q,
    ((∀ j < levelValues q, unqWeight q i ≤ unqWeight q j) → weightPrev q i = i) ∧
    ((∃ j < levelValues q, unqWeight q j < unqWeight q i) →
      weightPrev q i < levelValues q ∧ unqWeight q (weightPrev q i) < unqWeight q i ∧
      ∀ j < levelValues q, unqWeight q j < unqWeight q i → unqWeight q j ≤ unqWeight q (weightPrev q i)) ∧
    ((∀ j < levelValues q, unqWeight q j ≤ unqWeight q i) → weightNext q i = i) ∧
    ((∃ j < levelValues q, unqWeight q i < unqWeight q j) →
      weightNext q i < levelValues q ∧ unqWeight q i < unqWeight q (weightNext q i) ∧
      ∀ j < levelValues q, unqWeight q i < unqWeight q j → unqWeight q (weightNext q i) ≤ unqWeight q j)

/-- R215: `closest` minimises the distance to the bucket, and on a tie takes the smaller unquantized value; a continuous
weight is looked up at the bucket `round_half_up(w * 1024)`, clamped to 0..1024 (R441). -/
def Obligations.WeightClosest : Prop :=
  (∀ q : Nat, q ≤ 11 → ∀ k : Nat, k ≤ 1024 →
    let d := fun i : Nat => |(16 * unqWeight q i : Int) - k|
    let c := weightClosest q k
    c < levelValues q ∧ ∀ i < levelValues q, d c < d i ∨ (d c = d i ∧ unqWeight q c ≤ unqWeight q i)) ∧
  ∀ (q : Nat) (w : ℚ), ∃ k ≤ 1024, quantizeWeight q w = weightClosest q k ∧
    (w ≤ 0 → k = 0) ∧ (1 ≤ w → k = 1024) ∧
    (0 ≤ w → w ≤ 1 → -(1 / 2) < (k : ℚ) - w * 1024 ∧ (k : ℚ) - w * 1024 ≤ 1 / 2)

/-- R216: `cquant` minimises the distance in the same way at every level where `cunq` is defined (R262). At the levels 1
and 3 it is some index of the level, the model's choice (log entry 24). A continuous value is rounded half up first
(R441). -/
def Obligations.ColorQuant : Prop :=
  (∀ q : Nat, ∀ x : ℚ, 0 ≤ x → x ≤ 255 → ∃ v ≤ 255, quantizeEndpoint q x = colorQuant q v ∧
    -(1 / 2) < (v : ℚ) - x ∧ (v : ℚ) - x ≤ 1 / 2) ∧
  ∀ q : Nat, q ≤ 20 → ∀ v : Nat, v ≤ 255 →
    colorQuant q v < levelValues q ∧
    (q ≠ 1 → q ≠ 3 → ∀ i < levelValues q,
      let d := fun i : Nat => |(unqColor q i : Int) - v|
      d (colorQuant q v) < d i ∨
        (d (colorQuant q v) = d i ∧ unqColor q (colorQuant q v) ≤ unqColor q i))

/-- R233: PLOOKUP with valid tables, every query. -/
def Obligations.Plookup : Prop :=
  ∀ (pc : BitVec 3) (index : BitVec 10) (c : BitVec 8) (s : State) fp, s.tables = .valid fp →
    let answers := fun (v : Nat) =>
      exec (.plookup pc index c) s = .next { s with inst := { s.inst.ended .ok with result := BitVec.ofNat 32 v } }
    let bad := exec (.plookup pc index c) s = .next { s with inst := s.inst.ended .badOperand }
    let pc := pc.toNat
    let count := fun p => if p < pc then partitionTexels fp pc index.toNat p else 0
    if pc < 1 ∨ pc > 4 then bad
    else if c.toNat < fp.bw * fp.bh then answers (partitionOf fp pc index.toNat c.toNat)
    else if c = 0xFE then answers (count 0 + count 1 * 2 ^ 8 + count 2 * 2 ^ 16 + count 3 * 2 ^ 24)
    else if c = 0xFF then answers (if actualPartitions fp pc index.toNat = pc then 1 else 0)
    else bad

/-- R190, R193, R194, R233: each texel has one partition, below the count; the counts add up to the texels; a
partitioning is encodable exactly if no partition is empty; one partition is partition 0. R192: the hash values and the
partition ids of 95_test_vectors.md section 7. -/
def Obligations.Partitions : Prop :=
  (∀ fp : Footprint, fp.valid = true → ∀ pc, 1 ≤ pc → pc ≤ 4 → ∀ index < 1024,
    (∀ t < fp.texels, partitionOf fp pc index t < pc) ∧
    ((List.range pc).map (partitionTexels fp pc index)).sum = fp.texels ∧
    (encodablePartitioning fp pc index = true ↔ ∀ p < pc, ∃ t < fp.texels, partitionOf fp pc index t = p) ∧
    (pc = 1 → ∀ t, partitionOf fp pc index t = 0)) ∧
  (hash52 0 = 0 ∧ hash52 1 = 0x0C46F563 ∧ hash52 1024 = 0xBD3D4343 ∧ hash52 2047 = 0x94F75EB7 ∧
    hash52 3077 = 0xCB2817BD) ∧
  let ids := fun (fp : Footprint) pc index => (List.range fp.texels).map (partitionOf fp pc index)
  ids ⟨4, 4⟩ 2 0 = List.replicate 16 0 ∧
  ids ⟨4, 4⟩ 2 1 = [0, 1, 1, 0, 1, 1, 1, 0, 1, 1, 0, 0, 1, 1, 0, 0] ∧
  ids ⟨4, 4⟩ 2 5 = [1, 1, 1, 0, 1, 1, 0, 0, 1, 0, 0, 0, 1, 0, 0, 0] ∧
  ids ⟨4, 4⟩ 2 1023 = [0, 1, 0, 0, 0, 1, 0, 0, 0, 0, 0, 0, 0, 0, 0, 1] ∧
  ids ⟨4, 4⟩ 3 7 = [0, 2, 2, 0, 0, 2, 2, 0, 0, 2, 2, 2, 0, 2, 2, 2] ∧
  ids ⟨4, 4⟩ 4 3 = [1, 1, 2, 0, 3, 3, 3, 3, 3, 3, 3, 2, 3, 3, 1, 1] ∧
  ids ⟨8, 8⟩ 2 0 = List.replicate 64 0 ∧
  ids ⟨6, 6⟩ 3 100 = [2, 2, 1, 2, 2, 2, 2, 1, 2, 2, 2, 2, 2, 2, 2, 2, 2, 2] ++ List.replicate 18 0

/-- R234: MODEINFO with the tables of a valid footprint, field by field; R181: bit 2, that `block_mode_percentile` is at most
the cutoff, both counted in units of 1/65536 (log entries 14, 19). -/
def Obligations.Modeinfo : Prop :=
  ∀ (m : BitVec 11) (s : State) fp, s.tables = .valid fp → fp.valid = true →
    ∃ v : Word, exec (.modeinfo m) s = .next { s with inst := { s.inst.ended .ok with result := v } } ∧
      (m.extractLsb' 0 9 = 0x1FC → v = 0x80000000) ∧
      (m.extractLsb' 0 9 ≠ 0x1FC → blockMode fp m.toNat = none → v = 0) ∧
      ∀ b, blockMode fp m.toNat = some b →
        v.extractLsb' 0 1 = 1 ∧ v.extractLsb' 1 1 = BitVec.ofBool b.dual ∧
        (v.extractLsb' 2 1 = 1 ↔ (Config.blockModePercentile fp.bw fp.bh m.toNat).val ≤ s.effCut.toNat) ∧
        v.extractLsb' 3 1 = 0 ∧
        (v.extractLsb' 4 4).toNat = b.wq ∧ (v.extractLsb' 8 4).toNat = b.grid.w ∧
        (v.extractLsb' 12 4).toNat = b.grid.h ∧ (v.extractLsb' 16 7).toNat = b.weightBits ∧
        v.extractLsb' 23 1 = 0 ∧ (v.extractLsb' 24 7).toNat = decimationId fp b.grid ∧ v.extractLsb' 31 1 = 0

/-- R130, R131: the mode that each row of the table decodes to, at every value of its fields. R132, R133: the modes that decode
to none. R180: which modes are valid at a footprint, so what R182 says of a valid one. The modes of 95_test_vectors.md section 5
with the weight bits at 4x4, 6x6 and 12x12. -/
def Obligations.BlockModeTable : Prop :=
  (∀ hp < 2, ∀ d < 2, ∀ R, 2 ≤ R → R < 8 → ∀ A < 4, ∀ B < 4,
    let gives := fun m w h => decodeMode m = some ⟨⟨w, h⟩, decide (d = 1), R - 2 + 6 * hp⟩
    let upper := 16 * (R % 2) + 32 * A + 512 * hp + 1024 * d
    let first := R / 2 + upper
    let second := 4 * (R / 2) + upper
    gives (first + 128 * B) (B + 4) (A + 2) ∧
    gives (first + 4 + 128 * B) (B + 8) (A + 2) ∧
    gives (first + 8 + 128 * B) (A + 2) (B + 8) ∧
    (B < 2 → gives (first + 12 + 128 * B) (A + 2) (B + 6) ∧ gives (first + 12 + 256 + 128 * B) (B + 2) (A + 2)) ∧
    gives second 12 (A + 2) ∧
    gives (second + 128) (A + 2) 12 ∧
    decodeMode (4 * (R / 2) + 16 * (R % 2) + 32 * A + 256 + 512 * B) = some ⟨⟨A + 6, B + 6⟩, false, R - 2⟩ ∧
    (A = 0 → gives (second + 384) 6 10) ∧
    (A = 1 → gives (second + 384) 10 6)) ∧
  (∀ m < 2048, (decodeMode m = none ↔
    m % 512 = 0x1FC ∨ m % 16 = 0 ∨ m % 4 = 0 ∧ m / 128 % 4 = 3 ∧ m / 64 % 2 = 1)) ∧
  (∀ (fp : Footprint) m b, blockMode fp m = some b ↔
    decodeMode m = some b ∧ b.grid.w * b.grid.h * (if b.dual then 2 else 1) ≤ 64 ∧
      24 ≤ iseBits (b.grid.w * b.grid.h * (if b.dual then 2 else 1)) b.wq ∧
      iseBits (b.grid.w * b.grid.h * (if b.dual then 2 else 1)) b.wq ≤ 96 ∧ b.grid.w ≤ fp.bw ∧ b.grid.h ≤ fp.bh) ∧
  (∀ fp : Footprint, fp.valid = true → ∀ m < 2048, ∀ b, blockMode fp m = some b →
    2 ≤ b.grid.w ∧ b.grid.w ≤ fp.bw ∧ 2 ≤ b.grid.h ∧ b.grid.h ≤ fp.bh ∧
    b.grid.w * b.grid.h * (if b.dual then 2 else 1) ≤ 64 ∧ b.wq ≤ 11 ∧ 24 ≤ b.weightBits ∧ b.weightBits ≤ 96 ∧
    b.weightBits = iseBits (b.grid.w * b.grid.h * (if b.dual then 2 else 1)) b.wq ∧
    (decimationModes fp)[decimationId fp b.grid]? = some b.grid) ∧
  let modes := [0x042, 0x013, 0x441, 0x453, 0x0F3, 0x17F, 0x004, 0x101, 0x003, 0x543, 0x5E9, 0x7FF]
  let noModes := [0x000, 0x100, 0x180, 0x1C0, 0x240, 0x1FC, 0x5FC]
  let bitsAt := fun fp => modes.map fun m => (blockMode fp m).map BlockMode.weightBits
  modes.map decodeMode =
    [some ⟨⟨4, 4⟩, false, 2⟩, some ⟨⟨4, 2⟩, false, 5⟩, some ⟨⟨4, 4⟩, true, 0⟩, some ⟨⟨4, 4⟩, true, 5⟩,
      some ⟨⟨5, 5⟩, false, 5⟩, some ⟨⟨2, 5⟩, false, 5⟩, some ⟨⟨12, 2⟩, false, 0⟩, some ⟨⟨6, 2⟩, false, 0⟩,
      some ⟨⟨4, 2⟩, false, 4⟩, some ⟨⟨6, 4⟩, true, 4⟩, some ⟨⟨5, 11⟩, true, 0⟩, some ⟨⟨3, 5⟩, true, 11⟩] ∧
  (∀ m ∈ noModes, decodeMode m = none) ∧
  bitsAt ⟨4, 4⟩ = [some 32, some 24, some 32, some 96, none, none, none, none, none, none, none, none] ∧
  bitsAt ⟨6, 6⟩ = [some 32, some 24, some 32, some 96, some 75, some 30, none, none, none, none, none, none] ∧
  bitsAt ⟨12, 12⟩ = [some 32, some 24, some 32, some 96, some 75, some 30, some 24, none, none, none, none, none]

/-- R172: texels, small blocks, decimation modes, valid and dual-plane block modes of the 14 footprints. -/
def Obligations.TableCounts : Prop :=
  (Footprint.all.map fun fp =>
    let modes := (List.range 2048).filterMap (blockMode fp)
    (fp.texels, fp.small, (decimationModes fp).length, modes.length, (modes.filter BlockMode.dual).length)) =
    [(16, true, 9, 145, 84), (20, true, 12, 195, 104), (25, true, 16, 255, 126), (30, true, 20, 310, 145),
      (36, false, 25, 370, 164), (40, false, 28, 393, 167), (48, false, 35, 459, 186)] ++
    [(64, false, 49, 555, 208), (50, false, 36, 454, 180), (60, false, 45, 524, 199), (80, false, 60, 621, 221),
      (100, false, 71, 687, 234), (120, false, 79, 731, 240), (144, false, 87, 775, 246)]

/-- R235: DLOOKUP with valid tables, both queries. -/
def Obligations.Dlookup : Prop :=
  ∀ (d t : BitVec 8) (k : BitVec 2) (g : BitVec 1) (s : State) fp, s.tables = .valid fp →
    let answers := fun (v : Nat) =>
      exec (.dlookup d t k g) s = .next { s with inst := { s.inst.ended .ok with result := BitVec.ofNat 32 v } }
    let bad := exec (.dlookup d t k g) s = .next { s with inst := s.inst.ended .badOperand }
    ((decimationModes fp).length ≤ d.toNat → bad) ∧
    ∀ grid, (decimationModes fp)[d.toNat]? = some grid →
      (g = 1 → answers (grid.w + grid.h * 256)) ∧
      (g = 0 → fp.bw * fp.bh ≤ t.toNat → bad) ∧
      (g = 0 → t.toNat < fp.bw * fp.bh →
        ∀ idx f, (infillEntries fp grid (t.toNat % fp.bw) (t.toNat / fp.bw))[k.toNat]? = some (idx, f) →
          answers ((if f = 0 then 0 else idx) + f * 256))

/-- R360 to R362: four factors that sum to 16; those that count name weights of the grid; an infilled weight lies in
0..64, and a grid of the footprint's size is the weights themselves. The ids, entries and infilled weights of
95_test_vectors.md section 6. -/
def Obligations.Infill : Prop :=
  (∀ fp : Footprint, fp.valid = true → ∀ g ∈ decimationModes fp, ∀ t < fp.texels,
    (texelEntries fp g t).length = 4 ∧ ((texelEntries fp g t).map Prod.snd).sum = 16 ∧
    (∀ e ∈ texelEntries fp g t, e.2 ≠ 0 → e.1 < g.w * g.h) ∧
    ∀ u : List Nat, (∀ x ∈ u, x ≤ 64) →
      infilledWeight fp g u t ≤ 64 ∧ (g.w = fp.bw → g.h = fp.bh → infilledWeight fp g u t = u.getD t 0)) ∧
  (decimationModes ⟨4, 4⟩ = [⟨2, 2⟩, ⟨2, 3⟩, ⟨2, 4⟩, ⟨3, 2⟩, ⟨3, 3⟩, ⟨3, 4⟩, ⟨4, 2⟩, ⟨4, 3⟩, ⟨4, 4⟩] ∧
    decimationId ⟨6, 6⟩ ⟨4, 3⟩ = 11 ∧ decimationId ⟨6, 6⟩ ⟨6, 6⟩ = 24 ∧ decimationId ⟨8, 5⟩ ⟨5, 3⟩ = 13 ∧
    decimationId ⟨12, 12⟩ ⟨6, 6⟩ = 48) ∧
  ([0, 1, 5, 15].map (texelEntries ⟨4, 4⟩ ⟨2, 2⟩) =
      [[(0, 16), (1, 0), (2, 0), (3, 0)], [(0, 11), (1, 5), (2, 0), (3, 0)], [(0, 8), (1, 3), (2, 3), (3, 2)],
        [(3, 16), (4, 0), (5, 0), (6, 0)]] ∧
    [1, 5, 10, 15].map (texelEntries ⟨4, 4⟩ ⟨3, 3⟩) =
      [[(0, 5), (1, 11), (3, 0), (4, 0)], [(0, 2), (1, 3), (3, 3), (4, 8)], [(4, 8), (5, 3), (7, 3), (8, 2)],
        [(8, 16), (9, 0), (11, 0), (12, 0)]] ∧
    [1, 7, 35].map (texelEntries ⟨6, 6⟩ ⟨4, 3⟩) =
      [[(0, 6), (1, 10), (4, 0), (5, 0)], [(0, 4), (1, 6), (4, 2), (5, 4)], [(11, 16), (12, 0), (15, 0), (16, 0)]] ∧
    [9, 39].map (texelEntries ⟨8, 5⟩ ⟨5, 3⟩) =
      [[(0, 4), (1, 4), (5, 3), (6, 5)], [(14, 16), (15, 0), (19, 0), (20, 0)]] ∧
    [13, 143].map (texelEntries ⟨12, 12⟩ ⟨6, 6⟩) =
      [[(0, 5), (1, 4), (6, 4), (7, 3)], [(35, 16), (36, 0), (41, 0), (42, 0)]]) ∧
  (List.range 16).map (infilledWeight ⟨4, 4⟩ ⟨2, 2⟩ [0, 64, 64, 0]) =
    [0, 20, 44, 64, 20, 24, 40, 44, 44, 40, 24, 20, 64, 44, 20, 0]

/-! ## PACK and UNPACK -/

/-- R291: UNPACK with valid tables and 16 bytes in PHYS writes SYM and ERRBLK and nothing else. R478: with a byte of PHYS
that holds no value it has no result. -/
def Obligations.UnpackWritesSym : Prop :=
  ∀ (s : State) fp, s.tables = .valid fp →
    (∀ blk, s.readPhys = .ok blk →
      let sym := if readBits blk 0 9 = 0x1FC then readVoidExtent blk else readNormal fp blk
      exec .unpack s = .next { s with
        mem := (s.writeSym sym).mem
        inst := { s.inst.ended .ok with errblk := decide (sym = .error) } }) ∧
    ∀ a, s.readPhys = .error a → exec .unpack s = .fault (.readNoValue a)

/-- R135 to R137: each layout of a physical block does what UNPACK does with that block, and the block that UNPACK finds
in PHYS is decoded to its layout (log entry 20). -/
def Obligations.PhysBlocks : Prop :=
  (∀ (s : State) fp f v s0 s1 t0 t1 r g b a, s.tables = .valid fp →
    let sym := readVoidExtent (voidExtentBlock f v s0 s1 t0 t1 r g b a)
    exec (.physVoidExtent f v s0 s1 t0 t1 r g b a) s = .next { s with
      mem := (s.writeSym sym).mem
      inst := { s.inst.ended .ok with errblk := decide (sym = .error) } }) ∧
  (∀ (s : State) fp m c x, s.tables = .valid fp →
    let sym := readNormal fp (normal1pBlock m c x)
    exec (.physNormal1p m c x) s = .next { s with
      mem := (s.writeSym sym).mem
      inst := { s.inst.ended .ok with errblk := decide (sym = .error) } }) ∧
  (∀ (s : State) fp m n p c x, s.tables = .valid fp →
    let sym := readNormal fp (normalMpBlock m n p c x)
    exec (.physNormalMp m n p c x) s = .next { s with
      mem := (s.writeSym sym).mem
      inst := { s.inst.ended .ok with errblk := decide (sym = .error) } }) ∧
  ∀ (s : State) bs i, s.load offPhys 16 = .ok bs → decode bs = .ok i → exec .unpack s = exec i s

/-- R292: a void-extent block by its fields. -/
def Obligations.VoidExtent : Prop :=
  ∀ (f : BitVec 1) (v : BitVec 2) (s0 s1 t0 t1 : BitVec 13) (r g b a : BitVec 16) (fp : Footprint),
    let allOnes := s0 = 0x1FFF ∧ s1 = 0x1FFF ∧ t0 = 0x1FFF ∧ t1 = 0x1FFF
    readBlock fp (voidExtentBlock f v s0 s1 t0 t1 r g b a) =
      if v ≠ 3 then .error
      else if ¬allOnes ∧ (s0.toNat ≥ s1.toNat ∨ t0.toNat ≥ t1.toNat) then .error
      else .const (decide (f = 1)) ⟨r, g, b, a⟩

/-- R475: the complete list of error conditions of a block. R385: what DECODE_TEXELS takes for an error block: one with
ERROR = 1 in every profile, and the two that it adds outside profile HDR. -/
def Obligations.ErrorBlocks : Prop :=
  (∀ (fp : Footprint) (blk : Block), blk.extractLsb' 0 9 ≠ 0x1FC →
    let pc := (blk.extractLsb' 11 2).toNat + 1
    (readBlock fp blk = .error ↔
      match decodeMode (blk.extractLsb' 0 11).toNat with
      | none => True
      | some b =>
        let n := b.grid.w * b.grid.h * (if b.dual then 2 else 1)
        let low := (blk.extractLsb' 23 6).toNat
        let extra := if pc > 1 ∧ low % 4 ≠ 0 then 3 * pc - 4 else 0
        let below := 128 - iseBits n b.wq - extra
        let enc := low + 2 ^ 6 * readBits blk below extra
        let cem := fun p => if pc = 1 then (blk.extractLsb' 13 4).toNat else if low % 4 = 0 then low / 4
          else 4 * (low % 4 - 1 + enc / 2 ^ (2 + p) % 2) + enc / 2 ^ (2 + pc + 2 * p) % 4
        let values := ((List.range pc).map fun p => 2 * (cem p / 4 + 1)).sum
        n > 64 ∨ iseBits n b.wq < 24 ∨ iseBits n b.wq > 96 ∨ b.grid.w > fp.bw ∨ b.grid.h > fp.bh ∨
          (b.dual = true ∧ pc = 4) ∨ values > 18 ∨
          ∀ q, 4 ≤ q → q ≤ 20 →
            iseBits values q > below - (if b.dual then 2 else 0) - (if pc = 1 then 17 else 29))) ∧
  (∀ (fp : Footprint) (blk : Block), blk.extractLsb' 0 9 = 0x1FC →
    let ones := blk.extractLsb' 12 52 = BitVec.allOnes 52
    (readBlock fp blk = .error ↔ blk.extractLsb' 10 2 ≠ 3 ∨
      (¬ones ∧ ((blk.extractLsb' 12 13).toNat ≥ (blk.extractLsb' 25 13).toNat ∨
        (blk.extractLsb' 38 13).toNat ≥ (blk.extractLsb' 51 13).toNat)))) ∧
  ∀ (profile : Profile) (sym : Sym),
    (blockIsError profile sym = true ↔
      match sym with
      | .error => True
      | .const fp16 _ => fp16 = true ∧ profile ≠ .hdr
      | .normal n => (∃ c ∈ n.cems, c.toNat ∈ [2, 3, 7, 11, 14, 15]) ∧ profile ≠ .hdr)

/-- R291, R320: every 128-bit value unpacks to the error block or to a well-formed block with a legal partition count
and block mode. R294 to R319: the fields of the normal block, each from its bits of the block whatever stands in the others:
mode, partition count and index, the CEMs in the one-partition, the shared and the class form, CCS, the greatest color level
that fits, the color sequence, the weights from bit 127 down. -/
def Obligations.UnpackTotal : Prop :=
  (∀ fp : Footprint, fp.valid = true → ∀ blk : Block,
    readBlock fp blk = .error ∨
    (symWf fp (readBlock fp blk) = true ∧
      ((∃ f c, readBlock fp blk = .const f c) ∨
        ∃ n, readBlock fp blk = .normal n ∧ 1 ≤ n.pc ∧ n.pc ≤ 4 ∧ (blockMode fp n.mode.toNat).isSome = true))) ∧
  ∀ (fp : Footprint) (blk : Block) n, readBlock fp blk = .normal n →
    ∃ b, blockMode fp (blk.extractLsb' 0 11).toNat = some b ∧
      let pc := (blk.extractLsb' 11 2).toNat + 1
      let low := (blk.extractLsb' 23 6).toNat
      let classForm := pc > 1 ∧ low % 4 ≠ 0
      let extra := if classForm then 3 * pc - 4 else 0
      let below := 128 - b.weightBits - extra
      let enc := low + 2 ^ 6 * readBits blk below extra
      let start := if pc = 1 then 17 else 29
      let avail := below - (if b.dual then 2 else 0) - start
      let count := (n.cems.map fun c => 2 * (c.toNat / 4 + 1)).sum
      let weights := iseDecode b.weightCount b.wq blk.reverse.toNat
      n.mode = blk.extractLsb' 0 11 ∧ n.pc = pc ∧
      n.partIndex = (if pc = 1 then 0 else blk.extractLsb' 13 10) ∧
      (n.matched = true ↔ ¬classForm) ∧
      (pc = 1 → n.cems = [blk.extractLsb' 13 4]) ∧
      (pc > 1 → low % 4 = 0 → n.cems = List.replicate pc (blk.extractLsb' 25 4)) ∧
      (classForm → ∀ p < pc, (n.cems.getD p 0).toNat =
        4 * (low % 4 - 1 + enc / 2 ^ (2 + p) % 2) + enc / 2 ^ (2 + pc + 2 * p) % 4) ∧
      n.ccs.toNat = (if b.dual then readBits blk (below - 2) 2 else 0) ∧
      4 ≤ n.cq.toNat ∧ n.cq.toNat ≤ 20 ∧ iseBits count n.cq.toNat ≤ avail ∧
      (∀ q ≤ 20, n.cq.toNat < q → iseBits count q > avail) ∧
      toNats n.colors = iseDecode count n.cq.toNat (readBits blk start (iseBits count n.cq.toNat)) ∧
      n.w0.length = b.grid.w * b.grid.h ∧ n.w1.length = (if b.dual then b.grid.w * b.grid.h else 0) ∧
      (b.dual = false → toNats n.w0 = weights) ∧
      (b.dual = true → ∀ i < b.grid.w * b.grid.h,
        (n.w0.getD i 0).toNat = weights.getD (2 * i) 0 ∧ (n.w1.getD i 0).toNat = weights.getD (2 * i + 1) 0)

/-- R56 to R62, R293: the bytes of SYM as the host reads them after `SYM <- s`: the error block, a constant block, a
well-formed normal block; every entry not in use is 0. -/
def Obligations.SymLayout : Prop :=
  (∀ (s : State) off, 0x100 ≤ off → off < 0x1C0 →
    (s.writeSym .error).readBufferByte off = if off = 0x100 then 1 else 0) ∧
  (∀ (s : State) fp16 color off, 0x100 ≤ off → off < 0x1C0 →
    (s.writeSym (.const fp16 color)).readBufferByte off =
      if off = 0x104 then (if fp16 then 0xFE else 0xFF)
      else if 0x105 ≤ off ∧ off < 0x108 then 0xFF
      else if 0x110 ≤ off ∧ off < 0x118 then (color.chan ((off - 0x110) / 2)).extractLsb' (8 * (off % 2)) 8
      else 0) ∧
  ∀ (s : State) fp n, normalWf fp n = true →
    let byte := (s.writeSym (.normal n)).readBufferByte
    byte 0x100 = (if n.matched then 8 else 0) ∧ (byte 0x101).toNat = n.pc + 16 * n.ccs.toNat ∧
    (byte 0x102).toNat = n.cq.toNat ∧ byte 0x103 = 0 ∧
    (byte 0x104).toNat = n.mode.toNat % 256 ∧ (byte 0x105).toNat = n.mode.toNat / 256 ∧
    byte 0x106 = 0 ∧ byte 0x107 = 0 ∧
    (byte 0x108).toNat = n.partIndex.toNat % 256 ∧ (byte 0x109).toNat = n.partIndex.toNat / 256 ∧
    (∀ p < 4, (byte (0x10C + p / 2)).toNat / 16 ^ (p % 2) % 16 = (cemNats n).getD p 0) ∧
    (∀ k < 8, byte (0x110 + k) = 0) ∧
    (∀ p < 4, ∀ k < 8, byte (0x120 + 8 * p + k) =
      if p < n.pc ∧ k < 2 * ((cemNats n).getD p 0 / 4 + 1) then
        n.colors.getD ((((cemNats n).take p).map cemValues).sum + k) 0
      else 0) ∧
    (∀ i < 64, byte (0x140 + i) = n.w0.getD i 0) ∧ ∀ i < 64, byte (0x180 + i) = n.w1.getD i 0

/-- R320, R477: a block put in SYM is the block a command finds there: an error block, a constant block, a well-formed
normal block. R57 to R62: what is found has the fields that the bytes of SYM hold, and is well formed or an error block;
where a byte is missing, it is one of SYM that holds no value. R320, R351, log entry 9: with every byte held, SYM with ERROR = 1
is the error block, and one with ERROR = 0 is a block exactly if the conditions 2 to 6 of R320 hold of its bytes, else ill
formed. -/
def Obligations.SymReadBack : Prop :=
  (∀ (s : State) fp sym, (sym = .error ∨ symWf fp sym = true) → (s.writeSym sym).readSym fp = .found sym) ∧
  ∀ (s : State) fp,
    let cell := fun off => s.mem.read (s.base + off)
    let held := fun off n => ∀ k < n, (cell (off + k)).isSome = true
    let byte := fun off => ((cell off).getD 0).toNat
    let half := fun off => byte off + 2 ^ 8 * byte (off + 1)
    let isError := byte 0x100 % 2 = 1
    let matched := byte 0x100 / 8 % 2 = 1
    let pc := byte 0x101 % 8
    let cq := byte 0x102 % 32
    let mode := half 0x104 + 2 ^ 16 * half 0x106
    let part := half 0x108 % 2 ^ 10
    let cem := fun p => half 0x10C / 16 ^ p % 16
    let values := fun p => 2 * (cem p / 4 + 1)
    let count := ((List.range pc).map values).sum
    (∀ sym, s.readSym fp = .found sym → held 0x100 3 ∧
      match sym with
      | .error => isError
      | .const fp16 color => ¬isError ∧ held 0x104 4 ∧ mode = (if fp16 then 2 ^ 32 - 2 else 2 ^ 32 - 1) ∧ pc = 0 ∧
          held 0x110 8 ∧ ∀ c < 4, (color.chan c).toNat = half (0x110 + 2 * c)
      | .normal n => ¬isError ∧ normalWf fp n = true ∧ held 0x104 6 ∧ held 0x10C 2 ∧
          n.mode.toNat = mode ∧ n.pc = pc ∧ n.partIndex.toNat = part ∧ (n.matched = true ↔ matched) ∧
          n.ccs.toNat = byte 0x101 / 16 % 4 ∧ n.cq.toNat = cq ∧ cemNats n = (List.range pc).map cem ∧
          (∀ p < pc, ∀ k < values p,
            cell (0x120 + 8 * p + k) = n.colors[((List.range p).map values).sum + k]?) ∧
          (∀ i < n.w0.length, cell (0x140 + i) = n.w0[i]?) ∧ ∀ i < n.w1.length, cell (0x180 + i) = n.w1[i]?) ∧
    (∀ a, s.readSym fp = .noValue a → s.mem.read a = none ∧ s.base + 0x100 ≤ a ∧ a < s.base + 0x1C0) ∧
    (held 0x100 3 → held 0x104 6 → held 0x10C 2 → held 0x110 8 → held 0x120 160 →
      let constant := (mode = 2 ^ 32 - 1 ∨ mode = 2 ^ 32 - 2) ∧ pc = 0
      let normal := mode < 2048 ∧ ∃ b, blockMode fp mode = some b ∧
        let extra := if pc = 1 ∨ matched then 0 else 3 * pc - 4
        let avail := 128 - b.weightBits - extra - (if b.dual then 2 else 0) - (if pc = 1 then 17 else 29)
        1 ≤ pc ∧ pc ≤ 4 ∧ ¬(b.dual = true ∧ pc = 4) ∧ (pc = 1 → part = 0) ∧
        (pc > 1 → matched → ∀ p < pc, cem p = cem 0) ∧
        (pc > 1 → ¬matched → ∀ p < pc, ∀ p' < pc, cem p / 4 - min (cem p' / 4) 2 ≤ 1) ∧
        count ≤ 18 ∧ 4 ≤ cq ∧ cq ≤ 20 ∧ iseBits count cq ≤ avail ∧ (∀ q ≤ 20, cq < q → iseBits count q > avail) ∧
        (∀ p < pc, ∀ k < values p, byte (0x120 + 8 * p + k) < levelValues cq) ∧
        ∀ i < b.grid.w * b.grid.h, byte (0x140 + i) < levelValues b.wq ∧
          (b.dual = true → byte (0x180 + i) < levelValues b.wq)
      (isError → s.readSym fp = .found .error) ∧
      (¬isError → constant ∨ normal → ∃ sym, s.readSym fp = .found sym ∧ symWf fp sym = true) ∧
      (¬isError → ¬(constant ∨ normal) → s.readSym fp = .illFormed))

/-- R290, R478: PACK with valid tables: a well-formed block, any other, and a SYM with a byte it needs that holds no
value. -/
def Obligations.PackWritesPhys : Prop :=
  ∀ (s : State) fp, s.tables = .valid fp →
    (∀ sym, s.readSym fp = .found sym → symWf fp sym = true →
      exec .pack s = .next { s with
        mem := s.mem.writeList (s.base + offPhys) (bytesOfBlock (packBlock fp sym))
        inst := s.inst.ended .ok }) ∧
    (∀ sym, s.readSym fp = .found sym → symWf fp sym = false →
      exec .pack s = .next { s with inst := s.inst.ended .badOperand }) ∧
    (s.readSym fp = .illFormed → exec .pack s = .next { s with inst := s.inst.ended .badOperand }) ∧
    ∀ a, s.readSym fp = .noValue a → exec .pack s = .fault (.readNoValue a)

/-- R135, R136, R305, R306, R321 to R323: where PACK puts the fields of a block: mode, partition count and index, the CEMs
in the one-partition, the shared and the class form with its bits under the weights, CCS, the color sequence, the weights;
and every bit between the end of the color sequence and the fields below the weights is 0. -/
def Obligations.PackLayout : Prop :=
  (∀ (fp : Footprint) fp16 (c : Rgba (BitVec 16)), packBlock fp (.const fp16 c) =
    voidExtentBlock (BitVec.ofBool fp16) 3 0x1FFF 0x1FFF 0x1FFF 0x1FFF c.r c.g c.b c.a) ∧
  ∀ (fp : Footprint) n b, normalWf fp n = true → blockMode fp n.mode.toNat = some b →
    let blk := packBlock fp (.normal n)
    let cem := fun p => (cemNats n).getD p 0
    let extra := if n.pc = 1 ∨ n.matched then 0 else 3 * n.pc - 4
    let below := 128 - b.weightBits - extra
    let start := if n.pc = 1 then 17 else 29
    blk.extractLsb' 0 11 = n.mode ∧ (blk.extractLsb' 11 2).toNat = n.pc - 1 ∧
    (n.pc = 1 → (blk.extractLsb' 13 4).toNat = cem 0) ∧
    (n.pc > 1 → blk.extractLsb' 13 10 = n.partIndex) ∧
    (n.pc > 1 → n.matched = true → (blk.extractLsb' 23 6).toNat = 4 * cem 0) ∧
    (n.pc > 1 → n.matched = false →
      let enc := readBits blk 23 6 + 2 ^ 6 * readBits blk below extra
      let base := enc % 4 - 1
      enc % 4 ≠ 0 ∧ (∀ p < n.pc, min (cem p / 4) 2 ≥ base) ∧ (∃ p < n.pc, min (cem p / 4) 2 = base) ∧
      ∀ p < n.pc, cem p / 4 = base + enc / 2 ^ (2 + p) % 2 ∧ cem p % 4 = enc / 2 ^ (2 + n.pc + 2 * p) % 4) ∧
    (b.dual = true → readBits blk (below - 2) 2 = n.ccs.toNat) ∧
    (∀ i < iseBits n.colors.length n.cq.toNat,
      readBits blk (start + i) 1 = bit (iseEncode (toNats n.colors) n.cq.toNat) i) ∧
    (∀ i, start + iseBits n.colors.length n.cq.toNat ≤ i → i < below - (if b.dual then 2 else 0) →
      readBits blk i 1 = 0) ∧
    ∀ i < b.weightBits, readBits blk (127 - i) 1 =
      bit (iseEncode (if b.dual then interleave (toNats n.w0) (toNats n.w1) else toNats n.w0) b.wq) i

/-- R325 (a): a well-formed block packed and unpacked is the same block on the fields in use. R325 (b): a normal block unpacked
and packed again unpacks to the same, and is itself bit for bit but for these: the gap under the fields below the weights,
which is 0; a color or weight sequence that is not what R251 makes of its values (an alias, or a last group filled up with
other items, log entry 38); and a class form whose partitions all have one class `k`, stored with base `k - 1` and every class
bit 1, which has base `min(k, 2)`. A constant block has extents of all ones. -/
def Obligations.PackUnpack : Prop :=
  (∀ fp : Footprint, fp.valid = true → ∀ sym, symWf fp sym = true →
    readBlock fp (packBlock fp sym) = symInUse fp sym) ∧
  (∀ (fp : Footprint) (blk : Block) f c, readBlock fp blk = .const f c →
    let re := packBlock fp (readBlock fp blk)
    readBlock fp re = .const f c ∧ re.extractLsb' 0 12 = blk.extractLsb' 0 12 ∧
    re.extractLsb' 12 52 = BitVec.allOnes 52 ∧ re.extractLsb' 64 64 = blk.extractLsb' 64 64) ∧
  ∀ fp : Footprint, fp.valid = true → ∀ (blk : Block) n b, readBlock fp blk = .normal n →
    blockMode fp n.mode.toNat = some b →
    let re := packBlock fp (readBlock fp blk)
    let classForm := n.pc > 1 ∧ n.matched = false
    let extra := if classForm then 3 * n.pc - 4 else 0
    let below := 128 - b.weightBits - extra
    let under := below - (if b.dual then 2 else 0)
    let start := if n.pc = 1 then 17 else 29
    let bits := iseBits n.colors.length n.cq.toNat
    let enc := fun x : Block => readBits x 23 6 + 2 ^ 6 * readBits x below extra
    let weightsOf := fun x : Block => x.reverse.toNat % 2 ^ b.weightBits
    let oneClass := fun k => (∀ p < n.pc, (cemNats n).getD p 0 / 4 = k) ∧ enc blk % 4 = k ∧ k ≤ 2
    readBlock fp re = .normal n ∧
    (∀ i < 128, (i < (if classForm then 23 else start) ∨ under ≤ i ∧ i < below) → re.getLsbD i = blk.getLsbD i) ∧
    (classForm → (∀ k, ¬oneClass k) → enc re = enc blk) ∧
    (classForm → ∀ k, oneClass k → enc re % 4 = k + 1 ∧ (∀ p < n.pc, enc re / 2 ^ (2 + p) % 2 = 0) ∧
      enc re / 2 ^ (2 + n.pc) = enc blk / 2 ^ (2 + n.pc)) ∧
    (∀ v : List Nat, v.length = n.colors.length → (∀ x ∈ v, x < levelValues n.cq.toNat) →
      readBits blk start bits = iseEncode v n.cq.toNat → readBits re start bits = readBits blk start bits) ∧
    (∀ v : List Nat, v.length = b.weightCount → (∀ x ∈ v, x < levelValues b.wq) →
      weightsOf blk = iseEncode v b.wq → weightsOf re = weightsOf blk) ∧
    ∀ i, start + bits ≤ i → i < under → re.getLsbD i = false

/-- R247 to R250: packing inverts unpacking on all 243 trit tuples and 125 quint triples, and every packed value unpacks
to digits in range. The packed values of 95_test_vectors.md section 3, and all its aliases with the digits R247 and R249 give
them. -/
def Obligations.TritsAndQuints : Prop :=
  let againT := fun T =>
    let t := fun k => (unpackTrits T).getD k 0
    packTrits (t 0) (t 1) (t 2) (t 3) (t 4)
  let againQ := fun Q =>
    let t := fun k => (unpackQuints Q).getD k 0
    packQuints (t 0) (t 1) (t 2)
  (∀ t0 < 3, ∀ t1 < 3, ∀ t2 < 3, ∀ t3 < 3, ∀ t4 < 3,
    packTrits t0 t1 t2 t3 t4 < 256 ∧ unpackTrits (packTrits t0 t1 t2 t3 t4) = [t0, t1, t2, t3, t4]) ∧
  (∀ T < 256, (unpackTrits T).length = 5 ∧ ∀ t ∈ unpackTrits T, t < 3) ∧
  (∀ q0 < 5, ∀ q1 < 5, ∀ q2 < 5,
    packQuints q0 q1 q2 < 128 ∧ unpackQuints (packQuints q0 q1 q2) = [q0, q1, q2]) ∧
  (∀ Q < 128, (unpackQuints Q).length = 3 ∧ ∀ t ∈ unpackQuints Q, t < 5) ∧
  (packTrits 0 0 0 0 0 = 0x00 ∧ packTrits 1 0 0 0 0 = 0x01 ∧ packTrits 2 2 2 2 2 = 0x7E ∧ packTrits 1 2 0 1 2 = 0xE9 ∧
    packTrits 2 1 0 2 1 = 0xC6 ∧ packTrits 0 0 2 2 0 = 0x43 ∧ packTrits 0 0 0 2 2 = 0x1C ∧
    unpackTrits 0x0F = [2, 0, 2, 0, 0] ∧ packTrits 2 0 2 0 0 = 0x0B) ∧
  (packQuints 0 0 0 = 0x00 ∧ packQuints 4 4 4 = 0x07 ∧ packQuints 1 2 3 = 0x71 ∧ packQuints 4 0 2 = 0x44 ∧
    packQuints 0 4 4 = 0x27 ∧ packQuints 3 1 4 = 0x4F ∧ unpackQuints 0x0F = [4, 4, 4]) ∧
  (((List.range 256).filter fun T => againT T ≠ T).map fun T => (T, unpackTrits T)) =
    [(0x0F, [2, 0, 2, 0, 0]), (0x2F, [2, 0, 2, 1, 0]), (0x4F, [2, 0, 2, 2, 0]), (0x6F, [2, 0, 2, 0, 2]),
      (0x7F, [2, 0, 2, 2, 2]), (0x8F, [2, 0, 2, 0, 1]), (0xAF, [2, 0, 2, 1, 1]), (0xCF, [2, 0, 2, 2, 1]),
      (0xEF, [2, 0, 2, 1, 2]), (0xFC, [0, 2, 2, 2, 2]), (0xFD, [1, 2, 2, 2, 2]), (0xFE, [2, 2, 2, 2, 2]),
      (0xFF, [2, 1, 2, 2, 2])] ∧
  (((List.range 128).filter fun Q => againQ Q ≠ Q).map fun Q => (Q, unpackQuints Q)) =
    [(0x0F, [4, 4, 4]), (0x17, [4, 4, 4]), (0x1F, [4, 4, 4])]

/-- R251 to R253: a sequence encoded and decoded is itself, whatever stands in the bits above it, at every level and
length; and what is decoded lies in the level. R243, R244, R246, R252: where the bits of a whole group stand, encoded and
decoded; and the six sequences of 95_test_vectors.md section 3. R253: a whole group decoded and encoded again is itself exactly
if its T or Q is no alias; and what R251 and R252 make of one trit stored as 11, whose T is no alias (log entry 38). -/
def Obligations.IseRoundTrip : Prop :=
  (iseEncode [1, 2, 3, 4, 5] 6 = 0b10101000110100001 ∧ iseEncode [0, 1, 2] 1 = 0b10011 ∧
    iseEncode [7, 3, 9] 7 = 0b00101111111 ∧ iseEncode [2, 0, 1, 2] 1 = 0b1010010 ∧ iseEncode [4, 1] 3 = 0b01100 ∧
    iseEncode (List.replicate 8 1) 2 = 0b0101010101010101) ∧
  (∀ q ≤ 20,
    let w := 2 ^ (level q).bits
    let tritGroup := fun (m : Nat → Nat) T =>
      m 0 + w * (T % 4 + 4 * (m 1 + w * (T / 4 % 4 + 4 * (m 2 + w * (T / 16 % 2 + 2 * (m 3 + w * (T / 32 % 4 +
        4 * (m 4 + w * (T / 128)))))))))
    let quintGroup := fun (m : Nat → Nat) Q =>
      m 0 + w * (Q % 8 + 8 * (m 1 + w * (Q / 8 % 4 + 4 * (m 2 + w * (Q / 32)))))
    (∀ v : Nat → Nat, (∀ k, v k < levelValues q) →
      let m := fun k => v k % w
      ((level q).trits = 1 → iseEncode [v 0, v 1, v 2, v 3, v 4] q =
        tritGroup m (packTrits (v 0 / w) (v 1 / w) (v 2 / w) (v 3 / w) (v 4 / w))) ∧
      ((level q).quints = 1 → iseEncode [v 0, v 1, v 2] q =
        quintGroup m (packQuints (v 0 / w) (v 1 / w) (v 2 / w))) ∧
      ((level q).trits = 0 → (level q).quints = 0 → iseEncode [v 0, v 1] q = v 0 + w * v 1)) ∧
    ∀ m : Nat → Nat, (∀ k, m k < w) →
      ((level q).trits = 1 → ∀ T < 256,
        let t := fun k => (unpackTrits T).getD k 0
        let decoded := iseDecode 5 q (tritGroup m T)
        decoded = ((List.range 5).map fun k => t k * w + m k) ∧
        (iseEncode decoded q = tritGroup m T ↔ packTrits (t 0) (t 1) (t 2) (t 3) (t 4) = T)) ∧
      ((level q).quints = 1 → ∀ Q < 128,
        let t := fun k => (unpackQuints Q).getD k 0
        let decoded := iseDecode 3 q (quintGroup m Q)
        decoded = ((List.range 3).map fun k => t k * w + m k) ∧
        (iseEncode decoded q = quintGroup m Q ↔ packQuints (t 0) (t 1) (t 2) = Q)) ∧
      ((level q).trits = 0 → (level q).quints = 0 → iseDecode 2 q (m 0 + w * m 1) = [m 0, m 1])) ∧
  (∀ q ≤ 20,
    (∀ v : List Nat, (∀ x ∈ v, x < levelValues q) → ∀ above,
      iseEncode v q < 2 ^ iseBits v.length q ∧
      iseDecode v.length q (iseEncode v q + above * 2 ^ iseBits v.length q) = v) ∧
    ∀ n x, (iseDecode n q x).length = n ∧ ∀ v ∈ iseDecode n q x, v < levelValues q) ∧
  packTrits 0 0 2 0 0 = 0b11 ∧ iseBits 1 1 = 2 ∧ iseDecode 1 1 0b11 = [0] ∧ iseEncode [0] 1 = 0

/-! ## DECODE_TEXELS -/

/-- R350, R477, R478: DECODE_TEXELS with valid tables: an unsupported output kind, a block that is not well formed, a byte
with no value, and the texels written, four bytes each. That ERRBLK is cleared for a constant block is the model's reading
(log entry 33). -/
def Obligations.DecodeTexels : Prop :=
  ∀ (kind : BitVec 2) (s : State) fp, s.tables = .valid fp →
    (kind ≠ 0 → exec (.decodeTexels kind) s = .next { s with inst := s.inst.ended .unsupportedOutput }) ∧
    (kind = 0 → s.readSym fp = .illFormed →
      exec (.decodeTexels kind) s = .next { s with inst := s.inst.ended .badOperand }) ∧
    (kind = 0 → ∀ a, s.readSym fp = .noValue a → exec (.decodeTexels kind) s = .fault (.readNoValue a)) ∧
    (kind = 0 → ∀ sym, s.readSym fp = .found sym → ∃ m : Memory,
      exec (.decodeTexels kind) s = .next { s with
        mem := m, inst := { s.inst.ended .ok with errblk := blockIsError s.profile sym } } ∧
      (∀ t < fp.bw * fp.bh, ∀ c < 4, m.read (s.base + 0x800 + 4 * t + c) =
        ((decodedTexels fp s.profile s.cfgErrorColor sym)[t]?).map fun x => x.chan c) ∧
      ∀ a, ¬s.bytesAt 0x800 (4 * (fp.bw * fp.bh)) a → m.read a = s.mem.read a)

/-- R385, R386: every texel of an error block is the error color, and only an error block depends on it. -/
def Obligations.ErrorColor : Prop :=
  ∀ (fp : Footprint) profile color sym,
    (blockIsError profile sym = true →
      decodedTexels fp profile color sym = List.replicate (fp.bw * fp.bh) color) ∧
    (symWf fp sym = true → blockIsError profile sym = false →
      ∀ color', decodedTexels fp profile color sym = decodedTexels fp profile color' sym)

/-- R355: the texels of a constant block in every profile. A binary16 value is counted in units of 2^-24, so 255 times
it, rounded half up, is `floor(255 * units / 2^24 + 1/2)`. -/
def Obligations.ConstantBlocks : Prop :=
  ∀ (fp : Footprint) (color : Rgba (BitVec 16)) (ec : Rgba Byte) (t : Nat), t < fp.bw * fp.bh →
    let out := fun profile fp16 => (decodedTexels fp profile ec (.const fp16 color))[t]?
    out .ldr false = some (color.map fun x => BitVec.ofNat 8 ((x.toNat * 255 + 32767) / 65535)) ∧
    out .hdr false = out .ldr false ∧
    out .ldrSrgb false = some (color.map fun x => x.extractLsb' 8 8) ∧
    out .ldr true = some ec ∧ out .ldrSrgb true = some ec ∧
    ∃ x : Rgba Byte, out .hdr true = some x ∧ ∀ c < 4,
      let v := color.chan c
      let e := (v.extractLsb' 10 5).toNat
      let f := (v.extractLsb' 0 10).toNat
      let value : ℚ := if e = 0 then f / 2 ^ 24 else (1 + f / 1024) * 2 ^ (e : ℤ) / 2 ^ 15
      ((x.chan c).toNat : ℤ) =
        if e = 31 ∧ f ≠ 0 then 0
        else if v.extractLsb' 15 1 = 1 then 0
        else if e = 31 then 255
        else ⌊min value 1 * 255 + 1 / 2⌋

/-- R380, R381, R382, R376: `out8` is the nearest 8-bit value, halves up; and each channel of each texel of a normal block
that is no error block, from the color values and the weights of the block, `texel16` being its 16-bit value before the
output step. In profile HDR the endpoints of an HDR CEM are `hdr_unpack` (R14), interpolated as they are by the formula of
R380 (the model's reading, log entry 39), and every texel of a block that uses one is output by `out8_hdr`, those of its LDR
partitions too (the model's reading, log entry 18). -/
def Obligations.TexelOutput : Prop :=
  (∀ c ≤ 65535, (out8 c : ℤ) = ⌊(c : ℚ) / 65535 * 255 + 1 / 2⌋) ∧
  ∀ (fp : Footprint) profile ec n b t, fp.valid = true → normalWf fp n = true →
    blockMode fp n.mode.toNat = some b → blockIsError profile (.normal n) = false → t < fp.bw * fp.bh →
    ∃ x : Rgba Byte, (decodedTexels fp profile ec (.normal n))[t]? = some x ∧ ∀ c < 4,
      let p := partitionOf fp n.pc n.partIndex.toNat t
      let cem := (cemNats n).getD p 0
      let before := (((cemNats n).take p).map cemValues).sum
      let vals := ((toNats n.colors).drop before).take (cemValues cem) |>.map (unqColor n.cq.toNat)
      let hdr : List Nat := [2, 3, 7, 11, 14, 15]
      let wide := fun v => if profile = .ldrSrgb then v * 256 + 128 else v * 257
      let e0 := if cem ∈ hdr then ((Config.hdrUnpack cem vals).1.chan c).toNat else wide ((ldrEndpoints cem vals).1.chan c)
      let e1 := if cem ∈ hdr then ((Config.hdrUnpack cem vals).2.chan c).toNat else wide ((ldrEndpoints cem vals).2.chan c)
      let plane := if b.dual = true ∧ c = n.ccs.toNat then n.w1 else n.w0
      let w := infilledWeight fp b.grid ((toNats plane).map (unqWeight b.wq)) t
      let C := (e0 * (64 - w) + e1 * w + 32) / 64
      w ≤ 64 ∧ C ≤ 65535 ∧ (texel16 fp profile b n t).chan c = C ∧
      x.chan c = if ∃ k ∈ cemNats n, k ∈ hdr then Config.out8Hdr (BitVec.ofNat 16 C)
        else BitVec.ofNat 8 (if profile = .ldrSrgb then C / 256 else out8 C)

/-- R365 to R375: `bit_transfer_signed` on bytes, its offset being the six middle bits read as a signed number; the
endpoints of the ten LDR CEMs; every channel lies in 0..255. -/
def Obligations.LdrEndpoints : Prop :=
  (∀ a b : BitVec 8, bitTransferSigned a.toNat b.toNat =
    ((a.extractLsb' 1 6).toInt, ((a.extractLsb' 7 1 ++ b.extractLsb' 1 7).toNat : ℤ))) ∧
  ∀ v : List Byte,
    let n := fun k => (v.getD k 0).toNat
    let i := fun k => (n k : ℤ)
    let ends := fun cem => ldrEndpoints cem (toNats v)
    let contract := fun (r g b a : ℤ) => (⟨(r + b) / 2, (g + b) / 2, b, a⟩ : Rgba ℤ)
    let clamp := fun x : Rgba ℤ => x.map fun c => (min (max c 0) 255).toNat
    let base := fun k => (bitTransferSigned (n (k + 1)) (n k)).2
    let off := fun k => (bitTransferSigned (n (k + 1)) (n k)).1
    ends 0 = (⟨n 0, n 0, n 0, 255⟩, ⟨n 1, n 1, n 1, 255⟩) ∧
    (let l0 := n 0 / 4 ||| (n 1 &&& 0xC0)
      let l1 := min (l0 + (n 1 &&& 0x3F)) 255
      ends 1 = (⟨l0, l0, l0, 255⟩, ⟨l1, l1, l1, 255⟩)) ∧
    ends 4 = (⟨n 0, n 0, n 0, n 2⟩, ⟨n 1, n 1, n 1, n 3⟩) ∧
    ends 5 = (clamp ⟨base 0, base 0, base 0, base 2⟩,
      clamp ⟨base 0 + off 0, base 0 + off 0, base 0 + off 0, base 2 + off 2⟩) ∧
    ends 6 = (⟨n 0 * n 3 / 256, n 1 * n 3 / 256, n 2 * n 3 / 256, 255⟩, ⟨n 0, n 1, n 2, 255⟩) ∧
    (ends 8 = if n 1 + n 3 + n 5 ≥ n 0 + n 2 + n 4 then (⟨n 0, n 2, n 4, 255⟩, ⟨n 1, n 3, n 5, 255⟩)
      else (clamp (contract (i 1) (i 3) (i 5) 255), clamp (contract (i 0) (i 2) (i 4) 255))) ∧
    (ends 9 = if off 0 + off 2 + off 4 ≥ 0 then (clamp ⟨base 0, base 2, base 4, 255⟩,
        clamp ⟨base 0 + off 0, base 2 + off 2, base 4 + off 4, 255⟩)
      else (clamp (contract (base 0 + off 0) (base 2 + off 2) (base 4 + off 4) 255),
        clamp (contract (base 0) (base 2) (base 4) 255))) ∧
    ends 10 = (⟨n 0 * n 3 / 256, n 1 * n 3 / 256, n 2 * n 3 / 256, n 4⟩, ⟨n 0, n 1, n 2, n 5⟩) ∧
    (ends 12 = if n 1 + n 3 + n 5 ≥ n 0 + n 2 + n 4 then (⟨n 0, n 2, n 4, n 6⟩, ⟨n 1, n 3, n 5, n 7⟩)
      else (clamp (contract (i 1) (i 3) (i 5) (i 7)), clamp (contract (i 0) (i 2) (i 4) (i 6)))) ∧
    (ends 13 = if off 0 + off 2 + off 4 ≥ 0 then (clamp ⟨base 0, base 2, base 4, base 6⟩,
        clamp ⟨base 0 + off 0, base 2 + off 2, base 4 + off 4, base 6 + off 6⟩)
      else (clamp (contract (base 0 + off 0) (base 2 + off 2) (base 4 + off 4) (base 6 + off 6)),
        clamp (contract (base 0) (base 2) (base 4) (base 6)))) ∧
    ∀ cem c, (ends cem).1.chan c ≤ 255 ∧ (ends cem).2.chan c ≤ 255

/-! ## ENCODE_BLOCK -/

/-- R400, R65, R477, R478: ENCODE_BLOCK with valid tables: an unsupported input kind, an illegal weight, bytes with no
value, and what it writes otherwise; ERRBLK stays, and PHYS is written exactly with the pack flag (SYM with its ERROR
bit, log entry 37). R53: an error,
counted in units of 2^-149, that is a binary64 value is stored exactly, and any other as one of its two neighbours. R425:
the error is the weighted sum of squares over texels and channels, of the values SYM_CONST or `texel16` (TexelOutput) less
257 times the texel; its values for the blocks of R443 and of N4 in 95_test_vectors.md section 10. -/
def Obligations.EncodeBlock : Prop :=
  (∀ (p : BitVec 1) (kind : BitVec 2) (s : State) fp, s.tables = .valid fp →
    (kind ≠ 0 → exec (.encodeBlock p kind) s = .next { s with inst := s.inst.ended .unsupportedInput }) ∧
    (kind = 0 → ∀ a, s.readEwb fp.texels = .error a → exec (.encodeBlock p kind) s = .fault (.readNoValue a)) ∧
    (kind = 0 → ∀ ewb, s.readEwb fp.texels = .ok ewb → (∃ w ∈ ewb, weightLegal w = false) →
      exec (.encodeBlock p kind) s = .next { s with inst := s.inst.ended .badOperand }) ∧
    (kind = 0 → ∀ ewb, s.readEwb fp.texels = .ok ewb → (∀ w ∈ ewb, weightLegal w = true) →
      (∀ a, s.readTexin fp.texels = .error a → exec (.encodeBlock p kind) s = .fault (.readNoValue a)) ∧
      ∀ texels, s.readTexin fp.texels = .ok texels →
        let inp := s.searchInput fp texels ewb
        let sym := encodedSym inp s.cfgConstTol.toNat
        let m := (s.writeSym sym).mem
        exec (.encodeBlock p kind) s = .next { s with
          mem := if p = 1 then m.writeList (s.base + offPhys) (bytesOfBlock (packBlock fp sym)) else m
          inst := { s.inst.ended .ok with errOut := toBinary64 (weightedError inp sym) } })) ∧
  (∀ w : Word, weightLegal w.toNat = true ↔ w.toNat < 0x7F800000 ∨ w = 0x80000000) ∧
  toBinary64 0 = 0 ∧
  (∀ err : Nat, err ≠ 0 → err < 2 ^ 1172 →
    let value := fun b : BitVec 64 =>
      (2 ^ 52 + (b.extractLsb' 0 52).toNat : ℚ) * 2 ^ ((b.extractLsb' 52 11).toNat - 1075 + 149 : ℤ)
    ∃ below : BitVec 64, 0 < below.toNat / 2 ^ 52 ∧ below.toNat + 1 < 0x7FF * 2 ^ 52 ∧
      value below ≤ err ∧ err < value (below + 1) ∧
      (toBinary64 err = below ∨ toBinary64 err = below + 1) ∧ (value below = err → toBinary64 err = below)) ∧
  (∀ inp : SearchInput, inp.texels.length = inp.bw * inp.bh →
    let fp : Footprint := ⟨inp.bw, inp.bh⟩
    let sum := fun C : Nat → Rgba Nat => ((List.range (inp.bw * inp.bh)).map fun t => ((List.range 4).map fun c =>
      ((inp.weights.getD t ⟨0, 0, 0, 0⟩).chan c : ℤ) *
        (((C t).chan c : ℤ) - 257 * (((inp.texels.getD t ⟨0, 0, 0, 0⟩).chan c).toNat : ℤ)) ^ 2).sum).sum
    (∀ f color, (weightedError inp (.const f color) : ℤ) = sum fun _ => color.map BitVec.toNat) ∧
    ∀ n b, blockMode fp n.mode.toNat = some b →
      (weightedError inp (.normal n) : ℤ) = sum (texel16 fp inp.profile b n)) ∧
  ∀ (inp : SearchInput) one, inp.bw = 4 → inp.bh = 4 → inp.weights = List.replicate 16 ⟨one, one, one, one⟩ →
    (inp.texels = List.replicate 8 ⟨0, 0, 0, 255⟩ ++ List.replicate 8 ⟨255, 255, 255, 255⟩ →
      let sym := readBlock ⟨4, 4⟩ (blockOfBytes [0x42, 0, 1, 0xFE, 1, 0xFE, 1, 0xFE, 1, 0, 0, 0, 0xFF, 0xFF, 0, 0])
      (inp.profile = .ldr → weightedError inp sym = 0) ∧
      (inp.profile = .ldrSrgb → weightedError inp sym = 1038376 * one)) ∧
    (inp.texels = List.replicate 8 ⟨100, 0, 0, 255⟩ ++ List.replicate 8 ⟨101, 0, 0, 255⟩ →
      weightedError inp (encodedSym inp 129) = 264200 * one)

/-- R405 to R408: the constant block is emitted exactly if every channel lies within the tolerance of its middle value,
and never as FP16. -/
def Obligations.ConstantShortcut : Prop :=
  ∀ (inp : SearchInput) (tol : Nat), inp.texels ≠ [] →
    (∀ f color, encodedSym inp tol = .const f color → f = false ∧ ∀ c < 4,
      ∃ lo ∈ channel inp.texels c, ∃ hi ∈ channel inp.texels c,
        (∀ x ∈ channel inp.texels c, lo.toNat ≤ x.toNat ∧ x.toNat ≤ hi.toNat) ∧
        let mid := (257 * lo.toNat + 257 * hi.toNat) / 2
        (color.chan c).toNat = mid ∧ 257 * hi.toNat - mid ≤ tol ∧ mid - 257 * lo.toNat ≤ tol) ∧
    ((∀ c < 4, ∀ x ∈ channel inp.texels c, ∀ y ∈ channel inp.texels c,
      257 * x.toNat - (257 * x.toNat + 257 * y.toNat) / 2 ≤ tol) → ∃ color, encodedSym inp tol = .const false color)

/-- R356, R407: a block of one color, with tolerance 0, is coded with error 0 and decodes to itself in every profile. -/
def Obligations.ConstantRoundTrip : Prop :=
  ∀ (inp : SearchInput) (v ec : Rgba Byte) (profile : Profile),
    inp.texels = List.replicate (inp.bw * inp.bh) v → inp.bw * inp.bh ≠ 0 →
    encodedSym inp 0 = .const false (v.map fun x => BitVec.ofNat 16 (257 * x.toNat)) ∧
    weightedError inp (encodedSym inp 0) = 0 ∧
    decodedTexels ⟨inp.bw, inp.bh⟩ profile ec (encodedSym inp 0) = inp.texels

/-- R410 to R415: whatever `search_policy` proposes, the block emitted is a candidate, comes from the evaluated set, has
an error `err` with `err - e* ≤ eps_tie * e*` for the least error `e*` there (`eps_tie` as a fraction, log entry 16), and is
least in partition count and packed value among those that do. R181, R194, R410, R426, R427, R432: what a candidate is,
condition by condition; every candidate proposed is evaluated. -/
def Obligations.SearchSelects : Prop :=
  (∀ (inp : SearchInput) n,
    let fp : Footprint := ⟨inp.bw, inp.bh⟩
    let permitted := fun m => (∃ b, blockMode fp m = some b) ∧
      (Config.blockModePercentile inp.bw inp.bh m).val ≤ inp.cut.toNat
    (Config.searchPolicy inp).filter (isCandidate inp) ⊆ evaluated inp ∧
    (isCandidate inp n = true ↔
      normalWf fp n = true ∧ ((∃ m < 2048, permitted m) → permitted n.mode.toNat) ∧
      (n.pc = 1 ∨ ∀ p < n.pc, ∃ t < inp.bw * inp.bh, partitionOf fp n.pc n.partIndex.toNat t = p) ∧
      (∀ c ∈ n.cems, c.toNat ∈ [0, 1, 4, 5, 6, 8, 9, 10, 12, 13]) ∧
      (n.matched = true ↔ ∀ c ∈ n.cems, ∀ d ∈ n.cems, c = d))) ∧
  ∀ inp : SearchInput, (⟨inp.bw, inp.bh⟩ : Footprint).valid = true →
    evaluated inp ≠ [] ∧ (∀ n ∈ evaluated inp, isCandidate inp n = true) ∧
    let err := fun n => weightedError inp (.normal n)
    let key := fun n => (packBlock ⟨inp.bw, inp.bh⟩ (.normal n)).toNat
    ∃ n ∈ evaluated inp, search inp = .normal n ∧
      ∃ least, (∃ k ∈ evaluated inp, err k = least) ∧ (∀ k ∈ evaluated inp, least ≤ err k) ∧
        (err n - least) * (Config.epsTieDen + 1) ≤ Config.epsTieNum * least ∧
        ∀ k ∈ evaluated inp, (err k - least) * (Config.epsTieDen + 1) ≤ Config.epsTieNum * least →
          n.pc < k.pc ∨ (n.pc = k.pc ∧ key n ≤ key k)

/-- R420, R485: ENCODE_BLOCK on two machines, whichever instance is in hand, with the same tables, configuration and
texels and weights of the block, gives the same block, error and code. -/
def Obligations.EncodeDeterminism : Prop :=
  ∀ (p : BitVec 1) (s s' t : State) fp, s.tables = .valid fp → s'.tables = .valid fp →
    s.cfgProfile = s'.cfgProfile → s.cfgConstTol = s'.cfgConstTol → s.effPlimit = s'.effPlimit →
    s.effCut = s'.effCut → s.effIters = s'.effIters →
    (∀ k < 4 * fp.texels, s.mem.read (s.base + offTexin + k) = s'.mem.read (s'.base + offTexin + k)) →
    (∀ k < 16 * fp.texels, s.mem.read (s.base + offEwb + k) = s'.mem.read (s'.base + offEwb + k)) →
    exec (.encodeBlock p 0) s = .next t →
    ∃ t', exec (.encodeBlock p 0) s' = .next t' ∧ t'.inst.code = t.inst.code ∧
      (t.inst.code = .ok → t'.inst.errOut = t.inst.errOut ∧
        ∀ off, (offSymCtrl ≤ off ∧ off < offSymW1 + 64 ∧ byteMask off ≠ 0) ∨
            (p = 1 ∧ offPhys ≤ off ∧ off < offPhys + 16) →
          (t'.mem.read (t'.base + off)).isSome = true ∧ t'.mem.read (t'.base + off) = t.mem.read (t.base + off))

/-- R432 to R435: after ENCODE_BLOCK with the pack flag, UNPACK does not meet an error block and finds the block
encoded, on the fields in use. -/
def Obligations.EncodeUnpacks : Prop :=
  ∀ (s t : State) fp, s.tables = .valid fp → fp.valid = true → exec (.encodeBlock 1 0) s = .next t →
    t.inst.code = .ok →
    ∃ u sym, t.readSym fp = .found sym ∧ symWf fp sym = true ∧ exec .unpack t = .next u ∧ u.inst.code = .ok ∧
      u.inst.errblk = false ∧ u.readSym fp = .found (symInUse fp sym)

/-- R430. The sufficient condition it names: where at least the same blocks are evaluated, the error is no greater; with
`eps_tie > 0` (log entry 16) no greater but for the factor `1 + eps_tie`, which is 1 at its default 0. And the rule on the
unit: where the requirement on `quality_map` and `search_policy` holds of a block and two qualities (`monotoneAt`, assumed
nowhere else; log entry 13), BUILD_TABLES and ENCODE_BLOCK at the higher quality give no greater error. -/
def Obligations.Monotone : Prop :=
  (∀ inp inp' : SearchInput, inp.bw = inp'.bw → inp.bh = inp'.bh → inp.profile = inp'.profile →
    inp.texels = inp'.texels → inp.weights = inp'.weights → (∀ n ∈ evaluated inp, n ∈ evaluated inp') → ∀ tol,
    weightedError inp' (encodedSym inp' tol) * (Config.epsTieDen + 1) ≤
      weightedError inp (encodedSym inp tol) * (Config.epsTieDen + 1 + Config.epsTieNum)) ∧
  ∀ (p : BitVec 1) (s low high : State) (q1 q2 : BitVec 8) fp texels ewb,
    exec .buildTables { s with cfgQuality := q1 } = .next low →
    exec .buildTables { s with cfgQuality := q2 } = .next high → low.tables = .valid fp →
    s.readEwb fp.texels = .ok ewb → (∀ w ∈ ewb, weightLegal w = true) → s.readTexin fp.texels = .ok texels →
    q1.toNat ≤ q2.toNat → monotoneAt (s.searchInput fp texels ewb) s.cfgConstTol.toNat q1 q2 →
    let err := fun u : State =>
      weightedError (u.searchInput fp texels ewb) (encodedSym (u.searchInput fp texels ewb) s.cfgConstTol.toNat)
    err high ≤ err low ∧ ∀ u ∈ [low, high], ∃ t, exec (.encodeBlock p 0) u = .next t ∧ t.inst.code = .ok ∧
      t.inst.errOut = toBinary64 (err u)

/-! ## Rules over all instructions -/

/-- R472: a command that ends with another code than OK writes nothing but STATUS.CODE and BUSY; a failed BUILD_TABLES
clears TABLES_VALID as well, and the tables themselves stay. -/
def Obligations.RaiseWritesNothing : Prop :=
  ∀ i (s t : State), exec i s = .next t → t.inst.code ≠ .ok →
    t.inst = s.inst.ended t.inst.code ∧ t.mem = s.mem ∧ s.sameConfig t ∧ s.sameOutside t ∧
    (i ≠ .buildTables → s.sameTables t) ∧
    (i = .buildTables → t.tables = s.tables.invalidate ∧ t.tables.isValid = false ∧
      (∀ fp, s.tables = .valid fp → t.tables = .stale fp) ∧ t.effPlimit = s.effPlimit ∧ t.effCut = s.effCut ∧
      t.effIters = s.effIters)

/-- R478: a command stops only for a buffer byte of its own instance that holds no value, and only the four commands that
read buffers do; it is never refused. The byte lies in a buffer where valid tables are of a valid footprint, as
`State.Inv` has it. -/
def Obligations.FaultsOnlyWithoutValue : Prop :=
  ∀ i (s : State),
    (∀ r, exec i s ≠ .refused r) ∧
    ∀ f, exec i s = .fault f →
      (i = .pack ∨ i = .unpack ∨ (∃ k, i = .decodeTexels k) ∨ ∃ p k, i = .encodeBlock p k) ∧
      ∃ off, f = .readNoValue (s.base + off) ∧ s.mem.read (s.base + off) = none ∧
        ((∀ fp, s.tables = .valid fp → fp.valid = true) → off < instanceStride ∧ byteMask off ≠ 0)

/-- R479, R486, R523, R69: no command touches the configuration, another instance or another instance's buffers, and only
BUILD_TABLES touches the tables. R486, R520: but for a reset, a step changes the configuration only while every instance
is idle, and the tables only then or as a BUILD_TABLES completes beside idle instances only (log entry 25). -/
def Obligations.CommandIsolation : Prop :=
  (∀ s t : State, s.Inv → step s = .next t →
    (s.sameConfig t ∧ s.sameTables t) ∨ (∃ rest, s.script = .reset :: rest) ∨
    (∀ k, (s.instOf k).running = none ∧ (t.instOf k).running = none) ∨
    (s.sameConfig t ∧ (s.instOf t.cur).running = some 0x00000001 ∧
      ∀ k, k ≠ t.cur → (s.instOf k).running = none ∧ (t.instOf k).running = none)) ∧
  ∀ i (s t : State), exec i s = .next t →
    s.sameConfig t ∧ s.sameOutside t ∧ (i ≠ .buildTables → s.sameTables t) ∧
    ((∀ fp, s.tables = .valid fp → fp.valid = true) → s.sameBytesBut t (s.bytesAt 0 instanceStride))

/-- R52, R53, R77: the frame of the commands that store nothing: NOP, BUILD_TABLES, ISE_BITCOUNT, QLOOKUP, PLOOKUP,
MODEINFO, DLOOKUP and the reserved opcodes. Only a lookup writes RESULT. -/
def Obligations.FrameRegisterOnly : Prop :=
  ∀ i (s t : State), exec i s = .next t →
    (match i with
      | .nop | .buildTables | .iseBitcount _ _ | .qlookup _ _ _ | .plookup _ _ _ | .modeinfo _ | .dlookup _ _ _ _
      | .reservedOp _ _ => True
      | _ => False) →
    (∀ a, t.mem.read a = s.mem.read a) ∧ t.inst.errblk = s.inst.errblk ∧ t.inst.errOut = s.inst.errOut ∧
    t.inst.running = none ∧ s.sameConfig t ∧ s.sameOutside t ∧
    ((i = .nop ∨ i = .buildTables ∨ ∃ op x, i = .reservedOp op x) → t.inst.result = s.inst.result) ∧
    (i ≠ .buildTables → s.sameTables t)

/-- R55, R56, R64, R77: the frame of the commands that store: PACK to PHYS, UNPACK and the physical blocks to SYM,
DECODE_TEXELS to the texels of TEXOUT, ENCODE_BLOCK to SYM and with the pack flag to PHYS. -/
def Obligations.FrameStoring : Prop :=
  ∀ i (s t : State) fp, s.tables = .valid fp → exec i s = .next t →
    let framed := fun stored : Nat → Prop =>
      s.sameBytesBut t stored ∧ t.inst.result = s.inst.result ∧ t.inst.running = none ∧ s.sameConfig t ∧
      s.sameTables t ∧ s.sameOutside t
    match i with
    | .pack => framed (s.bytesAt offPhys 16) ∧ t.inst.errblk = s.inst.errblk ∧ t.inst.errOut = s.inst.errOut
    | .unpack | .physVoidExtent _ _ _ _ _ _ _ _ _ _ | .physNormal1p _ _ _ | .physNormalMp _ _ _ _ _ =>
      framed s.symAddress ∧ t.inst.errOut = s.inst.errOut
    | .decodeTexels _ => framed (s.bytesAt offTexout (4 * fp.texels)) ∧ t.inst.errOut = s.inst.errOut
    | .encodeBlock p _ =>
      framed (fun a => s.symAddress a ∨ (p = 1 ∧ s.bytesAt offPhys 16 a)) ∧ t.inst.errblk = s.inst.errblk
    | _ => True

/-! ## Invariants -/

/-- The invariants of Sys2Proof/Safety.lean hold after reset. -/
def Obligations.ResetInv : Prop := State.Inv State.reset

/-- Every step keeps the invariants: the memory stays canonical, valid tables match the configuration (R68), no instance
shows INTERNAL_FAILURE (R476), the list of instances stays canonical, the bits that SYM does not name stay 0, and
no two instances run BUILD_TABLES at once (R520). -/
def Obligations.StepKeepsInv : Prop := ∀ s t : State, s.Inv → step s = .next t → t.Inv

end Slice0Obligations
end

