-- ==== Sys2Proof/Laws/State.lean ====
section
/-! SUPPORT. One lemma per field per update of the state, so that no proof unfolds a record update. -/

namespace Sys2Proof.Machine

variable (s : State)

/-! ## finish -/

@[simp] theorem State.finish_cfgBw (c : Code) : (s.finish c).cfgBw = s.cfgBw := rfl
@[simp] theorem State.finish_cfgBh (c : Code) : (s.finish c).cfgBh = s.cfgBh := rfl
@[simp] theorem State.finish_cfgProfile (c : Code) : (s.finish c).cfgProfile = s.cfgProfile := rfl
@[simp] theorem State.finish_cfgQuality (c : Code) : (s.finish c).cfgQuality = s.cfgQuality := rfl
@[simp] theorem State.finish_cfgConstTol (c : Code) : (s.finish c).cfgConstTol = s.cfgConstTol := rfl
@[simp] theorem State.finish_cfgErrorColor (c : Code) : (s.finish c).cfgErrorColor = s.cfgErrorColor := rfl
@[simp] theorem State.finish_effPlimit (c : Code) : (s.finish c).effPlimit = s.effPlimit := rfl
@[simp] theorem State.finish_effCut (c : Code) : (s.finish c).effCut = s.effCut := rfl
@[simp] theorem State.finish_effIters (c : Code) : (s.finish c).effIters = s.effIters := rfl
@[simp] theorem State.finish_tables (c : Code) : (s.finish c).tables = s.tables := rfl
@[simp] theorem State.finish_cur (c : Code) : (s.finish c).cur = s.cur := rfl
@[simp] theorem State.finish_others (c : Code) : (s.finish c).others = s.others := rfl
@[simp] theorem State.finish_mem (c : Code) : (s.finish c).mem = s.mem := rfl
@[simp] theorem State.finish_script (c : Code) : (s.finish c).script = s.script := rfl
@[simp] theorem State.finish_rdata (c : Code) : (s.finish c).rdata = s.rdata := rfl
@[simp] theorem State.finish_draws (c : Code) : (s.finish c).draws = s.draws := rfl
@[simp] theorem State.finish_epoch (c : Code) : (s.finish c).epoch = s.epoch := rfl
@[simp] theorem State.finish_inst_code (c : Code) : (s.finish c).inst.code = c := rfl
@[simp] theorem State.finish_inst_errblk (c : Code) : (s.finish c).inst.errblk = s.inst.errblk := rfl
@[simp] theorem State.finish_inst_running (c : Code) : (s.finish c).inst.running = none := rfl
@[simp] theorem State.finish_inst_result (c : Code) : (s.finish c).inst.result = s.inst.result := rfl
@[simp] theorem State.finish_inst_errOut (c : Code) : (s.finish c).inst.errOut = s.inst.errOut := rfl
@[simp] theorem State.finish_base (c : Code) : (s.finish c).base = s.base := rfl
@[simp] theorem State.finish_profile (c : Code) : (s.finish c).profile = s.profile := rfl
@[simp] theorem State.finish_cfgFootprint (c : Code) : (s.finish c).cfgFootprint = s.cfgFootprint := rfl

/-! ## setResult -/

@[simp] theorem State.setResult_cfgBw (v : Nat) : (s.setResult v).cfgBw = s.cfgBw := rfl
@[simp] theorem State.setResult_cfgBh (v : Nat) : (s.setResult v).cfgBh = s.cfgBh := rfl
@[simp] theorem State.setResult_cfgProfile (v : Nat) : (s.setResult v).cfgProfile = s.cfgProfile := rfl
@[simp] theorem State.setResult_cfgQuality (v : Nat) : (s.setResult v).cfgQuality = s.cfgQuality := rfl
@[simp] theorem State.setResult_cfgConstTol (v : Nat) : (s.setResult v).cfgConstTol = s.cfgConstTol := rfl
@[simp] theorem State.setResult_cfgErrorColor (v : Nat) : (s.setResult v).cfgErrorColor = s.cfgErrorColor := rfl
@[simp] theorem State.setResult_effPlimit (v : Nat) : (s.setResult v).effPlimit = s.effPlimit := rfl
@[simp] theorem State.setResult_effCut (v : Nat) : (s.setResult v).effCut = s.effCut := rfl
@[simp] theorem State.setResult_effIters (v : Nat) : (s.setResult v).effIters = s.effIters := rfl
@[simp] theorem State.setResult_tables (v : Nat) : (s.setResult v).tables = s.tables := rfl
@[simp] theorem State.setResult_cur (v : Nat) : (s.setResult v).cur = s.cur := rfl
@[simp] theorem State.setResult_others (v : Nat) : (s.setResult v).others = s.others := rfl
@[simp] theorem State.setResult_mem (v : Nat) : (s.setResult v).mem = s.mem := rfl
@[simp] theorem State.setResult_script (v : Nat) : (s.setResult v).script = s.script := rfl
@[simp] theorem State.setResult_rdata (v : Nat) : (s.setResult v).rdata = s.rdata := rfl
@[simp] theorem State.setResult_draws (v : Nat) : (s.setResult v).draws = s.draws := rfl
@[simp] theorem State.setResult_epoch (v : Nat) : (s.setResult v).epoch = s.epoch := rfl
@[simp] theorem State.setResult_inst_code (v : Nat) : (s.setResult v).inst.code = s.inst.code := rfl
@[simp] theorem State.setResult_inst_errblk (v : Nat) : (s.setResult v).inst.errblk = s.inst.errblk := rfl
@[simp] theorem State.setResult_inst_running (v : Nat) : (s.setResult v).inst.running = s.inst.running := rfl
@[simp] theorem State.setResult_inst_result (v : Nat) : (s.setResult v).inst.result = BitVec.ofNat 32 v := rfl
@[simp] theorem State.setResult_inst_errOut (v : Nat) : (s.setResult v).inst.errOut = s.inst.errOut := rfl
@[simp] theorem State.setResult_base (v : Nat) : (s.setResult v).base = s.base := rfl
@[simp] theorem State.setResult_profile (v : Nat) : (s.setResult v).profile = s.profile := rfl
@[simp] theorem State.setResult_cfgFootprint (v : Nat) : (s.setResult v).cfgFootprint = s.cfgFootprint := rfl

/-! ## setErrblk -/

@[simp] theorem State.setErrblk_cfgBw (b : Bool) : (s.setErrblk b).cfgBw = s.cfgBw := rfl
@[simp] theorem State.setErrblk_cfgBh (b : Bool) : (s.setErrblk b).cfgBh = s.cfgBh := rfl
@[simp] theorem State.setErrblk_cfgProfile (b : Bool) : (s.setErrblk b).cfgProfile = s.cfgProfile := rfl
@[simp] theorem State.setErrblk_cfgQuality (b : Bool) : (s.setErrblk b).cfgQuality = s.cfgQuality := rfl
@[simp] theorem State.setErrblk_cfgConstTol (b : Bool) : (s.setErrblk b).cfgConstTol = s.cfgConstTol := rfl
@[simp] theorem State.setErrblk_cfgErrorColor (b : Bool) : (s.setErrblk b).cfgErrorColor = s.cfgErrorColor := rfl
@[simp] theorem State.setErrblk_effPlimit (b : Bool) : (s.setErrblk b).effPlimit = s.effPlimit := rfl
@[simp] theorem State.setErrblk_effCut (b : Bool) : (s.setErrblk b).effCut = s.effCut := rfl
@[simp] theorem State.setErrblk_effIters (b : Bool) : (s.setErrblk b).effIters = s.effIters := rfl
@[simp] theorem State.setErrblk_tables (b : Bool) : (s.setErrblk b).tables = s.tables := rfl
@[simp] theorem State.setErrblk_cur (b : Bool) : (s.setErrblk b).cur = s.cur := rfl
@[simp] theorem State.setErrblk_others (b : Bool) : (s.setErrblk b).others = s.others := rfl
@[simp] theorem State.setErrblk_mem (b : Bool) : (s.setErrblk b).mem = s.mem := rfl
@[simp] theorem State.setErrblk_script (b : Bool) : (s.setErrblk b).script = s.script := rfl
@[simp] theorem State.setErrblk_rdata (b : Bool) : (s.setErrblk b).rdata = s.rdata := rfl
@[simp] theorem State.setErrblk_draws (b : Bool) : (s.setErrblk b).draws = s.draws := rfl
@[simp] theorem State.setErrblk_epoch (b : Bool) : (s.setErrblk b).epoch = s.epoch := rfl
@[simp] theorem State.setErrblk_inst_code (b : Bool) : (s.setErrblk b).inst.code = s.inst.code := rfl
@[simp] theorem State.setErrblk_inst_errblk (b : Bool) : (s.setErrblk b).inst.errblk = b := rfl
@[simp] theorem State.setErrblk_inst_running (b : Bool) : (s.setErrblk b).inst.running = s.inst.running := rfl
@[simp] theorem State.setErrblk_inst_result (b : Bool) : (s.setErrblk b).inst.result = s.inst.result := rfl
@[simp] theorem State.setErrblk_inst_errOut (b : Bool) : (s.setErrblk b).inst.errOut = s.inst.errOut := rfl
@[simp] theorem State.setErrblk_base (b : Bool) : (s.setErrblk b).base = s.base := rfl
@[simp] theorem State.setErrblk_profile (b : Bool) : (s.setErrblk b).profile = s.profile := rfl
@[simp] theorem State.setErrblk_cfgFootprint (b : Bool) : (s.setErrblk b).cfgFootprint = s.cfgFootprint := rfl

/-! ## store -/

@[simp] theorem State.store_cfgBw (off : Nat) (bs : List Byte) : (s.store off bs).cfgBw = s.cfgBw := rfl
@[simp] theorem State.store_cfgBh (off : Nat) (bs : List Byte) : (s.store off bs).cfgBh = s.cfgBh := rfl
@[simp] theorem State.store_cfgProfile (off : Nat) (bs : List Byte) : (s.store off bs).cfgProfile = s.cfgProfile := rfl
@[simp] theorem State.store_cfgQuality (off : Nat) (bs : List Byte) : (s.store off bs).cfgQuality = s.cfgQuality := rfl
@[simp] theorem State.store_cfgConstTol (off : Nat) (bs : List Byte) : (s.store off bs).cfgConstTol = s.cfgConstTol := rfl
@[simp] theorem State.store_cfgErrorColor (off : Nat) (bs : List Byte) : (s.store off bs).cfgErrorColor = s.cfgErrorColor := rfl
@[simp] theorem State.store_effPlimit (off : Nat) (bs : List Byte) : (s.store off bs).effPlimit = s.effPlimit := rfl
@[simp] theorem State.store_effCut (off : Nat) (bs : List Byte) : (s.store off bs).effCut = s.effCut := rfl
@[simp] theorem State.store_effIters (off : Nat) (bs : List Byte) : (s.store off bs).effIters = s.effIters := rfl
@[simp] theorem State.store_tables (off : Nat) (bs : List Byte) : (s.store off bs).tables = s.tables := rfl
@[simp] theorem State.store_cur (off : Nat) (bs : List Byte) : (s.store off bs).cur = s.cur := rfl
@[simp] theorem State.store_others (off : Nat) (bs : List Byte) : (s.store off bs).others = s.others := rfl
@[simp] theorem State.store_mem (off : Nat) (bs : List Byte) : (s.store off bs).mem = s.mem.writeList (s.base + off) bs := rfl
@[simp] theorem State.store_script (off : Nat) (bs : List Byte) : (s.store off bs).script = s.script := rfl
@[simp] theorem State.store_rdata (off : Nat) (bs : List Byte) : (s.store off bs).rdata = s.rdata := rfl
@[simp] theorem State.store_draws (off : Nat) (bs : List Byte) : (s.store off bs).draws = s.draws := rfl
@[simp] theorem State.store_epoch (off : Nat) (bs : List Byte) : (s.store off bs).epoch = s.epoch := rfl
@[simp] theorem State.store_inst_code (off : Nat) (bs : List Byte) : (s.store off bs).inst.code = s.inst.code := rfl
@[simp] theorem State.store_inst_errblk (off : Nat) (bs : List Byte) : (s.store off bs).inst.errblk = s.inst.errblk := rfl
@[simp] theorem State.store_inst_running (off : Nat) (bs : List Byte) : (s.store off bs).inst.running = s.inst.running := rfl
@[simp] theorem State.store_inst_result (off : Nat) (bs : List Byte) : (s.store off bs).inst.result = s.inst.result := rfl
@[simp] theorem State.store_inst_errOut (off : Nat) (bs : List Byte) : (s.store off bs).inst.errOut = s.inst.errOut := rfl
@[simp] theorem State.store_base (off : Nat) (bs : List Byte) : (s.store off bs).base = s.base := rfl
@[simp] theorem State.store_profile (off : Nat) (bs : List Byte) : (s.store off bs).profile = s.profile := rfl
@[simp] theorem State.store_cfgFootprint (off : Nat) (bs : List Byte) : (s.store off bs).cfgFootprint = s.cfgFootprint := rfl
@[simp] theorem State.store_inst (off : Nat) (bs : List Byte) : (s.store off bs).inst = s.inst := rfl

/-! ## invalidate -/

@[simp] theorem State.invalidate_cfgBw : (s.invalidate).cfgBw = s.cfgBw := rfl
@[simp] theorem State.invalidate_cfgBh : (s.invalidate).cfgBh = s.cfgBh := rfl
@[simp] theorem State.invalidate_cfgProfile : (s.invalidate).cfgProfile = s.cfgProfile := rfl
@[simp] theorem State.invalidate_cfgQuality : (s.invalidate).cfgQuality = s.cfgQuality := rfl
@[simp] theorem State.invalidate_cfgConstTol : (s.invalidate).cfgConstTol = s.cfgConstTol := rfl
@[simp] theorem State.invalidate_cfgErrorColor : (s.invalidate).cfgErrorColor = s.cfgErrorColor := rfl
@[simp] theorem State.invalidate_effPlimit : (s.invalidate).effPlimit = s.effPlimit := rfl
@[simp] theorem State.invalidate_effCut : (s.invalidate).effCut = s.effCut := rfl
@[simp] theorem State.invalidate_effIters : (s.invalidate).effIters = s.effIters := rfl
@[simp] theorem State.invalidate_tables : (s.invalidate).tables = s.tables.invalidate := rfl
@[simp] theorem State.invalidate_cur : (s.invalidate).cur = s.cur := rfl
@[simp] theorem State.invalidate_others : (s.invalidate).others = s.others := rfl
@[simp] theorem State.invalidate_mem : (s.invalidate).mem = s.mem := rfl
@[simp] theorem State.invalidate_script : (s.invalidate).script = s.script := rfl
@[simp] theorem State.invalidate_rdata : (s.invalidate).rdata = s.rdata := rfl
@[simp] theorem State.invalidate_draws : (s.invalidate).draws = s.draws := rfl
@[simp] theorem State.invalidate_epoch : (s.invalidate).epoch = s.epoch := rfl
@[simp] theorem State.invalidate_inst_code : (s.invalidate).inst.code = s.inst.code := rfl
@[simp] theorem State.invalidate_inst_errblk : (s.invalidate).inst.errblk = s.inst.errblk := rfl
@[simp] theorem State.invalidate_inst_running : (s.invalidate).inst.running = s.inst.running := rfl
@[simp] theorem State.invalidate_inst_result : (s.invalidate).inst.result = s.inst.result := rfl
@[simp] theorem State.invalidate_inst_errOut : (s.invalidate).inst.errOut = s.inst.errOut := rfl
@[simp] theorem State.invalidate_base : (s.invalidate).base = s.base := rfl
@[simp] theorem State.invalidate_profile : (s.invalidate).profile = s.profile := rfl
@[simp] theorem State.invalidate_cfgFootprint : (s.invalidate).cfgFootprint = s.cfgFootprint := rfl
@[simp] theorem State.invalidate_inst : (s.invalidate).inst = s.inst := rfl

/-! ## buildTables -/

@[simp] theorem State.buildTables_cfgBw : (s.buildTables).cfgBw = s.cfgBw := rfl
@[simp] theorem State.buildTables_cfgBh : (s.buildTables).cfgBh = s.cfgBh := rfl
@[simp] theorem State.buildTables_cfgProfile : (s.buildTables).cfgProfile = s.cfgProfile := rfl
@[simp] theorem State.buildTables_cfgQuality : (s.buildTables).cfgQuality = s.cfgQuality := rfl
@[simp] theorem State.buildTables_cfgConstTol : (s.buildTables).cfgConstTol = s.cfgConstTol := rfl
@[simp] theorem State.buildTables_cfgErrorColor : (s.buildTables).cfgErrorColor = s.cfgErrorColor := rfl
@[simp] theorem State.buildTables_effPlimit : (s.buildTables).effPlimit = Config.qualityPlimit (effectiveQuality s.cfgQuality) := rfl
@[simp] theorem State.buildTables_effCut : (s.buildTables).effCut = BitVec.ofNat 17 (Config.qualityCut (effectiveQuality s.cfgQuality)).val := rfl
@[simp] theorem State.buildTables_effIters : (s.buildTables).effIters = Config.qualityIters (effectiveQuality s.cfgQuality) := rfl
@[simp] theorem State.buildTables_tables : (s.buildTables).tables = .valid s.cfgFootprint := rfl
@[simp] theorem State.buildTables_cur : (s.buildTables).cur = s.cur := rfl
@[simp] theorem State.buildTables_others : (s.buildTables).others = s.others := rfl
@[simp] theorem State.buildTables_mem : (s.buildTables).mem = s.mem := rfl
@[simp] theorem State.buildTables_script : (s.buildTables).script = s.script := rfl
@[simp] theorem State.buildTables_rdata : (s.buildTables).rdata = s.rdata := rfl
@[simp] theorem State.buildTables_draws : (s.buildTables).draws = s.draws := rfl
@[simp] theorem State.buildTables_epoch : (s.buildTables).epoch = s.epoch := rfl
@[simp] theorem State.buildTables_inst_code : (s.buildTables).inst.code = s.inst.code := rfl
@[simp] theorem State.buildTables_inst_errblk : (s.buildTables).inst.errblk = s.inst.errblk := rfl
@[simp] theorem State.buildTables_inst_running : (s.buildTables).inst.running = s.inst.running := rfl
@[simp] theorem State.buildTables_inst_result : (s.buildTables).inst.result = s.inst.result := rfl
@[simp] theorem State.buildTables_inst_errOut : (s.buildTables).inst.errOut = s.inst.errOut := rfl
@[simp] theorem State.buildTables_base : (s.buildTables).base = s.base := rfl
@[simp] theorem State.buildTables_profile : (s.buildTables).profile = s.profile := rfl
@[simp] theorem State.buildTables_cfgFootprint : (s.buildTables).cfgFootprint = s.cfgFootprint := rfl
@[simp] theorem State.buildTables_inst : (s.buildTables).inst = s.inst := rfl

/-! ## writePhys -/

@[simp] theorem State.writePhys_cfgBw (blk : Block) : (s.writePhys blk).cfgBw = s.cfgBw := s.store_cfgBw _ _
@[simp] theorem State.writePhys_cfgBh (blk : Block) : (s.writePhys blk).cfgBh = s.cfgBh := s.store_cfgBh _ _
@[simp] theorem State.writePhys_cfgProfile (blk : Block) : (s.writePhys blk).cfgProfile = s.cfgProfile := s.store_cfgProfile _ _
@[simp] theorem State.writePhys_cfgQuality (blk : Block) : (s.writePhys blk).cfgQuality = s.cfgQuality := s.store_cfgQuality _ _
@[simp] theorem State.writePhys_cfgConstTol (blk : Block) : (s.writePhys blk).cfgConstTol = s.cfgConstTol := s.store_cfgConstTol _ _
@[simp] theorem State.writePhys_cfgErrorColor (blk : Block) : (s.writePhys blk).cfgErrorColor = s.cfgErrorColor := s.store_cfgErrorColor _ _
@[simp] theorem State.writePhys_effPlimit (blk : Block) : (s.writePhys blk).effPlimit = s.effPlimit := s.store_effPlimit _ _
@[simp] theorem State.writePhys_effCut (blk : Block) : (s.writePhys blk).effCut = s.effCut := s.store_effCut _ _
@[simp] theorem State.writePhys_effIters (blk : Block) : (s.writePhys blk).effIters = s.effIters := s.store_effIters _ _
@[simp] theorem State.writePhys_tables (blk : Block) : (s.writePhys blk).tables = s.tables := s.store_tables _ _
@[simp] theorem State.writePhys_cur (blk : Block) : (s.writePhys blk).cur = s.cur := s.store_cur _ _
@[simp] theorem State.writePhys_others (blk : Block) : (s.writePhys blk).others = s.others := s.store_others _ _
@[simp] theorem State.writePhys_mem (blk : Block) : (s.writePhys blk).mem = s.mem.writeList (s.base + offPhys) (bytesOfBlock blk) := s.store_mem _ _
@[simp] theorem State.writePhys_script (blk : Block) : (s.writePhys blk).script = s.script := s.store_script _ _
@[simp] theorem State.writePhys_rdata (blk : Block) : (s.writePhys blk).rdata = s.rdata := s.store_rdata _ _
@[simp] theorem State.writePhys_draws (blk : Block) : (s.writePhys blk).draws = s.draws := s.store_draws _ _
@[simp] theorem State.writePhys_epoch (blk : Block) : (s.writePhys blk).epoch = s.epoch := s.store_epoch _ _
@[simp] theorem State.writePhys_inst_code (blk : Block) : (s.writePhys blk).inst.code = s.inst.code := s.store_inst_code _ _
@[simp] theorem State.writePhys_inst_errblk (blk : Block) : (s.writePhys blk).inst.errblk = s.inst.errblk := s.store_inst_errblk _ _
@[simp] theorem State.writePhys_inst_running (blk : Block) : (s.writePhys blk).inst.running = s.inst.running := s.store_inst_running _ _
@[simp] theorem State.writePhys_inst_result (blk : Block) : (s.writePhys blk).inst.result = s.inst.result := s.store_inst_result _ _
@[simp] theorem State.writePhys_inst_errOut (blk : Block) : (s.writePhys blk).inst.errOut = s.inst.errOut := s.store_inst_errOut _ _
@[simp] theorem State.writePhys_base (blk : Block) : (s.writePhys blk).base = s.base := s.store_base _ _
@[simp] theorem State.writePhys_profile (blk : Block) : (s.writePhys blk).profile = s.profile := s.store_profile _ _
@[simp] theorem State.writePhys_cfgFootprint (blk : Block) : (s.writePhys blk).cfgFootprint = s.cfgFootprint := s.store_cfgFootprint _ _
@[simp] theorem State.writePhys_inst (blk : Block) : (s.writePhys blk).inst = s.inst := s.store_inst _ _

/-! ## writeTexout -/

@[simp] theorem State.writeTexout_cfgBw (t : List (Rgba Byte)) : (s.writeTexout t).cfgBw = s.cfgBw := rfl
@[simp] theorem State.writeTexout_cfgBh (t : List (Rgba Byte)) : (s.writeTexout t).cfgBh = s.cfgBh := rfl
@[simp] theorem State.writeTexout_cfgProfile (t : List (Rgba Byte)) : (s.writeTexout t).cfgProfile = s.cfgProfile := rfl
@[simp] theorem State.writeTexout_cfgQuality (t : List (Rgba Byte)) : (s.writeTexout t).cfgQuality = s.cfgQuality := rfl
@[simp] theorem State.writeTexout_cfgConstTol (t : List (Rgba Byte)) : (s.writeTexout t).cfgConstTol = s.cfgConstTol := rfl
@[simp] theorem State.writeTexout_cfgErrorColor (t : List (Rgba Byte)) : (s.writeTexout t).cfgErrorColor = s.cfgErrorColor := rfl
@[simp] theorem State.writeTexout_effPlimit (t : List (Rgba Byte)) : (s.writeTexout t).effPlimit = s.effPlimit := rfl
@[simp] theorem State.writeTexout_effCut (t : List (Rgba Byte)) : (s.writeTexout t).effCut = s.effCut := rfl
@[simp] theorem State.writeTexout_effIters (t : List (Rgba Byte)) : (s.writeTexout t).effIters = s.effIters := rfl
@[simp] theorem State.writeTexout_tables (t : List (Rgba Byte)) : (s.writeTexout t).tables = s.tables := rfl
@[simp] theorem State.writeTexout_cur (t : List (Rgba Byte)) : (s.writeTexout t).cur = s.cur := rfl
@[simp] theorem State.writeTexout_others (t : List (Rgba Byte)) : (s.writeTexout t).others = s.others := rfl
@[simp] theorem State.writeTexout_mem (t : List (Rgba Byte)) : (s.writeTexout t).mem = s.mem.writeList (s.base + offTexout) (t.map Rgba.toList).flatten := rfl
@[simp] theorem State.writeTexout_script (t : List (Rgba Byte)) : (s.writeTexout t).script = s.script := rfl
@[simp] theorem State.writeTexout_rdata (t : List (Rgba Byte)) : (s.writeTexout t).rdata = s.rdata := rfl
@[simp] theorem State.writeTexout_draws (t : List (Rgba Byte)) : (s.writeTexout t).draws = s.draws := rfl
@[simp] theorem State.writeTexout_epoch (t : List (Rgba Byte)) : (s.writeTexout t).epoch = s.epoch := rfl
@[simp] theorem State.writeTexout_inst_code (t : List (Rgba Byte)) : (s.writeTexout t).inst.code = s.inst.code := rfl
@[simp] theorem State.writeTexout_inst_errblk (t : List (Rgba Byte)) : (s.writeTexout t).inst.errblk = s.inst.errblk := rfl
@[simp] theorem State.writeTexout_inst_running (t : List (Rgba Byte)) : (s.writeTexout t).inst.running = s.inst.running := rfl
@[simp] theorem State.writeTexout_inst_result (t : List (Rgba Byte)) : (s.writeTexout t).inst.result = s.inst.result := rfl
@[simp] theorem State.writeTexout_inst_errOut (t : List (Rgba Byte)) : (s.writeTexout t).inst.errOut = s.inst.errOut := rfl
@[simp] theorem State.writeTexout_base (t : List (Rgba Byte)) : (s.writeTexout t).base = s.base := rfl
@[simp] theorem State.writeTexout_profile (t : List (Rgba Byte)) : (s.writeTexout t).profile = s.profile := rfl
@[simp] theorem State.writeTexout_cfgFootprint (t : List (Rgba Byte)) : (s.writeTexout t).cfgFootprint = s.cfgFootprint := rfl
@[simp] theorem State.writeTexout_inst (t : List (Rgba Byte)) : (s.writeTexout t).inst = s.inst := rfl

/-! ## writeSym: the eight pieces of the register image, stored one after the other -/

/-- Storing pieces one after the other writes nothing but the memory. -/
theorem State.storePieces_eq (pieces : List (Nat × List Byte)) : ∀ s : State,
    pieces.foldl (fun t piece => t.store piece.1 piece.2) s
      = { s with mem := pieces.foldl (fun m piece => m.writeList (s.base + piece.1) piece.2) s.mem } := by
  induction pieces with
  | nil => exact fun _ => rfl
  | cons piece pieces ih => exact fun s => ih (s.store piece.1 piece.2)

/-- What `SYM <- s` leaves in the memory. -/
def symMemory (m : Memory) (base : Nat) (sym : Sym) : Memory :=
  (symImage sym).foldl (fun m piece => m.writeList (base + piece.1) piece.2) m

/-- `SYM <- s` writes nothing but the memory. -/
theorem State.writeSym_eq (sym : Sym) : s.writeSym sym = { s with mem := symMemory s.mem s.base sym } :=
  State.storePieces_eq _ _

@[simp] theorem State.writeSym_cfgBw (sym : Sym) : (s.writeSym sym).cfgBw = s.cfgBw := by
  rw [State.writeSym_eq]
@[simp] theorem State.writeSym_cfgBh (sym : Sym) : (s.writeSym sym).cfgBh = s.cfgBh := by
  rw [State.writeSym_eq]
@[simp] theorem State.writeSym_cfgProfile (sym : Sym) : (s.writeSym sym).cfgProfile = s.cfgProfile := by
  rw [State.writeSym_eq]
@[simp] theorem State.writeSym_cfgQuality (sym : Sym) : (s.writeSym sym).cfgQuality = s.cfgQuality := by
  rw [State.writeSym_eq]
@[simp] theorem State.writeSym_cfgConstTol (sym : Sym) : (s.writeSym sym).cfgConstTol = s.cfgConstTol := by
  rw [State.writeSym_eq]
@[simp] theorem State.writeSym_cfgErrorColor (sym : Sym) : (s.writeSym sym).cfgErrorColor = s.cfgErrorColor := by
  rw [State.writeSym_eq]
@[simp] theorem State.writeSym_effPlimit (sym : Sym) : (s.writeSym sym).effPlimit = s.effPlimit := by
  rw [State.writeSym_eq]
@[simp] theorem State.writeSym_effCut (sym : Sym) : (s.writeSym sym).effCut = s.effCut := by
  rw [State.writeSym_eq]
@[simp] theorem State.writeSym_effIters (sym : Sym) : (s.writeSym sym).effIters = s.effIters := by
  rw [State.writeSym_eq]
@[simp] theorem State.writeSym_tables (sym : Sym) : (s.writeSym sym).tables = s.tables := by
  rw [State.writeSym_eq]
@[simp] theorem State.writeSym_cur (sym : Sym) : (s.writeSym sym).cur = s.cur := by
  rw [State.writeSym_eq]
@[simp] theorem State.writeSym_others (sym : Sym) : (s.writeSym sym).others = s.others := by
  rw [State.writeSym_eq]
@[simp] theorem State.writeSym_mem (sym : Sym) : (s.writeSym sym).mem = symMemory s.mem s.base sym := by
  rw [State.writeSym_eq]
@[simp] theorem State.writeSym_script (sym : Sym) : (s.writeSym sym).script = s.script := by
  rw [State.writeSym_eq]
@[simp] theorem State.writeSym_rdata (sym : Sym) : (s.writeSym sym).rdata = s.rdata := by
  rw [State.writeSym_eq]
@[simp] theorem State.writeSym_draws (sym : Sym) : (s.writeSym sym).draws = s.draws := by
  rw [State.writeSym_eq]
@[simp] theorem State.writeSym_epoch (sym : Sym) : (s.writeSym sym).epoch = s.epoch := by
  rw [State.writeSym_eq]
@[simp] theorem State.writeSym_inst (sym : Sym) : (s.writeSym sym).inst = s.inst := by
  rw [State.writeSym_eq]
@[simp] theorem State.writeSym_base (sym : Sym) : (s.writeSym sym).base = s.base := by
  rw [State.writeSym_eq]; rfl
@[simp] theorem State.writeSym_profile (sym : Sym) : (s.writeSym sym).profile = s.profile := by
  rw [State.writeSym_eq]; rfl
@[simp] theorem State.writeSym_cfgFootprint (sym : Sym) : (s.writeSym sym).cfgFootprint = s.cfgFootprint := by
  rw [State.writeSym_eq]; rfl

end Sys2Proof.Machine
end

