-- ==== Sys2Proof/Laws/Bus.lean ====
section
/-! SUPPORT. What a write to `CMD` can do, said once. -/

namespace Sys2Proof.Machine

theorem decodeCommand_buildTables {w : Word} (h : decodeCommand w = .ok .buildTables) :
    (w.extractLsb' 0 8).toNat = 1 ∧ w.extractLsb' 8 24 = 0 := by
  unfold decodeCommand requireZero at h
  dsimp only at h
  split at h
  case h_2 hop =>
    refine ⟨hop, ?_⟩
    split at h
    case isTrue hz => simpa using hz
    case isFalse => cases h
  all_goals first | cases h | (split at h <;> cases h)

/-- BUILD_TABLES has one word (R121, R123). -/
theorem isBuildTables_iff (w : Word) : isBuildTables w = true ↔ w = 0x00000001 := by
  constructor
  · intro h
    unfold isBuildTables at h
    split at h
    case h_1 i hi =>
      obtain ⟨hop, hz⟩ := decodeCommand_buildTables (hi.trans (by simpa using h))
      have hz : (w.extractLsb' 8 24).toNat = 0 := by rw [hz]; rfl
      apply BitVec.eq_of_toNat_eq
      show w.toNat = 1
      have := w.isLt
      simp only [BitVec.extractLsb'_toNat, Nat.shiftRight_eq_div_pow] at hop hz
      omega
    case h_2 => cases h
  · rintro rfl
    decide

/-- A write to `CMD` that is not refused is dropped by a busy instance, or starts the command on an idle one; if the command
is BUILD_TABLES no other instance is busy then (R45, R520). -/
theorem State.issue_next {s t : State} {w : Word} (h : s.issue w = .next t) :
    (s.busy = true ∧ t = s) ∨
    (s.busy = false ∧ (isBuildTables w = true → s.otherBusy = false) ∧
      t = { s with inst := { s.inst with running := some w } }) := by
  unfold State.issue at h
  split at h
  case isTrue hb => exact .inl ⟨hb, (Host.Outcome.next.inj h).symm⟩
  case isFalse hb =>
    split at h
    case isTrue => cases h
    case isFalse hw =>
      exact .inr ⟨by simpa using hb, fun hi => by simpa [hi] using hw, (Host.Outcome.next.inj h).symm⟩

end Sys2Proof.Machine
end

