-- ==== Sys2Proof/Laws/Memory.lean ====
section
/-! SUPPORT. The byte memory: a read after a write, the canonical form kept by every operation, runs of bytes. -/

namespace Sys2Proof.Machine

/-! ## One byte -/

@[simp] theorem Memory.read_nil (a : Nat) : Memory.read [] a = none := rfl

theorem Memory.read_cons (k : Nat) (v : Byte) (m : Memory) (a : Nat) :
    Memory.read ((k, v) :: m) a = if a = k then some v else m.read a := rfl

theorem Memory.read_write (m : Memory) (a : Nat) (b : Byte) (c : Nat) :
    (m.write a b).read c = if c = a then some b else m.read c := by
  induction m with
  | nil => simp [Memory.write, Memory.read_cons]
  | cons e m ih =>
    obtain ⟨k, v⟩ := e
    simp only [Memory.write]
    split
    · simp [Memory.read_cons]
    split
    · subst k
      simp only [Memory.read_cons]
      split <;> rfl
    · simp only [Memory.read_cons, ih]
      split <;> split <;> first | rfl | omega

@[simp] theorem Memory.read_write_same (m : Memory) (a : Nat) (b : Byte) : (m.write a b).read a = some b := by
  simp [Memory.read_write]

theorem Memory.read_write_other (m : Memory) {a c : Nat} (b : Byte) (h : c ≠ a) :
    (m.write a b).read c = m.read c := by
  simp [Memory.read_write, h]

/-! ## The canonical form -/

theorem Memory.write_keys (m : Memory) (a : Nat) (b : Byte) : ∀ e ∈ m.write a b, e = (a, b) ∨ e ∈ m := by
  induction m with
  | nil => simp [Memory.write]
  | cons x m ih =>
    obtain ⟨k, v⟩ := x
    intro e he
    simp only [Memory.write] at he
    split at he
    · simpa using he
    split at he
    · simp only [List.mem_cons] at he ⊢
      tauto
    · simp only [List.mem_cons] at he ⊢
      obtain rfl | he := he
      · tauto
      · have := ih e he
        tauto

theorem Memory.write_wf {m : Memory} (h : m.wf) (a : Nat) (b : Byte) : (m.write a b).wf := by
  induction m with
  | nil => simp [Memory.write, Memory.wf]
  | cons x m ih =>
    obtain ⟨k, v⟩ := x
    obtain ⟨hk, hm⟩ := List.pairwise_cons.1 h
    simp only [Memory.write]
    split
    · refine List.pairwise_cons.2 ⟨fun e he => ?_, h⟩
      obtain rfl | he := List.mem_cons.1 he
      · assumption
      · exact lt_trans ‹_› (hk e he)
    split
    · subst k
      exact List.pairwise_cons.2 ⟨hk, hm⟩
    · refine List.pairwise_cons.2 ⟨fun e he => ?_, ih hm⟩
      obtain rfl | he := Memory.write_keys m a b e he
      · show k < a
        omega
      · exact hk e he

/-- In canonical form the bytes read determine the list. -/
theorem Memory.ext_of_read {m n : Memory} (hm : m.wf) (hn : n.wf) (h : ∀ a, m.read a = n.read a) : m = n := by
  have none_of : ∀ {l : Memory} {k : Nat}, (∀ e ∈ l, k < e.1) → ∀ a ≤ k, l.read a = none := by
    intro l
    induction l with
    | nil => intros; rfl
    | cons x l ih =>
      intro k hl a ha
      have := hl x (by simp)
      rw [Memory.read_cons, if_neg (by omega)]
      exact ih (fun e he => hl e (by simp [he])) a ha
  induction m generalizing n with
  | nil =>
    cases n with
    | nil => rfl
    | cons y n =>
      obtain ⟨j, w⟩ := y
      have := h j
      simp [Memory.read_cons] at this
  | cons x m ih =>
    obtain ⟨k, v⟩ := x
    cases n with
    | nil => have := h k; simp [Memory.read_cons] at this
    | cons y n =>
      obtain ⟨j, w⟩ := y
      obtain ⟨hk, hm'⟩ := List.pairwise_cons.1 hm
      obtain ⟨hj, hn'⟩ := List.pairwise_cons.1 hn
      have h1 := h k
      have h2 := h j
      simp only [Memory.read_cons, if_true] at h1 h2
      have hkj : k = j := by
        rcases lt_trichotomy k j with hlt | heq | hgt
        · rw [if_neg (by omega), none_of hj k (by omega)] at h1; cases h1
        · exact heq
        · rw [if_neg (by omega), none_of hk j (by omega)] at h2; cases h2
      subst hkj
      simp only [if_true, Option.some.injEq] at h1
      subst h1
      congr 1
      refine ih hm' hn' fun a => ?_
      have ha := h a
      simp only [Memory.read_cons] at ha
      by_cases hak : a = k
      · rw [none_of hk a (by omega), none_of hj a (by omega)]
      · simpa [hak] using ha

/-! ## Runs of bytes -/

theorem Memory.writeList_wf {m : Memory} (h : m.wf) (bs : List Byte) (a : Nat) : (m.writeList a bs).wf := by
  induction bs generalizing m a with
  | nil => exact h
  | cons b bs ih => exact ih (m.write_wf h a b) _

/-- A byte after a run is written: the run's byte inside it, the old byte outside. -/
theorem Memory.read_writeList (m : Memory) (a : Nat) (bs : List Byte) (c : Nat) :
    (m.writeList a bs).read c = if a ≤ c ∧ c < a + bs.length then bs[c - a]? else m.read c := by
  induction bs generalizing m a with
  | nil => simp [Memory.writeList]
  | cons b bs ih =>
    rw [Memory.writeList, ih, Memory.read_write]
    by_cases hca : c = a
    · subst hca; simp
    · by_cases hin : a + 1 ≤ c ∧ c < a + 1 + bs.length
      · rw [if_pos hin, if_pos (by simp; omega), show c - a = (c - (a + 1)) + 1 by omega, List.getElem?_cons_succ]
      · rw [if_neg hin, if_neg hca, if_neg (by simp; omega)]

theorem Memory.read_writeList_outside (m : Memory) {a c : Nat} {bs : List Byte} (h : c < a ∨ a + bs.length ≤ c) :
    (m.writeList a bs).read c = m.read c := by
  rw [Memory.read_writeList, if_neg (by omega)]

theorem Memory.writeList_keys (m : Memory) (a : Nat) (bs : List Byte) :
    ∀ e ∈ m.writeList a bs, (∃ i, ∃ h : i < bs.length, e = (a + i, bs[i])) ∨ e ∈ m := by
  induction bs generalizing m a with
  | nil => intro e he; exact .inr he
  | cons b bs ih =>
    intro e he
    obtain ⟨i, hi, rfl⟩ | he := ih _ _ e he
    · exact .inl ⟨i + 1, by simpa using hi, by simp; omega⟩
    · obtain rfl | he := Memory.write_keys m a b e he
      · exact .inl ⟨0, by simp, by simp⟩
      · exact .inr he

/-- A run of bytes is there exactly if every byte of it is. -/
theorem Memory.readList_eq_ok {m : Memory} {a n : Nat} {bs : List Byte} :
    m.readList a n = .ok bs ↔ bs.length = n ∧ ∀ i < n, m.read (a + i) = bs[i]? := by
  induction n generalizing a bs with
  | zero =>
    simp only [Memory.readList, Except.ok.injEq, not_lt_zero, false_implies, implies_true, and_true]
    rw [eq_comm, List.length_eq_zero_iff]
  | succ n ih =>
    simp only [Memory.readList]
    constructor
    · intro h
      split at h
      · cases h
      rename_i b hb
      split at h
      · cases h
      rename_i tl htl
      cases h
      obtain ⟨hl, hr⟩ := ih.1 htl
      refine ⟨by simp [hl], fun i hi => ?_⟩
      cases i with
      | zero => simpa using hb
      | succ i =>
        have := hr i (by omega)
        rw [show a + (i + 1) = a + 1 + i by omega, this, List.getElem?_cons_succ]
    · rintro ⟨hl, hr⟩
      cases bs with
      | nil => simp at hl
      | cons b tl =>
        have h0 := hr 0 (by omega)
        simp only [Nat.add_zero, List.getElem?_cons_zero] at h0
        have htl : m.readList (a + 1) n = .ok tl := ih.2 ⟨by simpa using hl, fun i hi => by
          have := hr (i + 1) (by omega)
          rwa [show a + (i + 1) = a + 1 + i by omega, List.getElem?_cons_succ] at this⟩
        simp [h0, htl]

/-- Reading back a run just written. -/
theorem Memory.readList_writeList (m : Memory) (a : Nat) (bs : List Byte) :
    (m.writeList a bs).readList a bs.length = .ok bs := by
  rw [Memory.readList_eq_ok]
  refine ⟨rfl, fun i hi => ?_⟩
  rw [Memory.read_writeList, if_pos ⟨by omega, by omega⟩, Nat.add_sub_cancel_left]

/-- The value read depends on the bytes of the run alone. -/
theorem Memory.readList_congr {m n : Memory} (a k : Nat) (h : ∀ i < k, m.read (a + i) = n.read (a + i)) :
    m.readList a k = n.readList a k := by
  induction k generalizing a with
  | zero => rfl
  | succ k ih =>
    have h0 := h 0 (by omega)
    simp only [Nat.add_zero] at h0
    have := ih (a + 1) fun i hi => by
      have := h (i + 1) (by omega)
      rwa [show a + (i + 1) = a + 1 + i by omega] at this
    simp only [Memory.readList, h0, this]

/-- Another run written apart from it leaves a run alone. -/
theorem Memory.readList_writeList_apart (m : Memory) {a b k : Nat} {bs : List Byte}
    (h : a + k ≤ b ∨ b + bs.length ≤ a) : (m.writeList b bs).readList a k = m.readList a k :=
  Memory.readList_congr a k fun i hi => Memory.read_writeList_outside m (by omega)

end Sys2Proof.Machine
end

