-- ==== Sys2Proof/Laws/Ops.lean ====
section
/-! SUPPORT. What the shared operations can do, said once: ending a command, the guards of R471 and R478, the list of
instances, bringing an instance in hand. -/

namespace Sys2Proof.Machine

/-! ## Ending a command -/

theorem State.finish_eq (s : State) (c : Code) : s.finish c = { s with inst := s.inst.ended c } := rfl

@[simp] theorem State.raise_eq (s : State) (c : Code) : s.raise c = .next { s with inst := s.inst.ended c } := rfl

@[simp] theorem State.answer_eq (s : State) (v : Nat) :
    s.answer v = .next { s with inst := { s.inst.ended .ok with result := BitVec.ofNat 32 v } } := rfl

@[simp] theorem Inst.ended_running (r : Inst) (c : Code) : (r.ended c).running = none := rfl
@[simp] theorem Inst.ended_code (r : Inst) (c : Code) : (r.ended c).code = c := rfl
@[simp] theorem Inst.ended_result (r : Inst) (c : Code) : (r.ended c).result = r.result := rfl
@[simp] theorem Inst.ended_errblk (r : Inst) (c : Code) : (r.ended c).errblk = r.errblk := rfl
@[simp] theorem Inst.ended_errOut (r : Inst) (c : Code) : (r.ended c).errOut = r.errOut := rfl

/-! ## The guards -/

theorem State.withTables_valid {s : State} {fp : Footprint} (h : s.tables = .valid fp) (f : Footprint → Result) :
    s.withTables f = f fp := by
  simp [State.withTables, h]

theorem State.withTables_invalid {s : State} (h : s.tables.isValid = false) (f : Footprint → Result) :
    s.withTables f = .next { s with inst := s.inst.ended .notConfigured } := by
  unfold State.withTables
  split
  · rename_i h'; rw [h'] at h; cases h
  all_goals rfl

/-- What a command behind the tables guard can do: the guard's code, or its own effect. -/
theorem State.withTables_next {s t : State} {f : Footprint → Result} (h : s.withTables f = .next t) :
    (s.tables.isValid = false ∧ t = { s with inst := s.inst.ended .notConfigured }) ∨
      ∃ fp, s.tables = .valid fp ∧ f fp = .next t := by
  unfold State.withTables at h
  split at h
  · exact .inr ⟨_, ‹_›, h⟩
  all_goals (cases h; refine .inl ⟨?_, rfl⟩; rename_i h'; rw [h']; rfl)

theorem withBytes_next {α : Type} {r : Except Nat α} {f : α → Result} {t : State} (h : withBytes r f = .next t) :
    ∃ x, r = .ok x ∧ f x = .next t := by
  unfold withBytes at h
  split at h
  · exact ⟨_, rfl, h⟩
  · cases h

theorem State.withSym_next {s t : State} {fp : Footprint} {f : Sym → Result} (h : s.withSym fp f = .next t) :
    (s.readSym fp = .illFormed ∧ t = { s with inst := s.inst.ended .badOperand }) ∨
      ∃ sym, s.readSym fp = .found sym ∧ f sym = .next t := by
  unfold State.withSym at h
  split at h
  · cases h
  · cases h; exact .inl ⟨‹_›, rfl⟩
  · exact .inr ⟨_, ‹_›, h⟩

theorem State.answerOrBad_next {s t : State} {o : Option Nat} (h : s.answerOrBad o = .next t) :
    (o = none ∧ t = { s with inst := s.inst.ended .badOperand }) ∨
      ∃ v, o = some v ∧ t = { s with inst := { s.inst.ended .ok with result := BitVec.ofNat 32 v } } := by
  cases o with
  | none => cases h; exact .inl ⟨rfl, rfl⟩
  | some v => cases h; exact .inr ⟨v, rfl, rfl⟩

/-- No value in a run of bytes: the address reported lies in the run and holds none. -/
theorem Memory.readList_error {m : Memory} {a n e : Nat} (h : m.readList a n = .error e) :
    a ≤ e ∧ e < a + n ∧ m.read e = none := by
  induction n generalizing a with
  | zero => cases h
  | succ n ih =>
    simp only [Memory.readList] at h
    split at h
    · cases h; exact ⟨le_refl _, by omega, ‹_›⟩
    · split at h
      · cases h
        obtain ⟨h1, h2, h3⟩ := ih ‹_›
        exact ⟨by omega, by omega, h3⟩
      · cases h

/-! ## The list of instances -/

theorem mem_dropInst {k : Nat} {l : List (Nat × Inst)} {e : Nat × Inst} : e ∈ dropInst k l ↔ e ∈ l ∧ e.1 ≠ k := by
  simp [dropInst]

theorem mem_insertInst {k : Nat} {r : Inst} {l : List (Nat × Inst)} {e : Nat × Inst} :
    e ∈ insertInst k r l ↔ e = (k, r) ∨ e ∈ l := by
  induction l with
  | nil => simp [insertInst]
  | cons x l ih =>
    simp only [insertInst]
    split
    · simp
    · simp only [List.mem_cons, ih]; tauto

theorem mem_putInst {k : Nat} {r : Inst} {l : List (Nat × Inst)} {e : Nat × Inst} :
    e ∈ putInst k r l ↔ (r ≠ Inst.reset ∧ e = (k, r)) ∨ e ∈ l := by
  unfold putInst
  split
  · simp_all
  · simp_all [mem_insertInst]

theorem lookupInst_of_lt {k : Nat} {l : List (Nat × Inst)} (h : ∀ e ∈ l, k ≠ e.1) : lookupInst k l = Inst.reset := by
  induction l with
  | nil => rfl
  | cons x l ih =>
    obtain ⟨j, r⟩ := x
    rw [lookupInst, if_neg (h (j, r) (by simp))]
    exact ih fun e he => h e (by simp [he])

theorem lookupInst_dropInst {j k : Nat} (h : j ≠ k) (l : List (Nat × Inst)) :
    lookupInst j (dropInst k l) = lookupInst j l := by
  induction l with
  | nil => rfl
  | cons x l ih =>
    obtain ⟨i, r⟩ := x
    by_cases hik : i = k
    · subst hik
      have : dropInst i ((i, r) :: l) = dropInst i l := by simp [dropInst]
      rw [this, ih, lookupInst, if_neg h]
    · have : dropInst k ((i, r) :: l) = (i, r) :: dropInst k l := by simp [dropInst, hik]
      rw [this, lookupInst, lookupInst, ih]

theorem lookupInst_insertInst (j k : Nat) (r : Inst) {l : List (Nat × Inst)} (hl : ∀ e ∈ l, e.1 ≠ k) :
    lookupInst j (insertInst k r l) = if j = k then r else lookupInst j l := by
  induction l with
  | nil => rfl
  | cons x l ih =>
    obtain ⟨i, q⟩ := x
    have hik : i ≠ k := hl (i, q) (by simp)
    simp only [insertInst]
    split
    · rfl
    · rw [lookupInst, ih fun e he => hl e (by simp [he])]
      by_cases hji : j = i
      · subst hji; simp [lookupInst, hik]
      · simp [lookupInst, hji]

theorem lookupInst_putInst (j k : Nat) (r : Inst) {l : List (Nat × Inst)} (hl : ∀ e ∈ l, e.1 ≠ k) :
    lookupInst j (putInst k r l) = if j = k then r else lookupInst j l := by
  unfold putInst
  split
  · subst r
    split
    · subst j; exact lookupInst_of_lt fun e he => (hl e he).symm
    · rfl
  · exact lookupInst_insertInst j k r hl

theorem insertInst_sorted {k : Nat} {r : Inst} {l : List (Nat × Inst)} (h : l.Pairwise fun x y => x.1 < y.1)
    (hl : ∀ e ∈ l, e.1 ≠ k) : (insertInst k r l).Pairwise fun x y => x.1 < y.1 := by
  induction l with
  | nil => simp [insertInst]
  | cons x l ih =>
    obtain ⟨i, q⟩ := x
    have hik : i ≠ k := hl (i, q) (by simp)
    obtain ⟨h1, h2⟩ := List.pairwise_cons.1 h
    simp only [insertInst]
    split
    · refine List.pairwise_cons.2 ⟨fun e he => ?_, h⟩
      obtain rfl | he := List.mem_cons.1 he
      · assumption
      · exact lt_trans ‹_› (h1 e he)
    · refine List.pairwise_cons.2 ⟨fun e he => ?_, ih h2 fun e he => hl e (by simp [he])⟩
      obtain rfl | he := mem_insertInst.1 he
      · show i < k
        omega
      · exact h1 e he

theorem putInst_sorted {k : Nat} {r : Inst} {l : List (Nat × Inst)} (h : l.Pairwise fun x y => x.1 < y.1)
    (hl : ∀ e ∈ l, e.1 ≠ k) : (putInst k r l).Pairwise fun x y => x.1 < y.1 := by
  unfold putInst
  split
  · exact h
  · exact insertInst_sorted h hl

/-! ## Bringing an instance in hand -/

@[simp] theorem State.focus_cur (s : State) : s.focus s.cur = s := by simp [State.focus]

theorem State.focus_inst (s : State) (k : Nat) : (s.focus k).inst = s.instOf k := by
  unfold State.focus State.instOf
  split <;> rfl

theorem State.cur_focus (s : State) (k : Nat) : (s.focus k).cur = k := by
  unfold State.focus
  split
  · exact Eq.symm ‹_›
  · rfl

@[simp] theorem State.focus_mem (s : State) (k : Nat) : (s.focus k).mem = s.mem := by
  unfold State.focus; split <;> rfl
@[simp] theorem State.focus_tables (s : State) (k : Nat) : (s.focus k).tables = s.tables := by
  unfold State.focus; split <;> rfl
@[simp] theorem State.focus_script (s : State) (k : Nat) : (s.focus k).script = s.script := by
  unfold State.focus; split <;> rfl
@[simp] theorem State.focus_cfgFootprint (s : State) (k : Nat) : (s.focus k).cfgFootprint = s.cfgFootprint := by
  unfold State.focus; split <;> rfl
@[simp] theorem State.focus_profile (s : State) (k : Nat) : (s.focus k).profile = s.profile := by
  unfold State.focus; split <;> rfl

@[simp] theorem State.focus_focus (s : State) (k : Nat) : (s.focus k).focus k = s.focus k := by
  conv_lhs => rw [State.focus, if_pos (s.cur_focus k).symm]

/-- An instance is brought in hand the same way whatever is scheduled. -/
theorem State.focus_withScript (s : State) (k : Nat) (moves : List Move) :
    ({ s with script := moves } : State).focus k = { s.focus k with script := moves } := by
  unfold State.focus
  split <;> rfl

/-- Every instance has the same registers whichever is in hand, in a state whose list leaves out the one in hand. -/
theorem State.instOf_focus {s : State} (h : ∀ e ∈ s.others, e.1 ≠ s.cur) (k j : Nat) :
    (s.focus k).instOf j = s.instOf j := by
  by_cases hk : k = s.cur
  · simp [State.focus, hk]
  simp only [State.instOf, State.focus, if_neg hk]
  rw [lookupInst_putInst _ _ _ fun e he => h e (mem_dropInst.1 he).1]
  by_cases hjk : j = k
  · subst hjk
    simp [hk]
  · rw [if_neg hjk, lookupInst_dropInst hjk]

/-- The list of the other instances still leaves out the one in hand. -/
theorem State.focus_others {s : State} (h : ∀ e ∈ s.others, e.1 ≠ s.cur) (k : Nat) :
    ∀ e ∈ (s.focus k).others, e.1 ≠ (s.focus k).cur := by
  rw [s.cur_focus k]
  by_cases hk : k = s.cur
  · subst hk
    simpa using h
  simp only [State.focus, if_neg hk]
  intro e he
  obtain ⟨-, rfl⟩ | he := mem_putInst.1 he
  · exact fun h => hk h.symm
  · exact (mem_dropInst.1 he).2

/-- Bringing an existing instance in hand keeps the list of instances canonical. -/
theorem State.focus_canonical {s : State} (h : s.instancesCanonical) {k : Nat} (hk : instanceExists k = true) :
    (s.focus k).instancesCanonical := by
  obtain ⟨hs, hm, hc⟩ := h
  by_cases hkc : k = s.cur
  · simpa [State.focus, hkc] using ⟨hs, hm, hc⟩
  simp only [State.instancesCanonical, State.focus, if_neg hkc]
  refine ⟨putInst_sorted (List.Pairwise.filter _ hs) fun e he => (hm e (mem_dropInst.1 he).1).1, fun e he => ?_, hk⟩
  obtain ⟨hr, rfl⟩ | he := mem_putInst.1 he
  · exact ⟨fun h => hkc h.symm, hr, hc⟩
  · obtain ⟨he, hek⟩ := mem_dropInst.1 he
    exact ⟨hek, (hm e he).2⟩

end Sys2Proof.Machine
end

