-- ==== Sys2Proof/Laws/Exec.lean ====
section
/-! SUPPORT. What every instruction leaves alone; what a step does with the move it takes; the bytes of a command word and
of a block. -/

namespace Sys2Proof.Machine

/-! ## Every instruction -/

/-- Whatever an instruction does, its instance is idle after it, and the configuration, the other instances and the
host's side are as before. -/
theorem exec_frame {i : Instr} {s t : State} (h : exec i s = .next t) :
    t.inst.running = none ∧ s.sameConfig t ∧ s.sameOutside t := by
  unfold State.sameConfig State.sameOutside
  cases i <;> simp only [exec, execNop, execBuildTables, execQlookup, execPlookup, execModeinfo, execDlookup,
    execIseBitcount, execReservedOp, illegalCommand, execPack, execUnpack, execPhysVoidExtent, execPhysNormal1p,
    execPhysNormalMp, execDecodeTexels, execEncodeBlock, State.withTables, State.withSym, withBytes, State.answerOrBad,
    State.answer, State.raise, State.complete, State.unpacked, State.encoded] at h <;>
  (repeat' split at h) <;> cases h <;> simp

/-! ## Steps -/

/-- A step takes the first move of the script. -/
theorem step_cons {s : State} {m : Move} {rest : List Move} (h : s.script = m :: rest) :
    step s = State.move { s with script := rest } m := by
  simp only [step, h]

theorem step_nil {s : State} (h : s.script = []) : step s = s.settle := by
  simp only [step, h]

/-- An access to the register space of the instance in hand. -/
theorem State.access_cur {s : State} {off bytes : Nat} {f : State → Nat → Result} (hk : instanceExists s.cur = true)
    (hoff : off < instanceStride) : s.access (s.base + off) bytes f =
      if accessLegal off bytes then f s off else .refused (.accessWidth (s.base + off) bytes) := by
  have h1 : (s.base + off) / instanceStride = s.cur := by
    unfold State.base
    rw [Nat.mul_add_div (by decide), Nat.div_eq_of_lt hoff, Nat.add_zero]
  have h2 : (s.base + off) % instanceStride = off := by
    unfold State.base
    rw [Nat.mul_add_mod, Nat.mod_eq_of_lt hoff]
  simp only [State.access, h1, h2, hk, State.focus_cur]
  cases accessLegal off bytes <;> simp

/-- An access that falls on an instance is the same with that instance in hand already (R485). -/
theorem State.access_focus (s : State) {addr k : Nat} (h : addr / instanceStride = k) (bytes : Nat)
    (f : State → Nat → Result) : (s.focus k).access addr bytes f = s.access addr bytes f := by
  simp only [State.access, h, State.focus_focus]

theorem State.move_complete {s : State} {k : Nat} (hk : instanceExists k = true) :
    s.move (.complete k) = (s.focus k).completion (.complete k :: s.script) := by
  simp [State.move, hk]

theorem State.firstBusyOther_none {s : State} : s.firstBusyOther = none ↔ ∀ e ∈ s.others, e.2.running = none := by
  simp [State.firstBusyOther]

/-- A command other than BUILD_TABLES, or one beside idle instances only, waits for none. -/
theorem State.completion_itself {s : State} {w : Word} (hw : s.inst.running = some w)
    (h : w ≠ 0x00000001 ∨ ∀ e ∈ s.others, e.2.running = none) (again : List Move) :
    s.completion again = s.runCommand := by
  have : s.waitsFor = none := by
    unfold State.waitsFor
    split
    · rename_i hb
      rw [hw] at hb
      obtain h | h := h
      · exact absurd ((isBuildTables_iff w).1 hb) h
      · exact State.firstBusyOther_none.2 h
    · rfl
  rw [State.completion, this]

/-- A BUILD_TABLES beside a busy instance lets that one's command complete first. -/
theorem State.completion_before {s : State} {before after : List (Nat × Inst)} {j : Nat} {r : Inst}
    (hb : s.inst.running = some 0x00000001) (ho : s.others = before ++ (j, r) :: after)
    (hf : ∀ e ∈ before, e.2.running = none) (hr : r.running ≠ none) (again : List Move) :
    s.completion again = (({ s with script := again } : State).focus j).runCommand := by
  have : s.waitsFor = some j := by
    have h1 : before.find? (fun e => e.2.running.isSome) = none := by simpa using hf
    have h2 : r.running.isSome = true := by simpa [Option.isSome_iff_ne_none] using hr
    rw [State.waitsFor, hb, if_pos (by decide), State.firstBusyOther, ho]
    simp [List.find?_append, h1, h2]
  rw [State.completion, this]

theorem State.runCommand_ok {s : State} {w : Word} {i : Instr} (hr : s.inst.running = some w)
    (hd : decode (bytesOfWord w) = .ok i) : s.runCommand = exec i s := by
  simp [State.runCommand, hr, hd]

/-- A command that ends leaves its instance idle. -/
theorem State.runCommand_idle {s t : State} (h : s.runCommand = .next t) : t.inst.running = none := by
  unfold State.runCommand at h
  split at h
  · cases h; assumption
  split at h
  · exact (exec_frame h).1
  · cases h; rfl

theorem State.firstBusyOther_mem {s : State} {k : Nat} (h : s.firstBusyOther = some k) :
    ∃ r, (k, r) ∈ s.others ∧ r.running.isSome = true := by
  unfold State.firstBusyOther at h
  cases hf : s.others.find? fun e => e.2.running.isSome with
  | none => rw [hf] at h; cases h
  | some e =>
    rw [hf] at h
    cases h
    have hb := List.find?_some hf
    exact ⟨e.2, List.mem_of_find?_eq_some hf, hb⟩

/-- A busy instance that `settle` brings in hand is one of the list. -/
theorem State.busyInstance_mem {s : State} {k : Nat} (h : s.busyInstance = some k) :
    k = s.cur ∨ ∃ r, (k, r) ∈ s.others := by
  unfold State.busyInstance at h
  split at h
  · exact .inl (by simpa using h.symm)
  · obtain ⟨r, hr, -⟩ := State.firstBusyOther_mem h
    exact .inr ⟨r, hr⟩

/-! ## Bytes of words and blocks -/

theorem decode_bytesOfWord (w : Word) : decode (bytesOfWord w) = decodeCommand w := by
  show decodeCommand (w.extractLsb' 24 8 ++ w.extractLsb' 16 8 ++ w.extractLsb' 8 8 ++ w.extractLsb' 0 8) = _
  congr 1
  apply BitVec.eq_of_getLsbD_eq
  intro i hi
  simp only [BitVec.getLsbD_append, BitVec.getLsbD_extractLsb']
  by_cases h1 : i < 8
  · simp [h1]
  by_cases h2 : i - 8 < 8
  · simp [h1, h2, show 8 + (i - 8) = i by omega]
  by_cases h3 : i - 8 - 8 < 8
  · simp [h1, h2, h3, show 16 + (i - 8 - 8) = i by omega]
  · simp [h1, h2, h3, show i - 8 - 8 - 8 < 8 by omega, show 24 + (i - 8 - 8 - 8) = i by omega]

@[simp] theorem blockOfBytes_bytesOfBlock (blk : Block) : blockOfBytes (bytesOfBlock blk) = blk := by
  apply BitVec.eq_of_toNat_eq
  simp only [bytesOfBlock, List.range, List.range.loop, List.map, blockOfBytes, List.foldr, BitVec.extractLsb'_toNat,
    Nat.shiftRight_eq_div_pow, BitVec.toNat_ofNat]
  have := blk.isLt
  omega

theorem decode_bytesOfBlock (blk : Block) : decode (bytesOfBlock blk) = .ok (decodeBlock blk) := by
  have h := blockOfBytes_bytesOfBlock blk
  obtain ⟨b0, b1, b2, b3, b4, l, hb, hl⟩ : ∃ b0 b1 b2 b3 b4 l,
      bytesOfBlock blk = b0 :: b1 :: b2 :: b3 :: b4 :: l ∧ l.length = 11 := ⟨_, _, _, _, _, _, rfl, rfl⟩
  rw [hb] at h ⊢
  simp [decode, hl, h]

/-- The block just written to PHYS is the block read from it. -/
theorem State.readPhys_writePhys (s : State) (blk : Block) : (s.writePhys blk).readPhys = .ok blk := by
  have h : (s.writePhys blk).load offPhys 16 = .ok (bytesOfBlock blk) :=
    Memory.readList_writeList s.mem (s.base + offPhys) (bytesOfBlock blk)
  rw [State.readPhys, h]
  simp

end Sys2Proof.Machine
end

