-- ==== Sys2Proof/Laws/PerInstr.lean ====
section
/-! SUPPORT. The family EncodeLength: a command word has 4 bytes (R120), a physical block 16 (R137). -/

namespace Sys2Proof.Laws.EncodeLength

def Statement (i : Instr) : Prop := (encode i).length = if i.isBlock then 16 else 4

theorem nop : Statement .nop := rfl
theorem buildTables : Statement .buildTables := rfl
theorem encodeBlock (p : BitVec 1) (k : BitVec 2) : Statement (.encodeBlock p k) := rfl
theorem pack : Statement .pack := rfl
theorem unpack : Statement .unpack := rfl
theorem decodeTexels (k : BitVec 2) : Statement (.decodeTexels k) := rfl
theorem iseBitcount (n : BitVec 8) (q : BitVec 5) : Statement (.iseBitcount n q) := rfl
theorem qlookup (q : BitVec 5) (t : BitVec 3) (k : BitVec 11) : Statement (.qlookup q t k) := rfl
theorem plookup (n : BitVec 3) (k : BitVec 10) (c : BitVec 8) : Statement (.plookup n k c) := rfl
theorem modeinfo (m : BitVec 11) : Statement (.modeinfo m) := rfl
theorem dlookup (d t : BitVec 8) (e : BitVec 2) (g : BitVec 1) : Statement (.dlookup d t e g) := rfl
theorem reservedOp (o : BitVec 8) (x : BitVec 24) : Statement (.reservedOp o x) := rfl
theorem physVoidExtent (f : BitVec 1) (v : BitVec 2) (s0 s1 t0 t1 : BitVec 13) (r g b a : BitVec 16) :
    Statement (.physVoidExtent f v s0 s1 t0 t1 r g b a) := rfl
theorem physNormal1p (m : BitVec 11) (c : BitVec 4) (x : BitVec 111) : Statement (.physNormal1p m c x) := rfl
theorem physNormalMp (m : BitVec 11) (n : BitVec 2) (p : BitVec 10) (c : BitVec 6) (x : BitVec 99) :
    Statement (.physNormalMp m n p c x) := rfl

end Sys2Proof.Laws.EncodeLength
end

