-- ==== Sys2Proof/Laws/Sym.lean ====
section
/-! SUPPORT. The register image of a symbolic block: the eight pieces, their sizes and the bits they hold; what UNPACK
reads and what ENCODE_BLOCK emits fits the registers. -/

namespace Sys2Proof.Machine

/-! ## Byte lists -/

@[simp] theorem leBytes_length (n v : Nat) : (leBytes n v).length = n := by
  induction n generalizing v with
  | zero => rfl
  | succ n ih => simp [leBytes, ih]

theorem leBytes_getElem? (n v i : Nat) :
    (leBytes n v)[i]? = if i < n then some (BitVec.ofNat 8 (v / 256 ^ i)) else none := by
  induction n generalizing v i with
  | zero => simp [leBytes]
  | succ n ih =>
    cases i with
    | zero => simp [leBytes]
    | succ i =>
      rw [leBytes, List.getElem?_cons_succ, ih]
      simp only [Nat.succ_lt_succ_iff, Nat.div_div_eq_div_mul, Nat.pow_succ, Nat.mul_comm]

/-- The number that `n` little-endian bytes hold. -/
theorem leNat_leBytes (n v : Nat) : leNat (leBytes n v) = v % 256 ^ n := by
  induction n generalizing v with
  | zero => simp [leBytes, leNat, Nat.mod_one]
  | succ n ih =>
    have h : leNat (leBytes (n + 1) v) = v % 256 + 256 * leNat (leBytes n (v / 256)) := by
      simp [leBytes, leNat]
    rw [h, ih, Nat.pow_succ, Nat.mul_comm (256 ^ n) 256, Nat.mod_mul]

theorem padTo_length {n : Nat} {l : List Byte} (h : l.length ≤ n) : (padTo n l).length = n := by
  simp [padTo]; omega

theorem padTo_getElem? {n : Nat} {l : List Byte} (i : Nat) (hi : i < n) :
    (padTo n l)[i]? = some (l.getD i 0) := by
  unfold padTo
  by_cases h : i < l.length
  · simp [List.getElem?_append_left h, List.getD, List.getElem?_eq_getElem h]
  · rw [List.getElem?_append_right (by omega), List.getElem?_replicate]
    simp [List.getD, List.getElem?_eq_none (show l.length ≤ i by omega)]
    omega

theorem symColorBytes_go_length {cems : List Nat} (h : ∀ c ∈ cems, c < 16) (vals : List Byte) :
    (symColorBytes.go cems vals).length = 8 * cems.length := by
  induction cems generalizing vals with
  | nil => rfl
  | cons c cems ih =>
    have hc : cemValues c ≤ 8 := by
      have := h c (by simp)
      unfold cemValues
      omega
    rw [symColorBytes.go, List.length_append, padTo_length (by simp; omega), ih fun x hx => h x (by simp [hx])]
    simp
    omega

/-! ## What fits the registers -/

/-- A symbolic block whose entries in use have room in `SYM` (R57 to R62). -/
def symFits : Sym → Prop
  | .normal n => n.cems.length ≤ 4 ∧ n.w0.length ≤ 64 ∧ n.w1.length ≤ 64
  | _ => True

/-- The sizes of the eight pieces of the image. -/
def symSizes : List (Nat × Nat) :=
  [(offSymCtrl, 3), (offSymMode, 4), (offSymPart, 2), (offSymCem, 2), (offSymConst, 8), (offSymColor, 32), (offSymW0, 64),
    (offSymW1, 64)]

theorem cemNats_lt (n : NormalSym) : ∀ c ∈ cemNats n, c < 16 := by
  intro c hc
  obtain ⟨b, _, rfl⟩ := List.mem_map.1 hc
  exact b.isLt

theorem symImage_sizes {sym : Sym} (h : symFits sym) :
    (symImage sym).map (fun p => (p.1, p.2.length)) = symSizes := by
  cases sym with
  | error => rfl
  | const f c => simp [symImage, symSizes, symCtrlBytes, Rgba.toList, padTo]
  | normal n =>
    obtain ⟨hc, h0, h1⟩ := h
    have hcol : (symColorBytes (cemNats n) n.colors).length = 32 := by
      rw [symColorBytes, padTo_length]
      rw [symColorBytes_go_length (cemNats_lt n), cemNats, List.length_map]
      omega
    simp [symImage, symSizes, symCtrlBytes, symCemBytes, padTo_length h0, padTo_length h1, hcol]

/-- Every bit of the image stands where the register map names one (R57 to R62). -/
theorem symImage_masked {sym : Sym} (h : symFits sym) :
    ∀ p ∈ symImage sym, ∀ i b, p.2[i]? = some b → byteMask (p.1 + i) ≠ 0 ∧ b &&& byteMask (p.1 + i) = b := by
  have full : ∀ off size, (∀ i < size, byteMask (off + i) = 0xFF) → ∀ (l : List Byte), l.length = size →
      ∀ i b, l[i]? = some b → byteMask (off + i) ≠ 0 ∧ b &&& byteMask (off + i) = b := by
    intro off size hm l hl i b hb
    have hi : i < size := by
      rw [← hl]
      exact (List.getElem?_eq_some_iff.1 hb).1
    rw [hm i hi]
    exact ⟨by decide, BitVec.and_allOnes⟩
  have hsizes := symImage_sizes h
  have ctrl : ∀ (e m : Bool) (pc ccs cq : Nat), pc < 8 → ccs < 4 → cq < 32 → ∀ i b,
      (symCtrlBytes e m pc ccs cq)[i]? = some b →
      byteMask (offSymCtrl + i) ≠ 0 ∧ b &&& byteMask (offSymCtrl + i) = b := by
    intro e m pc ccs cq hpc hccs hcq i b hb
    rw [symCtrlBytes, leBytes_getElem?] at hb
    split at hb
    · rename_i hi
      cases hb
      have hi' : i = 0 ∨ i = 1 ∨ i = 2 := by omega
      obtain rfl | rfl | rfl := hi'
      · have : BitVec.ofNat 8 ((e.toNat + m.toNat * 2 ^ 3 + pc * 2 ^ 8 + ccs * 2 ^ 12 + cq * 2 ^ 16) / 256 ^ 0) =
            BitVec.ofNat 8 (e.toNat + 8 * m.toNat) := by
          apply BitVec.eq_of_toNat_eq
          simp only [BitVec.toNat_ofNat]
          omega
        rw [this]
        cases e <;> cases m <;> decide
      · have : BitVec.ofNat 8 ((e.toNat + m.toNat * 2 ^ 3 + pc * 2 ^ 8 + ccs * 2 ^ 12 + cq * 2 ^ 16) / 256 ^ 1) =
            BitVec.ofNat 8 (pc + 16 * ccs) := by
          apply BitVec.eq_of_toNat_eq
          simp only [BitVec.toNat_ofNat]
          have := e.toNat_lt
          have := m.toNat_lt
          omega
        rw [this]
        have table : ∀ pc < 8, ∀ ccs < 4, byteMask (offSymCtrl + 1) ≠ 0 ∧
            BitVec.ofNat 8 (pc + 16 * ccs) &&& byteMask (offSymCtrl + 1) = BitVec.ofNat 8 (pc + 16 * ccs) := by
          decide
        exact table pc hpc ccs hccs
      · have : BitVec.ofNat 8 ((e.toNat + m.toNat * 2 ^ 3 + pc * 2 ^ 8 + ccs * 2 ^ 12 + cq * 2 ^ 16) / 256 ^ 2) =
            BitVec.ofNat 8 cq := by
          apply BitVec.eq_of_toNat_eq
          simp only [BitVec.toNat_ofNat]
          have := e.toNat_lt
          have := m.toNat_lt
          omega
        rw [this]
        have table : ∀ cq < 32, byteMask (offSymCtrl + 2) ≠ 0 ∧
            BitVec.ofNat 8 cq &&& byteMask (offSymCtrl + 2) = BitVec.ofNat 8 cq := by
          decide
        exact table cq hcq
    · cases hb
  have part : ∀ v : Nat, v < 1024 → ∀ i b, (leBytes 2 v)[i]? = some b →
      byteMask (offSymPart + i) ≠ 0 ∧ b &&& byteMask (offSymPart + i) = b := by
    intro v hv i b hb
    rw [leBytes_getElem?] at hb
    split at hb
    · rename_i hi
      cases hb
      have hi' : i = 0 ∨ i = 1 := by omega
      obtain rfl | rfl := hi'
      · exact ⟨by decide, BitVec.and_allOnes⟩
      · have : v / 256 ^ 1 < 4 := by omega
        revert this
        generalize v / 256 ^ 1 = x
        revert x
        decide
    · cases hb
  have mode : ∀ i < 4, byteMask (offSymMode + i) = 0xFF := by decide
  have cem : ∀ i < 2, byteMask (offSymCem + i) = 0xFF := by decide
  have const : ∀ i < 8, byteMask (offSymConst + i) = 0xFF := by decide
  have color : ∀ i < 32, byteMask (offSymColor + i) = 0xFF := by decide
  have w0 : ∀ i < 64, byteMask (offSymW0 + i) = 0xFF := by decide
  have w1 : ∀ i < 64, byteMask (offSymW1 + i) = 0xFF := by decide
  cases sym with
  | error =>
    simp only [symImage, List.map_cons, List.map_nil, symSizes, List.cons.injEq, Prod.mk.injEq, and_true, true_and] at hsizes
    simp only [symImage, List.forall_mem_cons]
    exact ⟨ctrl _ _ _ _ _ (by decide) (by decide) (by decide), full _ _ mode _ hsizes.2.1, part _ (by decide),
      full _ _ cem _ hsizes.2.2.2.1, full _ _ const _ hsizes.2.2.2.2.1, full _ _ color _ hsizes.2.2.2.2.2.1,
      full _ _ w0 _ hsizes.2.2.2.2.2.2.1, full _ _ w1 _ hsizes.2.2.2.2.2.2.2, by simp⟩
  | const f c =>
    simp only [symImage, List.map_cons, List.map_nil, symSizes, List.cons.injEq, Prod.mk.injEq, and_true, true_and] at hsizes
    simp only [symImage, List.forall_mem_cons]
    exact ⟨ctrl _ _ _ _ _ (by decide) (by decide) (by decide), full _ _ mode _ hsizes.2.1, part _ (by decide),
      full _ _ cem _ hsizes.2.2.2.1, full _ _ const _ hsizes.2.2.2.2.1, full _ _ color _ hsizes.2.2.2.2.2.1,
      full _ _ w0 _ hsizes.2.2.2.2.2.2.1, full _ _ w1 _ hsizes.2.2.2.2.2.2.2, by simp⟩
  | normal n =>
    simp only [symImage, List.map_cons, List.map_nil, symSizes, List.cons.injEq, Prod.mk.injEq, and_true, true_and] at hsizes
    simp only [symImage, List.forall_mem_cons]
    exact ⟨ctrl _ _ _ _ _ (lt_of_le_of_lt h.1 (by decide)) n.ccs.isLt n.cq.isLt, full _ _ mode _ hsizes.2.1,
      part _ n.partIndex.isLt,
      full _ _ cem _ hsizes.2.2.2.1, full _ _ const _ hsizes.2.2.2.2.1, full _ _ color _ hsizes.2.2.2.2.2.1,
      full _ _ w0 _ hsizes.2.2.2.2.2.2.1, full _ _ w1 _ hsizes.2.2.2.2.2.2.2, by simp⟩

/-! ## Pieces stored one after the other -/

/-- The memory with pieces `(offset, bytes)` stored above `base`. -/
abbrev storePieces (m : Memory) (base : Nat) (pieces : List (Nat × List Byte)) : Memory :=
  pieces.foldl (fun m piece => m.writeList (base + piece.1) piece.2) m

theorem storePieces_wf {m : Memory} (h : m.wf) (base : Nat) (pieces : List (Nat × List Byte)) :
    (storePieces m base pieces).wf := by
  induction pieces generalizing m with
  | nil => exact h
  | cons p ps ih => exact ih (Memory.writeList_wf h _ _)

/-- A byte in none of the pieces is as before. -/
theorem storePieces_outside (m : Memory) (base : Nat) {pieces : List (Nat × List Byte)} {a : Nat}
    (h : ∀ p ∈ pieces, a < base + p.1 ∨ base + p.1 + p.2.length ≤ a) :
    (storePieces m base pieces).read a = m.read a := by
  induction pieces generalizing m with
  | nil => rfl
  | cons p ps ih =>
    refine (ih _ fun q hq => h q (by simp [hq])).trans ?_
    exact Memory.read_writeList_outside m (h p (by simp))

/-- A byte of a piece, when the pieces lie one above the other. -/
theorem storePieces_inside (m : Memory) (base : Nat) {pieces : List (Nat × List Byte)}
    (hd : pieces.Pairwise fun p q => p.1 + p.2.length ≤ q.1) {p : Nat × List Byte} (hp : p ∈ pieces) {i : Nat}
    (hi : i < p.2.length) : (storePieces m base pieces).read (base + p.1 + i) = p.2[i]? := by
  induction pieces generalizing m with
  | nil => cases hp
  | cons q qs ih =>
    obtain ⟨h1, h2⟩ := List.pairwise_cons.1 hd
    obtain rfl | hp := List.mem_cons.1 hp
    · refine (storePieces_outside (m.writeList (base + p.1) p.2) base (pieces := qs) fun r hr => ?_).trans ?_
      · have := h1 r hr
        omega
      · rw [Memory.read_writeList, if_pos (by omega), Nat.add_sub_cancel_left]
    · exact ih _ h2 hp

theorem storePieces_keys (m : Memory) (base : Nat) (pieces : List (Nat × List Byte)) :
    ∀ e ∈ storePieces m base pieces,
      (∃ p ∈ pieces, ∃ i, p.2[i]? = some e.2 ∧ e.1 = base + p.1 + i) ∨ e ∈ m := by
  induction pieces generalizing m with
  | nil => exact fun e he => .inr he
  | cons p ps ih =>
    intro e he
    obtain ⟨q, hq, i, hi, ha⟩ | he := ih _ e he
    · exact .inl ⟨q, by simp [hq], i, hi, ha⟩
    · obtain ⟨i, hi, rfl⟩ | he := Memory.writeList_keys m _ _ e he
      · exact .inl ⟨p, by simp, i, by simp [hi], rfl⟩
      · exact .inr he

theorem symImage_disjoint {sym : Sym} (h : symFits sym) :
    (symImage sym).Pairwise fun p q => p.1 + p.2.length ≤ q.1 := by
  have := symImage_sizes h
  have key : ((symImage sym).map fun p => (p.1, p.2.length)).Pairwise fun p q => p.1 + p.2 ≤ q.1 := by
    rw [this]
    decide
  exact List.pairwise_map.1 key

/-- `SYM <- s` changes no byte but those of SYM that hold something. -/
theorem symMemory_outside (s : State) {sym : Sym} (h : symFits sym) {a : Nat} (ha : ¬s.symAddress a) :
    (symMemory s.mem s.base sym).read a = s.mem.read a := by
  refine storePieces_outside _ _ fun p hp => ?_
  by_contra hc
  apply ha
  have hi : a - (s.base + p.1) < p.2.length := by omega
  have hmask := symImage_masked h p hp (a - (s.base + p.1)) p.2[a - (s.base + p.1)] (by simp [hi])
  have hs : (p.1, p.2.length) ∈ symSizes := by
    rw [← symImage_sizes h]
    exact List.mem_map.2 ⟨p, hp, rfl⟩
  have hb : ∀ q ∈ symSizes, offSymCtrl ≤ q.1 ∧ q.1 + q.2 ≤ offSymW1 + 64 := by decide
  have := hb _ hs
  exact ⟨p.1 + (a - (s.base + p.1)), by omega, by omega, by omega, hmask.1⟩

/-! ## What UNPACK reads and ENCODE_BLOCK emits fits -/

theorem iseDecode_length_le (n q x : Nat) : (iseDecode n q x).length ≤ n := by
  unfold iseDecode
  exact List.length_take_le _ _

theorem evens_length_le : ∀ l : List Nat, (evens l).length ≤ l.length
  | [] => le_refl _
  | [_] => le_refl _
  | _ :: _ :: l => by
    have := evens_length_le l
    simp only [evens, List.length_cons]
    omega

theorem odds_length_le : ∀ l : List Nat, (odds l).length ≤ l.length
  | [] => le_refl _
  | [_] => by simp [odds]
  | _ :: _ :: l => by
    have := odds_length_le l
    simp only [odds, List.length_cons]
    omega

theorem blockMode_some {fp : Footprint} {m : Nat} {b : BlockMode} (h : blockMode fp m = some b) :
    decodeMode m = some b ∧ b.legal fp = true := by
  unfold blockMode at h
  exact Option.filter_eq_some_iff.1 h

theorem blockMode_weights {fp : Footprint} {m : Nat} {b : BlockMode} (h : blockMode fp m = some b) :
    b.weightCount ≤ 64 ∧ b.grid.w * b.grid.h ≤ 64 := by
  have hl := (blockMode_some h).2
  simp only [BlockMode.legal, Bool.and_eq_true, decide_eq_true_eq] at hl
  have h1 : b.weightCount ≤ 64 := hl.1.1.1
  refine ⟨h1, le_trans ?_ h1⟩
  exact Nat.le_mul_of_pos_right _ (by omega)

theorem readCems_length (blk : Block) (pc wb : Nat) : (readCems blk pc wb).1.length = pc := by
  unfold readCems
  dsimp only
  split
  · subst pc; rfl
  split
  · simp
  · simp [classCems]

theorem readNormal_fits (fp : Footprint) (blk : Block) : symFits (readNormal fp blk) := by
  unfold readNormal
  split
  · trivial
  rename_i b hb
  dsimp only
  split
  · trivial
  split
  · trivial
  split
  · trivial
  split
  · trivial
  have hw := (blockMode_weights hb).1
  have hpc : readBits blk 11 2 + 1 ≤ 4 := by
    have : readBits blk 11 2 < 4 := Nat.mod_lt _ (by decide)
    omega
  have hlen := iseDecode_length_le b.weightCount b.wq (revBlock blk)
  simp only [readValues, symFits, List.length_map, readCems_length, toBytes]
  refine ⟨hpc, ?_, ?_⟩
  · split
    · exact le_trans (evens_length_le _) (by omega)
    · omega
  · split
    · exact le_trans (odds_length_le _) (by omega)
    · simp

theorem readBlock_fits (fp : Footprint) (blk : Block) : symFits (readBlock fp blk) := by
  unfold readBlock
  split
  · unfold readVoidExtent
    dsimp only
    split
    · trivial
    split <;> trivial
  · exact readNormal_fits fp blk

theorem normalWf_some {fp : Footprint} {n : NormalSym} (h : normalWf fp n = true) :
    ∃ b, blockMode fp n.mode.toNat = some b ∧
      headerOk b n.partIndex.toNat n.matched n.cq.toNat (cemNats n) = true ∧ valuesOk b n = true := by
  unfold normalWf at h
  split at h
  · cases h
  · exact ⟨_, ‹_›, by simpa using h⟩

theorem normalWf_fits {fp : Footprint} {n : NormalSym} (h : normalWf fp n = true) : symFits (.normal n) := by
  obtain ⟨b, hb, hh, hv⟩ := normalWf_some h
  have hw := (blockMode_weights hb).2
  simp only [headerOk, Bool.and_eq_true, decide_eq_true_eq] at hh
  simp only [valuesOk, Bool.and_eq_true, beq_iff_eq] at hv
  refine ⟨?_, ?_, ?_⟩
  · have : (cemNats n).length ≤ 4 := hh.1.1.1.1.1.1.2
    simpa [cemNats] using this
  · rw [hv.1.1.1.2]; exact hw
  · rw [hv.1.2]; split
    · exact hw
    · omega

theorem symWf_fits {fp : Footprint} {sym : Sym} (h : symWf fp sym = true) : symFits sym := by
  cases sym with
  | error => trivial
  | const => trivial
  | normal n => exact normalWf_fits h

theorem plainCandidate_fits (fp : Footprint) (m : Nat) : symFits (.normal (plainCandidate fp m)) := by
  unfold plainCandidate
  split
  · simp only [symFits]
    decide
  · rename_i b hb
    have hw := (blockMode_weights hb).2
    simp only [symFits, List.length_replicate, List.length_singleton]
    refine ⟨by omega, hw, ?_⟩
    split
    · rw [List.length_replicate]; exact hw
    · simp

theorem leastOf_mem (cost : NormalSym → Nat × Nat) (best : NormalSym) (l : List NormalSym) :
    leastOf cost best l = best ∨ leastOf cost best l ∈ l := by
  induction l generalizing best with
  | nil => exact .inl rfl
  | cons n l ih =>
    simp only [leastOf]
    obtain h | h := ih (if beats (cost n) (cost best) then n else best)
    · rw [h]
      split
      · exact .inr (by simp)
      · exact .inl rfl
    · exact .inr (by simp [h])

/-- The block selected is one of the evaluated set, or the default when no error counts as least. -/
theorem selectFrom_mem (inp : SearchInput) (E : List NormalSym) :
    selectFrom inp E ∈ E ∨ selectFrom inp E = default := by
  unfold selectFrom
  dsimp only
  split
  · exact .inr rfl
  · rename_i n rest h
    have hsub : ∀ k ∈ n :: rest, k ∈ E := fun k hk => List.mem_of_mem_filter (h ▸ hk)
    obtain h | h := leastOf_mem (fun k => (k.pc, packKey ⟨inp.bw, inp.bh⟩ k)) n rest
    · exact .inl (hsub _ (by rw [h]; simp))
    · exact .inl (hsub _ (by simp [h]))

theorem evaluated_fits (inp : SearchInput) : ∀ n ∈ evaluated inp, symFits (.normal n) := by
  intro n hn
  unfold evaluated at hn
  split at hn
  · rw [List.mem_singleton.1 hn]
    exact plainCandidate_fits _ _
  · have h := (List.mem_filter.1 hn).2
    simp only [isCandidate, Bool.and_eq_true] at h
    exact normalWf_fits h.1.1.1.1

theorem encodedSym_fits (inp : SearchInput) (tol : Nat) : symFits (encodedSym inp tol) := by
  unfold encodedSym
  dsimp only
  split
  · trivial
  · unfold search
    obtain h | h := selectFrom_mem inp (evaluated inp)
    · exact evaluated_fits inp _ h
    · rw [h]
      simp only [symFits]
      decide

end Sys2Proof.Machine
end

