-- ==== Sys2Proof/Laws/Stores.lean ====
section
/-! SUPPORT. What any instruction does to the memory and to the tables. -/

namespace Sys2Proof.Machine

theorem decodedTexels_length (fp : Footprint) (p : Profile) (ec : Rgba Byte) (sym : Sym) :
    (decodedTexels fp p ec sym).length = fp.texels := by
  simp [decodedTexels]

theorem texelBytes_length (l : List (Rgba Byte)) : (l.map Rgba.toList).flatten.length = 4 * l.length := by
  induction l with
  | nil => rfl
  | cons x l ih => simp [Rgba.toList] at ih ⊢; omega

@[simp] theorem bytesOfBlock_length (b : Block) : (bytesOfBlock b).length = 16 := by simp [bytesOfBlock]

@[simp] theorem State.encoded_mem (s : State) (fp : Footprint) (pack : Bool) (inp : SearchInput) :
    (s.encoded fp pack inp).mem =
      let sym := encodedSym inp s.cfgConstTol.toNat
      if pack then (symMemory s.mem s.base sym).writeList (s.base + offPhys) (bytesOfBlock (packBlock fp sym))
      else symMemory s.mem s.base sym := by
  cases pack <;> simp [State.encoded, State.base]

@[simp] theorem State.encoded_tables (s : State) (fp : Footprint) (pack : Bool) (inp : SearchInput) :
    (s.encoded fp pack inp).tables = s.tables := by
  cases pack <;> simp [State.encoded]

/-- What any instruction does to the memory and the tables. -/
theorem exec_mem {i : Instr} {s t : State} (h : exec i s = .next t) :
    t.mem = s.mem ∨ ∃ fp, s.tables = .valid fp ∧ t.tables = .valid fp ∧
      ((∃ blk : Block, i = .pack ∧ t.mem = s.mem.writeList (s.base + offPhys) (bytesOfBlock blk)) ∨
       (∃ sym, symFits sym ∧ t.mem = symMemory s.mem s.base sym ∧ i ≠ .pack ∧ ∀ k, i ≠ .decodeTexels k) ∨
       (∃ (sym : Sym) (blk : Block) (k : BitVec 2), i = .encodeBlock 1 k ∧ symFits sym ∧ 
          t.mem = (symMemory s.mem s.base sym).writeList (s.base + offPhys) (bytesOfBlock blk)) ∨
       ∃ (texels : List (Rgba Byte)) (k : BitVec 2), i = .decodeTexels k ∧ texels.length = fp.texels ∧
          t.mem = s.mem.writeList (s.base + offTexout) (texels.map Rgba.toList).flatten) := by
  cases i with
  | nop => cases h; exact .inl rfl
  | buildTables =>
    simp only [exec, execBuildTables] at h
    split at h <;> cases h <;> exact .inl rfl
  | reservedOp o x => cases h; exact .inl rfl
  | iseBitcount n q =>
    obtain ⟨_, rfl⟩ | ⟨v, _, rfl⟩ := State.answerOrBad_next h <;> exact .inl rfl
  | qlookup q t k =>
    obtain ⟨_, rfl⟩ | ⟨fp, hfp, h⟩ := State.withTables_next h
    · exact .inl rfl
    · obtain ⟨_, rfl⟩ | ⟨v, _, rfl⟩ := State.answerOrBad_next h <;> exact .inl rfl
  | plookup q t k =>
    obtain ⟨_, rfl⟩ | ⟨fp, hfp, h⟩ := State.withTables_next h
    · exact .inl rfl
    · obtain ⟨_, rfl⟩ | ⟨v, _, rfl⟩ := State.answerOrBad_next h <;> exact .inl rfl
  | dlookup d q t k =>
    obtain ⟨_, rfl⟩ | ⟨fp, hfp, h⟩ := State.withTables_next h
    · exact .inl rfl
    · obtain ⟨_, rfl⟩ | ⟨v, _, rfl⟩ := State.answerOrBad_next h <;> exact .inl rfl
  | modeinfo m =>
    obtain ⟨_, rfl⟩ | ⟨fp, hfp, h⟩ := State.withTables_next h
    · exact .inl rfl
    · cases h; exact .inl rfl
  | pack =>
    obtain ⟨_, rfl⟩ | ⟨fp, hfp, h⟩ := State.withTables_next h
    · exact .inl rfl
    · obtain ⟨_, rfl⟩ | ⟨sym, hs, h⟩ := State.withSym_next h
      · exact .inl rfl
      split at h
      · cases h; exact .inr ⟨fp, hfp, by simp [hfp], .inl ⟨packBlock fp sym, rfl, by simp⟩⟩
      · cases h; exact .inl rfl
  | unpack =>
    obtain ⟨_, rfl⟩ | ⟨fp, hfp, h⟩ := State.withTables_next h
    · exact .inl rfl
    obtain ⟨blk, hb, h⟩ := withBytes_next h
    cases h
    refine .inr ⟨fp, hfp, ?_, .inr (.inl ⟨readBlock fp blk, readBlock_fits fp blk, ?_, by simp, by simp⟩)⟩
    · simp [State.unpacked, hfp]
    · simp [State.unpacked]
  | physVoidExtent f v s0 s1 t0 t1 r g b a =>
    obtain ⟨_, rfl⟩ | ⟨fp, hfp, h⟩ := State.withTables_next h
    · exact .inl rfl
    cases h
    refine .inr ⟨fp, hfp, ?_, .inr (.inl ⟨readVoidExtent (voidExtentBlock f v s0 s1 t0 t1 r g b a), ?_, ?_, by simp, by simp⟩)⟩
    · simp [State.unpacked, hfp]
    · unfold readVoidExtent; dsimp only; split
      · trivial
      split <;> trivial
    · simp [State.unpacked]
  | physNormal1p m c x =>
    obtain ⟨_, rfl⟩ | ⟨fp, hfp, h⟩ := State.withTables_next h
    · exact .inl rfl
    cases h
    refine .inr ⟨fp, hfp, ?_, .inr (.inl ⟨_, readNormal_fits fp (normal1pBlock m c x), ?_, by simp, by simp⟩)⟩
    · simp [State.unpacked, hfp]
    · simp [State.unpacked]
  | physNormalMp m n p c x =>
    obtain ⟨_, rfl⟩ | ⟨fp, hfp, h⟩ := State.withTables_next h
    · exact .inl rfl
    cases h
    refine .inr ⟨fp, hfp, ?_, .inr (.inl ⟨_, readNormal_fits fp (normalMpBlock m n p c x), ?_, by simp, by simp⟩)⟩
    · simp [State.unpacked, hfp]
    · simp [State.unpacked]
  | decodeTexels k =>
    obtain ⟨_, rfl⟩ | ⟨fp, hfp, h⟩ := State.withTables_next h
    · exact .inl rfl
    split at h
    · cases h; exact .inl rfl
    obtain ⟨_, rfl⟩ | ⟨sym, hs, h⟩ := State.withSym_next h
    · exact .inl rfl
    cases h
    exact .inr ⟨fp, hfp, by simp [hfp], .inr (.inr (.inr ⟨_, k, rfl, decodedTexels_length fp s.profile s.cfgErrorColor sym, by simp⟩))⟩
  | encodeBlock p k =>
    obtain ⟨_, rfl⟩ | ⟨fp, hfp, h⟩ := State.withTables_next h
    · exact .inl rfl
    split at h
    · cases h; exact .inl rfl
    obtain ⟨ewb, hs, h⟩ := withBytes_next h
    split at h
    · obtain ⟨tx, ht, h⟩ := withBytes_next h
      cases h
      have hf := encodedSym_fits (s.searchInput fp tx ewb) s.cfgConstTol.toNat
      by_cases hp : p = 1
      · subst hp
        refine .inr ⟨fp, hfp, ?_, .inr (.inr (.inl ⟨_, packBlock fp (encodedSym (s.searchInput fp tx ewb) s.cfgConstTol.toNat), k, rfl, hf, ?_⟩))⟩
        · simp [hfp]
        · rw [State.finish_mem, State.encoded_mem]; exact if_pos rfl
      · refine .inr ⟨fp, hfp, ?_, .inr (.inl ⟨_, hf, ?_, by simp, by simp⟩)⟩
        · simp [hfp]
        · rw [State.finish_mem, State.encoded_mem, beq_eq_false_iff_ne.2 hp]; exact if_neg (by decide)
    · cases h; exact .inl rfl

/-! ## Addresses -/

theorem State.bytesAt_instance {s : State} {off n a : Nat} (h : s.bytesAt off n a) (hn : off + n ≤ instanceStride) :
    s.bytesAt 0 instanceStride a := by
  unfold State.bytesAt at *
  omega

theorem State.symAddress_instance {s : State} {a : Nat} (h : s.symAddress a) : s.bytesAt 0 instanceStride a := by
  obtain ⟨off, rfl, h1, h2, _⟩ := h
  have : offSymW1 + 64 ≤ instanceStride := by decide
  unfold State.bytesAt
  omega

theorem Memory.read_writeList_bytesAt {s : State} {off n a : Nat} {bs : List Byte} (h : ¬s.bytesAt off n a)
    (hl : bs.length = n) (m : Memory) : (m.writeList (s.base + off) bs).read a = m.read a := by
  apply Memory.read_writeList_outside
  unfold State.bytesAt at h
  omega

theorem Footprint.texels_le {fp : Footprint} (h : fp.valid = true) : fp.texels ≤ 144 := by
  have : ∀ fp ∈ Footprint.all, fp.texels ≤ 144 := by decide
  exact this fp (by simpa [Footprint.valid] using h)

theorem exec_tables {i : Instr} {s t : State} (h : exec i s = .next t) (hi : i ≠ .buildTables) : s.sameTables t := by
  unfold State.sameTables
  cases i <;> simp only [exec, execNop, execQlookup, execPlookup, execModeinfo, execDlookup,
    execIseBitcount, execReservedOp, illegalCommand, execPack, execUnpack, execPhysVoidExtent, execPhysNormal1p,
    execPhysNormalMp, execDecodeTexels, execEncodeBlock, State.withTables, State.withSym, withBytes, State.answerOrBad,
    State.answer, State.raise, State.complete, State.unpacked, State.encoded] at h <;>
  first
  | exact absurd rfl hi
  | ((repeat' split at h) <;> cases h <;> simp)

end Sys2Proof.Machine
end

