-- ==== Sys2Proof/Laws/Step.lean ====
section
/-! SUPPORT. What a step can do to the instances, the configuration and the tables, said once. -/

namespace Sys2Proof.Machine

/-- The other state has the same instances in the same hand, the same configuration and the same tables. -/
def State.sameUnit (u t : State) : Prop :=
  t.inst = u.inst ∧ t.others = u.others ∧ t.cur = u.cur ∧ u.sameConfig t ∧ u.sameTables t

theorem State.sameUnit_refl (u : State) : u.sameUnit u := by simp [State.sameUnit, State.sameConfig, State.sameTables]

theorem State.busRead_same (u : State) (off n : Nat) : u.sameUnit (u.busRead off n) := by
  unfold State.busRead; split <;> simp [State.sameUnit, State.sameConfig, State.sameTables]

theorem State.poll_same {u t : State} {n : Nat} (h : u.poll n = .next t) : u.sameUnit t := by
  have hb := State.busRead_same u 4 4
  unfold State.poll at h
  dsimp only at h
  split at h
  · split at h <;> (cases h; exact hb)
  · cases h; exact hb

theorem State.writeBuffer_same (bs : List Byte) : ∀ (u : State) (off : Nat), u.sameUnit (u.writeBuffer off bs) := by
  induction bs with
  | nil => exact fun u _ => State.sameUnit_refl u
  | cons b bs ih =>
    intro u off
    have h1 : u.sameUnit (u.writeBufferByte off b) := by
      unfold State.writeBufferByte; split
      · exact State.sameUnit_refl u
      · simp [State.sameUnit, State.sameConfig, State.sameTables, State.store]
    have h2 := ih (u.writeBufferByte off b) (off + 1)
    obtain ⟨a1, a2, a3, a4, a5⟩ := h1
    obtain ⟨b1, b2, b3, b4, b5⟩ := h2
    refine ⟨b1.trans a1, b2.trans a2, b3.trans a3, ?_, ?_⟩ <;>
      simp_all [State.sameConfig, State.sameTables, State.writeBuffer]

/-- What a bus write that is not refused can do to the instances, the configuration and the tables: nothing, a configuration
write with every instance idle (R520), or the start of a command (R45). -/
theorem State.busWrite_cases {u t : State} {off n : Nat} {v : Word} (h : u.busWrite off n v = .next t) :
    u.sameUnit t ∨
    (u.busy = false ∧ u.otherBusy = false ∧ t.inst = u.inst ∧ t.others = u.others ∧ t.cur = u.cur) ∨
    (u.busy = false ∧ (v = 1 → u.otherBusy = false) ∧ t.inst.running = some v ∧ t.others = u.others ∧ t.cur = u.cur ∧
      u.sameConfig t ∧ u.sameTables t) := by
  unfold State.busWrite at h
  split at h
  · obtain ⟨_, rfl⟩ | ⟨hb, hw, rfl⟩ := State.issue_next h
    · exact .inl (State.sameUnit_refl _)
    · exact .inr (.inr ⟨hb, fun h1 => hw ((isBuildTables_iff v).2 h1), rfl, rfl, rfl,
        by simp [State.sameConfig], by simp [State.sameTables]⟩)
  split at h
  · cases h
  rename_i hb
  split at h
  · split at h
    · cases h
    · cases h
      refine .inr (.inl ⟨by simpa using hb, by simpa using ‹¬u.otherBusy = true›, ?_⟩)
      unfold State.writeConfig
      split <;> simp [State.invalidate]
  split at h
  · cases h; exact .inl (State.sameUnit_refl _)
  · cases h; exact .inl (State.writeBuffer_same _ _ _)

/-- An access that is not refused is made with its instance in hand. -/
theorem State.access_next {s t : State} {addr n : Nat} {f} (h : s.access addr n f = .next t) :
    ∃ k off, f (s.focus k) off = .next t := by
  unfold State.access at h
  dsimp only at h
  split at h
  · cases h
  split at h
  · cases h
  · exact ⟨_, _, h⟩

/-- What completes when a completion is asked for: the command of the instance in hand, a BUILD_TABLES only if no other
instance is busy; or the command of an instance for which a BUILD_TABLES waits. -/
theorem State.completion_cases {s t : State} {again : List Move} (hc : ∀ e ∈ s.others, e.1 ≠ s.cur)
    (h : s.completion again = .next t) :
    (s.runCommand = .next t ∧ (s.inst.running = some 1 → s.otherBusy = false)) ∨
    ∃ j, j ≠ s.cur ∧ s.inst.running = some 1 ∧ (({ s with script := again } : State).focus j).runCommand = .next t := by
  unfold State.completion at h
  split at h
  · rename_i j hj
    refine .inr ⟨j, ?_, ?_, h⟩ <;> (unfold State.waitsFor at hj; split at hj)
    · obtain ⟨r, hr, -⟩ := State.firstBusyOther_mem hj
      exact hc _ hr
    · cases hj
    · rename_i hb
      obtain ⟨w, hw, hb⟩ := (Option.any_eq_true _ _).1 hb
      rw [hw, (isBuildTables_iff w).1 hb]
    · cases hj
  · rename_i hj
    refine .inl ⟨h, fun hw => ?_⟩
    rw [State.waitsFor, hw, if_pos (by decide)] at hj
    have := State.firstBusyOther_none.1 hj
    simpa [State.otherBusy] using this

/-- What a step can do to the instances, the configuration and the tables: a reset; nothing; or, with some instance `k` in
hand, nothing, a configuration write with every instance idle, the start of a command, or the completion of one, of `k` or
of an instance for which the BUILD_TABLES of `k` waits. -/
theorem step_cases {s t : State} (hc : ∀ e ∈ s.others, e.1 ≠ s.cur) (h : step s = .next t) :
    (∃ rest, s.script = .reset :: rest ∧ t = ({ s with script := rest } : State).afterReset) ∨
    (s.sameUnit t) ∨
    ∃ k moves, let u := ({ s with script := moves } : State).focus k
      u.sameUnit t ∨
      (u.busy = false ∧ u.otherBusy = false ∧ t.inst = u.inst ∧ t.others = u.others ∧ t.cur = u.cur) ∨
      (∃ w, u.busy = false ∧ (w = 1 → u.otherBusy = false) ∧
        t.inst.running = some w ∧ t.others = u.others ∧ t.cur = u.cur ∧ u.sameConfig t ∧ u.sameTables t) ∨
      (u.runCommand = .next t ∧ (u.inst.running = some 1 → u.otherBusy = false)) ∨
      ∃ j again, j ≠ k ∧ u.inst.running = some 1 ∧ (({ u with script := again } : State).focus j).runCommand = .next t := by
  have hcomp : ∀ {k moves again}, (({ s with script := moves } : State).focus k).completion again = .next t →
      let u := ({ s with script := moves } : State).focus k
      (u.runCommand = .next t ∧ (u.inst.running = some 1 → u.otherBusy = false)) ∨
      ∃ j again, j ≠ k ∧ u.inst.running = some 1 ∧
        (({ u with script := again } : State).focus j).runCommand = .next t := by
    intro k moves again h
    obtain h | ⟨j, hj, hw, h⟩ := State.completion_cases (State.focus_others (s := { s with script := moves }) hc k) h
    · exact .inl h
    · exact .inr ⟨j, again, by rwa [State.cur_focus] at hj, hw, h⟩
  unfold step at h
  split at h
  · rename_i hs
    unfold State.settle at h
    split at h
    · rename_i k _
      exact .inr (.inr ⟨k, s.script, .inr (.inr (.inr (hcomp h)))⟩)
    · cases h; exact .inr (.inl (State.sameUnit_refl _))
  · rename_i m rest hs
    cases m with
    | read addr n =>
      simp only [State.move] at h
      obtain ⟨k, off, h⟩ := State.access_next h
      cases h
      exact .inr (.inr ⟨k, rest, .inl (State.busRead_same _ _ _)⟩)
    | write addr n v =>
      simp only [State.move] at h
      obtain ⟨k, off, h⟩ := State.access_next h
      refine .inr (.inr ⟨k, rest, ?_⟩)
      obtain h | h | h := State.busWrite_cases h
      · exact .inl h
      · exact .inr (.inl h)
      · exact .inr (.inr (.inl ⟨v, h⟩))
    | poll k n =>
      simp only [State.move] at h
      split at h
      · exact .inr (.inr ⟨k, rest, .inl (State.poll_same h)⟩)
      · cases h
    | complete k =>
      simp only [State.move] at h
      split at h
      · exact .inr (.inr ⟨k, rest, .inr (.inr (.inr (hcomp h)))⟩)
      · cases h
    | reset => cases h; exact .inl ⟨rest, hs, rfl⟩

/-- A step that is asked for a completion. -/
theorem step_asksFor {s u : State} {again : List Move} (h : s.AsksFor u again) : step s = u.completion again := by
  cases h with
  | scheduled hs hk => rw [step_cons hs, State.move_complete hk]
  | inHand hs hb => rw [step_nil hs, State.settle, State.busyInstance, if_pos hb]; simp
  | @firstBusy before after k r hs hb ho hf hr =>
    have h1 : before.find? (fun e => e.2.running.isSome) = none := by simpa using hf
    have h2 : r.running.isSome = true := by simpa [Option.isSome_iff_ne_none] using hr
    have hk : s.firstBusyOther = some k := by
      rw [State.firstBusyOther, ho]
      simp [List.find?_append, h1, h2]
    rw [step_nil hs, State.settle, State.busyInstance, hb]
    simp [hk]

/-- A step that completes the command of the instance that `u` has in hand. -/
theorem step_completesIn {s u : State} {w : Word} (h : s.CompletesIn u w) : step s = u.runCommand := by
  cases h with
  | itself ha hw hi => rw [step_asksFor ha, State.completion_itself hw hi]
  | before ha hb ho hf hr hw => rw [step_asksFor ha, State.completion_before hb ho hf hr]

theorem State.CompletesIn.running {s u : State} {w : Word} (h : s.CompletesIn u w) : u.inst.running = some w := by
  cases h with
  | itself ha hw hi => exact hw
  | before ha hb ho hf hr hw => rw [State.focus_inst]; exact hw

/-- With no other instance busy, every instance but the one in hand is idle. -/
theorem State.idle_of_otherBusy {u : State} (h : u.otherBusy = false) {j : Nat} (hj : j ≠ u.cur) :
    (u.instOf j).running = none := by
  rw [State.instOf, if_neg hj]
  have : ∀ l : List (Nat × Inst), l.any (fun e => e.2.running.isSome) = false → (lookupInst j l).running = none := by
    intro l
    induction l with
    | nil => intro; rfl
    | cons e l ih =>
      intro hl
      simp only [List.any_cons, Bool.or_eq_false_iff] at hl
      unfold lookupInst
      split
      · simpa using hl.1
      · exact ih hl.2
  exact this _ h

theorem State.instOf_of_others {u t : State} (h1 : t.others = u.others) (h2 : t.cur = u.cur) {j : Nat} (hj : j ≠ u.cur) :
    t.instOf j = u.instOf j := by
  simp [State.instOf, h1, h2, hj]

theorem State.instOf_same {u t : State} (h : u.sameUnit t) (j : Nat) : t.instOf j = u.instOf j := by
  obtain ⟨a, b, c, _⟩ := h
  simp [State.instOf, a, b, c]

/-- A command that ends leaves its instance idle, the others and the configuration as they were, and the tables too unless
it is BUILD_TABLES. -/
theorem State.runCommand_frame {u t : State} (h : u.runCommand = .next t) :
    t.inst.running = none ∧ t.cur = u.cur ∧ t.others = u.others ∧ u.sameConfig t ∧
    (u.inst.running = some 1 ∨ u.sameTables t) := by
  have hi := State.runCommand_idle h
  unfold State.runCommand at h
  split at h
  · cases h; simp [State.sameConfig, State.sameTables, hi]
  split at h
  · rename_i w hw _ i hd
    obtain ⟨_, h2, h3⟩ := exec_frame h
    refine ⟨hi, h3.1, h3.2.1, h2, ?_⟩
    by_cases hb : i = .buildTables
    · subst hb
      left
      rw [hw, ← (isBuildTables_iff w).1]
      rw [decode_bytesOfWord] at hd
      simp [isBuildTables, hd]
    · exact .inr (exec_tables h hb)
  · cases h; simp [State.sameConfig, State.sameTables, State.finish]

end Sys2Proof.Machine
end

