-- ==== Sys2Proof/Tests/Slice0.lean ====
section
/-! SUPPORT. The model's own tests: the well-formedness smoke test, words written out from the encoding tables, at most two
small steps an instruction with results from 95_test_vectors.md, and a witness for the hypotheses of every statement. -/

set_option maxRecDepth 20000
set_option Elab.async false

namespace Sys2Proof.Tests

open Sys2Proof.Machine

/-! ## Well-formedness -/

theorem test_wf_refuses_reserved_opcode_in_use : (Instr.reservedOp 0x0A 0).wf = false := by decide
theorem test_wf_refuses_void_mark_1p : (Instr.physNormal1p 0x5FC 0 0).wf = false := by decide
theorem test_wf_refuses_void_mark_mp : (Instr.physNormalMp 0x1FC 1 0 0 0).wf = false := by decide
theorem test_wf_refuses_mp_with_one_partition : (Instr.physNormalMp 0x042 0 0 0 0).wf = false := by decide
theorem test_wf_accepts_boundaries :
    (Instr.reservedOp 0x0B 0).wf = true ∧ (Instr.physNormalMp 0x042 3 1023 63 0).wf = true := by decide

/-! ## Words written out from 30_encoding.md, one for each constructor at least -/

theorem test_decode_nop : decode [0x00, 0, 0, 0] = .ok .nop := by decide
theorem test_decode_buildTables : decode [0x01, 0, 0, 0] = .ok .buildTables := by decide
theorem test_decode_encodeBlock : decode [0x02, 0x07, 0, 0] = .ok (.encodeBlock 1 3) := by decide
theorem test_decode_pack : decode [0x03, 0, 0, 0] = .ok .pack := by decide
theorem test_decode_unpack : decode [0x04, 0, 0, 0] = .ok .unpack := by decide
theorem test_decode_decodeTexels : decode [0x05, 0x06, 0, 0] = .ok (.decodeTexels 3) := by decide
/-- `ISE_BITCOUNT count=255, level=20` is 0x0014FF06 (95 section 2). -/
theorem test_decode_iseBitcount : decode [0x06, 0xFF, 0x14, 0x00] = .ok (.iseBitcount 255 20) := by decide
/-- R122: index 512 is `C[7:5] = 2`, `A = 0`, index 1024 is `C[7:5] = 4` (log entry 30: 95 section 4 has other words). -/
theorem test_decode_qlookup :
    decode [0x07, 0x00, 0x00, 0x43] = .ok (.qlookup 0 3 512) ∧
    decode [0x07, 0x00, 0x02, 0x83] = .ok (.qlookup 2 3 1024) := by decide
/-- `PLOOKUP count=3, index=100`, query 0xFE is 0xFE036408 (95 section 7); index 612 sets `B[7:6]`. -/
theorem test_decode_plookup :
    decode [0x08, 0x64, 0x03, 0xFE] = .ok (.plookup 3 100 0xFE) ∧
    decode [0x08, 0x64, 0x83, 0xFE] = .ok (.plookup 3 612 0xFE) := by decide
/-- `MODEINFO mode=0x441` is 0x00044109 (95 section 5). -/
theorem test_decode_modeinfo : decode [0x09, 0x41, 0x04, 0x00] = .ok (.modeinfo 0x441) := by decide
/-- `DLOOKUP decim=11, texel=7, entry=3` is 0x03070B0A; with `grid=1` bit 31 is set (95 section 6). -/
theorem test_decode_dlookup :
    decode [0x0A, 0x0B, 0x07, 0x03] = .ok (.dlookup 11 7 3 0) ∧
    decode [0x0A, 0x00, 0x00, 0x80] = .ok (.dlookup 0 0 0 1) := by decide
theorem test_decode_reservedOp : decode [0xFF, 0x01, 0x02, 0x80] = .ok (.reservedOp 0xFF 0x800201) := by decide

/-- V0 of 95 section 8.1, bit by bit as R136: 0x1FC, F = 0, 11, four extents of ones, R, G, B, A. -/
def v0 : List Byte := [0xFC, 0xFD, 0xFF, 0xFF, 0xFF, 0xFF, 0xFF, 0xFF, 0xFF, 0xFF, 0, 0, 0, 0, 0xFF, 0xFF]
/-- V1: one partition. -/
def v1 : List Byte := [0x42, 0, 0, 0xFE, 0x01, 0, 0, 0, 0, 0, 0, 0, 0x27, 0x27, 0x27, 0x27]
/-- V2: two partitions, shared CEM. -/
def v2 : List Byte := [0x42, 0x28, 0, 0x30, 0x08, 0, 0, 0, 0, 0, 0x08, 0x01, 0, 0, 0, 0]
/-- V3: two partitions, class form. -/
def v3 : List Byte := [0x42, 0xA8, 0, 0x05, 0x10, 0x04, 0x81, 0x20, 0, 0, 0, 0, 0x27, 0x27, 0x27, 0x27]
/-- V4: dual plane. -/
def v4 : List Byte := [0x41, 0x84, 0x01, 0xFE, 0x01, 0xFE, 0x01, 0xFE, 0x01, 0xFE, 0x01, 0xC0, 0x11, 0x11, 0xBB, 0xBB]
/-- E5 of 95 section 8.2: dual plane with four partitions. -/
def e5 : List Byte := [0x41, 0x1C, 0, 0, 0, 0, 0, 0, 0, 0, 0, 0, 0, 0, 0, 0]
/-- E8: a void extent with `blk[11:10] = 00`. -/
def e8 : List Byte := [0xFC, 0xF1, 0xFF, 0xFF, 0xFF, 0xFF, 0xFF, 0xFF, 0, 0, 0, 0, 0, 0, 0, 0]
/-- S8: random bytes (95 section 1.2). -/
def s8 : List Byte :=
  [0xBF, 0xC9, 0xD1, 0x97, 0x01, 0x4E, 0xD2, 0x10, 0xCF, 0x50, 0x1A, 0x3A, 0x2F, 0x4E, 0x3C, 0xAB]

theorem test_decode_physVoidExtent :
    decode v0 = .ok (.physVoidExtent 0 3 0x1FFF 0x1FFF 0x1FFF 0x1FFF 0xFFFF 0 0 0xFFFF) := by decide
/-- V1 by its fields: mode 0x042, CEM 0, and from bit 17 on color values 0 and 255 in 8 bits each, then the weights. -/
theorem test_decode_physNormal1p :
    decode v1 = .ok (.physNormal1p 0x042 0 ((0x27272727#32 ++ 0#63 ++ 255#8 ++ 0#8 : BitVec 111))) := by decide
/-- V3: mode 0x042, two partitions, index 5; `low` = 10 with base 1: `sel` 2, class bits 0 and 1, low CEM bits 0. -/
theorem test_decode_physNormalMp :
    (match decode v3 with
      | .ok (.physNormalMp 0x042 1 5 0x0A _) => true
      | _ => false) = true := by decide

/-- A set operand bit that the row does not name, for every opcode (R123). -/
theorem test_decode_rejects_unnamed_bits :
    decode [0x00, 1, 0, 0] = .error (.operandBits 0x00) ∧ decode [0x01, 0, 1, 0] = .error (.operandBits 0x01) ∧
    decode [0x02, 0x08, 0, 0] = .error (.operandBits 0x02) ∧ decode [0x03, 0, 0, 1] = .error (.operandBits 0x03) ∧
    decode [0x04, 0x80, 0, 0] = .error (.operandBits 0x04) ∧ decode [0x05, 0x01, 0, 0] = .error (.operandBits 0x05) ∧
    decode [0x06, 0x01, 0x20, 0] = .error (.operandBits 0x06) ∧ decode [0x07, 0, 0, 0x08] = .error (.operandBits 0x07) ∧
    decode [0x08, 0, 0x09, 0] = .error (.operandBits 0x08) ∧ decode [0x09, 0, 0, 0x01] = .error (.operandBits 0x09) ∧
    decode [0x0A, 0, 0, 0x04] = .error (.operandBits 0x0A) ∧ decode [0x00, 0] = .error (.length 2) := by decide

/-! ## States -/

/-- After reset with tables for 4x4. -/
def ready : State := { State.reset with tables := .valid ⟨4, 4⟩ }

/-- Bytes as memory cells from an address up. -/
def cells (off : Nat) (bs : List Byte) : Memory := bs.zipIdx.map fun e => (off + e.2, e.1)

/-- `ready` with a block in PHYS. -/
def withPhys (blk : List Byte) : State := { ready with mem := cells offPhys blk }

/-- `ready` with a symbolic block in SYM. -/
def withSymbol (sym : Sym) : State :=
  { ready with mem := ((symImage sym).map fun piece => cells piece.1 piece.2).flatten }

/-- The symbolic block of a block at 4x4. -/
def symOf (blk : List Byte) : Sym := readBlock ⟨4, 4⟩ (blockOfBytes blk)

/-- `ready` with sixteen texels of one color in TEXIN, and every weight the same. -/
def withBlock (texel weight : List Byte) : State :=
  { ready with
    mem := cells offTexin (List.replicate 16 texel).flatten ++ cells offEwb (List.replicate 64 weight).flatten }

/-- N1 of 95 section 10: red texels, weights 1.0. -/
def n1 : State := withBlock [255, 0, 0, 255] [0, 0, 0x80, 0x3F]

/-- The fields of V3 as 95 section 8.1 gives them: level 15, CEMs 4 and 8. -/
def v3Sym : NormalSym where
  mode := 0x042
  partIndex := 5
  matched := false
  ccs := 0
  cq := 15
  cems := [4, 8]
  colors := [0, 1, 1, 1, 1, 1, 0, 0, 0, 0]
  w0 := [0, 1, 2, 3, 0, 1, 2, 3, 0, 1, 2, 3, 0, 1, 2, 3]
  w1 := []

/-- A state whose instance runs a word and completes it next. -/
def runs (w : Word) (s : State) : State :=
  { s with script := [.complete 0], inst := { s.inst with running := some w } }

/-- The same state with host moves scheduled. -/
def scheduled (moves : List Move) (s : State) : State := { s with script := moves }

/-- Another instance is busy. -/
def otherRuns (s : State) : State := { s with others := [(1, { Inst.reset with running := some 0 })] }

/-- Another instance runs BUILD_TABLES. -/
def otherBuilds (s : State) : State := { s with others := [(1, { Inst.reset with running := some 1 })] }

/-- A check on the next state, false at a fault or a refusal. -/
def holds (r : Result) (p : State → Bool) : Bool :=
  match r with
  | .next t => p t
  | _ => false

/-- The answer of a lookup: OK and RESULT. -/
def gives (r : Result) (v : Word) : Bool := holds r fun t => t.inst.code == .ok && t.inst.result == v

def endsWith (r : Result) (c : Code) : Bool := holds r fun t => t.inst.code == c

/-- The fault of a byte with no value at this bus address. -/
def faultsAt (r : Result) (a : Nat) : Bool :=
  match r with
  | .fault (.readNoValue b) => b == a
  | _ => false

/-- A byte of the buffers afterwards. -/
def leaves (r : Result) (a : Nat) (b : Byte) : Bool := holds r fun t => t.mem.read a == some b

/-- A check on a normal block. -/
def normalAnd (sym : Sym) (p : NormalSym → Bool) : Bool :=
  match sym with
  | .normal n => p n
  | _ => false

/-! ## Instructions, values from 95_test_vectors.md -/

theorem test_nop_step : endsWith (step (runs 0x00000000 State.reset)) .ok = true := by decide
theorem test_illegal_word_step : endsWith (step (runs 0x00000100 State.reset)) .illegalCommand = true := by decide

/-- R45: a NOP starts beside a BUILD_TABLES of another instance. R520: a BUILD_TABLES does not. -/
theorem test_issue_while_other_builds :
    holds ((otherBuilds ready).issue 0) (fun t => t.inst.running == some 0) = true ∧
    (match (otherBuilds ready).issue 1 with
      | .refused (.buildWhileBusy 0) => true
      | _ => false) = true := by decide

/-- R486: a BUILD_TABLES beside a busy instance completes after that one, and then it builds. -/
theorem test_buildTables_waits :
    holds (step (runs 1 (otherRuns ready))) (fun t =>
      t.cur == 1 && !t.busy && (t.instOf 0).running == some 1 && t.script == [.complete 0] &&
        holds (step t) fun u => u.cur == 0 && !u.busy && !u.otherBusy && u.tables == .valid ⟨4, 4⟩) = true := by
  decide

theorem test_buildTables_10x5 :
    holds (exec .buildTables { State.reset with cfgBw := 10, cfgBh := 5 }) (fun t =>
      t.inst.code == .ok && t.tables == .valid ⟨10, 5⟩) = true := by decide
theorem test_buildTables_7x7 :
    holds (exec .buildTables { ready with cfgBw := 7, cfgBh := 7 }) (fun t =>
      t.inst.code == .configError && !t.tables.isValid) = true := by decide

theorem test_iseBitcount : gives (exec (.iseBitcount 7 3) State.reset) 17 = true := by decide
theorem test_iseBitcount_level_21 : endsWith (exec (.iseBitcount 1 21) State.reset) .badOperand = true := by decide

theorem test_qlookup_tie : gives (exec (.qlookup 0 3 512) ready) 0 = true := by decide
theorem test_qlookup_color : gives (exec (.qlookup 7 4 2) ready) 69 = true := by decide

theorem test_plookup_texel : gives (exec (.plookup 2 5 6) ready) 0 = true := by decide
theorem test_plookup_counts :
    gives (exec (.plookup 3 100 0xFE) { ready with tables := .valid ⟨6, 6⟩ }) 0x00100212 = true := by decide +kernel

/-- 0x08204403, and bit 2 depends on `block_mode_percentile`. -/
theorem test_modeinfo_dual (cut : BitVec 17) : modeinfoValue ⟨4, 4⟩ cut 0x441 ∈ [0x08204403, 0x08204407] := by
  have h : blockMode ⟨4, 4⟩ 0x441 = some ⟨⟨4, 4⟩, true, 0⟩ := by decide +kernel
  unfold modeinfoValue
  rw [if_neg (by decide), h]
  cases permitEncode ⟨4, 4⟩ cut 0x441 <;> decide +kernel
theorem test_modeinfo_reserved : gives (exec (.modeinfo 0x000) ready) 0 = true := by decide +kernel

theorem test_dlookup_entry :
    gives (exec (.dlookup 11 7 3 0) { ready with tables := .valid ⟨6, 6⟩ }) 0x0405 = true := by decide +kernel
theorem test_dlookup_grid : gives (exec (.dlookup 0 0 0 1) ready) 0x0202 = true := by decide +kernel

theorem test_reservedOp : endsWith (exec (.reservedOp 0xFF 0) ready) .illegalCommand = true := by decide

theorem test_pack_v3_block : packBlock ⟨4, 4⟩ (.normal v3Sym) = blockOfBytes v3 := by decide +kernel
theorem test_pack_v3 : leaves (exec .pack (withSymbol (.normal v3Sym))) 0x41 0xA8 = true := by decide +kernel

/-- V3 with `sel` 1, both class bits 1 and every low CEM bit 0: both CEMs are 4. -/
def v3OneClass : List Byte :=
  [0x42, 0xA8, 0x80, 0x06, 0x10, 0x04, 0x81, 0x20, 0, 0, 0, 0, 0x27, 0x27, 0x27, 0x27]
/-- R305, R322, D24: the class 1 of both partitions stored with base 0 is packed with base 1 and class bits 0, so the CEM
field 13 becomes 2. -/
theorem test_pack_one_class :
    normalAnd (symOf v3OneClass) (fun n => n.cems == [4, 4] && !n.matched) = true ∧
    (packBlock ⟨4, 4⟩ (symOf v3OneClass)).extractLsb' 23 6 = 2 := by decide +kernel

/-- R323: V1 with every bit set between its colors and its weights unpacks as V1 does. -/
theorem test_unpack_gap :
    symOf [0x42, 0x00, 0x00, 0xFE, 0xFF, 0xFF, 0xFF, 0xFF, 0xFF, 0xFF, 0xFF, 0xFF, 0x27, 0x27, 0x27, 0x27] = symOf v1 := by
  decide +kernel

/-- R385: a SYM with ERROR = 1 is an error block in profile HDR too, so DECODE_TEXELS sets ERRBLK. -/
theorem test_decodeTexels_error_hdr :
    (match exec (.decodeTexels 0) { withSymbol .error with cfgProfile := 2 } with
      | .next t => t.profile == .hdr && t.inst.errblk && t.inst.code == .ok
      | _ => false) = true := by decide +kernel

theorem test_unpack_s8_fields :
    normalAnd (symOf s8) (fun n => n.mode == 0x1BF && n.partIndex == 654 && n.cems == [14, 13] && n.cq == 9) = true := by
  decide +kernel
theorem test_unpack_s8 : leaves (exec .unpack (withPhys s8)) 0x10C 0xDE = true := by decide +kernel

theorem test_physVoidExtent :
    leaves (exec (.physVoidExtent 0 3 0x1FFF 0x1FFF 0x1FFF 0x1FFF 0xFFFF 0 0 0xFFFF) ready) 0x111 0xFF = true := by
  decide +kernel
/-- V1: colors 0 and 255 at level 20. -/
theorem test_physNormal1p :
    leaves (exec (.physNormal1p 0x042 0 (0x27272727#32 ++ 0#63 ++ 255#8 ++ 0#8 : BitVec 111)) ready) 0x121 0xFF =
      true := by
  decide +kernel
/-- V2 by its fields: index 1, shared CEM 8, level 12. -/
theorem test_v2_fields :
    normalAnd (symOf v2) (fun n => n.partIndex == 1 && n.matched && n.cems == [8, 8] && n.cq == 12 &&
      n.colors == [1, 1, 0, 0, 0, 0, 0, 0, 0, 0, 1, 1]) = true := by decide +kernel
theorem test_physNormalMp :
    (match decode v2 with
      | .ok i => leaves (exec i ready) 0x10C 0x88
      | _ => false) = true := by decide +kernel

/-- V4 in profile LDR: texel 9 is (0, 0, 0, 255) (95 section 9.2). -/
theorem test_decodeTexels_v4 : leaves (exec (.decodeTexels 0) (withSymbol (symOf v4))) 0x827 255 = true := by
  decide +kernel
theorem test_decodeTexels_error_color :
    leaves (exec (.decodeTexels 0) (withSymbol .error)) 0x83F 0xFF = true := by decide +kernel

theorem n1_encodes : endsWith (exec (.encodeBlock 1 0) n1) .ok = true := by decide +kernel
/-- N1: the block is V0's, a constant block with `PHYS[1] = 0xFD`. -/
theorem test_encodeBlock_n1 :
    bytesOfBlock (packBlock ⟨4, 4⟩ (encodedSym (n1.searchInput ⟨4, 4⟩ (List.replicate 16 ⟨255, 0, 0, 255⟩) []) 0)) = v0 := by
  decide +kernel
/-- N7: a NaN weight. -/
theorem test_encodeBlock_nan :
    endsWith (exec (.encodeBlock 1 0) (withBlock [1, 2, 3, 4] [0, 0, 0xC0, 0x7F])) .badOperand = true := by
  decide +kernel

/-! ## Witnesses: for every statement with hypotheses, inputs that meet them, each clause at the ends of its range -/

/-- Instance 0 exists whatever `N_INSTANCES` is. -/
theorem witness_instance : instanceExists State.reset.cur = true := by decide

theorem witness_ResetAbandonsAll :
    (scheduled [.reset] (runs 2 ready)).script = .reset :: [] ∧ ∃ t, exec .nop ready = .next t := ⟨rfl, _, rfl⟩

/-- A MODEINFO as the script says and with nothing scheduled, a NOP of another instance, and one before a BUILD_TABLES of
the instance in hand. -/
theorem witness_StepRunsDecoded :
    (runs 9 ready).CompletesIn (({ runs 9 ready with script := [] } : State).focus 0) 9 ∧
    (scheduled [] (runs 9 ready)).CompletesIn (scheduled [] (runs 9 ready)) 9 ∧
    (otherRuns ready).CompletesIn ((otherRuns ready).focus 1) 0 ∧
    (scheduled [] (runs 1 (otherRuns ready))).CompletesIn
      (({ scheduled [] (runs 1 (otherRuns ready)) with script := [] } : State).focus 1) 0 ∧
    decode (bytesOfWord 9) = .ok (.modeinfo 0) ∧ decode (bytesOfWord 0) = .ok .nop :=
  ⟨.itself (.scheduled rfl (by decide)) rfl (.inl (by decide)), .itself (.inHand rfl rfl) rfl (.inl (by decide)),
    .itself (.firstBusy (before := []) rfl rfl rfl (by simp) (by simp)) rfl (.inl (by decide)),
    .before (before := []) (.inHand rfl rfl) rfl rfl (by simp) (by simp) rfl, by decide, by decide⟩

/-- A BUILD_TABLES as the script says, beside a busy instance and beside idle ones; a reserved opcode on another instance. -/
theorem witness_CompletesIn :
    (runs 1 (otherRuns ready)).CompletesIn
      (({ ({ runs 1 (otherRuns ready) with script := [] } : State).focus 0 with script := [.complete 0] } : State).focus 1)
      0 ∧
    (runs 1 ready).CompletesIn (({ runs 1 ready with script := [] } : State).focus 0) 1 ∧
    (let s : State := { ready with others := [(1, { Inst.reset with running := some 0x0B })] }
    s.CompletesIn (s.focus 1) 0x0B) :=
  ⟨.before (before := []) (.scheduled rfl (by decide)) rfl rfl (by simp) (by simp) rfl,
    .itself (.scheduled rfl (by decide)) rfl (.inr (by decide)),
    .itself (.firstBusy (before := []) rfl rfl rfl (by simp) (by simp)) rfl (.inl (by decide))⟩

theorem witness_IdleKeepsBusyEnds :
    State.reset.script = [] ∧ State.reset.busy = false ∧ State.reset.otherBusy = false ∧
    (scheduled [] (runs 0 ready)).script = [] ∧ (scheduled [] (runs 0 ready)).busy = true ∧
    (∃ t, step (scheduled [] (runs 0 ready)) = .next t) ∧ (∃ t, exec .nop ready = .next t) ∧
    (otherRuns ready).script = [] ∧ (otherRuns ready).busy = false ∧
    (otherRuns ready).others = [] ++ (1, { Inst.reset with running := some 0 }) :: [] ∧ 1 ≠ (otherRuns ready).cur ∧
    (0#32) ≠ 1 ∧ decode (bytesOfWord 0) = .ok .nop :=
  ⟨rfl, rfl, rfl, rfl, rfl, ⟨_, rfl⟩, ⟨_, rfl⟩, rfl, rfl, rfl, by decide, by decide, by decide⟩

theorem witness_DecodeEncode :
    (Instr.physNormalMp 0x042 3 1023 63 0).wf = true ∧ (Instr.reservedOp 0x0B 0).wf = true ∧
    decode [0x00, 0, 0, 0] = .ok .nop := by decide

/-- A reserved opcode, or an unnamed operand bit set. -/
def illegalWord (w : Word) : Bool :=
  decide ((w.extractLsb' 0 8).toNat ≥ 0x0B ∨ w &&& unnamedBits (w.extractLsb' 0 8).toNat ≠ 0)

theorem witness_IllegalCommands :
    ([0x0000000B, 0x000000FF, 0x00000100, 0x00000802, 0x00000105, 0x00200006, 0x08000007, 0x00080008, 0x00080009,
      0x0400000A].all illegalWord) = true ∧
    ([0x00000000, 0x00000702, 0x00000605, 0x001FFF06, 0xE71FFF07, 0xFFC7FF08, 0x0007FF09, 0x83FFFF0A].all fun w =>
      !illegalWord w) = true := by decide

theorem witness_IssueCommand :
    (scheduled [.write 0 4 1] ready).script = .write (scheduled [.write 0 4 1] ready).base 4 1 :: [] ∧
    (runs 0 ready).busy = true ∧ ready.busy = false ∧ (∀ e ∈ ready.others, e.2.running = none) ∧
    (otherRuns ready).busy = false ∧ (∃ e ∈ (otherRuns ready).others, e.2.running ≠ none) ∧ (0#32) ≠ 1 := by decide

theorem witness_RegistersRead :
    ∀ off ∈ [0x000, 0x004, 0x008, 0x00C, 0x010, 0x014, 0x018, 0x01C, 0x020, 0x024, 0x028, 0x02C, 0x030, 0x034, 0x03C],
      (scheduled [.read off 4] ready).script = .read ((scheduled [.read off 4] ready).base + off) 4 :: [] ∧
      ready.busy = false ∧ off < 0x040 ∧ off % 4 = 0 := by decide

theorem witness_ConfigWrite :
    ∀ off ∈ [0x008, 0x00C, 0x010, 0x014, 0x018],
      (scheduled [.write off 4 0xFFFFFFFF] ready).script =
        .write ((scheduled [.write off 4 0xFFFFFFFF] ready).base + off) 4 0xFFFFFFFF :: [] ∧
      ready.busy = false ∧ ready.otherBusy = false ∧ (otherRuns ready).busy = false ∧
      (otherRuns ready).otherBusy = true := by decide

/-- Each range at its ends, in each width. -/
theorem witness_NothingHeld :
    (∀ e ∈ [(0x004, 4), (0x01C, 4), (0x03C, 4), (0x050, 4), (0x0FF, 1), (0x1C0, 1), (0x3FE, 2), (0x640, 2), (0x7FC, 4),
        (0x801, 1), (0xA3E, 2), (0xFFC, 4), (0x1900, 4), (0x1FFF, 1)],
      (scheduled [.write e.1 e.2 7] ready).script =
        .write ((scheduled [.write e.1 e.2 7] ready).base + e.1) e.2 7 :: [] ∧
      accessLegal e.1 e.2 = true ∧ e.1 < instanceStride ∧
      (e.1 = 0x004 ∨ (0x01C ≤ e.1 ∧ e.1 < 0x040) ∨ (0x050 ≤ e.1 ∧ e.1 < 0x100) ∨ (0x1C0 ≤ e.1 ∧ e.1 < 0x400) ∨
        (0x640 ≤ e.1 ∧ e.1 < 0x1000) ∨ 0x1900 ≤ e.1)) ∧
    (∀ e ∈ [(0x034, 4), (0x03C, 4), (0x050, 4), (0x0FF, 1), (0x1C0, 1), (0x3FE, 2), (0x640, 2), (0x7FC, 4), (0xA40, 1),
        (0xFFE, 2), (0x1900, 4), (0x1FFF, 1)],
      (scheduled [.read e.1 e.2] ready).script = .read ((scheduled [.read e.1 e.2] ready).base + e.1) e.2 :: [] ∧
      accessLegal e.1 e.2 = true ∧ e.1 < instanceStride ∧
      ((0x034 ≤ e.1 ∧ e.1 < 0x040) ∨ (0x050 ≤ e.1 ∧ e.1 < 0x100) ∨ (0x1C0 ≤ e.1 ∧ e.1 < 0x400) ∨
        (0x640 ≤ e.1 ∧ e.1 < 0x800) ∨ (0xA40 ≤ e.1 ∧ e.1 < 0x1000) ∨ 0x1900 ≤ e.1)) ∧
    ready.busy = false := by decide

theorem witness_AccessRules :
    (scheduled [.read 0x03C 4] ready).script = .read (instanceStride * 0 + 0x03C) 4 :: [] ∧
    (scheduled [.read 0x03C 2] ready).script = .read (instanceStride * 0 + 0x03C) 2 :: [] ∧
    (scheduled [.write 0x041 2 0] ready).script = .write (instanceStride * 0 + 0x041) 2 0 :: [] ∧
    (∀ off ∈ [0x000, 0x03C, 0x040, 0x1FFC], off < instanceStride ∧ accessLegal off 4 = true) ∧
    (scheduled [.read 0x01C 4] (runs 0 ready)).script =
      .read ((scheduled [.read 0x01C 4] (runs 0 ready)).base + 0x01C) 4 :: [] ∧
    (scheduled [.write 0x008 4 0] (runs 0 ready)).script =
      .write ((scheduled [.write 0x008 4 0] (runs 0 ready)).base + 0x008) 4 0 :: [] ∧
    (runs 0 ready).busy = true := by decide

/-- An access to an instance that is not the one in hand, and one to the one that is; no other instance is listed under
the number of the one in hand. -/
theorem witness_AccessRules_instance :
    let s := { scheduled [.read 0x004 4] (otherRuns ready) with cur := 2 }
    s.script = .read (instanceStride * 0 + 0x004) 4 :: [] ∧ 0 ≠ s.cur ∧ instanceExists 0 = true ∧ 0x004 < instanceStride ∧
    (∀ e ∈ s.others, e.1 ≠ s.cur) ∧
    (scheduled [.write 0x1FFC 4 7] ready).script = .write (instanceStride * 0 + 0x1FFC) 4 7 :: [] ∧
    0 = ready.cur := by decide

theorem witness_BufferReadBack :
    ∀ e ∈ [(0x040, 4), (0x04F, 1), (0x100, 4), (0x101, 1), (0x104, 4), (0x108, 2), (0x10C, 4), (0x114, 4), (0x118, 1),
        (0x1BE, 2), (0x400, 4), (0x63F, 1), (0x1000, 4), (0x18FC, 4)],
      let s := scheduled [.write e.1 e.2 0x80FF7F01, .read e.1 e.2] ready
      s.script = .write (s.base + e.1) e.2 0x80FF7F01 :: .read (s.base + e.1) e.2 :: [] ∧ s.busy = false ∧
      accessLegal e.1 e.2 = true ∧ ((0x040 ≤ e.1 ∧ e.1 < 0x050) ∨ (0x100 ≤ e.1 ∧ e.1 < 0x1C0) ∨
        (0x400 ≤ e.1 ∧ e.1 < 0x640) ∨ (0x1000 ≤ e.1 ∧ e.1 < 0x1900)) := by decide

/-- A read of bytes that hold values: the ends of each buffer, a byte of SYM that holds nothing among them. -/
theorem witness_BufferReadBack_held :
    ∀ e ∈ [(0x040, 4), (0x04F, 1), (0x100, 4), (0x118, 4), (0x1BE, 2), (0x400, 4), (0x63F, 1), (0x800, 4), (0x801, 1),
        (0xA3C, 4), (0xA3E, 2), (0x1000, 4), (0x18FC, 4)],
      let s := { scheduled [.read e.1 e.2] ready with mem := cells e.1 [1, 2, 3, 4] }
      s.script = .read (s.base + e.1) e.2 :: [] ∧ s.busy = false ∧ accessLegal e.1 e.2 = true ∧
      ((0x040 ≤ e.1 ∧ e.1 < 0x050) ∨ (0x100 ≤ e.1 ∧ e.1 < 0x1C0) ∨ (0x400 ≤ e.1 ∧ e.1 < 0x640) ∨
        (0x800 ≤ e.1 ∧ e.1 < 0xA40) ∨ (0x1000 ≤ e.1 ∧ e.1 < 0x1900)) ∧
      ∀ k < e.2, s.mem.read (s.base + e.1 + k) = some (BitVec.ofNat 8 (k + 1)) := by decide

theorem witness_NopWritesStatus :
    (0xFFFFFF00#32).extractLsb' 0 8 = 0 ∧ (0xFFFFFF00#32).extractLsb' 8 24 ≠ 0 ∧ (0x00000100#32).extractLsb' 0 8 = 0 ∧
    (0x00000100#32).extractLsb' 8 24 ≠ 0 := by decide

theorem witness_BuildTables :
    let listed : List (Nat × Nat) := [(4, 4), (5, 4), (5, 5), (6, 5), (6, 6), (8, 5), (8, 6), (8, 8), (10, 5), (10, 6),
      (10, 8), (10, 10), (12, 10), (12, 12)]
    ((4#4).toNat, (4#4).toNat) ∈ listed ∧ ((12#4).toNat, (12#4).toNat) ∈ listed ∧ (2#2) ≠ 3 ∧
    ((4#4).toNat, (5#4).toNat) ∉ listed ∧ ((0#4).toNat, (0#4).toNat) ∉ listed ∧
    ((15#4).toNat, (15#4).toNat) ∉ listed := by decide

theorem witness_NotConfigured :
    (∀ i ∈ [Instr.encodeBlock 0 3, .pack, .unpack, .decodeTexels 3, .qlookup 31 7 2047, .plookup 7 0 0, .modeinfo 0,
      .dlookup 255 0 0 0, .physVoidExtent 0 0 0 0 0 0 0 0 0 0, .physNormal1p 0 0 0, .physNormalMp 0 1 0 0 0],
      usesTables i = true) ∧
    State.reset.tables.isValid = false ∧ (TableMem.stale ⟨4, 4⟩).isValid = false := by decide

theorem witness_IseBitcount :
    (21#5).toNat > 20 ∧ (31#5).toNat > 20 ∧ (20#5).toNat ≤ 20 ∧ (level 0).trits = 0 ∧ (level 0).quints = 0 ∧
    (level 1).trits = 1 ∧ (level 3).quints = 1 ∧ (level 20).trits = 0 ∧ (level 19).trits = 1 := by decide

/-- Valid tables: the hypothesis of the statements of QLOOKUP, PLOOKUP, DLOOKUP, MODEINFO, the frames and the block
commands. -/
theorem witness_tables_valid :
    ready.tables = .valid ⟨4, 4⟩ ∧ (⟨4, 4⟩ : Footprint).valid = true ∧ (⟨12, 12⟩ : Footprint).valid = true := by decide

/-- Each branch of QLOOKUP at its last good and first bad index. -/
theorem witness_Qlookup :
    levelValues 11 = 32 ∧ levelValues 20 = 256 ∧ (31 < levelValues 11 ∧ ¬32 < levelValues 11) ∧
    endsWith (exec (.qlookup 11 0 31) ready) .ok = true ∧ endsWith (exec (.qlookup 11 1 32) ready) .badOperand = true ∧
    endsWith (exec (.qlookup 12 2 0) ready) .badOperand = true ∧ endsWith (exec (.qlookup 11 3 1024) ready) .ok = true ∧
    endsWith (exec (.qlookup 11 3 1025) ready) .badOperand = true ∧ endsWith (exec (.qlookup 20 4 255) ready) .ok = true ∧
    endsWith (exec (.qlookup 3 4 0) ready) .badOperand = true ∧ endsWith (exec (.qlookup 20 5 255) ready) .ok = true ∧
    endsWith (exec (.qlookup 20 5 256) ready) .badOperand = true ∧ endsWith (exec (.qlookup 20 6 1) ready) .badOperand = true ∧
    endsWith (exec (.qlookup 0 7 0) ready) .badOperand = true ∧ endsWith (exec (.qlookup 21 6 0) ready) .badOperand = true := by
  decide +kernel

/-- Indices without and with a lower and a higher neighbour, at both ends of the levels. -/
theorem witness_WeightLinks :
    (∀ e ∈ [(0, 0), (11, 0)], e.2 < levelValues e.1 ∧ (∀ j < levelValues e.1, unqWeight e.1 e.2 ≤ unqWeight e.1 j) ∧
      ∃ j < levelValues e.1, unqWeight e.1 e.2 < unqWeight e.1 j) ∧
    (∀ e ∈ [(0, 1), (11, 31)], e.2 < levelValues e.1 ∧ (∀ j < levelValues e.1, unqWeight e.1 j ≤ unqWeight e.1 e.2) ∧
      ∃ j < levelValues e.1, unqWeight e.1 j < unqWeight e.1 e.2) := by decide +kernel

theorem witness_WeightClosest :
    ((11 ≤ 11 ∧ 1024 ≤ 1024) ∧ 31 < levelValues 11 ∧ 0 < levelValues 0) ∧
    (weightBucket 0 = 0 ∧ weightBucket 1 = 1024 ∧ weightBucket (1 / 2048) = 1 ∧ weightBucket (-1) = 0 ∧
      weightBucket 2 = 1024) := by decide +kernel

theorem witness_ColorQuant : 20 ≤ 20 ∧ 255 ≤ 255 ∧ 255 < levelValues 20 ∧ (0 : Nat) ≠ 1 ∧ (2 : Nat) ≠ 3 := by decide

/-- Every query of PLOOKUP at the ends of its range. -/
theorem witness_Plookup :
    endsWith (exec (.plookup 0 0 0) ready) .badOperand = true ∧ endsWith (exec (.plookup 5 0 0) ready) .badOperand = true ∧
    endsWith (exec (.plookup 4 1023 15) ready) .ok = true ∧ endsWith (exec (.plookup 1 0 16) ready) .badOperand = true ∧
    endsWith (exec (.plookup 1 0 0xFD) ready) .badOperand = true ∧ gives (exec (.plookup 1 0 0xFE) ready) 16 = true ∧
    gives (exec (.plookup 1 0 0xFF) ready) 1 = true := by decide +kernel

theorem witness_Partitions :
    (⟨12, 12⟩ : Footprint).valid = true ∧ (1 ≤ 4 ∧ 4 ≤ 4) ∧ 1023 < 1024 ∧ 143 < (⟨12, 12⟩ : Footprint).texels := by
  decide

theorem witness_Modeinfo :
    (0x7FC#11).extractLsb' 0 9 = 0x1FC ∧ (0x000#11).extractLsb' 0 9 ≠ 0x1FC ∧ blockMode ⟨4, 4⟩ 0x000 = none ∧
    (blockMode ⟨4, 4⟩ 0x441).isSome = true := by decide +kernel

/-- The largest value of every field, and a valid mode. -/
theorem witness_BlockModeTable :
    (1 < 2 ∧ 2 ≤ 7 ∧ 7 < 8 ∧ 3 < 4) ∧ (blockMode ⟨4, 4⟩ 0x042).isSome = true ∧ (blockMode ⟨12, 12⟩ 0x042).isSome = true ∧ 0x042 < 2048 := by
  decide +kernel

/-- The last grid of 4x4 and the number after it, the last texel and the one after it. -/
theorem witness_Dlookup :
    (decimationModes ⟨4, 4⟩).length ≤ (9#8).toNat ∧ (decimationModes ⟨4, 4⟩)[(8#8).toNat]?.isSome = true ∧
    4 * 4 ≤ (16#8).toNat ∧ (15#8).toNat < 4 * 4 ∧
    ((infillEntries ⟨4, 4⟩ ⟨4, 4⟩ (15 % 4) (15 / 4))[(3#2).toNat]?).isSome = true := by decide +kernel

theorem witness_Infill :
    (⟨4, 4⟩ : Footprint).valid = true ∧ (⟨4, 4⟩ : Grid) ∈ decimationModes ⟨4, 4⟩ ∧ 15 < (⟨4, 4⟩ : Footprint).texels ∧
    (∀ x ∈ List.replicate 16 64, x ≤ 64) ∧ ∃ e ∈ texelEntries ⟨4, 4⟩ ⟨4, 4⟩ 15, e.2 ≠ 0 := by decide +kernel

theorem witness_UnpackWritesSym :
    (withPhys s8).readPhys = .ok (blockOfBytes s8) ∧ ready.readPhys = .error 0x040 ∧
    (withPhys (s8.take 15)).readPhys = .error 0x04F := by decide +kernel

theorem witness_PhysBlocks :
    (withPhys v0).load offPhys 16 = .ok v0 ∧
    decode v0 = .ok (.physVoidExtent 0 3 0x1FFF 0x1FFF 0x1FFF 0x1FFF 0xFFFF 0 0 0xFFFF) := by decide +kernel

/-- A normal block that is no error, one that is (E5), a void extent that is none (V0), one that is (E8), a constant
block of each form, an LDR and an HDR block. -/
theorem witness_ErrorBlocks :
    (blockOfBytes v1).extractLsb' 0 9 ≠ 0x1FC ∧ symOf v1 ≠ .error ∧ (blockOfBytes e5).extractLsb' 0 9 ≠ 0x1FC ∧
    symOf e5 = .error ∧ (blockOfBytes v0).extractLsb' 0 9 = 0x1FC ∧ symOf v0 ≠ .error ∧
    (blockOfBytes e8).extractLsb' 0 9 = 0x1FC ∧ symOf e8 = .error ∧
    blockIsError .hdr .error = true ∧ blockIsError .hdr (.const true ⟨0, 0, 0, 0⟩) = false ∧
    blockIsError .ldr (.const true ⟨0, 0, 0, 0⟩) = true ∧ blockIsError .ldr (.const false ⟨0, 0, 0, 0⟩) = false ∧
    blockIsError .ldr (symOf s8) = true ∧ blockIsError .hdr (symOf s8) = false ∧ blockIsError .ldr (symOf v1) = false := by
  decide +kernel

theorem witness_SymLayout : normalWf ⟨4, 4⟩ v3Sym = true ∧ (0x100 ≤ 0x1BF ∧ 0x1BF < 0x1C0) := by decide +kernel

theorem witness_SymReadBack :
    symWf ⟨4, 4⟩ (.normal v3Sym) = true ∧ symWf ⟨4, 4⟩ (.const true ⟨0, 0, 0, 0⟩) = true ∧
    symWf ⟨4, 4⟩ (symOf v4) = true := by decide +kernel

/-- Whether every byte of SYM that holds something has a value. -/
def symHeld (s : State) : Bool :=
  [(0x100, 3), (0x104, 6), (0x10C, 2), (0x110, 8), (0x120, 160)].all fun piece =>
    (List.range piece.2).all fun k => (s.mem.read (s.base + (piece.1 + k))).isSome

/-- SYM with every byte held: an error block, a constant block of each form, a normal block, V3 with a level that is not the
implied one; and one with nothing written. -/
theorem witness_SymReadBack_bytes :
    (∀ sym ∈ [Sym.error, .const true ⟨1, 2, 3, 4⟩, .const false ⟨1, 2, 3, 4⟩, .normal v3Sym],
      symHeld (withSymbol sym) = true ∧ (withSymbol sym).readSym ⟨4, 4⟩ = .found sym) ∧
    symHeld (withSymbol (.normal { v3Sym with cq := 14 })) = true ∧
    (withSymbol (.normal { v3Sym with cq := 14 })).readSym ⟨4, 4⟩ = .illFormed ∧
    ready.readSym ⟨4, 4⟩ = .noValue 0x100 := by decide +kernel

/-- Normal blocks of one partition, of the shared form, of the class form, and with two planes. -/
theorem witness_UnpackTotal :
    normalAnd (symOf v1) (fun n => n.pc == 1 && n.ccs == 0) = true ∧
    normalAnd (symOf v2) (fun n => n.pc == 2 && n.matched) = true ∧
    normalAnd (symOf v3) (fun n => n.pc == 2 && !n.matched && n.cems == [4, 8]) = true ∧
    normalAnd (symOf v4) (fun n => n.pc == 1 && n.ccs == 3) = true := by decide +kernel

/-- PACK's four cases: a block, the error block, a PC beside a constant mode, nothing written. -/
theorem witness_PackWritesPhys :
    (withSymbol (.normal v3Sym)).readSym ⟨4, 4⟩ = .found (.normal v3Sym) ∧
    (withSymbol .error).readSym ⟨4, 4⟩ = .found .error ∧ symWf ⟨4, 4⟩ .error = false ∧
    ({ ready with mem := cells offSymCtrl [0, 1, 0] ++ cells offSymMode [0xFF, 0xFF, 0xFF, 0xFF] } : State).readSym ⟨4, 4⟩ =
      .illFormed ∧
    ready.readSym ⟨4, 4⟩ = .noValue 0x100 := by decide +kernel

/-- One partition (V1, with a gap above its colors), the shared form (V2), the class form (V3), two planes (V4). -/
theorem witness_PackLayout :
    normalAnd (symOf v1) (fun n => normalWf ⟨4, 4⟩ n && n.pc == 1 &&
      17 + iseBits n.colors.length n.cq.toNat == 33 && n.mode == 0x042) = true ∧ 33 < 128 - 32 ∧
    normalAnd (symOf v2) (fun n => normalWf ⟨4, 4⟩ n && n.pc == 2 && n.matched) = true ∧
    (normalWf ⟨4, 4⟩ v3Sym = true ∧ v3Sym.pc = 2 ∧ v3Sym.matched = false) ∧
    normalAnd (symOf v4) (fun n => normalWf ⟨4, 4⟩ n && ((blockMode ⟨4, 4⟩ n.mode.toNat).map BlockMode.dual == some true)) =
      true ∧
    (blockMode ⟨4, 4⟩ 0x042).isSome = true := by decide +kernel

/-- Besides a well-formed block: a constant block read, class forms with and without one class, a gap above the colors of V1,
and the color and weight sequences of V1 as R251 makes them. -/
theorem witness_PackUnpack :
    (⟨4, 4⟩ : Footprint).valid = true ∧ symWf ⟨4, 4⟩ (.normal v3Sym) = true ∧ symOf v0 = .const false ⟨0xFFFF, 0, 0, 0xFFFF⟩ ∧
    normalAnd (symOf v3) (fun n => !n.matched && n.pc == 2 && cemNats n != [4, 4]) = true ∧
    normalAnd (symOf v3OneClass) (fun n => !n.matched && cemNats n == [4, 4] && (blockMode ⟨4, 4⟩ n.mode.toNat).isSome) =
      true ∧ readBits (blockOfBytes v3OneClass) 23 6 % 4 = 1 ∧
    readBits (blockOfBytes v1) 17 (iseBits 2 20) = iseEncode [0, 255] 20 ∧
    (blockOfBytes v1).reverse.toNat % 2 ^ 32 = iseEncode [0, 1, 2, 3, 0, 1, 2, 3, 0, 1, 2, 3, 0, 1, 2, 3] 2 ∧
    (17 + iseBits 2 20 ≤ 40 ∧ 40 < 96) := by decide +kernel

theorem witness_TritsAndQuints : 2 < 3 ∧ 4 < 5 ∧ 255 < 256 ∧ 127 < 128 ∧ 2 ∈ unpackTrits 255 ∧ 4 ∈ unpackQuints 127 := by
  decide

theorem witness_IseRoundTrip :
    ((∀ k, (fun k => k % 3) k < levelValues 1) ∧ (∀ k, (fun k => k % 5) k < levelValues 3) ∧
      (∀ k, (fun k => k % 2) k < levelValues 0) ∧ (∀ q k : Nat, (fun _ : Nat => 0) k < 2 ^ (level q).bits) ∧ (level 0).trits = 0 ∧ (level 0).quints = 0 ∧ (level 1).trits = 1 ∧
      (level 3).quints = 1) ∧
    0 ≤ 20 ∧ 20 ≤ 20 ∧ (∀ x ∈ [0, 1, 1], x < levelValues 0) ∧ (∀ x ∈ [0, 2], x < levelValues 1) ∧
    ∀ x ∈ [0, 255], x < levelValues 20 :=
  ⟨⟨fun k => Nat.mod_lt k (by decide), fun k => Nat.mod_lt k (by decide), fun k => Nat.mod_lt k (by decide),
    fun _ _ => Nat.two_pow_pos _, by decide, by decide, by decide, by decide⟩, by decide⟩

theorem witness_DecodeTexels :
    ((3#2) ≠ 0) ∧ ready.readSym ⟨4, 4⟩ = .noValue 0x100 ∧
    ({ ready with mem := cells offSymCtrl [0, 1, 0] ++ cells offSymMode [0xFF, 0xFF, 0xFF, 0xFF] } : State).readSym ⟨4, 4⟩ =
      .illFormed ∧
    (withSymbol .error).readSym ⟨4, 4⟩ = .found .error := by decide +kernel

theorem witness_ErrorColor :
    blockIsError .hdr .error = true ∧ symWf ⟨4, 4⟩ (.const false ⟨0, 0, 0, 0⟩) = true ∧
    blockIsError .ldr (.const false ⟨0, 0, 0, 0⟩) = false ∧ symWf ⟨4, 4⟩ (.normal v3Sym) = true ∧
    blockIsError .ldr (.normal v3Sym) = false := by decide +kernel

theorem witness_TexelOutput :
    (⟨4, 4⟩ : Footprint).valid = true ∧ normalWf ⟨4, 4⟩ v3Sym = true ∧
    (blockMode ⟨4, 4⟩ v3Sym.mode.toNat).isSome = true ∧ blockIsError .ldrSrgb (.normal v3Sym) = false ∧ 15 < 4 * 4 ∧
    normalAnd (symOf v4) (fun n => normalWf ⟨4, 4⟩ n && !blockIsError .ldr (.normal n)) = true := by decide +kernel

/-- A block with the HDR CEM 14 and the LDR CEM 13 in profile HDR, with texels of both partitions. -/
theorem witness_TexelOutput_hdr :
    normalAnd (symOf s8) (fun n => normalWf ⟨4, 4⟩ n && (blockMode ⟨4, 4⟩ n.mode.toNat).isSome && n.cems == [14, 13] &&
      !blockIsError .hdr (.normal n) && (List.range 16).any (fun t => partitionOf ⟨4, 4⟩ n.pc n.partIndex.toNat t == 0) &&
      (List.range 16).any (fun t => partitionOf ⟨4, 4⟩ n.pc n.partIndex.toNat t == 1)) = true := by decide +kernel

theorem witness_ConstantBlocks : 0 < 4 * 4 ∧ 15 < 4 * 4 ∧ 143 < 12 * 12 := by decide

/-- The reads of 16 texels' weights: none written, illegal ones, good ones with and without texels. -/
theorem witness_EncodeBlock :
    ((1#2) ≠ 0) ∧ ready.readEwb 16 = .error 0x1000 ∧
    (withBlock [1, 2, 3, 4] [0, 0, 0xC0, 0x7F]).readEwb 16 = .ok (List.replicate 64 0x7FC00000) ∧
    weightLegal 0x7FC00000 = false ∧ n1.readEwb 16 = .ok (List.replicate 64 0x3F800000) ∧
    weightLegal 0x3F800000 = true ∧ ready.readTexin 16 = .error 0x400 ∧
    n1.readTexin 16 = .ok (List.replicate 16 ⟨255, 0, 0, 255⟩) := by decide +kernel

/-- Good weights and no texel. -/
theorem witness_EncodeBlock_no_texel :
    let s := { ready with mem := cells offEwb (List.replicate 64 [0, 0, 0x80, 0x3F]).flatten }
    s.readEwb 16 = .ok (List.replicate 64 0x3F800000) ∧ s.readTexin 16 = .error 0x400 := by decide +kernel

/-- Errors that are no binary64 value, the first just above one that is, and the largest of the range. -/
theorem witness_EncodeBlock_error :
    (1 ≠ 0 ∧ 1 < 2 ^ 1172) ∧ 2 ^ 53 + 1 < 2 ^ 1172 ∧ 2 ^ 1172 - 1 < 2 ^ 1172 ∧
    toBinary64 (264200 * 2 ^ 149) = 0x4110202000000000 := by decide +kernel

/-- The input of the encoder for a block of one texel color. -/
def flat (v : Rgba Byte) : SearchInput where
  bw := 4
  bh := 4
  profile := .ldr
  plimit := 0
  cut := 0
  iters := 0
  texels := List.replicate 16 v
  weights := List.replicate 16 ⟨1, 1, 1, 1⟩

/-- R443's block of two colors is a normal block of a valid mode, and N4's texels are coded as a constant block; both have
16 texels. -/
theorem witness_EncodeBlock_sum :
    let fields := flat ⟨0, 0, 0, 255⟩
    (fields.texels.length = fields.bw * fields.bh ∧ fields.weights = List.replicate 16 ⟨1, 1, 1, 1⟩) ∧
    normalAnd (readBlock ⟨4, 4⟩ (blockOfBytes [0x42, 0, 1, 0xFE, 1, 0xFE, 1, 0xFE, 1, 0, 0, 0, 0xFF, 0xFF, 0, 0]))
      (fun n => (blockMode ⟨4, 4⟩ n.mode.toNat).isSome && n.cq == 20) = true ∧
    encodedSym { fields with texels := List.replicate 8 ⟨100, 0, 0, 255⟩ ++ List.replicate 8 ⟨101, 0, 0, 255⟩ } 129 =
      .const false ⟨25828, 0, 0, 0xFFFF⟩ := by decide +kernel

/-- Both directions: a constant block, and channels within the tolerance. -/
theorem witness_ConstantShortcut :
    (flat ⟨1, 2, 3, 4⟩).texels ≠ [] ∧ encodedSym (flat ⟨1, 2, 3, 4⟩) 0 = .const false ⟨257, 514, 771, 1028⟩ ∧
    ∀ c < 4, ∀ x ∈ channel (flat ⟨1, 2, 3, 4⟩).texels c, ∀ y ∈ channel (flat ⟨1, 2, 3, 4⟩).texels c,
      257 * x.toNat - (257 * x.toNat + 257 * y.toNat) / 2 ≤ 0 := by decide +kernel

theorem witness_ConstantRoundTrip :
    (flat ⟨1, 2, 3, 4⟩).texels = List.replicate ((flat ⟨1, 2, 3, 4⟩).bw * (flat ⟨1, 2, 3, 4⟩).bh) ⟨1, 2, 3, 4⟩ ∧
    (flat ⟨1, 2, 3, 4⟩).bw * (flat ⟨1, 2, 3, 4⟩).bh ≠ 0 := by decide

theorem witness_SearchSelects : (⟨(flat ⟨1, 2, 3, 4⟩).bw, (flat ⟨1, 2, 3, 4⟩).bh⟩ : Footprint).valid = true := by decide

/-- Two machines that differ in the error color and in a register of the instance, coding the same block; and the
command completes with OK. -/
theorem witness_EncodeDeterminism :
    let other := { n1 with cfgErrorColor := ⟨1, 2, 3, 4⟩, inst := { n1.inst with result := 9 } }
    n1.tables = .valid ⟨4, 4⟩ ∧ other.tables = .valid ⟨4, 4⟩ ∧ other.base = n1.base ∧ other.mem = n1.mem ∧
    endsWith (exec (.encodeBlock 1 0) n1) .ok = true := ⟨rfl, rfl, rfl, rfl, n1_encodes⟩

theorem witness_EncodeUnpacks :
    n1.tables = .valid ⟨4, 4⟩ ∧ (⟨4, 4⟩ : Footprint).valid = true ∧ endsWith (exec (.encodeBlock 1 0) n1) .ok = true :=
  ⟨rfl, by decide, n1_encodes⟩

theorem witness_Monotone :
    ∀ n ∈ evaluated (flat ⟨1, 2, 3, 4⟩), n ∈ evaluated { flat ⟨1, 2, 3, 4⟩ with iters := (flat ⟨1, 2, 3, 4⟩).iters } :=
  fun _ h => h

/-- N1 at one quality twice. -/
theorem witness_Monotone_unit :
    (∃ low, exec .buildTables { n1 with cfgQuality := 50 } = .next low ∧ low.tables = .valid ⟨4, 4⟩) ∧
    n1.readEwb 16 = .ok (List.replicate 64 0x3F800000) ∧ weightLegal 0x3F800000 = true ∧
    n1.readTexin 16 = .ok (List.replicate 16 ⟨255, 0, 0, 255⟩) ∧
    ∀ inp tol, monotoneAt inp tol 50 50 :=
  ⟨⟨_, rfl, rfl⟩, by decide +kernel, by decide, by decide +kernel, fun _ _ _ => le_refl _⟩

theorem witness_RaiseWritesNothing :
    endsWith (exec .pack State.reset) .notConfigured = true ∧
    endsWith (exec .buildTables { State.reset with cfgBw := 0 }) .configError = true := by decide

theorem witness_FaultsOnlyWithoutValue :
    faultsAt (exec .unpack ready) 0x040 = true ∧ faultsAt (exec .pack ready) 0x100 = true := by decide +kernel

theorem witness_CommandIsolation :
    (∃ t, exec .nop ready = .next t) ∧ ∀ fp, ready.tables = .valid fp → fp.valid = true :=
  ⟨⟨_, rfl⟩, fun fp h => by cases h; decide⟩

theorem witness_FrameRegisterOnly :
    ∀ i ∈ [Instr.nop, .buildTables, .iseBitcount 1 0, .qlookup 0 0 0, .plookup 1 0 0, .modeinfo 0, .dlookup 0 0 0 0,
      .reservedOp 0x0B 0], holds (exec i ready) (fun _ => true) = true := by decide +kernel

theorem witness_FrameStoring :
    (∀ r ∈ [exec .pack (withSymbol (.normal v3Sym)), exec .unpack (withPhys v1),
      exec (.physVoidExtent 1 3 0 1 0 1 0 0 0 0) ready, exec (.physNormal1p 0x042 0 0) ready,
      exec (.physNormalMp 0x042 1 5 0 0) ready, exec (.decodeTexels 0) (withSymbol .error)], endsWith r .ok = true) ∧
    endsWith (exec (.encodeBlock 1 0) n1) .ok = true := ⟨by decide +kernel, n1_encodes⟩

/-- A state beyond reset that meets the invariants: valid tables, a byte in `PHYS`, a command that has ended. -/
def inv1 : State :=
  { ready with cfgQuality := 7, mem := [(0x040, 0xFC)], inst := { Inst.reset with result := 17 } }

theorem witness_StepKeepsInv_inv : inv1.Inv where
  memory := by simp [State.memoryCanonical, inv1]
  tables := by
    show (⟨4, 4⟩ : Footprint) = inv1.cfgFootprint ∧ (⟨4, 4⟩ : Footprint).valid = true ∧ inv1.profile ≠ .reserved
    decide
  codes := by
    intro k
    by_cases h : k = 0 <;> simp [State.instOf, inv1, ready, State.reset, lookupInst, Inst.reset, h]
  instances := by simp [State.instancesCanonical, inv1, ready, State.reset, instanceExists]
  reserved := by
    intro c h
    simp only [inv1, List.mem_singleton] at h
    subst h
    decide
  builds := by
    intro j k h
    simp [State.instOf, inv1, ready, State.reset, lookupInst, Inst.reset] at h
    split at h <;> cases h

/-- The premises of CommandIsolation on steps: the same state, the host writing CFG_FOOTPRINT. -/
theorem witness_CommandIsolation_step :
    (scheduled [.write 0x008 4 0x0505] inv1).Inv ∧
    ∃ t, step (scheduled [.write 0x008 4 0x0505] inv1) = .next t :=
  ⟨⟨witness_StepKeepsInv_inv.memory, witness_StepKeepsInv_inv.tables, witness_StepKeepsInv_inv.codes,
    witness_StepKeepsInv_inv.instances, witness_StepKeepsInv_inv.reserved, witness_StepKeepsInv_inv.builds⟩, _, rfl⟩

theorem witness_StepKeepsInv : ∃ t, step inv1 = .next t := ⟨_, rfl⟩

end Sys2Proof.Tests
end

section
/-! SUPPORT. The values of a texel: the channels of a color, the partition of a texel, its infilled weight, its endpoints
and their interpolation (R190, R260, R360 to R382). -/

namespace Sys2Proof.Machine

/-! ## Channels -/

@[simp] theorem chan_map {α β : Type} (f : α → β) (x : Rgba α) (c : Nat) : (x.map f).chan c = f (x.chan c) := by
  match c with
  | 0 | 1 | 2 | _ + 3 => rfl

theorem chan_ofFn {α : Type} (f : Nat → α) {c : Nat} (hc : c < 4) : (Rgba.ofFn f).chan c = f c := by
  match c with
  | 0 | 1 | 2 | 3 => rfl

/-! ## Partitions -/

theorem partitionOf_lt (fp : Footprint) {pc : Nat} (index t : Nat) (hpc : 1 ≤ pc) : partitionOf fp pc index t < pc := by
  unfold partitionOf
  split
  · omega
  · unfold selectPartition
    dsimp only
    generalize (_ % 64 : Nat) = a, (_ % 64 : Nat) = b, (_ % 64 : Nat) = c, (_ % 64 : Nat) = d
    split_ifs <;> omega

/-- The values of partition `p` stand after those of the partitions below it (R311). -/
theorem splitColors_getD (cems vals : List Nat) {p : Nat} (hp : p < cems.length) :
    (splitColors cems vals).getD p [] =
      (vals.drop ((cems.take p).map cemValues).sum).take (cemValues (cems.getD p 0)) := by
  induction cems generalizing vals p with
  | nil => simp at hp
  | cons cem cems ih =>
    cases p with
    | zero => simp [splitColors]
    | succ p =>
      have := ih (vals.drop (cemValues cem)) (Nat.lt_of_succ_lt_succ hp)
      simpa [splitColors, List.drop_drop] using this

/-! ## Weights -/

theorem field_lt (v lo n : Nat) : field v lo n < 2 ^ n := Nat.mod_lt _ (Nat.two_pow_pos n)

theorem weightLevelOf_lt {x r hp : Nat} (hx : x < 4) (hr : r < 2) (hhp : hp < 2) : weightLevelOf (x * 2 + r) hp < 12 := by
  unfold weightLevelOf
  omega

/-- The weight level of a block mode is one of the twelve of R260. -/
theorem decodeMode_wq_lt {m : Nat} {b : BlockMode} (h : decodeMode m = some b) : b.wq < 12 := by
  have hl : ∀ lo hp, hp < 2 → weightLevelOf (field m lo 2 * 2 + bit m 4) hp < 12 := fun lo hp =>
    weightLevelOf_lt (field_lt m lo 2) (field_lt m 4 1)
  have h9 : bit m 9 < 2 := field_lt m 9 1
  unfold decodeMode at h
  dsimp only at h
  repeat' split at h
  all_goals cases h <;> exact hl _ _ (by omega)

theorem unqWeight_le {q v : Nat} (hq : q < 12) (hv : v < levelValues q) : unqWeight q v ≤ 64 := by
  have table : ∀ q < 12, ∀ v < levelValues q, unqWeight q v ≤ 64 := by decide +kernel
  exact table q hq v hv

theorem unqWeights_le {q : Nat} {l : List Byte} (hq : q < 12) (hl : ∀ v ∈ l, v.toNat < levelValues q) (i : Nat) :
    ((toNats l).map (unqWeight q)).getD i 0 ≤ 64 := by
  rw [toNats, List.map_map, List.getD_eq_getElem?_getD, List.getElem?_map]
  cases h : l[i]? with
  | none => simp
  | some v => exact unqWeight_le hq (hl v (List.mem_of_getElem? h))

/-- The factors of R360 sum to 16. -/
theorem texelEntries_factors (fp : Footprint) (g : Grid) (t : Nat) : ((texelEntries fp g t).map Prod.snd).sum = 16 := by
  have table : ∀ fs < 16, ∀ ft < 16,
      let w11 := (fs * ft + 8) / 16
      16 + w11 - fs - ft + (fs - w11 + (ft - w11 + w11)) = 16 := by
    decide
  exact table _ (Nat.mod_lt _ (by decide)) _ (Nat.mod_lt _ (by decide))

theorem infilledWeight_le (fp : Footprint) (g : Grid) {u : List Nat} (t : Nat) (hu : ∀ i, u.getD i 0 ≤ 64) :
    infilledWeight fp g u t ≤ 64 := by
  have hsum : ((texelEntries fp g t).map fun e => if e.2 = 0 then 0 else u.getD e.1 0 * e.2).sum ≤
      ((texelEntries fp g t).map fun e => 64 * e.2).sum := by
    refine List.sum_le_sum fun e _ => ?_
    split
    · exact Nat.zero_le _
    · exact Nat.mul_le_mul_right _ (hu e.1)
  have h16 := texelEntries_factors fp g t
  rw [List.sum_map_mul_left] at hsum
  unfold infilledWeight
  omega

/-- What a well-formed block says of its weights. -/
theorem normalWf_weights {fp : Footprint} {n : NormalSym} {b : BlockMode} (h : normalWf fp n = true)
    (hb : blockMode fp n.mode.toNat = some b) :
    (∀ v ∈ n.w0, v.toNat < levelValues b.wq) ∧ ∀ v ∈ n.w1, v.toNat < levelValues b.wq := by
  obtain ⟨b', hb', -, hv⟩ := normalWf_some h
  obtain rfl := Option.some.inj (hb.symm.trans hb')
  simp only [valuesOk, Bool.and_eq_true, List.all_eq_true, decide_eq_true_eq] at hv
  obtain ⟨⟨⟨-, h0⟩, -⟩, h1⟩ := hv
  exact ⟨h0, h1⟩

theorem normalWf_pc {fp : Footprint} {n : NormalSym} (h : normalWf fp n = true) : 1 ≤ n.pc := by
  obtain ⟨b, -, hh, -⟩ := normalWf_some h
  simp only [headerOk, Bool.and_eq_true, decide_eq_true_eq, cemNats, List.length_map] at hh
  obtain ⟨⟨⟨⟨⟨⟨⟨hpc, -⟩, -⟩, -⟩, -⟩, -⟩, -⟩, -⟩ := hh
  exact hpc

/-! ## Endpoints -/

theorem isHdrCem_iff (cem : Nat) : isHdrCem cem = true ↔ cem ∈ [2, 3, 7, 11, 14, 15] := List.contains_iff_mem

theorem usesHdr_iff (n : NormalSym) : usesHdr n = true ↔ ∃ cem ∈ cemNats n, isHdrCem cem = true := List.any_eq_true

theorem clamp8_le (x : Int) : clamp8 x ≤ 255 := by
  unfold clamp8
  omega

theorem ldrEndpoints_le (cem : Nat) (vals : List Nat) (c : Nat) :
    (ldrEndpoints cem vals).1.chan c ≤ 255 ∧ (ldrEndpoints cem vals).2.chan c ≤ 255 := by
  simp [ldrEndpoints, clamp8_le]

theorem endpoints16_fst (profile : Profile) (cem : Nat) (vals : List Nat) (c : Nat) :
    (endpoints16 profile cem vals).1.chan c = if isHdrCem cem then ((Config.hdrUnpack cem vals).1.chan c).toNat
      else expandEndpoint profile ((ldrEndpoints cem vals).1.chan c) := by
  unfold endpoints16
  split <;> simp

theorem endpoints16_snd (profile : Profile) (cem : Nat) (vals : List Nat) (c : Nat) :
    (endpoints16 profile cem vals).2.chan c = if isHdrCem cem then ((Config.hdrUnpack cem vals).2.chan c).toNat
      else expandEndpoint profile ((ldrEndpoints cem vals).2.chan c) := by
  unfold endpoints16
  split <;> simp

theorem expandEndpoint_le (profile : Profile) {e : Nat} (he : e ≤ 255) : expandEndpoint profile e ≤ 65535 := by
  unfold expandEndpoint
  split <;> omega

theorem endpoints16_le (profile : Profile) (cem : Nat) (vals : List Nat) (c : Nat) :
    (endpoints16 profile cem vals).1.chan c ≤ 65535 ∧ (endpoints16 profile cem vals).2.chan c ≤ 65535 := by
  obtain ⟨h1, h2⟩ := ldrEndpoints_le cem vals c
  rw [endpoints16_fst, endpoints16_snd]
  split
  · omega
  · exact ⟨expandEndpoint_le profile h1, expandEndpoint_le profile h2⟩

/-! ## Interpolation and output -/

theorem interpolate_le {c0 c1 w : Nat} (h0 : c0 ≤ 65535) (h1 : c1 ≤ 65535) (hw : w ≤ 64) :
    interpolate c0 c1 w ≤ 65535 := by
  have h0' := Nat.mul_le_mul_right (64 - w) h0
  have h1' := Nat.mul_le_mul_right w h1
  unfold interpolate
  omega

/-- R382: `out8` rounds half up. Half of 65535 is 32767 and a half, and no multiple of 65535 lies between `c * 255 + 32767`
and `c * 255` plus that half. -/
theorem out8_eq_floor (c : Nat) : (out8 c : ℤ) = ⌊(c : ℚ) / 65535 * 255 + 1 / 2⌋ := by
  have h : (c : ℚ) / 65535 * 255 + 1 / 2 = ((2 * c + 257 : ℕ) : ℚ) / (514 : ℕ) := by
    push_cast
    ring
  rw [h, Rat.floor_natCast_div_natCast, out8]
  omega

theorem outputByte_eq (profile : Profile) (hdrBlock : Bool) (x : Nat) :
    outputByte profile hdrBlock x = if hdrBlock then Config.out8Hdr (BitVec.ofNat 16 x)
      else BitVec.ofNat 8 (if profile = .ldrSrgb then x / 256 else out8 x) := by
  unfold outputByte
  split_ifs <;> rfl

/-! ## Texels -/

/-- The unquantized color values of partition `p` (R311, R365). -/
def partitionValues (n : NormalSym) (p : Nat) : List Nat :=
  (((toNats n.colors).drop (((cemNats n).take p).map cemValues).sum).take (cemValues ((cemNats n).getD p 0))).map
    (unqColor n.cq.toNat)

theorem splitColors_partitionValues (n : NormalSym) {p : Nat} (hp : p < n.pc) :
    (splitColors (cemNats n) ((toNats n.colors).map (unqColor n.cq.toNat))).getD p [] = partitionValues n p := by
  have hp' : p < (cemNats n).length := by simpa [cemNats, NormalSym.pc] using hp
  rw [splitColors_getD _ _ hp', partitionValues]
  simp only [List.map_take, List.map_drop]

/-- The weight plane that a channel is interpolated by (R381). -/
def weightPlane (b : BlockMode) (n : NormalSym) (c : Nat) : List Byte :=
  if b.dual = true ∧ c = n.ccs.toNat then n.w1 else n.w0

/-- The infilled weight of a channel of a texel (R362, R381). -/
def channelWeight (fp : Footprint) (b : BlockMode) (n : NormalSym) (t c : Nat) : Nat :=
  infilledWeight fp b.grid ((toNats (weightPlane b n c)).map (unqWeight b.wq)) t

theorem channelWeight_le {fp : Footprint} {n : NormalSym} {b : BlockMode} (h : normalWf fp n = true)
    (hb : blockMode fp n.mode.toNat = some b) (t c : Nat) : channelWeight fp b n t c ≤ 64 := by
  obtain ⟨h0, h1⟩ := normalWf_weights h hb
  have hplane : ∀ v ∈ weightPlane b n c, v.toNat < levelValues b.wq := by
    unfold weightPlane
    split
    · exact h1
    · exact h0
  exact infilledWeight_le fp b.grid t (unqWeights_le (decodeMode_wq_lt (blockMode_some hb).1) hplane)

theorem texel16_chan {fp : Footprint} {n : NormalSym} (profile : Profile) (b : BlockMode) (t : Nat) {c : Nat} (hc : c < 4)
    (hpc : 1 ≤ n.pc) :
    let p := partitionOf fp n.pc n.partIndex.toNat t
    let e := endpoints16 profile ((cemNats n).getD p 0) (partitionValues n p)
    (texel16 fp profile b n t).chan c = interpolate (e.1.chan c) (e.2.chan c) (channelWeight fp b n t c) := by
  intro p e
  rw [texel16, chan_ofFn _ hc, splitColors_partitionValues n (partitionOf_lt fp _ t hpc), channelWeight, weightPlane]
  split_ifs <;> rfl

theorem decodedTexels_normal (ec : Rgba Byte) {fp : Footprint} {profile : Profile} {n : NormalSym} {b : BlockMode} {t : Nat}
    (hb : blockMode fp n.mode.toNat = some b) (he : blockIsError profile (.normal n) = false) (ht : t < fp.bw * fp.bh) :
    (decodedTexels fp profile ec (.normal n))[t]? = some (texel fp profile b n t) := by
  simp [decodedTexels, hb, he, Footprint.texels, ht]

end Sys2Proof.Machine
end

section
/-! SUPPORT. The obligation on the texels of a normal block. -/

namespace Sys2Proof.Machine

/-- Settles O45: each channel is two bounded endpoints interpolated by a weight that the infill keeps within 64. -/
theorem texelOutput : Obligations.TexelOutput := by
  refine ⟨fun c _ => out8_eq_floor c, fun fp profile ec n b t _ hwf hb he ht =>
    ⟨texel fp profile b n t, decodedTexels_normal ec hb he ht, fun c hc => ?_⟩⟩
  intro p cem before vals hdr wide e0 e1 plane w C
  have hw : w ≤ 64 := channelWeight_le hwf hb t c
  obtain ⟨h0, h1⟩ := endpoints16_le profile cem vals c
  have hC : (texel16 fp profile b n t).chan c = C := by
    rw [texel16_chan profile b t hc (normalWf_pc hwf), endpoints16_fst, endpoints16_snd]
    simp only [isHdrCem_iff]
    rfl
  refine ⟨hw, ?_, hC, ?_⟩
  · rw [← hC, texel16_chan profile b t hc (normalWf_pc hwf)]
    exact interpolate_le h0 h1 hw
  · rw [texel, chan_map, hC, outputByte_eq]
    simp only [usesHdr_iff, isHdrCem_iff]
    rfl

end Sys2Proof.Machine
end

section
/-! SUPPORT. The states an instruction can end in, said once. -/

namespace Sys2Proof.Machine

/-- The instructions that answer in `RESULT` (R52). -/
def isLookup : Instr → Bool
  | .iseBitcount _ _ | .qlookup _ _ _ | .plookup _ _ _ | .modeinfo _ | .dlookup _ _ _ _ => true
  | _ => false

/-- The instructions that read a physical block into `SYM` (R291; log entry 20). -/
def isUnpack : Instr → Bool
  | .unpack | .physVoidExtent _ _ _ _ _ _ _ _ _ _ | .physNormal1p _ _ _ | .physNormalMp _ _ _ _ _ => true
  | _ => false

/-- The states in which an instruction started in `s` can end: with a status code alone, or with the effect of its
kind. -/
inductive EndsAs (s : State) : Instr → State → Prop
  | status {i : Instr} {c : Code} (hc : c ≠ .internalFailure) (hi : i ≠ .buildTables) : EndsAs s i (s.finish c)
  | answered {i : Instr} (v : Nat) (hi : isLookup i = true) : EndsAs s i ((s.setResult v).finish .ok)
  | built (hfp : s.cfgFootprint.valid = true) (hp : s.profile ≠ .reserved) :
    EndsAs s .buildTables (s.buildTables.finish .ok)
  | notBuilt : EndsAs s .buildTables (s.invalidate.finish .configError)
  | packed (blk : Block) : EndsAs s .pack ((s.writePhys blk).finish .ok)
  | unpacked {i : Instr} {sym : Sym} (hs : symFits sym) (hi : isUnpack i = true) :
    EndsAs s i ((s.unpacked sym).finish .ok)
  | decoded {fp : Footprint} {texels : List (Rgba Byte)} (k : BitVec 2) (b : Bool) (hfp : s.tables = .valid fp)
    (hl : texels.length = fp.texels) : EndsAs s (.decodeTexels k) (((s.writeTexout texels).setErrblk b).finish .ok)
  | encoded (p : BitVec 1) (k : BitVec 2) (fp : Footprint) (inp : SearchInput) :
    EndsAs s (.encodeBlock p k) ((s.encoded fp (p == 1) inp).finish .ok)

variable {i : Instr} {s t : State}

theorem EndsAs.of_answerOrBad {o : Option Nat} (hi : isLookup i = true) (h : s.answerOrBad o = .next t) :
    EndsAs s i t := by
  obtain ⟨-, rfl⟩ | ⟨v, -, rfl⟩ := State.answerOrBad_next h
  · exact .status (c := .badOperand) nofun (by rintro rfl; cases hi)
  · exact .answered v hi

/-- What a command behind the tables guard ends in: NOT_CONFIGURED, or what the rest of it ends in. -/
theorem EndsAs.of_withTables {f : Footprint → Result} (hi : i ≠ .buildTables) (h : s.withTables f = .next t)
    (hf : ∀ fp, s.tables = .valid fp → f fp = .next t → EndsAs s i t) : EndsAs s i t := by
  obtain ⟨-, rfl⟩ | ⟨fp, hfp, h⟩ := State.withTables_next h
  · exact .status (c := .notConfigured) nofun hi
  · exact hf fp hfp h

theorem EndsAs.of_withSym {fp : Footprint} {f : Sym → Result} (hi : i ≠ .buildTables) (h : s.withSym fp f = .next t)
    (hf : ∀ sym, f sym = .next t → EndsAs s i t) : EndsAs s i t := by
  obtain ⟨-, rfl⟩ | ⟨sym, -, h⟩ := State.withSym_next h
  · exact .status (c := .badOperand) nofun hi
  · exact hf sym h

theorem readVoidExtent_fits (blk : Block) : symFits (readVoidExtent blk) := by
  unfold readVoidExtent
  dsimp only
  split_ifs <;> trivial

theorem EndsAs.of_pack (h : execPack s = .next t) : EndsAs s .pack t := by
  refine EndsAs.of_withTables nofun h fun fp _ h => EndsAs.of_withSym nofun h fun sym h => ?_
  split at h <;> cases h
  · exact .packed _
  · exact .status nofun nofun

theorem EndsAs.of_buildTables (h : execBuildTables s = .next t) : EndsAs s .buildTables t := by
  unfold execBuildTables at h
  split at h
  case isTrue hgood =>
    cases h
    simp only [Bool.and_eq_true, bne_iff_ne] at hgood
    exact .built hgood.1 hgood.2
  case isFalse =>
    cases h
    exact .notBuilt

theorem EndsAs.of_decodeTexels {k : BitVec 2} (h : execDecodeTexels k s = .next t) : EndsAs s (.decodeTexels k) t := by
  refine EndsAs.of_withTables nofun h fun fp hfp h => ?_
  split at h
  · cases h
    exact .status nofun nofun
  · refine EndsAs.of_withSym nofun h fun sym h => ?_
    cases h
    exact .decoded k _ hfp (decodedTexels_length fp _ _ sym)

theorem EndsAs.of_encodeBlock {p : BitVec 1} {k : BitVec 2} (h : execEncodeBlock p k s = .next t) :
    EndsAs s (.encodeBlock p k) t := by
  refine EndsAs.of_withTables nofun h fun fp _ h => ?_
  split at h
  · cases h
    exact .status nofun nofun
  obtain ⟨ewb, -, h⟩ := withBytes_next h
  split at h
  · obtain ⟨texels, -, h⟩ := withBytes_next h
    cases h
    exact .encoded p k fp _
  · cases h
    exact .status nofun nofun

/-- An instruction ends in one of the states of its kind. -/
theorem exec_endsAs (h : exec i s = .next t) : EndsAs s i t := by
  cases i with
  | nop =>
    cases h
    exact .status nofun nofun
  | reservedOp op x =>
    cases h
    exact .status nofun nofun
  | buildTables => exact .of_buildTables h
  | iseBitcount n q => exact .of_answerOrBad rfl h
  | qlookup q t k => exact .of_withTables nofun h fun _ _ h => .of_answerOrBad rfl h
  | plookup n k c => exact .of_withTables nofun h fun _ _ h => .of_answerOrBad rfl h
  | dlookup d t e g => exact .of_withTables nofun h fun _ _ h => .of_answerOrBad rfl h
  | modeinfo m =>
    refine .of_withTables nofun h fun fp _ h => ?_
    cases h
    exact .answered _ rfl
  | pack => exact .of_pack h
  | unpack =>
    refine .of_withTables nofun h fun fp _ h => ?_
    obtain ⟨blk, -, h⟩ := withBytes_next h
    cases h
    exact .unpacked (readBlock_fits fp blk) rfl
  | physVoidExtent f v s0 s1 t0 t1 r g b a =>
    refine .of_withTables nofun h fun fp _ h => ?_
    cases h
    exact .unpacked (readVoidExtent_fits _) rfl
  | physNormal1p m c x =>
    refine .of_withTables nofun h fun fp _ h => ?_
    cases h
    exact .unpacked (readNormal_fits fp _) rfl
  | physNormalMp m n p c x =>
    refine .of_withTables nofun h fun fp _ h => ?_
    cases h
    exact .unpacked (readNormal_fits fp _) rfl
  | decodeTexels k => exact .of_decodeTexels h
  | encodeBlock p k => exact .of_encodeBlock h

/-! ## The private registers -/

@[simp] theorem State.encoded_inst (s : State) (fp : Footprint) (pack : Bool) (inp : SearchInput) :
    (s.encoded fp pack inp).inst =
      { s.inst with errOut := toBinary64 (weightedError inp (encodedSym inp s.cfgConstTol.toNat)) } := by
  cases pack <;> simp [State.encoded]

/-- No command reports `INTERNAL_FAILURE` (R476). -/
theorem EndsAs.code (h : EndsAs s i t) : t.inst.code ≠ .internalFailure := by
  cases h with
  | status hc => exact hc
  | _ => simp

end Sys2Proof.Machine
end

section
/-! SUPPORT. The legal memories: canonical, and every byte one that the register map names. -/

namespace Sys2Proof.Machine

theorem byteMask_lt {off : Nat} (h : byteMask off ≠ 0) : off < instanceStride := by
  by_contra hoff
  have hge : 0x2000 ≤ off := Nat.not_lt.1 hoff
  apply h
  unfold byteMask
  repeat rw [if_neg (by omega)]

theorem State.base_add_mod (s : State) {off : Nat} (h : off < instanceStride) :
    (s.base + off) % instanceStride = off := by
  rw [State.base, Nat.mul_add_mod, Nat.mod_eq_of_lt h]

/-- A bus address and a byte that may stand there: some bit is named there, and the byte has no other (log entry 10). -/
def namedByte (a : Nat) (b : Byte) : Prop :=
  byteMask (a % instanceStride) ≠ 0 ∧ b &&& byteMask (a % instanceStride) = b

theorem State.namedByte_base (s : State) {off : Nat} {b : Byte} (h0 : byteMask off ≠ 0) (hb : b &&& byteMask off = b) :
    namedByte (s.base + off) b := by
  rw [namedByte, s.base_add_mod (byteMask_lt h0)]
  exact ⟨h0, hb⟩

/-- A byte of a buffer all of whose bits are named. -/
theorem State.namedByte_full (s : State) {off : Nat} (h : byteMask off = 0xFF) (b : Byte) :
    namedByte (s.base + off) b :=
  s.namedByte_base (by rw [h]; decide) (by rw [h]; exact BitVec.and_allOnes)

/-- The memory is canonical and holds named bits alone. -/
structure Memory.Legal (m : Memory) : Prop where
  canonical : m.wf
  named : ∀ c ∈ m, namedByte c.1 c.2

theorem Memory.Legal.write {m : Memory} (h : m.Legal) {a : Nat} {b : Byte} (hb : namedByte a b) :
    (m.write a b).Legal where
  canonical := Memory.write_wf h.canonical a b
  named := fun c hc => by
    obtain rfl | hc := Memory.write_keys m a b c hc
    · exact hb
    · exact h.named c hc

theorem Memory.Legal.writeList {m : Memory} (h : m.Legal) {bs : List Byte} {a : Nat}
    (hb : ∀ i b, bs[i]? = some b → namedByte (a + i) b) : (m.writeList a bs).Legal where
  canonical := Memory.writeList_wf h.canonical bs a
  named := fun c hc => by
    obtain ⟨i, hi, rfl⟩ | hc := Memory.writeList_keys m a bs c hc
    · exact hb i _ (List.getElem?_eq_getElem hi)
    · exact h.named c hc

/-- A run of bytes in a part of the register space whose bits are all named. -/
theorem Memory.Legal.writeList_full {m : Memory} (h : m.Legal) (s : State) {off : Nat} {bs : List Byte}
    (hmask : ∀ i < bs.length, byteMask (off + i) = 0xFF) : (m.writeList (s.base + off) bs).Legal := by
  refine h.writeList fun i b hb => ?_
  rw [Nat.add_assoc]
  exact s.namedByte_full (hmask i (List.getElem?_eq_some_iff.1 hb).1) b

theorem Memory.Legal.symMemory {m : Memory} (h : m.Legal) (s : State) {sym : Sym} (hs : symFits sym) :
    (symMemory m s.base sym).Legal where
  canonical := storePieces_wf h.canonical s.base (symImage sym)
  named := fun c hc => by
    obtain ⟨p, hp, i, hi, ha⟩ | hc := storePieces_keys m s.base (symImage sym) c hc
    · obtain ⟨h0, hb⟩ := symImage_masked hs p hp i c.2 hi
      rw [ha, Nat.add_assoc]
      exact s.namedByte_base h0 hb
    · exact h.named c hc

theorem byteMask_phys {i : Nat} (hi : i < 16) : byteMask (offPhys + i) = 0xFF := by
  revert i
  decide

theorem byteMask_texout {i : Nat} (hi : i < 4 * 144) : byteMask (offTexout + i) = 0xFF := by
  unfold offTexout byteMask
  repeat rw [if_neg (by omega)]
  rw [if_pos (by omega)]

/-- Every instruction keeps the memory legal. -/
theorem EndsAs.memory {i : Instr} {s t : State} (h : EndsAs s i t) (hm : s.mem.Legal)
    (hfp : ∀ fp, s.tables = .valid fp → fp.valid = true) : t.mem.Legal := by
  have hphys : ∀ {m : Memory}, m.Legal → ∀ blk, (m.writeList (s.base + offPhys) (bytesOfBlock blk)).Legal :=
    fun hm blk => hm.writeList_full s fun i hi => byteMask_phys (by simpa using hi)
  cases h with
  | packed blk => simpa using hphys hm blk
  | unpacked hs _ => simpa [State.unpacked] using hm.symMemory s hs
  | @decoded fp texels k b htab hl =>
    have hlen : (texels.map Rgba.toList).flatten.length ≤ 4 * 144 := by
      have := Footprint.texels_le (hfp fp htab)
      rw [texelBytes_length]
      omega
    simpa using hm.writeList_full s fun i hi => byteMask_texout (lt_of_lt_of_le hi hlen)
  | encoded p k fp inp =>
    have hsym := hm.symMemory s (encodedSym_fits inp s.cfgConstTol.toNat)
    cases hp : p == 1
    · simpa [hp] using hsym
    · simpa [hp] using hphys hsym _
  | _ => exact hm

/-! ## The host's writes -/

/-- A memory after a buffer write of the host: the named bits of each byte, where the host may write (R42, R64). -/
def Memory.writeNamed (m : Memory) (base : Nat) : Nat → List Byte → Memory
  | _, [] => m
  | off, b :: bs =>
    Memory.writeNamed
      (if byteMask off = 0 ∨ readOnlyBuffer off then m else m.write (base + off) (b &&& byteMask off)) base (off + 1) bs

/-- A buffer write of the host changes the memory alone. -/
theorem State.writeBuffer_eq (s : State) (off : Nat) (bs : List Byte) :
    s.writeBuffer off bs = { s with mem := s.mem.writeNamed s.base off bs } := by
  induction bs generalizing s off with
  | nil => rfl
  | cons b bs ih =>
    rw [State.writeBuffer, ih, State.writeBufferByte, Memory.writeNamed]
    split_ifs <;> rfl

theorem Memory.Legal.writeNamed {m : Memory} (h : m.Legal) (s : State) (off : Nat) (bs : List Byte) :
    (m.writeNamed s.base off bs).Legal := by
  induction bs generalizing m off with
  | nil => exact h
  | cons b bs ih =>
    refine ih ?_ (off + 1)
    split
    case isTrue => exact h
    case isFalse hoff =>
      refine h.write (s.namedByte_base (fun h0 => hoff (.inl h0)) ?_)
      rw [BitVec.and_assoc, BitVec.and_self]

end Sys2Proof.Machine
end

section
/-! SUPPORT. The invariants, kept by every operation a step is made of, and the obligation that every step keeps
them. -/

namespace Sys2Proof.Machine

variable {s t u : State}

/-! ## What the invariants depend on -/

theorem State.Inv.legal (h : s.Inv) : s.mem.Legal := ⟨h.memory, h.reserved⟩

theorem State.Inv.others_ne (h : s.Inv) : ∀ e ∈ s.others, e.1 ≠ s.cur := fun e he => (h.instances.2.1 e he).1

theorem State.tablesMatchConfig_congr (hc : s.sameConfig t) (ht : t.tables = s.tables) (h : s.tablesMatchConfig) :
    t.tablesMatchConfig := by
  obtain ⟨hw, hh, hp, -⟩ := hc
  simpa only [State.tablesMatchConfig, State.cfgFootprint, State.profile, hw, hh, hp, ht] using h

/-- Tables that a configuration write has invalidated match any configuration (R68). -/
theorem State.tablesMatchConfig_invalidate (ht : t.tables = s.tables.invalidate) (h : s.tablesMatchConfig) :
    t.tablesMatchConfig := by
  unfold State.tablesMatchConfig at h ⊢
  rw [ht]
  cases hs : s.tables with
  | noValue => trivial
  | stale fp => simpa [hs, TableMem.invalidate] using h
  | valid fp => simpa [TableMem.invalidate] using (hs ▸ h).2.1

theorem State.Inv.valid_footprint (h : s.Inv) {fp : Footprint} (hfp : s.tables = .valid fp) : fp.valid = true := by
  have := h.tables
  rw [State.tablesMatchConfig, hfp] at this
  exact this.2.1

/-- An operation on what is in hand keeps the invariants if it keeps the memory legal and the tables those of the
configuration, ends with a legal code, and starts BUILD_TABLES only beside idle instances. -/
theorem State.Inv.update (h : u.Inv) (hothers : t.others = u.others) (hcur : t.cur = u.cur) (hmem : t.mem.Legal)
    (htables : t.tablesMatchConfig) (hcode : t.inst.code ≠ .internalFailure)
    (hbuild : t.inst.running = some 1 → u.inst.running = some 1 ∨ u.otherBusy = false) : t.Inv where
  memory := hmem.canonical
  reserved := hmem.named
  tables := htables
  instances := by simpa only [State.instancesCanonical, hothers, hcur] using h.instances
  codes := fun k => by
    by_cases hk : k = t.cur
    · rwa [State.instOf, if_pos hk]
    · rw [State.instOf_of_others hothers hcur (hcur ▸ hk)]
      exact h.codes k
  builds := by
    have hand : ∀ k ≠ t.cur, (t.instOf k).running = some 1 → t.inst.running = some 1 → False := by
      intro k hk hkb htb
      have hk' : k ≠ u.cur := hcur ▸ hk
      rw [State.instOf_of_others hothers hcur hk'] at hkb
      obtain hub | hub := hbuild htb
      · exact hk' (h.builds k u.cur hkb (by simpa [State.instOf] using hub))
      · simp [State.idle_of_otherBusy hub hk'] at hkb
    have hinst : t.instOf t.cur = t.inst := if_pos rfl
    intro j k hj hk
    by_cases hjc : j = t.cur <;> by_cases hkc : k = t.cur
    · rw [hjc, hkc]
    · exact (hand k hkc hk (hinst ▸ hjc ▸ hj)).elim
    · exact (hand j hjc hj (hinst ▸ hkc ▸ hk)).elim
    · rw [State.instOf_of_others hothers hcur (hcur ▸ hjc)] at hj
      rw [State.instOf_of_others hothers hcur (hcur ▸ hkc)] at hk
      exact h.builds j k hj hk

theorem State.Inv.code (h : s.Inv) : s.inst.code ≠ .internalFailure := by
  simpa [State.instOf] using h.codes s.cur

/-- An operation that leaves the instances, the configuration and the tables alone. -/
theorem State.Inv.same (h : u.Inv) (hsame : u.sameUnit t) (hmem : t.mem.Legal) : t.Inv := by
  obtain ⟨hinst, hothers, hcur, hconfig, htables, -⟩ := hsame
  exact h.update hothers hcur hmem (State.tablesMatchConfig_congr hconfig htables h.tables) (hinst ▸ h.code)
    (hinst ▸ .inl)

theorem State.Inv.withScript (h : s.Inv) (moves : List Move) : ({ s with script := moves } : State).Inv :=
  h.same (State.sameUnit_refl s) h.legal

theorem State.Inv.focus (h : s.Inv) {k : Nat} (hk : instanceExists k = true) : (s.focus k).Inv where
  memory := by simpa [State.memoryCanonical] using h.memory
  reserved := by simpa [State.reservedBitsZero] using h.reserved
  tables := by simpa [State.tablesMatchConfig] using h.tables
  instances := State.focus_canonical h.instances hk
  codes := fun j => by simpa [State.instOf_focus h.others_ne] using h.codes j
  builds := fun i j => by simpa [State.instOf_focus h.others_ne] using h.builds i j

/-! ## The operations of a step -/

theorem State.busRead_mem (s : State) (off n : Nat) : (s.busRead off n).mem = s.mem := by
  unfold State.busRead
  split <;> rfl

theorem State.poll_mem {n : Nat} (h : s.poll n = .next t) : t.mem = s.mem := by
  rw [← s.busRead_mem 4 4]
  unfold State.poll at h
  dsimp only at h
  split at h
  · split at h <;> (cases h; rfl)
  · cases h
    rfl

/-- A configuration write invalidates the tables, or changes nothing that they depend on (R68). -/
theorem State.writeConfig_tablesMatchConfig (h : s.tablesMatchConfig) (off : Nat) (v : Word) :
    (s.writeConfig off v).tablesMatchConfig := by
  unfold State.writeConfig
  split
  case h_1 | h_2 | h_3 => exact State.tablesMatchConfig_invalidate (by rfl) h
  all_goals exact h

theorem State.writeConfig_frame (s : State) (off : Nat) (v : Word) :
    (s.writeConfig off v).inst = s.inst ∧ (s.writeConfig off v).others = s.others ∧
      (s.writeConfig off v).cur = s.cur ∧ (s.writeConfig off v).mem = s.mem := by
  unfold State.writeConfig
  split <;> exact ⟨rfl, rfl, rfl, rfl⟩

theorem State.Inv.writeConfig (h : s.Inv) (off : Nat) (v : Word) : (s.writeConfig off v).Inv := by
  obtain ⟨hinst, hothers, hcur, hmem⟩ := s.writeConfig_frame off v
  exact h.update hothers hcur (hmem ▸ h.legal) (State.writeConfig_tablesMatchConfig h.tables off v) (hinst ▸ h.code)
    (hinst ▸ .inl)

theorem State.Inv.issue (h : s.Inv) {w : Word} (ht : s.issue w = .next t) : t.Inv := by
  obtain ⟨-, rfl⟩ | ⟨-, hbuild, rfl⟩ := State.issue_next ht
  · exact h
  · refine h.update rfl rfl h.legal h.tables h.code fun hw => .inr (hbuild ?_)
    exact (isBuildTables_iff w).2 (Option.some.inj hw)

theorem State.Inv.busWrite (h : s.Inv) {off n : Nat} {v : Word} (ht : s.busWrite off n v = .next t) : t.Inv := by
  unfold State.busWrite at ht
  split at ht
  · exact h.issue ht
  split at ht
  · cases ht
  split at ht
  · split at ht
    · cases ht
    · cases ht
      exact h.writeConfig off v
  split at ht
  · cases ht
    exact h
  · cases ht
    refine h.same (State.writeBuffer_same _ _ _) ?_
    rw [State.writeBuffer_eq]
    exact h.legal.writeNamed s off _

/-- The tables match the configuration after every instruction (R68, R231). -/
theorem exec_tablesMatchConfig {i : Instr} (h : exec i s = .next t) (hs : s.tablesMatchConfig) :
    t.tablesMatchConfig := by
  by_cases hi : i = .buildTables
  case neg => exact State.tablesMatchConfig_congr (exec_frame h).2.1 (exec_tables h hi).1 hs
  case pos =>
    subst hi
    cases exec_endsAs h with
    | built hfp hp => exact ⟨rfl, hfp, hp⟩
    | notBuilt => exact State.tablesMatchConfig_invalidate (by rfl) hs
    | status hc hi => exact absurd rfl hi
    | answered v hi => cases hi
    | unpacked hsym hi => cases hi

theorem State.Inv.exec (h : s.Inv) {i : Instr} (ht : exec i s = .next t) : t.Inv := by
  obtain ⟨hidle, -, hcur, hothers, -⟩ := exec_frame ht
  have hend := exec_endsAs ht
  exact h.update hothers hcur (hend.memory h.legal fun _ => h.valid_footprint)
    (exec_tablesMatchConfig ht h.tables) hend.code (by simp [hidle])

theorem State.Inv.runCommand (h : s.Inv) (ht : s.runCommand = .next t) : t.Inv := by
  unfold State.runCommand at ht
  split at ht
  · cases ht
    exact h
  split at ht
  · exact h.exec ht
  · exact h.exec (i := .reservedOp 0 0) ht

/-- The instances in the list exist (R485). -/
theorem State.Inv.busyInstance (h : s.Inv) {k : Nat} (hk : s.busyInstance = some k) : instanceExists k = true := by
  obtain rfl | ⟨r, hr⟩ := State.busyInstance_mem hk
  · exact h.instances.2.2
  · exact (h.instances.2.1 _ hr).2.2

theorem State.waitsFor_mem {k : Nat} (h : s.waitsFor = some k) : ∃ r, (k, r) ∈ s.others := by
  unfold State.waitsFor at h
  split at h
  · obtain ⟨r, hr, -⟩ := State.firstBusyOther_mem h
    exact ⟨r, hr⟩
  · cases h

theorem State.Inv.completion (h : s.Inv) {again : List Move} (ht : s.completion again = .next t) : t.Inv := by
  unfold State.completion at ht
  split at ht
  case h_1 j hj =>
    obtain ⟨r, hr⟩ := State.waitsFor_mem hj
    exact ((h.withScript again).focus (h.instances.2.1 _ hr).2.2).runCommand ht
  case h_2 => exact h.runCommand ht

theorem State.Inv.settle (h : s.Inv) (ht : s.settle = .next t) : t.Inv := by
  unfold State.settle at ht
  split at ht
  case h_1 k hk => exact (h.focus (h.busyInstance hk)).completion ht
  case h_2 =>
    cases ht
    exact h

/-- An access that is not refused is made with one of the instances that exist in hand. -/
theorem State.access_exists {addr n : Nat} {f : State → Nat → Result} (h : s.access addr n f = .next t) :
    ∃ k off, instanceExists k = true ∧ f (s.focus k) off = .next t := by
  unfold State.access at h
  dsimp only at h
  split at h
  · cases h
  split at h
  · cases h
  · exact ⟨_, _, by simpa using ‹¬(!instanceExists _) = true›, h⟩

theorem State.afterReset_inv (s : State) : s.afterReset.Inv where
  memory := List.Pairwise.nil
  tables := trivial
  codes := fun k => by
    unfold State.instOf
    split <;> simp [State.afterReset, State.reset, lookupInst, Inst.reset]
  instances := ⟨List.Pairwise.nil, nofun, rfl⟩
  reserved := nofun
  builds := fun j k hj => by
    unfold State.instOf at hj
    split at hj <;> simp [State.afterReset, State.reset, lookupInst, Inst.reset] at hj

theorem State.Inv.move (h : s.Inv) {m : Move} (ht : s.move m = .next t) : t.Inv := by
  cases m with simp only [State.move] at ht
  | read addr n =>
    obtain ⟨k, off, hk, ht⟩ := State.access_exists ht
    cases ht
    refine (h.focus hk).same (State.busRead_same _ _ _) ?_
    rw [State.busRead_mem]
    exact (h.focus hk).legal
  | write addr n v =>
    obtain ⟨k, off, hk, ht⟩ := State.access_exists ht
    exact (h.focus hk).busWrite ht
  | poll k n =>
    split at ht
    case isTrue hk => exact (h.focus hk).same (State.poll_same ht) (State.poll_mem ht ▸ (h.focus hk).legal)
    case isFalse => cases ht
  | complete k =>
    split at ht
    case isTrue hk => exact (h.focus hk).completion ht
    case isFalse => cases ht
  | reset =>
    cases ht
    exact s.afterReset_inv

/-- Settles O60: a step settles or makes the first move of the script, and either keeps the invariants. -/
theorem stepKeepsInv : Obligations.StepKeepsInv := by
  intro s t h ht
  cases hs : s.script with
  | nil => exact h.settle (step_nil hs ▸ ht)
  | cons m rest => exact (h.withScript rest).move (step_cons hs ▸ ht)

end Sys2Proof.Machine
end

section
/-! SUPPORT. The frames of the instructions, and the obligations on them: what each kind leaves in the registers and
in the buffers. -/

namespace Sys2Proof.Machine

variable {i : Instr} {s t : State}

/-! ## Registers -/

/-- Only a lookup writes `RESULT` (R52, R77). -/
theorem EndsAs.result (h : EndsAs s i t) (hi : isLookup i = false) : t.inst.result = s.inst.result := by
  cases h with
  | answered v hv => simp [hi] at hv
  | _ => simp [State.unpacked]

/-- Only ENCODE_BLOCK writes `ERR_OUT` (R53, R77). -/
theorem EndsAs.errOut (h : EndsAs s i t) (hi : ∀ p k, i ≠ .encodeBlock p k) : t.inst.errOut = s.inst.errOut := by
  cases h with
  | encoded p k => exact absurd rfl (hi p k)
  | _ => simp [State.unpacked]

/-- Only UNPACK and DECODE_TEXELS write `ERRBLK` (R46, R77). -/
theorem EndsAs.errblk (h : EndsAs s i t) (hu : isUnpack i = false) (hd : ∀ k, i ≠ .decodeTexels k) :
    t.inst.errblk = s.inst.errblk := by
  cases h with
  | unpacked hs hi => simp [hu] at hi
  | decoded k => exact absurd rfl (hd k)
  | _ => simp

/-! ## Buffers -/

/-- The instructions that store to a buffer (R77). -/
def storesBytes : Instr → Bool
  | .encodeBlock _ _ | .pack | .unpack | .decodeTexels _ => true
  | .physVoidExtent _ _ _ _ _ _ _ _ _ _ | .physNormal1p _ _ _ | .physNormalMp _ _ _ _ _ => true
  | _ => false

theorem storesBytes_of_isUnpack (h : isUnpack i = true) : storesBytes i = true := by
  cases i with
  | unpack | physVoidExtent | physNormal1p | physNormalMp => rfl
  | _ => cases h

theorem EndsAs.mem_eq (h : EndsAs s i t) (hi : storesBytes i = false) : t.mem = s.mem := by
  cases h with
  | unpacked hs hu => simp [storesBytes_of_isUnpack hu] at hi
  | packed | decoded | encoded => cases hi
  | _ => rfl

theorem State.sameBytesBut_of_mem_eq (h : t.mem = s.mem) (stored : Nat → Prop) : s.sameBytesBut t stored :=
  fun _ _ => h ▸ rfl

theorem EndsAs.bytes_pack (h : EndsAs s .pack t) : s.sameBytesBut t (s.bytesAt offPhys 16) := by
  cases h with
  | packed blk =>
    intro a ha
    simpa using Memory.read_writeList_bytesAt ha (bytesOfBlock_length blk) s.mem
  | status => exact State.sameBytesBut_of_mem_eq rfl _
  | answered v hi | unpacked hs hi => cases hi

theorem EndsAs.bytes_unpack (h : EndsAs s i t) (hi : isUnpack i = true) : s.sameBytesBut t s.symAddress := by
  cases h with
  | unpacked hs =>
    intro a ha
    simpa [State.unpacked] using symMemory_outside s hs ha
  | packed | decoded | encoded => cases hi
  | _ => exact State.sameBytesBut_of_mem_eq rfl _

theorem EndsAs.bytes_decodeTexels {k : BitVec 2} {fp : Footprint} (hfp : s.tables = .valid fp)
    (h : EndsAs s (.decodeTexels k) t) : s.sameBytesBut t (s.bytesAt offTexout (4 * fp.texels)) := by
  cases h with
  | @decoded fp' texels k b hfp' hl =>
    obtain rfl : fp = fp' := by simpa [hfp] using hfp'
    intro a ha
    have hlen : (texels.map Rgba.toList).flatten.length = 4 * fp.texels := by rw [texelBytes_length, hl]
    simpa using Memory.read_writeList_bytesAt ha hlen s.mem
  | status => exact State.sameBytesBut_of_mem_eq rfl _
  | answered v hi | unpacked hs hi => cases hi

theorem EndsAs.bytes_encodeBlock {p : BitVec 1} {k : BitVec 2} (h : EndsAs s (.encodeBlock p k) t) :
    s.sameBytesBut t fun a => s.symAddress a ∨ (p = 1 ∧ s.bytesAt offPhys 16 a) := by
  cases h with
  | encoded p k fp inp =>
    intro a ha
    obtain ⟨hsym, hphys⟩ := not_or.1 ha
    have hout := symMemory_outside s (encodedSym_fits inp s.cfgConstTol.toNat) hsym
    by_cases hp : p = 1
    · have hphys : ¬s.bytesAt offPhys 16 a := fun h => hphys ⟨hp, h⟩
      simpa [hp, Memory.read_writeList_bytesAt hphys] using hout
    · rw [State.finish_mem, State.encoded_mem, beq_eq_false_iff_ne.2 hp]
      exact hout
  | status => exact State.sameBytesBut_of_mem_eq rfl _
  | answered v hi | unpacked hs hi => cases hi

/-! ## The obligations -/

/-- Settles O57: an instruction that stores no bytes ends with a code, an answer, or the tables built or not. -/
theorem frameRegisterOnly : Obligations.FrameRegisterOnly := by
  intro i s t h hi
  have hend := exec_endsAs h
  obtain ⟨hidle, hconfig, houtside⟩ := exec_frame h
  have hstores : storesBytes i = false := by
    cases i with
    | nop | buildTables | iseBitcount | qlookup | plookup | modeinfo | dlookup | reservedOp => rfl
    | _ => exact hi.elim
  have hunpack : isUnpack i = false := by
    by_contra hu
    simp [storesBytes_of_isUnpack (by simpa using hu)] at hstores
  have herrblk := hend.errblk hunpack (by rintro k rfl; cases hstores)
  have herrOut := hend.errOut (by rintro p k rfl; cases hstores)
  refine ⟨fun a => by rw [hend.mem_eq hstores], herrblk, herrOut, hidle, hconfig, houtside, fun hres => ?_,
    exec_tables h⟩
  exact hend.result (by rcases hres with rfl | rfl | ⟨op, x, rfl⟩ <;> rfl)

/-- Settles O58: the bytes by the kind of the instruction, the rest by the frame that every instruction has. -/
theorem frameStoring : Obligations.FrameStoring := by
  intro i s t fp hfp h framed
  have hend := exec_endsAs h
  have frame : i ≠ .buildTables → isLookup i = false → ∀ {stored}, s.sameBytesBut t stored → framed stored := by
    intro hb hl stored hbytes
    obtain ⟨hidle, hconfig, houtside⟩ := exec_frame h
    exact ⟨hbytes, hend.result hl, hidle, hconfig, exec_tables h hb, houtside⟩
  cases i with
  | pack => exact ⟨frame nofun rfl hend.bytes_pack, hend.errblk rfl nofun, hend.errOut nofun⟩
  | unpack | physVoidExtent | physNormal1p | physNormalMp =>
    exact ⟨frame nofun rfl (hend.bytes_unpack rfl), hend.errOut nofun⟩
  | decodeTexels k => exact ⟨frame nofun rfl (hend.bytes_decodeTexels hfp), hend.errOut nofun⟩
  | encodeBlock p k => exact ⟨frame nofun rfl hend.bytes_encodeBlock, hend.errblk rfl nofun⟩
  | _ => trivial

/-- Settles O16: each of these instructions is its meaning behind the tables guard. -/
theorem notConfigured : Obligations.NotConfigured := by
  intro i s hi hs
  cases i with
  | nop | buildTables | iseBitcount | reservedOp => cases hi
  | _ => exact State.withTables_invalid hs _

end Sys2Proof.Machine
end

section
/-! SUPPORT. The host's accesses: which are accesses, what a read gives and a write does, and the
obligations on `CMD` and the other control registers. -/

namespace Sys2Proof.Machine

variable {s : State} {off n : Nat} {v : Word} {rest : List Move}

/-! ## Which widths are accesses (R96) -/

theorem accessLegal_control (hoff : off < 0x040) : accessLegal off n = true ↔ n = 4 ∧ off % 4 = 0 := by
  simp [accessLegal, hoff]

theorem accessLegal_buffer (hoff : 0x040 ≤ off) (h : accessLegal off n = true) :
    n = 1 ∨ (n = 2 ∧ off % 2 = 0) ∨ (n = 4 ∧ off % 4 = 0) := by
  simp only [accessLegal, Nat.not_lt.2 hoff, if_false, Bool.and_eq_true, Bool.or_eq_true, beq_iff_eq] at h
  obtain ⟨(rfl | rfl) | rfl, h⟩ := h <;> simp [h]

/-! ## A step that makes an access -/

theorem step_read (hs : s.script = .read (s.base + off) n :: rest) (hk : instanceExists s.cur = true)
    (hoff : off < instanceStride) (hl : accessLegal off n = true) :
    step s = .next (({ s with script := rest } : State).busRead off n) := by
  rw [step_cons hs, State.move]
  refine (State.access_cur (s := { s with script := rest }) hk hoff).trans ?_
  rw [hl, if_pos rfl]

theorem step_write (hs : s.script = .write (s.base + off) n v :: rest) (hk : instanceExists s.cur = true)
    (hoff : off < instanceStride) (hl : accessLegal off n = true) :
    step s = ({ s with script := rest } : State).busWrite off n v := by
  rw [step_cons hs, State.move]
  refine (State.access_cur (s := { s with script := rest }) hk hoff).trans ?_
  rw [hl, if_pos rfl]

/-- A read of idle instances, and of `STATUS` of any, gives what stands there and changes nothing (R99). -/
theorem State.busRead_value (h : s.busy = false ∨ off = 0x004) :
    s.busRead off n = { s with rdata := s.busValue off n } := by
  rw [State.busRead, if_neg]
  obtain h | h := h <;> simp [h]

/-- Such a read, made by a step. -/
theorem step_read_value (hs : s.script = .read (s.base + off) n :: rest) (hk : instanceExists s.cur = true)
    (hoff : off < instanceStride) (hl : accessLegal off n = true) (hb : s.busy = false ∨ off = 0x004) :
    step s = .next { s with script := rest, rdata := s.busValue off n } := by
  rw [step_read hs hk hoff hl, State.busRead_value (s := { s with script := rest }) hb]
  rfl

theorem State.busValue_control (hoff : off < 0x040) : s.busValue off n = s.readControl off := if_pos hoff

theorem State.busWrite_config (hb : s.busy = false) (hc : configOffset off = true) :
    s.busWrite off n v =
      if s.otherBusy then .refused (.configWhileBusy (s.base + off)) else .next (s.writeConfig off v) := by
  have h0 : off ≠ 0 := by
    rintro rfl
    cases hc
  simp [State.busWrite, h0, hb, hc]

/-- Above the control registers a write that is not refused is made byte by byte. -/
theorem State.busWrite_buffer (hb : s.busy = false) (hoff : 0x040 ≤ off) :
    s.busWrite off n v = .next { s with mem := s.mem.writeNamed s.base off (leBytes n v.toNat) } := by
  have hc : configOffset off = false := by
    simp only [configOffset, Bool.and_eq_false_iff, decide_eq_false_iff_not]
    omega
  rw [State.busWrite, if_neg (by omega), hb, if_neg (by decide), hc, if_neg (by decide), if_neg (by omega),
    State.writeBuffer_eq]

/-- A write to a read-only control register, or where none is (R42, R43). -/
theorem State.busWrite_readOnly (hb : s.busy = false) (h0 : off ≠ 0) (hc : configOffset off = false)
    (hoff : off < 0x040) : s.busWrite off n v = .next s := by
  simp [State.busWrite, h0, hb, hc, hoff]

/-! ## CMD -/

theorem State.otherBusy_iff : s.otherBusy = true ↔ ∃ e ∈ s.others, e.2.running ≠ none := by
  simp [State.otherBusy, Option.isSome_iff_ne_none]

theorem State.otherBusy_false_iff : s.otherBusy = false ↔ ∀ e ∈ s.others, e.2.running = none := by
  simp [State.otherBusy]

theorem State.issue_dropped (hb : s.busy = true) : s.issue v = .next s := if_pos hb

theorem State.issue_starts (hb : s.busy = false) (h : v ≠ 0x00000001 ∨ s.otherBusy = false) :
    s.issue v = .next { s with inst := { s.inst with running := some v } } := by
  have hw : ¬(isBuildTables v && s.otherBusy) = true := by
    rw [Bool.and_eq_true, isBuildTables_iff]
    rintro ⟨hv, ho⟩
    obtain h | h := h
    · exact h hv
    · simp [ho] at h
  rw [State.issue, hb, if_neg (by decide), if_neg hw]

theorem State.issue_refused (hb : s.busy = false) (ho : s.otherBusy = true) :
    s.issue 0x00000001 = .refused (.buildWhileBusy s.cur) := by
  rw [State.issue, hb, if_neg (by decide), ho, Bool.and_true, if_pos (by decide)]

/-- Settles O8: a write to `CMD` is `issue`. -/
theorem issueCommand : Obligations.IssueCommand := by
  intro s w rest hs hk
  have hissue : step s = ({ s with script := rest } : State).issue w :=
    step_write (off := 0) hs hk (by decide) (by decide)
  refine ⟨fun hb => hissue.trans (State.issue_dropped hb), fun hb hw => ?_, fun hb hw ho => ?_⟩
  · refine hissue.trans (State.issue_starts hb (hw.imp_right fun ho => ?_))
    exact State.otherBusy_false_iff.2 ho
  · subst hw
    exact hissue.trans (State.issue_refused hb (State.otherBusy_iff.2 ho))

/-! ## STATUS and the other control registers -/

theorem Code.toNat_lt (c : Code) : c.toNat < 8 := by cases c <;> decide

theorem State.statusWord_toNat (s : State) : s.statusWord.toNat =
    s.inst.code.toNat + 256 * s.busy.toNat + 512 * s.tables.isValid.toNat + 1024 * s.inst.errblk.toNat := by
  have := s.inst.code.toNat_lt
  have := s.busy.toNat_lt
  have := s.tables.isValid.toNat_lt
  have := s.inst.errblk.toNat_lt
  rw [State.statusWord, BitVec.toNat_ofNat]
  omega

/-- The fields of `STATUS` (R46). -/
theorem State.statusWord_fields (s : State) :
    (s.statusWord.extractLsb' 0 4).toNat = s.inst.code.toNat ∧ s.statusWord.extractLsb' 4 4 = 0 ∧
    s.statusWord.extractLsb' 8 1 = BitVec.ofBool s.busy ∧
    s.statusWord.extractLsb' 9 1 = BitVec.ofBool s.tables.isValid ∧
    s.statusWord.extractLsb' 10 1 = BitVec.ofBool s.inst.errblk ∧ s.statusWord.extractLsb' 11 21 = 0 := by
  have := s.inst.code.toNat_lt
  have := s.busy.toNat_lt
  have := s.tables.isValid.toNat_lt
  have := s.inst.errblk.toNat_lt
  simp only [← BitVec.toNat_inj, BitVec.extractLsb'_toNat, Nat.shiftRight_eq_div_pow, BitVec.toNat_ofBool,
    s.statusWord_toNat, BitVec.ofNat_eq_ofNat, BitVec.toNat_ofNat]
  omega

theorem TableMem.isValid_iff (t : TableMem) : t.isValid = true ↔ ∃ fp, t = .valid fp := by
  cases t <;> simp [TableMem.isValid]

/-- `CFG_FOOTPRINT` as the host reads it (R47). -/
theorem footprintWord (bw bh : BitVec 4) :
    BitVec.ofNat 32 (bw.toNat + bh.toNat * 2 ^ 8) = 0#20 ++ bh ++ 0#4 ++ bw := by
  revert bw bh
  decide

/-- Settles O9: the word read is the control register's. -/
theorem registersRead : Obligations.RegistersRead := by
  refine ⟨fun s rest hs hk => ?_, rfl, fun s off rest hs hk hb hoff h4 => ?_⟩
  · obtain ⟨hcode, h4, hbusy, hvalid, herrblk, h11⟩ := s.statusWord_fields
    refine ⟨s.statusWord, step_read_value hs hk (by decide) (by decide) (.inr rfl), hcode, h4, hbusy, ?_, herrblk, h11⟩
    rw [hvalid, ← TableMem.isValid_iff]
    cases s.tables.isValid <;> decide
  · have hstride : off < instanceStride := lt_trans hoff (by decide)
    have hread := step_read_value hs hk hstride ((accessLegal_control hoff).2 ⟨rfl, h4⟩) (.inl hb)
    rw [State.busValue_control hoff] at hread
    refine ⟨s.readControl off, hread, ?_⟩
    refine ⟨?_, ?_, ?_, ?_, ?_, ?_, ?_, ?_, ?_, ?_, ?_, fun h => ?_⟩
    case refine_12 =>
      obtain rfl | rfl | rfl | rfl : off = 0 ∨ off = 0x034 ∨ off = 0x038 ∨ off = 0x03C := by omega
      all_goals rfl
    all_goals rintro rfl
    case refine_1 => exact footprintWord s.cfgBw s.cfgBh
    case refine_2 => exact BitVec.setWidth_eq_append (by decide)
    case refine_3 => exact BitVec.setWidth_eq_append (by decide)
    case refine_4 => exact BitVec.setWidth_eq_append (by decide)
    case refine_9 => exact BitVec.setWidth_eq_append (by decide)
    case refine_10 => exact BitVec.setWidth_eq_append (by decide)
    case refine_11 => exact BitVec.setWidth_eq_append (by decide)
    all_goals rfl

/-! ## The configuration registers -/

theorem step_writeConfig (hs : s.script = .write (s.base + off) 4 v :: rest) (hk : instanceExists s.cur = true)
    (hb : s.busy = false) (hoff : off ∈ [0x008, 0x00C, 0x010, 0x014, 0x018]) :
    step s = if s.otherBusy then .refused (.configWhileBusy (s.base + off))
      else .next (({ s with script := rest } : State).writeConfig off v) := by
  have hregs : ∀ off ∈ [0x008, 0x00C, 0x010, 0x014, 0x018],
      off < instanceStride ∧ accessLegal off 4 = true ∧ configOffset off = true := by decide
  obtain ⟨hstride, hl, hc⟩ := hregs off hoff
  rw [step_write hs hk hstride hl]
  exact State.busWrite_config (s := { s with script := rest }) hb hc

/-- Settles O10: a write to a configuration register is `writeConfig`, or refused while another is busy. -/
theorem configWrite : Obligations.ConfigWrite := by
  refine ⟨fun s off v rest hs hk hb ho => ?_, fun s off v rest hs hk hb ho hoff => ?_, fun t => ?_⟩
  · have write := step_writeConfig hs hk hb
    rw [ho] at write
    refine ⟨?_, ?_, ?_, ?_, ?_⟩ <;> rintro rfl
    all_goals exact write (by decide)
  · rw [step_writeConfig hs hk hb hoff, ho]
    rfl
  · cases t <;> rfl

end Sys2Proof.Machine
end

section
/-! SUPPORT. The buffers as the host reads and writes them, byte by byte, and the obligations on them. -/

namespace Sys2Proof.Machine

/-! ## Where the buffers are -/

/-- The offsets of `PHYS`, `SYM`, `TEXIN`, `TEXOUT` and `EWB` (R43). -/
def inBuffer (off : Nat) : Prop :=
  (0x040 ≤ off ∧ off < 0x050) ∨ (0x100 ≤ off ∧ off < 0x1C0) ∨ (0x400 ≤ off ∧ off < 0x640) ∨
    (0x800 ≤ off ∧ off < 0xA40) ∨ (0x1000 ≤ off ∧ off < 0x1900)

theorem inBuffer_bounds {off : Nat} (h : inBuffer off) : 0x040 ≤ off ∧ off < instanceStride := by
  unfold inBuffer at h
  unfold instanceStride
  omega

/-- A legal access that starts in a buffer stays in it. -/
theorem inBuffer_access {off n k : Nat} (h : inBuffer off) (hl : accessLegal off n = true) (hk : k < n) :
    inBuffer (off + k) := by
  have := accessLegal_buffer (inBuffer_bounds h).1 hl
  unfold inBuffer at h ⊢
  omega

/-- The bits named of a byte of a buffer (R57 to R60): all but those of `SYM_CTRL`, `SYM_PART` and the gaps of `SYM`. -/
def namedBits (o : Nat) : Byte :=
  if o = 0x100 then 0x09 else if o = 0x101 then 0x37 else if o = 0x102 then 0x1F else if o = 0x103 then 0
  else if o = 0x109 then 0x03 else if o = 0x10A ∨ o = 0x10B ∨ o = 0x10E ∨ o = 0x10F then 0
  else if 0x118 ≤ o ∧ o < 0x120 then 0 else 0xFF

theorem byteMask_inBuffer {off : Nat} (h : inBuffer off) : byteMask off = namedBits off := by
  by_cases hsym : 0x100 ≤ off ∧ off < 0x120
  case pos =>
    have table : ∀ i < 0x020, byteMask (0x100 + i) = namedBits (0x100 + i) := by decide
    obtain ⟨i, rfl⟩ := Nat.exists_eq_add_of_le hsym.1
    exact table i (by omega)
  case neg =>
    have hnamed : namedBits off = 0xFF := by
      unfold namedBits
      repeat rw [if_neg (by omega)]
    rw [hnamed]
    unfold inBuffer at h
    replace h : (0x040 ≤ off ∧ off < 0x050) ∨ (0x120 ≤ off ∧ off < 0x1C0) ∨ (0x400 ≤ off ∧ off < 0x640) ∨
        (0x800 ≤ off ∧ off < 0xA40) ∨ (0x1000 ≤ off ∧ off < 0x1900) := by omega
    unfold byteMask
    obtain h | h | h | h | h := h
    all_goals
      repeat rw [if_neg (by omega)]
      rw [if_pos h]

/-- Outside the buffers no byte holds anything. -/
theorem byteMask_outside {off : Nat} (h : ¬inBuffer off) : byteMask off = 0 := by
  unfold inBuffer at h
  unfold byteMask
  repeat rw [if_neg (by omega)]

/-! ## Bytes of a word -/

theorem leNat_byte (bs : List Byte) (k : Nat) : leNat bs / 256 ^ k % 256 = (bs.getD k 0).toNat := by
  induction bs generalizing k with
  | nil => simp [leNat]
  | cons b bs ih =>
    have hcons : leNat (b :: bs) = b.toNat + 256 * leNat bs := rfl
    have hb := b.isLt
    cases k with
    | zero => simp [hcons]; omega
    | succ k =>
      have hdiv : leNat (b :: bs) / 256 = leNat bs := by omega
      rw [Nat.pow_succ', ← Nat.div_div_eq_div_mul, hdiv, ih, List.getD_cons_succ]

theorem ofNat_leNat_byte (bs : List Byte) {k : Nat} (hk : k < 4) :
    (BitVec.ofNat 32 (leNat bs)).extractLsb' (8 * k) 8 = bs.getD k 0 := by
  apply BitVec.eq_of_toNat_eq
  rw [← leNat_byte, BitVec.extractLsb'_toNat, BitVec.toNat_ofNat, Nat.shiftRight_eq_div_pow]
  obtain rfl | rfl | rfl | rfl : k = 0 ∨ k = 1 ∨ k = 2 ∨ k = 3 := by omega
  all_goals omega

theorem leBytes_bitVec {w n k : Nat} (v : BitVec w) (hk : k < n) :
    (leBytes n v.toNat)[k]? = some (v.extractLsb' (8 * k) 8) := by
  rw [leBytes_getElem?, if_pos hk, Option.some.injEq]
  apply BitVec.eq_of_toNat_eq
  rw [BitVec.extractLsb'_toNat, Nat.shiftRight_eq_div_pow, BitVec.toNat_ofNat, Nat.pow_mul]

/-! ## Reads -/

variable {s : State} {off n : Nat}

theorem State.readBufferByte_unnamed (h : byteMask off = 0) : s.readBufferByte off = 0 := by
  rw [State.readBufferByte, h]
  exact BitVec.and_zero

theorem State.readBufferByte_held {b : Byte} (h : byteMask off ≠ 0 → s.mem.read (s.base + off) = some b) :
    s.readBufferByte off = b &&& byteMask off := by
  by_cases h0 : byteMask off = 0
  · rw [State.readBufferByte_unnamed h0, h0]
    exact BitVec.and_zero.symm
  · rw [State.readBufferByte, h h0]

/-- The value read above the control registers, byte by byte (R90). -/
theorem State.busValue_byte (hoff : 0x040 ≤ off) {k : Nat} (hk : k < 4) :
    (s.busValue off n).extractLsb' (8 * k) 8 = if k < n then s.readBufferByte (off + k) else 0 := by
  rw [State.busValue, if_neg (by omega), ofNat_leNat_byte _ hk, List.getD_eq_getElem?_getD, List.getElem?_map]
  by_cases hkn : k < n
  · simp [hkn]
  · simp [hkn]

theorem leNat_replicate_zero (n : Nat) : leNat (List.replicate n 0) = 0 := by
  induction n with
  | zero => rfl
  | succ n ih =>
    have hcons : leNat (List.replicate (n + 1) 0) = 0 + 256 * leNat (List.replicate n 0) := rfl
    rw [hcons, ih]

/-- Where nothing is held the host reads 0 (R42). -/
theorem State.busValue_unnamed (hoff : 0x040 ≤ off) (h : ∀ k < n, byteMask (off + k) = 0) : s.busValue off n = 0 := by
  have hzero : ((List.range n).map fun k => s.readBufferByte (off + k)) = List.replicate n 0 := by
    have hall := List.map_eq_replicate_iff.2 fun k hk =>
      State.readBufferByte_unnamed (s := s) (h k (List.mem_range.1 hk))
    rwa [List.length_range] at hall
  rw [State.busValue, if_neg (by omega), hzero, leNat_replicate_zero]
  rfl

theorem State.readControl_unnamed (h34 : 0x034 ≤ off) (h : off < 0x040) (h4 : off % 4 = 0) : s.readControl off = 0 := by
  obtain rfl | rfl | rfl : off = 0x034 ∨ off = 0x038 ∨ off = 0x03C := by omega
  all_goals rfl

/-! ## Writes -/

/-- Bytes that the host may not write, or that hold nothing, stay as they are. -/
theorem Memory.read_writeNamed_other (m : Memory) (base : Nat) {a : Nat} {bs : List Byte}
    (h : ∀ k < bs.length, a = base + (off + k) → byteMask (off + k) = 0 ∨ readOnlyBuffer (off + k) = true) :
    (m.writeNamed base off bs).read a = m.read a := by
  induction bs generalizing m off with
  | nil => rfl
  | cons b bs ih =>
    rw [Memory.writeNamed, ih _ fun k hk ha => ?_]
    · split
      case isTrue => rfl
      case isFalse hoff => exact Memory.read_write_other m _ fun ha => hoff (h 0 (by simp) ha)
    · rw [Nat.add_assoc, Nat.add_comm 1 k] at ha ⊢
      exact h (k + 1) (by simpa using hk) ha

theorem Memory.read_writeNamed_named (m : Memory) (base : Nat) {bs : List Byte} {k : Nat} (hk : k < bs.length)
    (h0 : byteMask (off + k) ≠ 0) (hr : readOnlyBuffer (off + k) = false) :
    (m.writeNamed base off bs).read (base + (off + k)) = some (bs[k] &&& byteMask (off + k)) := by
  induction bs generalizing m off k with
  | nil => cases hk
  | cons b bs ih =>
    rw [Memory.writeNamed]
    cases k with
    | zero =>
      rw [Memory.read_writeNamed_other _ _ fun k _ ha => by omega, if_neg (by simpa using ⟨h0, hr⟩)]
      exact Memory.read_write_same m _ _
    | succ k =>
      have hshift : off + (k + 1) = off + 1 + k := by omega
      rw [hshift] at h0 hr ⊢
      exact ih _ (Nat.lt_of_succ_lt_succ hk) h0 hr

/-- A write that falls only on bytes that hold nothing or are read-only is ignored (R42, R64). -/
theorem Memory.writeNamed_ignored (m : Memory) (base : Nat) {bs : List Byte}
    (h : ∀ k < bs.length, byteMask (off + k) = 0 ∨ readOnlyBuffer (off + k) = true) : m.writeNamed base off bs = m := by
  induction bs generalizing off with
  | nil => rfl
  | cons b bs ih =>
    rw [Memory.writeNamed, if_pos (by simpa using h 0 (by simp))]
    refine ih fun k hk => ?_
    have := h (k + 1) (by simpa using hk)
    rwa [Nat.add_comm k 1, ← Nat.add_assoc] at this

/-! ## The obligations -/

/-- Settles O11: nothing is written where every byte is unnamed or read-only, and nothing read where every byte is
unnamed; an access does not reach beyond such a region. -/
theorem nothingHeld : Obligations.NothingHeld := by
  refine ⟨fun s off n v rest hs hk hb hl hstride hregion => ?_, fun s off n rest hs hk hb hl hstride hregion => ?_⟩
  · rw [step_write hs hk hstride hl]
    by_cases hoff : off < 0x040
    · refine State.busWrite_readOnly (s := { s with script := rest }) hb (by omega) ?_ hoff
      simp only [configOffset, Bool.and_eq_false_iff, decide_eq_false_iff_not]
      omega
    · rw [State.busWrite_buffer (s := { s with script := rest }) hb (by omega), Memory.writeNamed_ignored]
      intro k hkn
      rw [leBytes_length] at hkn
      have := accessLegal_buffer (by omega) hl
      by_cases hin : inBuffer (off + k)
      · right
        simp only [readOnlyBuffer, Bool.and_eq_true, decide_eq_true_eq]
        unfold inBuffer at hin
        omega
      · exact .inl (byteMask_outside hin)
  · rw [step_read_value hs hk hstride hl (.inl hb)]
    by_cases hoff : off < 0x040
    · rw [State.busValue_control hoff,
        State.readControl_unnamed (by omega) hoff ((accessLegal_control hoff).1 hl).2]
    · rw [State.busValue_unnamed (by omega) fun k hkn => byteMask_outside fun hin => ?_]
      have := accessLegal_buffer (by omega) hl
      unfold inBuffer at hin
      omega

/-- A read of bytes of a buffer that hold values. -/
theorem step_read_held {held : Nat → Byte} {rest : List Move} (hs : s.script = .read (s.base + off) n :: rest)
    (hk : instanceExists s.cur = true) (hb : s.busy = false) (hl : accessLegal off n = true) (hin : inBuffer off)
    (hheld : ∀ k < n, namedBits (off + k) ≠ 0 → s.mem.read (s.base + off + k) = some (held k)) :
    ∃ r : Word, step s = .next { s with script := rest, rdata := r } ∧
      ∀ k < 4, r.extractLsb' (8 * k) 8 = if k < n then held k &&& namedBits (off + k) else 0 := by
  obtain ⟨h40, hstride⟩ := inBuffer_bounds hin
  refine ⟨s.busValue off n, step_read_value hs hk hstride hl (.inl hb), fun k hk4 => ?_⟩
  rw [State.busValue_byte h40 hk4]
  split
  case isFalse => rfl
  case isTrue hkn =>
    have hmask := byteMask_inBuffer (inBuffer_access hin hl hkn)
    rw [← hmask]
    refine State.readBufferByte_held fun h0 => ?_
    rw [← Nat.add_assoc]
    exact hheld k hkn (hmask ▸ h0)

/-- The byte that a write of `v` at `off` stores at `off + k`. -/
def storedByte (v : Word) (off k : Nat) : Byte := v.extractLsb' (8 * k) 8 &&& namedBits (off + k)

theorem storedByte_named (v : Word) (off k : Nat) :
    storedByte v off k &&& namedBits (off + k) = storedByte v off k := by
  rw [storedByte, BitVec.and_assoc, BitVec.and_self]

/-- Each named byte of a legal write to a buffer that is not read-only is stored. -/
theorem Memory.read_writeNamed_word (m : Memory) (base : Nat) {v : Word} {k : Nat} (hin : inBuffer off)
    (hl : accessLegal off n = true) (hr : off + n ≤ 0x800 ∨ 0xA40 ≤ off) (hk : k < n) (h0 : namedBits (off + k) ≠ 0) :
    (m.writeNamed base off (leBytes n v.toNat)).read (base + off + k) = some (storedByte v off k) := by
  have hlen : k < (leBytes n v.toNat).length := by rwa [leBytes_length]
  have hmask := byteMask_inBuffer (inBuffer_access hin hl hk)
  have hwritable : readOnlyBuffer (off + k) = false := by
    simp only [readOnlyBuffer, Bool.and_eq_false_iff, decide_eq_false_iff_not]
    omega
  have hbyte := leBytes_bitVec v hk
  rw [List.getElem?_eq_getElem hlen, Option.some.injEq] at hbyte
  rw [Nat.add_assoc, Memory.read_writeNamed_named _ _ hlen (hmask ▸ h0) hwritable, hbyte, hmask, storedByte]

/-- Settles O13: a write stores the named bits of its bytes, which the read that follows finds held. -/
theorem bufferReadBack : Obligations.BufferReadBack := by
  refine ⟨fun s off n v rest hs hk hb hl hregion => ?_, fun s off n held rest hs hk hb hl hin hheld =>
    step_read_held hs hk hb hl hin hheld⟩
  intro stored
  have hin : inBuffer off := by
    unfold inBuffer
    omega
  obtain ⟨h40, hstride⟩ := inBuffer_bounds hin
  have hm : ∀ k < n, namedBits (off + k) ≠ 0 →
      (s.mem.writeNamed s.base off (leBytes n v.toNat)).read (s.base + off + k) = some (storedByte v off k) := by
    have := accessLegal_buffer h40 hl
    exact fun k => Memory.read_writeNamed_word s.mem s.base hin hl (by omega)
  obtain ⟨r, hread, hr⟩ := step_read_held (off := off) (n := n) (held := storedByte v off)
    (s := { s with
      mem := s.mem.writeNamed s.base off (leBytes n v.toNat), script := .read (s.base + off) n :: rest })
    rfl hk hb hl hin hm
  refine ⟨s.mem.writeNamed s.base off (leBytes n v.toNat), r, ?_, hm, fun a ha => ?_, hread, fun k hk4 => ?_⟩
  · rw [step_write hs hk hstride hl, State.busWrite_buffer (by exact hb) h40]
    rfl
  · refine Memory.read_writeNamed_other _ _ fun k hkn hak => .inl ?_
    rw [leBytes_length] at hkn
    rw [byteMask_inBuffer (inBuffer_access hin hl hkn)]
    obtain ha | ha := ha
    · unfold State.bytesAt at ha
      omega
    · rw [hak, Nat.add_sub_cancel_left] at ha
      exact ha
  · rw [hr k hk4, storedByte_named]
    rfl

end Sys2Proof.Machine
end

section
/-! SUPPORT. The bytes of `SYM` as the host reads them after `SYM <- s`, piece by piece of the register image, and the
obligation on them. -/

namespace Sys2Proof.Machine

/-! ## Bytes of a piece -/

theorem leBytes_getD {n i : Nat} (v : Nat) (hi : i < n) : (leBytes n v).getD i 0 = BitVec.ofNat 8 (v / 256 ^ i) := by
  rw [List.getD_eq_getElem?_getD, leBytes_getElem?, if_pos hi]
  rfl

theorem padTo_getD {n i : Nat} (l : List Byte) (hi : i < n) : (padTo n l).getD i 0 = l.getD i 0 := by
  rw [List.getD_eq_getElem?_getD, padTo_getElem? i hi]
  rfl

/-- A half-word, little-endian (R90). -/
theorem leBytes_half (x : BitVec 16) : leBytes 2 x.toNat = [x.extractLsb' 0 8, x.extractLsb' 8 8] := by
  apply List.ext_getElem?
  intro i
  match i with
  | 0 | 1 => exact leBytes_bitVec x (by decide)
  | i + 2 => simp [leBytes]

/-- The CEM of a partition in `SYM_CEM` (R60). -/
theorem packFields_nibble {cems : List Nat} (h : ∀ c ∈ cems, c < 16) (p : Nat) :
    packFields (cems.map fun c => (c, 4)) / 16 ^ p % 16 = cems.getD p 0 := by
  induction cems generalizing p with
  | nil => simp [packFields]
  | cons c cems ih =>
    have hc := h c (by simp)
    have ih := ih fun x hx => h x (by simp [hx])
    rw [List.map_cons, packFields, show 2 ^ 4 = 16 from rfl, Nat.mod_eq_of_lt hc]
    cases p with
    | zero => simp; omega
    | succ p =>
      rw [Nat.pow_succ', ← Nat.div_div_eq_div_mul, Nat.add_mul_div_left c _ (by decide), Nat.div_eq_of_lt hc,
        Nat.zero_add, ih, List.getD_cons_succ]

/-- Color value `k` of partition `p` stands in its eight bytes, after the values of the partitions below it (R61). -/
theorem symColorBytes_go_getD {cems : List Nat} (h : ∀ c ∈ cems, c < 16) (vals : List Byte) (p : Nat) {k : Nat}
    (hk : k < 8) : (symColorBytes.go cems vals).getD (8 * p + k) 0 =
      if p < cems.length ∧ k < cemValues (cems.getD p 0) then vals.getD (((cems.take p).map cemValues).sum + k) 0
      else 0 := by
  induction cems generalizing vals p with
  | nil => simp [symColorBytes.go]
  | cons c cems ih =>
    have hlen : (padTo 8 (vals.take (cemValues c))).length = 8 := by
      have := h c (by simp)
      refine padTo_length ((List.length_take_le _ _).trans ?_)
      unfold cemValues
      omega
    rw [symColorBytes.go]
    cases p with
    | zero =>
      rw [List.getD_append _ _ _ _ (by omega), Nat.mul_zero, Nat.zero_add, padTo_getD _ hk]
      by_cases hkc : k < cemValues c
      · simp [hkc, List.getD_eq_getElem?_getD, List.getElem?_take_of_lt]
      · simp [hkc, List.getD_eq_getElem?_getD]
    | succ p =>
      rw [List.getD_append_right _ _ _ _ (by omega), hlen, show 8 * (p + 1) + k - 8 = 8 * p + k by omega,
        ih fun x hx => h x (by simp [hx])]
      simp [List.getD_eq_getElem?_getD, List.getElem?_drop, Nat.add_assoc]

/-! ## The image in the register space -/

/-- A byte of a piece of the image, as the host reads it. -/
theorem State.readBufferByte_writeSym (s : State) {sym : Sym} (hs : symFits sym) {p : Nat × List Byte}
    (hp : p ∈ symImage sym) {i : Nat} (hi : i < p.2.length) :
    (s.writeSym sym).readBufferByte (p.1 + i) = p.2.getD i 0 := by
  have hb : p.2[i]? = some (p.2.getD i 0) := by simp [hi]
  rw [State.readBufferByte_held fun _ => ?_]
  · exact (symImage_masked hs p hp i _ hb).2
  · rw [State.writeSym_mem, State.writeSym_base, ← Nat.add_assoc, ← hb]
    exact storePieces_inside s.mem s.base (symImage_disjoint hs) hp hi

theorem symSizes_cover : ∀ i < 0x0C0, byteMask (0x100 + i) = 0 ∨
    ∃ q ∈ symSizes, q.1 ≤ 0x100 + i ∧ 0x100 + i < q.1 + q.2 := by
  decide +kernel

/-- Every byte of SYM holds nothing and reads 0, or is one of the image. -/
theorem State.readBufferByte_writeSym_cases (s : State) {sym : Sym} (hs : symFits sym) {off : Nat} (hlo : 0x100 ≤ off)
    (hhi : off < 0x1C0) :
    (byteMask off = 0 ∧ (s.writeSym sym).readBufferByte off = 0) ∨
      ∃ p ∈ symImage sym, ∃ i < p.2.length, off = p.1 + i ∧ (s.writeSym sym).readBufferByte off = p.2.getD i 0 := by
  obtain ⟨j, rfl⟩ := Nat.exists_eq_add_of_le hlo
  obtain h0 | ⟨q, hq, hqlo, hqhi⟩ := symSizes_cover j (by omega)
  · exact .inl ⟨h0, State.readBufferByte_unnamed h0⟩
  · rw [← symImage_sizes hs] at hq
    obtain ⟨p, hp, rfl⟩ := List.mem_map.1 hq
    obtain ⟨i, hi⟩ := Nat.exists_eq_add_of_le hqlo
    have hlen : i < p.2.length := by simp only at hqhi hi; omega
    exact .inr ⟨p, hp, i, hlen, hi, hi ▸ s.readBufferByte_writeSym hs hp hlen⟩

/-! ## The three kinds of blocks -/

theorem symImage_error_byte : ∀ p ∈ symImage .error, ∀ i < p.2.length,
    p.2.getD i 0 = if p.1 + i = 0x100 then 1 else 0 := by
  decide

/-- The byte of SYM at an offset after a constant block (R58, R405). -/
def constSymByte (fp16 : Bool) (color : Rgba (BitVec 16)) (off : Nat) : Byte :=
  if off = 0x104 then (if fp16 then 0xFE else 0xFF)
  else if 0x105 ≤ off ∧ off < 0x108 then 0xFF
  else if 0x110 ≤ off ∧ off < 0x118 then (color.chan ((off - 0x110) / 2)).extractLsb' (8 * (off % 2)) 8
  else 0

theorem constSymByte_zero (fp16 : Bool) (color : Rgba (BitVec 16)) {off : Nat} (h1 : off < 0x104 ∨ 0x108 ≤ off)
    (h2 : off < 0x110 ∨ 0x118 ≤ off) : constSymByte fp16 color off = 0 := by
  rw [constSymByte, if_neg (by omega), if_neg (by omega), if_neg (by omega)]

theorem constSymByte_unnamed (fp16 : Bool) (color : Rgba (BitVec 16)) {off : Nat} (h : byteMask off = 0) :
    constSymByte fp16 color off = 0 := by
  have named : ∀ i < 0x014, i < 4 ∨ 12 ≤ i → byteMask (0x104 + i) ≠ 0 := by decide
  refine constSymByte_zero fp16 color ?_ ?_ <;> by_contra hoff
  all_goals
    obtain ⟨i, rfl⟩ : ∃ i, off = 0x104 + i := ⟨off - 0x104, by omega⟩
    exact named i (by omega) (by omega) h

theorem constSymByte_mode (fp16 : Bool) (color : Rgba (BitVec 16)) : ∀ i < 4,
    (leBytes 4 (if fp16 then 0xFFFFFFFE else 0xFFFFFFFF)).getD i 0 = constSymByte fp16 color (0x104 + i) := by
  intro i hi
  obtain rfl | rfl | rfl | rfl : i = 0 ∨ i = 1 ∨ i = 2 ∨ i = 3 := by omega
  all_goals cases fp16 <;> rfl

theorem constSymByte_color (fp16 : Bool) (color : Rgba (BitVec 16)) : ∀ i < 8,
    (color.toList.map fun c => leBytes 2 c.toNat).flatten.getD i 0 = constSymByte fp16 color (0x110 + i) := by
  intro i hi
  simp only [Rgba.toList, List.map_cons, List.map_nil, leBytes_half]
  obtain rfl | rfl | rfl | rfl | rfl | rfl | rfl | rfl :
    i = 0 ∨ i = 1 ∨ i = 2 ∨ i = 3 ∨ i = 4 ∨ i = 5 ∨ i = 6 ∨ i = 7 := by omega
  all_goals rfl

theorem symImage_const_byte (fp16 : Bool) (color : Rgba (BitVec 16)) :
    ∀ p ∈ symImage (.const fp16 color), ∀ i < p.2.length, p.2.getD i 0 = constSymByte fp16 color (p.1 + i) := by
  have zero : ∀ off (bs : List Byte), (off + bs.length ≤ 0x104 ∨ 0x108 ≤ off) →
      (off + bs.length ≤ 0x110 ∨ 0x118 ≤ off) → (∀ i < bs.length, bs.getD i 0 = 0) →
      ∀ i < bs.length, bs.getD i 0 = constSymByte fp16 color (off + i) := by
    intro off bs h1 h2 hz i hi
    rw [hz i hi, constSymByte_zero _ _ (by omega) (by omega)]
  simp only [symImage, List.forall_mem_cons]
  refine ⟨zero _ _ (by decide) (by decide) (by decide), fun i hi => constSymByte_mode fp16 color i (by simpa using hi),
    zero _ _ (by decide) (by decide) (by decide), zero _ _ (by decide) (by decide) (by decide),
    fun i hi => constSymByte_color fp16 color i (by simpa [Rgba.toList] using hi),
    zero _ _ (by decide) (by decide) (by decide), zero _ _ (by decide) (by decide) (by decide),
    zero _ _ (by decide) (by decide) (by decide), nofun⟩

section Normal

variable (s : State) {n : NormalSym}

/-- A byte of a piece of a normal block's image, as a number written little-endian. -/
theorem State.normalByte_number (hs : symFits (.normal n)) {off size v i : Nat}
    (hp : (off, leBytes size v) ∈ symImage (.normal n)) (hi : i < size) :
    ((s.writeSym (.normal n)).readBufferByte (off + i)).toNat = v / 256 ^ i % 256 := by
  rw [s.readBufferByte_writeSym hs hp (by simpa using hi), leBytes_getD v hi, BitVec.toNat_ofNat]

/-- `SYM_CTRL` after a normal block (R57). -/
theorem State.normalByte_ctrl (hs : symFits (.normal n)) :
    let byte := (s.writeSym (.normal n)).readBufferByte
    byte 0x100 = (if n.matched then 8 else 0) ∧ (byte 0x101).toNat = n.pc + 16 * n.ccs.toNat ∧
      (byte 0x102).toNat = n.cq.toNat := by
  intro byte
  have number : ∀ i < 3, (byte (0x100 + i)).toNat = (false.toNat + n.matched.toNat * 2 ^ 3 + n.pc * 2 ^ 8 +
      n.ccs.toNat * 2 ^ 12 + n.cq.toNat * 2 ^ 16) / 256 ^ i % 256 := fun i hi =>
    s.normalByte_number hs (off := offSymCtrl) (by simp [symImage, symCtrlBytes]) hi
  have h0 : (byte 0x100).toNat = _ := number 0 (by decide)
  have h1 : (byte 0x101).toNat = _ := number 1 (by decide)
  have h2 : (byte 0x102).toNat = _ := number 2 (by decide)
  have hpc : n.pc ≤ 4 := hs.1
  have hccs := n.ccs.isLt
  have hcq := n.cq.isLt
  have hm := n.matched.toNat_lt
  simp only [Bool.toNat_false] at h0 h1 h2
  refine ⟨?_, by omega, by omega⟩
  apply BitVec.eq_of_toNat_eq
  rw [h0]
  cases n.matched <;> simp <;> omega

/-- `SYM_CEM` after a normal block (R60). -/
theorem State.normalByte_cem (hs : symFits (.normal n)) {p : Nat} (hp : p < 4) :
    ((s.writeSym (.normal n)).readBufferByte (0x10C + p / 2)).toNat / 16 ^ (p % 2) % 16 = (cemNats n).getD p 0 := by
  have hmem : (offSymCem, leBytes 2 (packFields ((cemNats n).map fun c => (c, 4)))) ∈ symImage (.normal n) := by
    simp [symImage, symCemBytes]
  have hbyte := s.normalByte_number hs hmem (i := p / 2) (by omega)
  rw [← packFields_nibble (cemNats_lt n) p, show 0x10C = offSymCem from rfl, hbyte]
  obtain rfl | rfl | rfl | rfl : p = 0 ∨ p = 1 ∨ p = 2 ∨ p = 3 := by omega
  all_goals
    simp only [Nat.reduceDiv, Nat.reduceMod, Nat.reducePow]
    omega

/-- `SYM_COLOR` after a normal block (R61). -/
theorem State.normalByte_color (hs : symFits (.normal n)) {p k : Nat} (hp : p < 4) (hk : k < 8) :
    (s.writeSym (.normal n)).readBufferByte (0x120 + 8 * p + k) =
      if p < n.pc ∧ k < cemValues ((cemNats n).getD p 0) then
        n.colors.getD ((((cemNats n).take p).map cemValues).sum + k) 0
      else 0 := by
  have hmem : (offSymColor, symColorBytes (cemNats n) n.colors) ∈ symImage (.normal n) := by simp [symImage]
  have hlen : (symColorBytes (cemNats n) n.colors).length = 32 := by
    have hpc : n.cems.length ≤ 4 := hs.1
    rw [symColorBytes, padTo_length]
    rw [symColorBytes_go_length (cemNats_lt n), cemNats, List.length_map]
    omega
  have hpc : (cemNats n).length = n.pc := by simp [cemNats, NormalSym.pc]
  rw [Nat.add_assoc]
  refine (s.readBufferByte_writeSym hs hmem (i := 8 * p + k) (by rw [hlen]; omega)).trans ?_
  rw [symColorBytes, padTo_getD _ (by omega), symColorBytes_go_getD (cemNats_lt n) n.colors p hk, hpc]

/-- A plane of weights after a normal block (R62). -/
theorem State.normalByte_weight (hs : symFits (.normal n)) {off : Nat} {w : List Byte}
    (hp : (off, padTo 64 w) ∈ symImage (.normal n)) (hw : w.length ≤ 64) {i : Nat} (hi : i < 64) :
    (s.writeSym (.normal n)).readBufferByte (off + i) = w.getD i 0 := by
  rw [s.readBufferByte_writeSym hs hp (by rwa [padTo_length hw]), padTo_getD w hi]

end Normal

/-- Settles O35: a byte of SYM is one of the image that was stored, or holds nothing. -/
theorem symLayout : Obligations.SymLayout := by
  refine ⟨fun s off hlo hhi => ?_, fun s fp16 color off hlo hhi => ?_, fun s fp n hwf => ?_⟩
  · obtain ⟨h0, hbyte⟩ | ⟨p, hp, i, hi, rfl, hbyte⟩ := s.readBufferByte_writeSym_cases (sym := .error) trivial hlo hhi
    · rw [hbyte, if_neg (by rintro rfl; exact absurd h0 (by decide))]
    · rw [hbyte, symImage_error_byte p hp i hi]
  · show _ = constSymByte fp16 color off
    obtain ⟨h0, hbyte⟩ | ⟨p, hp, i, hi, rfl, hbyte⟩ :=
      s.readBufferByte_writeSym_cases (sym := .const fp16 color) trivial hlo hhi
    · rw [hbyte, constSymByte_unnamed fp16 color h0]
    · rw [hbyte, symImage_const_byte fp16 color p hp i hi]
  · have hs := normalWf_fits hwf
    have ⟨_, hw0, hw1⟩ := hs
    intro byte
    obtain ⟨h0, h1, h2⟩ := s.normalByte_ctrl hs
    have mode : ∀ i < 4, (byte (0x104 + i)).toNat = n.mode.toNat / 256 ^ i % 256 := fun i hi =>
      s.normalByte_number hs (off := offSymMode) (by simp [symImage]) hi
    have part : ∀ i < 2, (byte (0x108 + i)).toNat = n.partIndex.toNat / 256 ^ i % 256 := fun i hi =>
      s.normalByte_number hs (off := offSymPart) (by simp [symImage]) hi
    have const : ∀ i < 8, byte (0x110 + i) = 0 := by
      intro i hi
      apply BitVec.eq_of_toNat_eq
      refine (s.normalByte_number hs (off := offSymConst) (v := 0) (by simp [symImage]) hi).trans ?_
      simp
    have h4 : (byte 0x104).toNat = _ := mode 0 (by decide)
    have h5 : (byte 0x105).toNat = _ := mode 1 (by decide)
    have h6 : (byte 0x106).toNat = _ := mode 2 (by decide)
    have h7 : (byte 0x107).toNat = _ := mode 3 (by decide)
    have h8 : (byte 0x108).toNat = _ := part 0 (by decide)
    have h9 : (byte 0x109).toNat = _ := part 1 (by decide)
    have hmode := n.mode.isLt
    have hpart := n.partIndex.isLt
    refine ⟨h0, h1, h2, State.readBufferByte_unnamed (by decide), by omega, by omega, ?_, ?_, by omega, by omega,
      fun p hp => s.normalByte_cem hs hp, const, fun p hp k hk => s.normalByte_color hs hp hk,
      fun i hi => s.normalByte_weight hs (off := offSymW0) (by simp [symImage]) hw0 hi,
      fun i hi => s.normalByte_weight hs (off := offSymW1) (by simp [symImage]) hw1 hi⟩
    · apply BitVec.eq_of_toNat_eq
      rw [h6, Nat.div_eq_of_lt (by omega)]
      rfl
    · apply BitVec.eq_of_toNat_eq
      rw [h7, Nat.div_eq_of_lt (by omega)]
      rfl

end Sys2Proof.Machine
end

section
/-! SUPPORT. Accesses to any instance, what bringing one in hand leaves alone, accesses to a busy one, and the obligation
on them. -/

namespace Sys2Proof.Machine

variable {s : State} {addr off n k : Nat} {rest : List Move}

/-! ## Which widths are accesses, both ways (R96) -/

theorem accessLegal_iff : accessLegal off n = true ↔
    if off < 0x040 then n = 4 ∧ off % 4 = 0 else n = 1 ∨ (n = 2 ∧ off % 2 = 0) ∨ (n = 4 ∧ off % 4 = 0) := by
  by_cases hoff : off < 0x040
  · rw [if_pos hoff]
    exact accessLegal_control hoff
  · rw [if_neg hoff]
    refine ⟨accessLegal_buffer (Nat.not_lt.1 hoff), ?_⟩
    rintro (rfl | ⟨rfl, heven⟩ | ⟨rfl, hword⟩) <;> simp_all [accessLegal, Nat.mod_one]

/-! ## Bringing an instance in hand (R485) -/

theorem State.focus_base (s : State) (k : Nat) : (s.focus k).base = instanceStride * k := by
  rw [State.base, s.cur_focus k]

/-- Which instance is in hand is not part of the configuration, the tables or the host's side. -/
theorem State.focus_frame (s : State) (k : Nat) :
    s.sameConfig (s.focus k) ∧ s.sameTables (s.focus k) ∧ (s.focus k).rdata = s.rdata ∧
      (s.focus k).draws = s.draws ∧ (s.focus k).epoch = s.epoch := by
  unfold State.focus
  split <;> simp [State.sameConfig, State.sameTables]

/-! ## A step that makes an access -/

/-- The host's next move is an access of `n` bytes at the bus address `addr`, a read or a write. -/
def State.accessesNext (s : State) (addr n : Nat) (rest : List Move) : Prop :=
  s.script = .read addr n :: rest ∨ ∃ v, s.script = .write addr n v :: rest

theorem State.accessesNext.focus (h : s.accessesNext addr n rest) (k : Nat) : (s.focus k).accessesNext addr n rest := by
  rwa [State.accessesNext, State.focus_script]

/-- Reads and writes find their instance and check their width and alignment alike. -/
theorem State.accessesNext.step_eq (h : s.accessesNext addr n rest) :
    ∃ f, ∀ t : State, t.script = s.script → step t = ({ t with script := rest } : State).access addr n f := by
  obtain hs | ⟨v, hs⟩ := h
  · exact ⟨fun t off => .next (t.busRead off n), fun t ht => step_cons (ht.trans hs)⟩
  · exact ⟨fun t off => t.busWrite off n v, fun t ht => step_cons (ht.trans hs)⟩

/-- An access may as well be made with its instance already in hand. -/
theorem State.accessesNext.step_focus (h : s.accessesNext (instanceStride * k + off) n rest)
    (hoff : off < instanceStride) : step s = step (s.focus k) := by
  obtain ⟨f, hf⟩ := h.step_eq
  have hk : (instanceStride * k + off) / instanceStride = k := by
    rw [Nat.mul_add_div (by decide), Nat.div_eq_of_lt hoff, Nat.add_zero]
  rw [hf s rfl, hf (s.focus k) (s.focus_script k), ← State.focus_withScript]
  exact (State.access_focus _ hk n f).symm

/-- An access of a width or alignment that R96 does not allow (R97). -/
theorem State.accessesNext.step_refused (h : s.accessesNext (s.base + off) n rest) (hk : instanceExists s.cur = true)
    (hoff : off < instanceStride) (hl : ¬accessLegal off n = true) :
    step s = .refused (.accessWidth (s.base + off) n) := by
  obtain ⟨f, hf⟩ := h.step_eq
  rw [hf s rfl]
  refine (State.access_cur (s := { s with script := rest }) hk hoff).trans ?_
  rw [if_neg hl]
  rfl

/-- The same on any instance. -/
theorem State.accessesNext.step_refused_any (h : s.accessesNext (instanceStride * k + off) n rest)
    (hk : instanceExists k = true) (hoff : off < instanceStride) (hl : ¬accessLegal off n = true) :
    step s = .refused (.accessWidth (instanceStride * k + off) n) := by
  rw [h.step_focus hoff]
  have ht := h.focus k
  rw [← s.focus_base k] at ht ⊢
  exact ht.step_refused (by rwa [s.cur_focus k]) hoff hl

/-- A read of an allowed width on any instance. -/
theorem step_read_any (hs : s.script = .read (instanceStride * k + off) n :: rest) (hk : instanceExists k = true)
    (hoff : off < instanceStride) (hl : accessLegal off n = true) :
    step s = .next (({ s.focus k with script := rest } : State).busRead off n) := by
  have h : s.accessesNext (instanceStride * k + off) n rest := .inl hs
  rw [h.step_focus hoff]
  refine step_read ?_ (by rwa [s.cur_focus k]) hoff hl
  rw [State.focus_script, State.focus_base, hs]

/-! ## A busy instance (R99, R521) -/

theorem State.busRead_busy (hb : s.busy = true) (hoff : off ≠ 0x004) :
    s.busRead off n = { s with
      rdata := BitVec.ofNat 32 ((Config.busyRead s.draws).toNat % 2 ^ (8 * n))
      draws := s.draws + 1 } := by
  rw [State.busRead, if_pos]
  simp [hb, hoff]

theorem State.busWrite_busy {v : Word} (hb : s.busy = true) (hoff : off ≠ 0) :
    s.busWrite off n v = .refused (.writeWhileBusy (s.base + off)) := by
  rw [State.busWrite, if_neg hoff, if_pos hb]

/-- Settles O12: an access is made with its instance in hand, and is refused exactly where `accessLegal` fails; a busy
instance then answers any read but that of `STATUS` from the free values. -/
theorem accessRules : Obligations.AccessRules := by
  refine ⟨fun s k off n rest hk hoff => ?_, fun s k off n rest hk hoff h => State.accessesNext.step_focus h hoff,
    fun s k hothers => ?_, fun s off n rest hk hb hoff hl => ?_⟩
  · intro allowed addr
    have hrefused (h : s.accessesNext addr n rest) (hl : ¬allowed) : step s = .refused (.accessWidth addr n) :=
      h.step_refused_any hk hoff (mt accessLegal_iff.1 hl)
    exact ⟨fun hs => ⟨fun hl => ⟨_, step_read_any hs hk hoff (accessLegal_iff.2 hl)⟩, hrefused (.inl hs)⟩,
      fun v hs => hrefused (.inr ⟨v, hs⟩)⟩
  · obtain ⟨hconfig, htables, hhost⟩ := s.focus_frame k
    exact ⟨s.cur_focus k, s.focus_base k, s.focus_inst k, State.instOf_focus hothers k, hconfig, htables,
      s.focus_mem k, s.focus_script k, hhost⟩
  · refine ⟨fun hs hstatus => ?_, fun v hs hcmd => ?_⟩
    · rw [step_read hs hk hoff hl, State.busRead_busy (s := { s with script := rest }) hb hstatus]
    · rw [step_write hs hk hoff hl, State.busWrite_busy (s := { s with script := rest }) hb hcmd]
      rfl

end Sys2Proof.Machine
end

section
/-! SUPPORT. Command words and physical blocks as bytes and as instructions, both ways, and the obligations on them. -/

namespace Sys2Proof.Machine

open BitVec (extractLsb'_append_eq_of_le extractLsb'_append_eq_of_add_le
  extractLsb'_append_extractLsb'_eq_extractLsb')

variable {w : Word} {i : Instr}

/-- A field of a field. -/
theorem extractLsb'_extractLsb' {n : Nat} (x : BitVec n) {lo lo' len len' : Nat} (h : lo + len ≤ len') :
    (x.extractLsb' lo' len').extractLsb' lo len = x.extractLsb' (lo' + lo) len := by
  apply BitVec.eq_of_getLsbD_eq
  intro j hj
  simp [hj, show lo + j < len' by omega, Nat.add_assoc]

/-! ## Bytes

A concatenation keeps the widths of its parts in its type; `Nat.reduceAdd` would add them up, and the lemmas on
concatenations would not apply any more. -/

theorem bytesOfWord_append (b0 b1 b2 b3 : Byte) : bytesOfWord (b3 ++ b2 ++ b1 ++ b0) = [b0, b1, b2, b3] := by
  simp [bytesOfWord, List.range, List.range.loop, extractLsb'_append_eq_of_le, extractLsb'_append_eq_of_add_le,
    -Nat.reduceAdd]

/-- Sixteen bytes are those of the block they make (R16, R91). -/
theorem bytesOfBlock_blockOfBytes {bs : List Byte} (h : bs.length = 16) : bytesOfBlock (blockOfBytes bs) = bs := by
  refine List.ext_getElem (by simp [h]) fun k hk _ => ?_
  have hbyte := leNat_byte bs k
  simp only [bytesOfBlock_length] at hk
  simp only [bytesOfBlock, List.getElem_map, List.getElem_range]
  apply BitVec.eq_of_getLsbD_eq
  intro j hj
  have hbit : (leNat bs).testBit (8 * k + j) = (leNat bs / 256 ^ k % 256).testBit j := by
    rw [show 256 = 2 ^ 8 from rfl, ← Nat.pow_mul, Nat.testBit_mod_two_pow, Nat.testBit_div_two_pow, Nat.add_comm]
    simp [hj]
  show ((BitVec.ofNat 128 (leNat bs)).extractLsb' (8 * k) 8).getLsbD j = _
  rw [BitVec.getLsbD_extractLsb', BitVec.getLsbD_ofNat, hbit, hbyte, List.getD_eq_getElem _ _ (by omega)]
  simp [hj, show 8 * k + j < 128 by omega, BitVec.getLsbD]

/-! ## Command words -/

theorem requireZero_ok {z : Bool} {op : Byte} {j : Instr} (h : requireZero z op j = .ok i) : z = true ∧ j = i := by
  unfold requireZero at h
  split at h
  · exact ⟨‹_›, Except.ok.inj h⟩
  · cases h

theorem decodeCommand_reserved (h : 0x0B ≤ (w.extractLsb' 0 8).toNat) :
    decodeCommand w = .ok (.reservedOp (w.extractLsb' 0 8) (w.extractLsb' 8 24)) := by
  unfold decodeCommand
  dsimp only
  split
  case h_12 => rfl
  all_goals omega

/-- A command word made from the encoding tables decodes to the command it was made for (R121 to R123). -/
theorem decode_encode_command (hw : i.wf = true) (hi : i.isBlock = false) : decode (encode i) = .ok i := by
  cases i with
  | reservedOp op operands =>
    have hop : (operands ++ op).extractLsb' 0 8 = op := BitVec.extractLsb'_append_eq_right
    refine (decode_bytesOfWord (operands ++ op)).trans ((decodeCommand_reserved ?_).trans ?_)
    · rw [hop]
      simpa [Instr.wf] using hw
    · rw [hop, BitVec.extractLsb'_append_eq_left]
  | physVoidExtent | physNormal1p | physNormalMp => cases hi
  | _ =>
    refine (decode_bytesOfWord _).trans ?_
    simp [decodeCommand, requireZero, extractLsb'_append_eq_of_le, extractLsb'_append_eq_of_add_le,
      extractLsb'_append_extractLsb'_eq_extractLsb', -Nat.reduceAdd, -BitVec.extractLsb'_toNat]

theorem opcode_eq {k : Nat} (hk : k < 256) (h : (w.extractLsb' 0 8).toNat = k) :
    BitVec.ofNat 8 k = w.extractLsb' 0 8 := BitVec.eq_of_toNat_eq (by simpa [Nat.mod_eq_of_lt hk] using h.symm)

theorem word_eq_append (w : Word) : w.extractLsb' 8 24 ++ w.extractLsb' 0 8 = w := BitVec.extractLsb'_append_extractLsb'

/-- A command decoded from a word is well formed and has the bytes of that word. -/
theorem encode_decodeCommand (h : decodeCommand w = .ok i) : i.wf = true ∧ encode i = bytesOfWord w := by
  unfold decodeCommand at h
  dsimp only at h
  split at h
  case h_1 hop | h_2 hop | h_4 hop | h_5 hop =>
    obtain ⟨hz, rfl⟩ := requireZero_ok h
    refine ⟨rfl, ?_⟩
    rw [← word_eq_append w, ← opcode_eq (by decide) hop, eq_of_beq hz]
    rfl
  case h_12 =>
    cases h
    refine ⟨?_, ?_⟩
    · simp only [Instr.wf, decide_eq_true_eq]
      grind
    · rw [encode, word_eq_append w]
  all_goals
    rename_i hop
    obtain ⟨hz, rfl⟩ := requireZero_ok h
    simp only [Bool.and_eq_true, beq_iff_eq, BitVec.ofNat_eq_ofNat] at hz
    refine ⟨rfl, ?_⟩
    simp [encode, ← hz, opcode_eq (by decide) hop, extractLsb'_append_eq_of_le, extractLsb'_append_eq_of_add_le,
      extractLsb'_append_extractLsb'_eq_extractLsb', extractLsb'_extractLsb', -Nat.reduceAdd, -BitVec.extractLsb'_toNat]

/-! ## Physical blocks -/

theorem voidExtentBlock_fields {blk : Block} (h : blk.extractLsb' 0 9 = 0x1FC#9) :
    voidExtentBlock (blk.extractLsb' 9 1) (blk.extractLsb' 10 2) (blk.extractLsb' 12 13) (blk.extractLsb' 25 13)
      (blk.extractLsb' 38 13) (blk.extractLsb' 51 13) (blk.extractLsb' 64 16) (blk.extractLsb' 80 16)
      (blk.extractLsb' 96 16) (blk.extractLsb' 112 16) = blk := by
  simp [voidExtentBlock, ← h, extractLsb'_append_extractLsb'_eq_extractLsb', -Nat.reduceAdd]

theorem normal1pBlock_fields {blk : Block} (h : blk.extractLsb' 11 2 = 0#2) :
    normal1pBlock (blk.extractLsb' 0 11) (blk.extractLsb' 13 4) (blk.extractLsb' 17 111) = blk := by
  simp [normal1pBlock, ← h, extractLsb'_append_extractLsb'_eq_extractLsb', -Nat.reduceAdd]

theorem normalMpBlock_fields (blk : Block) :
    normalMpBlock (blk.extractLsb' 0 11) (blk.extractLsb' 11 2) (blk.extractLsb' 13 10) (blk.extractLsb' 23 6)
      (blk.extractLsb' 29 99) = blk := by
  simp [normalMpBlock, extractLsb'_append_extractLsb'_eq_extractLsb', -Nat.reduceAdd]

/-- A block is laid out by the fields it is read in (R135 to R137). -/
theorem encode_decodeBlock (blk : Block) : encode (decodeBlock blk) = bytesOfBlock blk := by
  unfold decodeBlock
  split
  · rw [encode, voidExtentBlock_fields (eq_of_beq ‹_›)]
  split
  · rw [encode, normal1pBlock_fields (eq_of_beq ‹_›)]
  · rw [encode, normalMpBlock_fields]

theorem decodeBlock_wf (blk : Block) : (decodeBlock blk).wf = true := by
  have hmode : voidExtentMark (blk.extractLsb' 0 11) = (blk.extractLsb' 0 9 == 0x1FC#9) := by
    rw [voidExtentMark, extractLsb'_extractLsb' _ (by decide)]
  unfold decodeBlock
  split
  · rfl
  split <;> simp_all [Instr.wf]

theorem decodeBlock_voidExtentBlock (f : BitVec 1) (v : BitVec 2) (s0 s1 t0 t1 : BitVec 13) (r g b a : BitVec 16) :
    decodeBlock (voidExtentBlock f v s0 s1 t0 t1 r g b a) = .physVoidExtent f v s0 s1 t0 t1 r g b a := by
  simp [decodeBlock, voidExtentBlock, extractLsb'_append_eq_of_le, extractLsb'_append_eq_of_add_le, -Nat.reduceAdd]

theorem decodeBlock_normal1pBlock {m : BitVec 11} (hm : voidExtentMark m = false) (c : BitVec 4) (x : BitVec 111) :
    decodeBlock (normal1pBlock m c x) = .physNormal1p m c x := by
  simp_all [decodeBlock, normal1pBlock, voidExtentMark, extractLsb'_append_eq_of_le, extractLsb'_append_eq_of_add_le,
    -Nat.reduceAdd]

theorem decodeBlock_normalMpBlock {m : BitVec 11} (hm : voidExtentMark m = false) {k : BitVec 2} (hk : k ≠ 0)
    (p : BitVec 10) (c : BitVec 6) (x : BitVec 99) :
    decodeBlock (normalMpBlock m k p c x) = .physNormalMp m k p c x := by
  simp_all [decodeBlock, normalMpBlock, voidExtentMark, extractLsb'_append_eq_of_le, extractLsb'_append_eq_of_add_le,
    -Nat.reduceAdd]

/-- A block made from the encoding tables is read as the layout it was made for (R137). -/
theorem decode_encode_block (hw : i.wf = true) (hi : i.isBlock = true) : decode (encode i) = .ok i := by
  cases i with
  | physVoidExtent f v s0 s1 t0 t1 r g b a =>
    rw [encode, decode_bytesOfBlock, decodeBlock_voidExtentBlock]
  | physNormal1p m c x =>
    rw [encode, decode_bytesOfBlock, decodeBlock_normal1pBlock (by simpa [Instr.wf] using hw)]
  | physNormalMp m k p c x =>
    simp only [Instr.wf, Bool.and_eq_true, Bool.not_eq_true', bne_iff_ne] at hw
    rw [encode, decode_bytesOfBlock, decodeBlock_normalMpBlock hw.1 hw.2]
  | _ => cases hi

/-! ## Both ways -/

/-- Bytes that decode are the four of a command word or the sixteen of a block (R120, R137). -/
theorem decode_ok {bs : List Byte} (h : decode bs = .ok i) :
    (∃ w : Word, bs = bytesOfWord w ∧ decodeCommand w = .ok i) ∨
      bs = bytesOfBlock (blockOfBytes bs) ∧ i = decodeBlock (blockOfBytes bs) := by
  unfold decode at h
  split at h
  · exact .inl ⟨_, (bytesOfWord_append _ _ _ _).symm, h⟩
  split at h
  · exact .inr ⟨(bytesOfBlock_blockOfBytes ‹_›).symm, (Except.ok.inj h).symm⟩
  · cases h

/-- Settles O6: a command word and a block are read in the fields they are laid out by, and bytes that decode are those
of a word or of a block. -/
theorem decodeEncode : Obligations.DecodeEncode := by
  refine ⟨fun i hw => ?_, fun bs i h => ?_⟩
  · cases hi : i.isBlock with
    | false => exact decode_encode_command hw hi
    | true => exact decode_encode_block hw hi
  · obtain ⟨w, rfl, hw⟩ | ⟨hbs, rfl⟩ := decode_ok h
    · exact encode_decodeCommand hw
    · exact ⟨decodeBlock_wf _, (encode_decodeBlock _).trans hbs.symm⟩

/-! ## Illegal words (R123) -/

/-- The word with ones in the field of `n` bits from `lo` on. -/
def onesAt (lo n : Nat) : Word := BitVec.ofNat 32 ((2 ^ n - 1) * 2 ^ lo)

theorem getLsbD_onesAt (lo n j : Nat) :
    (onesAt lo n).getLsbD j = (decide (j < 32) && (decide (lo ≤ j) && decide (j - lo < n))) := by
  rw [onesAt, BitVec.getLsbD_ofNat, Nat.testBit_mul_two_pow, Nat.testBit_two_pow_sub_one]

theorem and_onesAt (w : Word) {lo n : Nat} (h : lo + n ≤ 32) : w &&& onesAt lo n = 0 ↔ w.extractLsb' lo n = 0 := by
  simp only [BitVec.ofNat_eq_ofNat, BitVec.eq_of_getLsbD_eq_iff, BitVec.getLsbD_and, getLsbD_onesAt,
    BitVec.getLsbD_extractLsb', BitVec.getLsbD_zero]
  refine ⟨fun hw j hj => ?_, fun hw j hj => ?_⟩
  · have := hw (lo + j) (by omega)
    simp_all [show lo + j < 32 by omega]
  · by_cases hin : lo ≤ j ∧ j - lo < n
    · have := hw (j - lo) hin.2
      simp_all
    · simp_all

theorem and_onesAt_two (w : Word) {lo n lo' n' : Nat} (h : lo + n ≤ 32) (h' : lo' + n' ≤ 32) :
    w &&& (onesAt lo n ||| onesAt lo' n') = 0 ↔ w.extractLsb' lo n = 0 ∧ w.extractLsb' lo' n' = 0 := by
  rw [BitVec.and_or_distrib_left, ← and_onesAt w h, ← and_onesAt w h']
  exact BitVec.or_eq_zero_iff

theorem unnamedBits_reserved {op : Nat} (h : 0x0B ≤ op) : unnamedBits op = 0 := by
  unfold unnamedBits
  split
  case h_12 => rfl
  all_goals omega

theorem requireZero_isOk {z : Bool} {op : Byte} {j : Instr} : (∃ i, requireZero z op j = .ok i) ↔ z = true := by
  cases z <;> simp [requireZero]

/-- A word is a command unless it has a bit set that the row of its opcode does not name. -/
theorem decodeCommand_isOk :
    (∃ i, decodeCommand w = .ok i) ↔ w &&& unnamedBits (w.extractLsb' 0 8).toNat = 0 := by
  unfold decodeCommand
  dsimp only
  split
  case h_12 =>
    rw [unnamedBits_reserved (by grind)]
    simp
  case h_6 hop | h_8 hop =>
    rw [hop, requireZero_isOk, Bool.and_eq_true, beq_iff_eq, beq_iff_eq]
    exact (and_onesAt_two w (by decide) (by decide)).symm
  all_goals
    rename_i hop
    rw [hop, requireZero_isOk, beq_iff_eq]
    exact (and_onesAt w (by decide)).symm

/-- A word with a reserved opcode, or with a bit set that its row does not name, does nothing but report
ILLEGAL_COMMAND. -/
theorem State.runCommand_illegal {s : State} (hr : s.inst.running = some w)
    (h : 0x0B ≤ (w.extractLsb' 0 8).toNat ∨ w &&& unnamedBits (w.extractLsb' 0 8).toNat ≠ 0) :
    s.runCommand = .next { s with inst := s.inst.ended .illegalCommand } := by
  simp only [State.runCommand, hr, decode_bytesOfWord]
  obtain hop | hbits := h
  · rw [decodeCommand_reserved hop]
    rfl
  · cases hd : decodeCommand w with
    | error e => rfl
    | ok i => exact absurd (decodeCommand_isOk.1 ⟨i, hd⟩) hbits

/-- The opcode of a reserved instruction is a reserved one. -/
theorem opcode_of_decodeCommand_reserved {op : Byte} {x : BitVec 24} (h : decodeCommand w = .ok (.reservedOp op x)) :
    0x0B ≤ (w.extractLsb' 0 8).toNat := by
  obtain ⟨hwf, hbytes⟩ := encode_decodeCommand h
  have hop : some ((x ++ op).extractLsb' 0 8) = some (w.extractLsb' 0 8) := congrArg List.head? hbytes
  rw [← Option.some.inj hop, BitVec.extractLsb'_append_eq_right]
  simpa [Instr.wf] using hwf

/-- Settles O7: the running word is a reserved opcode or is rejected; a word that is neither decodes to a command. -/
theorem illegalCommands : Obligations.IllegalCommands := by
  refine ⟨fun s u w hc h => ?_, fun w hop hbits => ?_, fun op x s => rfl⟩
  · rw [step_completesIn hc, State.runCommand_illegal hc.running h]
  · obtain ⟨i, hi⟩ := decodeCommand_isOk.2 hbits
    refine ⟨i, (decode_bytesOfWord w).trans hi, ?_⟩
    rintro op x rfl
    exact absurd (opcode_of_decodeCommand_reserved hi) (Nat.not_le.2 hop)

/-! ## Physical blocks as instructions -/

theorem readBits_eq (blk : Block) (lo n : Nat) : readBits blk lo n = (blk.extractLsb' lo n).toNat := by
  rw [readBits, field, BitVec.extractLsb'_toNat, Nat.shiftRight_eq_div_pow]

/-- What UNPACK and the physical blocks end in (R291). -/
theorem State.unpacked_complete (s : State) (sym : Sym) : (s.unpacked sym).complete = .next { s with
    mem := (s.writeSym sym).mem
    inst := { s.inst.ended .ok with errblk := decide (sym = .error) } } := by
  rw [State.unpacked, State.writeSym_eq]
  rfl

/-- The layout of a block as an instruction reads that block (log entry 20). -/
theorem exec_decodeBlock (blk : Block) (s : State) :
    exec (decodeBlock blk) s = s.withTables fun fp => (s.unpacked (readBlock fp blk)).complete := by
  have hmark : readBits blk 0 9 = 0x1FC ↔ blk.extractLsb' 0 9 = 0x1FC#9 := by
    rw [readBits_eq, ← BitVec.toNat_inj]
    rfl
  unfold decodeBlock
  split
  · rename_i h
    simp only [exec, execPhysVoidExtent, voidExtentBlock_fields (eq_of_beq h), readBlock,
      if_pos (hmark.2 (eq_of_beq h))]
  · rename_i h
    have hnormal (fp : Footprint) : readBlock fp blk = readNormal fp blk :=
      if_neg (mt hmark.1 fun h' => h (beq_iff_eq.2 h'))
    simp only [hnormal]
    split
    · simp only [exec, execPhysNormal1p, normal1pBlock_fields (eq_of_beq ‹_›)]
    · simp only [exec, execPhysNormalMp, normalMpBlock_fields]

/-- Settles O31: a layout of a block has the effect of UNPACK on the block it lays out. -/
theorem physBlocks : Obligations.PhysBlocks := by
  refine ⟨fun s fp f v s0 s1 t0 t1 r g b a hfp => ?_, fun s fp m c x hfp => ?_, fun s fp m n p c x hfp => ?_,
    fun s bs i hload hi => ?_⟩
  · exact (State.withTables_valid hfp _).trans (s.unpacked_complete _)
  · exact (State.withTables_valid hfp _).trans (s.unpacked_complete _)
  · exact (State.withTables_valid hfp _).trans (s.unpacked_complete _)
  · have hphys : s.readPhys = .ok (blockOfBytes bs) := by rw [State.readPhys, hload]
    have hbs := bytesOfBlock_blockOfBytes (Memory.readList_eq_ok.1 hload).1
    obtain rfl : decodeBlock (blockOfBytes bs) = i := by
      rw [← hbs, decode_bytesOfBlock] at hi
      exact Except.ok.inj hi
    rw [exec_decodeBlock, exec, execUnpack, hphys]
    rfl

/-! ## Words written out -/

/-- Settles O5: each word by evaluation. -/
theorem wordsDecode : Obligations.WordsDecode := by
  unfold Obligations.WordsDecode
  decide

end Sys2Proof.Machine
end

section
/-! SUPPORT. The block-mode table (R130 to R134, R176, R180): what each row decodes to, which modes are legal, and the
obligation on it. -/

namespace Sys2Proof.Machine

variable {m : Nat} {fp : Footprint} {b : BlockMode}

/-! ## The rows of R130 -/

/-- The grid of a mode with `M[1:0]` not 0, by the fields `M[3:2]`, `M[6:5]` and `M[8:7]` (R130). -/
def lowGrid (mid A B : Nat) : Grid :=
  if mid = 0 then ⟨B + 4, A + 2⟩
  else if mid = 1 then ⟨B + 8, A + 2⟩
  else if mid = 2 then ⟨A + 2, B + 8⟩
  else if B < 2 then ⟨A + 2, B + 6⟩
  else ⟨B, A + 2⟩

/-- The grid of a mode with `M[1:0]` 0 and `M[8:7]` not 2, by the fields `M[6:5]` and `M[8:7]` (R130). -/
def highGrid (A B : Nat) : Grid :=
  if B = 0 then ⟨12, A + 2⟩ else if B = 1 then ⟨A + 2, 12⟩ else if A = 0 then ⟨6, 10⟩ else ⟨10, 6⟩

theorem field_two_cases (m lo : Nat) : field m lo 2 = 0 ∨ field m lo 2 = 1 ∨ field m lo 2 = 2 ∨ field m lo 2 = 3 := by
  have : field m lo 2 < 4 := field_lt m lo 2
  omega

theorem field_mark (h : field m 0 9 = 0x1FC) :
    field m 0 2 = 0 ∧ field m 2 2 = 3 ∧ field m 5 2 = 3 ∧ field m 7 2 = 3 := by
  simp only [field] at *
  omega

theorem decodeMode_low (h : field m 0 2 ≠ 0) : decodeMode m = some ⟨lowGrid (field m 2 2) (field m 5 2) (field m 7 2),
    bit m 10 == 1, weightLevelOf (field m 0 2 * 2 + bit m 4) (bit m 9)⟩ := by
  have hmark : field m 0 9 ≠ 0x1FC := fun hm => h (field_mark hm).1
  obtain hmid | hmid | hmid | hmid := field_two_cases m 2
  · simp [decodeMode, lowGrid, *]
  · simp [decodeMode, lowGrid, *]
  · simp [decodeMode, lowGrid, *]
  · have h7 : bit m 7 = field m 7 2 % 2 := by simp only [bit, field]; omega
    have h8 : bit m 8 = field m 7 2 / 2 := by simp only [bit, field]; omega
    obtain hB | hB | hB | hB := field_two_cases m 7 <;> simp [decodeMode, lowGrid, *]

theorem decodeMode_high (h : field m 0 2 = 0) (h2 : field m 2 2 ≠ 0) (hB : field m 7 2 ≠ 2)
    (hA : field m 7 2 = 3 → field m 5 2 < 2) : decodeMode m = some ⟨highGrid (field m 5 2) (field m 7 2),
    bit m 10 == 1, weightLevelOf (field m 2 2 * 2 + bit m 4) (bit m 9)⟩ := by
  have hmark : field m 0 9 ≠ 0x1FC := fun hm => by
    obtain ⟨-, -, h5, h7⟩ := field_mark hm
    exact absurd (hA h7) (by omega)
  obtain hv | hv | hv | hv := field_two_cases m 7
  · simp [decodeMode, highGrid, *]
  · simp [decodeMode, highGrid, *]
  · exact absurd hv hB
  · obtain h5 | h5 : field m 5 2 = 0 ∨ field m 5 2 = 1 := by
      have := hA hv
      omega
    · simp [decodeMode, highGrid, *]
    · simp [decodeMode, highGrid, *]

theorem decodeMode_wide (h : field m 0 2 = 0) (h2 : field m 2 2 ≠ 0) (hB : field m 7 2 = 2) :
    decodeMode m = some ⟨⟨field m 5 2 + 6, field m 9 2 + 6⟩, false, weightLevelOf (field m 2 2 * 2 + bit m 4) 0⟩ := by
  have hmark : field m 0 9 ≠ 0x1FC := fun hm => by
    obtain ⟨-, -, -, h7⟩ := field_mark hm
    omega
  simp [decodeMode, *]

/-- The reserved patterns, the void extent among them (R132, R133). -/
theorem decodeMode_reserved (h : field m 0 2 = 0) (hr : field m 2 2 = 0 ∨ field m 7 2 = 3 ∧ 2 ≤ field m 5 2) :
    decodeMode m = none := by
  obtain h2 | ⟨hB, hA⟩ := hr
  · simp [decodeMode, *]
  · simp [decodeMode, *, show field m 5 2 ≠ 0 by omega, show field m 5 2 ≠ 1 by omega]

/-- Every mode is of one of the three kinds or reserved. -/
theorem decodeMode_kind (m : Nat) : field m 0 2 ≠ 0 ∨
    (field m 0 2 = 0 ∧ field m 2 2 ≠ 0 ∧ field m 7 2 ≠ 2 ∧ (field m 7 2 = 3 → field m 5 2 < 2)) ∨
    (field m 0 2 = 0 ∧ field m 2 2 ≠ 0 ∧ field m 7 2 = 2) ∨
    (field m 0 2 = 0 ∧ (field m 2 2 = 0 ∨ field m 7 2 = 3 ∧ 2 ≤ field m 5 2)) := by
  omega

theorem decodeMode_none : decodeMode m = none ↔
    field m 0 2 = 0 ∧ (field m 2 2 = 0 ∨ field m 7 2 = 3 ∧ 2 ≤ field m 5 2) := by
  refine ⟨fun hn => ?_, fun h => decodeMode_reserved h.1 h.2⟩
  obtain h | ⟨h, h2, hB, hA⟩ | ⟨h, h2, hB⟩ | h := decodeMode_kind m
  · rw [decodeMode_low h] at hn
    cases hn
  · rw [decodeMode_high h h2 hB hA] at hn
    cases hn
  · rw [decodeMode_wide h h2 hB] at hn
    cases hn
  · exact h

theorem lowGrid_ge {mid A B : Nat} : 2 ≤ (lowGrid mid A B).w ∧ 2 ≤ (lowGrid mid A B).h := by
  unfold lowGrid
  split_ifs <;> dsimp only <;> omega

theorem highGrid_ge {A B : Nat} : 2 ≤ (highGrid A B).w ∧ 2 ≤ (highGrid A B).h := by
  unfold highGrid
  split_ifs <;> dsimp only <;> omega

theorem decodeMode_grid_ge (hm : decodeMode m = some b) : 2 ≤ b.grid.w ∧ 2 ≤ b.grid.h := by
  obtain h | ⟨h, h2, hB, hA⟩ | ⟨h, h2, hB⟩ | h := decodeMode_kind m
  · rw [decodeMode_low h] at hm
    cases hm
    exact lowGrid_ge
  · rw [decodeMode_high h h2 hB hA] at hm
    cases hm
    exact highGrid_ge
  · rw [decodeMode_wide h h2 hB] at hm
    cases hm
    exact ⟨Nat.le_add_left 2 _, Nat.le_add_left 2 _⟩
  · rw [decodeMode_none.2 h] at hm
    cases hm

/-! ## Legal modes (R180) -/

theorem BlockMode.weightCount_eq (b : BlockMode) : b.weightCount = b.grid.w * b.grid.h * (if b.dual then 2 else 1) := by
  rw [BlockMode.weightCount]
  cases b.dual <;> rfl

theorem blockMode_some_iff : blockMode fp m = some b ↔ decodeMode m = some b ∧ b.weightCount ≤ 64 ∧
    24 ≤ b.weightBits ∧ b.weightBits ≤ 96 ∧ b.grid.w ≤ fp.bw ∧ b.grid.h ≤ fp.bh := by
  simp only [blockMode, Option.filter_eq_some_iff, BlockMode.legal, weightBitsLegal, BlockMode.weightBits,
    Bool.and_eq_true, decide_eq_true_eq, and_assoc]
  rfl

theorem Footprint.valid_le (h : fp.valid = true) : fp.bw ≤ 12 ∧ fp.bh ≤ 12 := by
  have : ∀ fp ∈ Footprint.all, fp.bw ≤ 12 ∧ fp.bh ≤ 12 := by decide
  exact this fp (by simpa [Footprint.valid] using h)

theorem mem_decimationModes {g : Grid} : g ∈ decimationModes fp ↔
    (2 ≤ g.w ∧ g.w < 13) ∧ (2 ≤ g.h ∧ g.h < 13) ∧ g.w ≤ fp.bw ∧ g.h ≤ fp.bh ∧ g.w * g.h ≤ 64 := by
  obtain ⟨w, h⟩ := g
  simp only [decimationModes, List.mem_flatMap, List.mem_range'_1, List.mem_map, List.mem_filter, Bool.and_eq_true,
    decide_eq_true_eq, Grid.mk.injEq, and_assoc]
  constructor
  · rintro ⟨w, hw, hw', h, hh, hh', hbw, hbh, hwh, rfl, rfl⟩
    exact ⟨hw, hw', hh, hh', hbw, hbh, hwh⟩
  · rintro ⟨hw, hw', hh, hh', hbw, hbh, hwh⟩
    exact ⟨w, hw, hw', h, hh, hh', hbw, hbh, hwh, rfl, rfl⟩

/-- A valid mode has the bounds of R180 and R182, and its grid is a decimation mode (R176). -/
theorem blockMode_bounds (hfp : fp.valid = true) (h : blockMode fp m = some b) :
    2 ≤ b.grid.w ∧ b.grid.w ≤ fp.bw ∧ 2 ≤ b.grid.h ∧ b.grid.h ≤ fp.bh ∧ b.weightCount ≤ 64 ∧ b.wq ≤ 11 ∧
      24 ≤ b.weightBits ∧ b.weightBits ≤ 96 ∧ (decimationModes fp)[decimationId fp b.grid]? = some b.grid := by
  obtain ⟨hm, hcount, hlo, hhi, hw, hh⟩ := blockMode_some_iff.1 h
  obtain ⟨hbw, hbh⟩ := Footprint.valid_le hfp
  obtain ⟨hw2, hh2⟩ := decodeMode_grid_ge hm
  refine ⟨hw2, hw, hh2, hh, hcount, Nat.le_of_lt_succ (decodeMode_wq_lt hm), hlo, hhi, List.getElem?_idxOf ?_⟩
  exact mem_decimationModes.2 ⟨⟨hw2, by omega⟩, ⟨hh2, by omega⟩, hw, hh, (blockMode_weights h).2⟩

/-! ## The rows by their field values -/

section Rows

variable {mid R A B hp d : Nat}

theorem weightLevelOf_halves (R hp : Nat) : weightLevelOf (R / 2 * 2 + R % 2) hp = R - 2 + 6 * hp := by
  rw [weightLevelOf, Nat.div_add_mod']

/-- The fields of a mode put together from them. -/
theorem mode_fields {low mid r A B hp d : Nat} (hlow : low < 4) (hmid : mid < 4) (hr : r < 2) (hA : A < 4) (hB : B < 4)
    (hhp : hp < 2) (hd : d < 2)
    (hm : m = low + 4 * mid + 16 * r + 32 * A + 128 * B + 512 * hp + 1024 * d) :
    field m 0 2 = low ∧ field m 2 2 = mid ∧ bit m 4 = r ∧ field m 5 2 = A ∧ field m 7 2 = B ∧ bit m 9 = hp ∧
      bit m 10 = d ∧ field m 9 2 = hp + 2 * d := by
  simp only [field, bit, hm]
  omega

theorem decodeMode_lowRow (hhp : hp < 2) (hd : d < 2) (hR2 : 2 ≤ R) (hR : R < 8) (hA : A < 4) (hB : B < 4)
    (hmid : mid < 4) (hm : m = R / 2 + 4 * mid + 16 * (R % 2) + 32 * A + 128 * B + 512 * hp + 1024 * d) :
    decodeMode m = some ⟨lowGrid mid A B, decide (d = 1), R - 2 + 6 * hp⟩ := by
  obtain ⟨h0, h2, h4, h5, h7, h9, h10, -⟩ :=
    mode_fields (low := R / 2) (r := R % 2) (by omega) hmid (by omega) hA hB hhp hd hm
  rw [decodeMode_low (by omega), h0, h2, h4, h5, h7, h9, h10, weightLevelOf_halves]
  rfl

theorem decodeMode_highRow (hhp : hp < 2) (hd : d < 2) (hR2 : 2 ≤ R) (hR : R < 8) (hA : A < 4) (hB : B < 4)
    (hB2 : B ≠ 2) (hA2 : B = 3 → A < 2)
    (hm : m = 4 * (R / 2) + 16 * (R % 2) + 32 * A + 128 * B + 512 * hp + 1024 * d) :
    decodeMode m = some ⟨highGrid A B, decide (d = 1), R - 2 + 6 * hp⟩ := by
  obtain ⟨h0, h2, h4, h5, h7, h9, h10, -⟩ :=
    mode_fields (m := m) (low := 0) (mid := R / 2) (r := R % 2) (by omega) (by omega) (by omega) hA hB hhp hd (by omega)
  rw [decodeMode_high h0 (by omega) (by omega) (by omega), h2, h4, h5, h7, h9, h10, weightLevelOf_halves]
  rfl

theorem decodeMode_wideRow (hR2 : 2 ≤ R) (hR : R < 8) (hA : A < 4) (hB : B < 4)
    (hm : m = 4 * (R / 2) + 16 * (R % 2) + 32 * A + 256 + 512 * B) :
    decodeMode m = some ⟨⟨A + 6, B + 6⟩, false, R - 2⟩ := by
  obtain ⟨h0, h2, h4, h5, h7, -, -, h9⟩ :=
    mode_fields (m := m) (low := 0) (mid := R / 2) (r := R % 2) (B := 2) (hp := B % 2) (d := B / 2) (by omega)
      (by omega) (by omega) hA (by omega) (by omega) (by omega) (by omega)
  rw [decodeMode_wide h0 (by omega) h7, h2, h4, h5, h9, weightLevelOf_halves, Nat.mod_add_div]
  rfl

end Rows

/-- Settles O26: each row is read in its fields, every other field value is reserved, and validity is R180's; the
modes of section 5 by evaluation. -/
theorem blockModeTable : Obligations.BlockModeTable := by
  refine ⟨fun hp hhp d hd R hR2 hR A hA B hB => ?_, fun m hm => ?_, fun fp m b => ?_, fun fp hfp m _ b h => ?_,
    by decide, by decide, by decide, by decide, by decide⟩
  · have low {m : Nat} (mid B : Nat) (hmid : mid < 4) (hB : B < 4) :=
      decodeMode_lowRow (m := m) hhp hd hR2 hR hA hB hmid
    have high {m : Nat} (B : Nat) (hB : B < 4) (hB2 : B ≠ 2) (hA2 : B = 3 → A < 2) :=
      decodeMode_highRow (m := m) hhp hd hR2 hR hA hB hB2 hA2
    intro gives upper first second
    refine ⟨low 0 B (by decide) hB (by omega), low 1 B (by decide) hB (by omega), low 2 B (by decide) hB (by omega),
      fun hB2 => ⟨?_, ?_⟩, high 0 (by decide) (by decide) nofun (by omega),
      high 1 (by decide) (by decide) nofun (by omega), decodeMode_wideRow hR2 hR hA hB rfl, ?_, ?_⟩
    · refine (low 3 B (by decide) hB (by omega)).trans ?_
      simp [lowGrid, hB2]
    · refine (low 3 (B + 2) (by decide) (by omega) (by omega)).trans ?_
      simp [lowGrid]
    · rintro rfl
      exact high 3 (by decide) (by decide) (by omega) (by omega)
    · rintro rfl
      exact high 3 (by decide) (by decide) (by omega) (by omega)
  · rw [decodeMode_none]
    simp only [field]
    omega
  · rw [blockMode_some_iff, ← b.weightCount_eq]
    rfl
  · obtain ⟨hw2, hw, hh2, hh, hcount, hwq, hlo, hhi, hid⟩ := blockMode_bounds hfp h
    rw [← b.weightCount_eq]
    exact ⟨hw2, hw, hh2, hh, hcount, hwq, hlo, hhi, rfl, hid⟩

end Sys2Proof.Machine
end

section
/-! SUPPORT. Where PACK puts the fields of a block (R321 to R323), and the obligation on it. -/

namespace Sys2Proof.Machine

/-! ## Reading what was written -/

section Bits

variable {blk : Block} {pos n lo k v i : Nat}

theorem getLsbD_writeBits (hi : i < 128) : (writeBits blk pos n v).getLsbD i =
    if pos ≤ i ∧ i < pos + n then v.testBit (i - pos) else blk.getLsbD i := by
  have hlt : pos ≤ i → (i - pos < n ↔ i < pos + n) := fun _ => by omega
  simp only [writeBits, BitVec.getLsbD_or, BitVec.getLsbD_and, BitVec.getLsbD_not, BitVec.getLsbD_ofNat,
    Nat.testBit_mul_two_pow, Nat.testBit_two_pow_sub_one, Nat.testBit_mod_two_pow]
  by_cases hpos : pos ≤ i
  · by_cases hn : i < pos + n <;> simp [hi, hpos, hn, hlt hpos]
  · simp [hi, hpos]

theorem testBit_readBits : (readBits blk lo n).testBit i = (decide (i < n) && blk.getLsbD (lo + i)) := by
  rw [readBits, field, Nat.testBit_mod_two_pow, Nat.testBit_div_two_pow, BitVec.testBit_toNat, Nat.add_comm]

/-- A field written is read back, whole or in part. -/
theorem readBits_writeBits_inside (hlo : pos ≤ lo) (hk : lo + k ≤ pos + n) (hn : pos + n ≤ 128) :
    readBits (writeBits blk pos n v) lo k = field v (lo - pos) k := by
  apply Nat.eq_of_testBit_eq
  intro j
  rw [testBit_readBits, field, Nat.testBit_mod_two_pow, Nat.testBit_div_two_pow]
  by_cases hj : j < k
  · rw [getLsbD_writeBits (by omega), if_pos (by omega), show lo + j - pos = j + (lo - pos) by omega]
  · simp [hj]

/-- A write leaves the fields beside it. -/
theorem readBits_writeBits_apart (h : lo + k ≤ pos ∨ pos + n ≤ lo) (hk : lo + k ≤ 128) :
    readBits (writeBits blk pos n v) lo k = readBits blk lo k := by
  apply Nat.eq_of_testBit_eq
  intro j
  rw [testBit_readBits, testBit_readBits]
  by_cases hj : j < k
  · rw [getLsbD_writeBits (by omega), if_neg (by omega)]
  · simp [hj]

theorem field_zero (h : v < 2 ^ k) : field v 0 k = v := by
  rw [field, Nat.pow_zero, Nat.div_one, Nat.mod_eq_of_lt h]

theorem extractLsb'_eq_readBits : blk.extractLsb' lo n = BitVec.ofNat n (readBits blk lo n) := by
  rw [readBits_eq, BitVec.ofNat_toNat, BitVec.setWidth_eq]

theorem reverseBits_lt (n v : Nat) : reverseBits n v < 2 ^ n := by
  induction n generalizing v with
  | zero => simp [reverseBits]
  | succ n ih =>
    have := ih (v / 2)
    have : v % 2 * 2 ^ n ≤ 1 * 2 ^ n := Nat.mul_le_mul_right _ (by omega)
    rw [reverseBits, Nat.pow_succ]
    omega

theorem testBit_reverseBits (h : i < n) : (reverseBits n v).testBit i = v.testBit (n - 1 - i) := by
  induction n generalizing v with
  | zero => omega
  | succ n ih =>
    rw [reverseBits, Nat.mul_comm, Nat.testBit_two_pow_mul_add _ (reverseBits_lt n _)]
    split
    · rename_i hi
      rw [ih hi, Nat.testBit_div_two, show n - 1 - i + 1 = n + 1 - 1 - i by omega]
    · rw [show i = n by omega]
      simp [Nat.testBit_zero]

/-- The bits of the weights run down from bit 127 (R297). -/
theorem readBits_reversed (hi : i < 128) : readBits (BitVec.ofNat 128 (reverseBits 128 v)) i 1 = bit v (127 - i) := by
  apply Nat.eq_of_testBit_eq
  intro j
  rw [testBit_readBits, bit, field, Nat.testBit_mod_two_pow, Nat.testBit_div_two_pow]
  by_cases hj : j < 1
  · obtain rfl : j = 0 := by omega
    rw [BitVec.getLsbD_ofNat, Nat.add_zero, testBit_reverseBits hi]
    simp [hi]
  · simp [hj]

theorem bit_of_lt (h : v < 2 ^ n) (hi : n ≤ i) : bit v i = 0 := by
  rw [bit, field, Nat.div_eq_of_lt (h.trans_le (Nat.pow_le_pow_right (by decide) hi)), Nat.zero_mod]

end Bits

/-! ## Constant blocks -/

theorem writeVoidExtent_eq (fp16 : Bool) (c : Rgba (BitVec 16)) : writeVoidExtent fp16 c =
    voidExtentBlock (BitVec.ofBool fp16) 3 0x1FFF 0x1FFF 0x1FFF 0x1FFF c.r c.g c.b c.a := by
  have hmark : (writeVoidExtent fp16 c).extractLsb' 0 9 = 0x1FC#9 := by
    rw [extractLsb'_eq_readBits, writeVoidExtent]
    simp (disch := decide) only [readBits_writeBits_inside, readBits_writeBits_apart]
    rfl
  rw [← voidExtentBlock_fields hmark]
  simp only [extractLsb'_eq_readBits, writeVoidExtent]
  simp (disch := decide) only [readBits_writeBits_inside, readBits_writeBits_apart]
  have hchannel (x : BitVec 16) : BitVec.ofNat 16 (field x.toNat 0 16) = x := by
    rw [field_zero x.isLt, BitVec.ofNat_toNat, BitVec.setWidth_eq]
  simp only [Nat.sub_self, hchannel]
  cases fp16 <;> rfl

/-! ## Runs of fields -/

theorem packFields_lt (l : List (Nat × Nat)) : packFields l < 2 ^ (l.map Prod.snd).sum := by
  induction l with
  | nil => simp [packFields]
  | cons f l ih =>
    obtain ⟨v, n⟩ := f
    have hv : v % 2 ^ n < 2 ^ n := Nat.mod_lt _ (Nat.two_pow_pos n)
    have hl : 2 ^ n * (packFields l + 1) ≤ 2 ^ n * 2 ^ (l.map Prod.snd).sum := Nat.mul_le_mul_left _ ih
    rw [packFields, List.map_cons, List.sum_cons, Nat.pow_add]
    dsimp only
    rw [Nat.mul_add] at hl
    omega

theorem packFields_append (l l' : List (Nat × Nat)) :
    packFields (l ++ l') = packFields l + 2 ^ (l.map Prod.snd).sum * packFields l' := by
  induction l with
  | nil => simp [packFields]
  | cons f l ih =>
    rw [List.cons_append, packFields, packFields, ih, List.map_cons, List.sum_cons, Nat.pow_add, Nat.mul_add,
      Nat.mul_assoc, Nat.add_assoc]

theorem sum_widths (f : Nat → Nat) (k : Nat) (l : List Nat) :
    ((l.map fun c => (f c, k)).map Prod.snd).sum = k * l.length := by
  induction l with
  | nil => rfl
  | cons c l ih => rw [List.map_cons, List.map_cons, List.sum_cons, ih, List.length_cons, Nat.mul_succ, Nat.add_comm]

/-- A field of a run of fields of one width. -/
theorem packFields_run (f : Nat → Nat) (k : Nat) (l : List Nat) (rest : List (Nat × Nat)) {p : Nat}
    (hp : p < l.length) :
    packFields ((l.map fun c => (f c, k)) ++ rest) / 2 ^ (k * p) % 2 ^ k = f (l.getD p 0) % 2 ^ k := by
  induction l generalizing p with
  | nil => simp at hp
  | cons c l ih =>
    have hc : f c % 2 ^ k < 2 ^ k := Nat.mod_lt _ (Nat.two_pow_pos k)
    rw [List.map_cons, List.cons_append, packFields]
    cases p with
    | zero => simp
    | succ p =>
      rw [Nat.mul_succ, Nat.add_comm (k * p), Nat.pow_add, ← Nat.div_div_eq_div_mul,
        Nat.add_mul_div_left _ _ (Nat.two_pow_pos k), Nat.div_eq_of_lt hc, Nat.zero_add,
        ih (by simpa using hp), List.getD_cons_succ]

/-! ## The class form of the CEM field (R305, R322) -/

theorem foldr_min_le (a : Nat) {l : List Nat} : ∀ x ∈ l, l.foldr min a ≤ x := by
  induction l with
  | nil => simp
  | cons y l ih =>
    intro x hx
    obtain rfl | hx := List.mem_cons.1 hx
    · exact Nat.min_le_left _ _
    · exact (Nat.min_le_right _ _).trans (ih x hx)

theorem le_foldr_max (a : Nat) {l : List Nat} : ∀ x ∈ l, x ≤ l.foldr max a := by
  induction l with
  | nil => simp
  | cons y l ih =>
    intro x hx
    obtain rfl | hx := List.mem_cons.1 hx
    · exact Nat.le_max_left _ _
    · exact (ih x hx).trans (Nat.le_max_right _ _)

theorem foldr_min_mem {a : Nat} {l : List Nat} (hl : l ≠ []) (ha : ∀ x ∈ l, x ≤ a) : l.foldr min a ∈ l := by
  induction l with
  | nil => exact absurd rfl hl
  | cons y l ih =>
    rw [List.foldr_cons]
    cases l with
    | nil => simp [ha y (by simp)]
    | cons z l =>
      have := ih (by simp) fun x hx => ha x (List.mem_cons_of_mem _ hx)
      obtain h | h := Nat.le_total y ((z :: l).foldr min a)
      · rw [Nat.min_eq_left h]
        exact List.mem_cons_self
      · rw [Nat.min_eq_right h]
        exact List.mem_cons_of_mem _ this

section ClassForm

variable {cems : List Nat}

theorem baseClass_le : baseClass cems ≤ 2 := Nat.min_le_right _ _

theorem baseClass_le_class {c : Nat} (hc : c ∈ cems) : baseClass cems ≤ c / 4 :=
  (Nat.min_le_left _ _).trans (foldr_min_le 3 _ (List.mem_map_of_mem hc))

/-- The base of the class form is the least class, capped at 2. -/
theorem baseClass_attained (hne : cems ≠ []) (h16 : ∀ c ∈ cems, c < 16) :
    ∃ c ∈ cems, min (c / 4) 2 = baseClass cems := by
  have hclass : ∀ x ∈ cems.map (· / 4), x ≤ 3 := by
    simp only [List.mem_map]
    rintro _ ⟨c, hc, rfl⟩
    have := h16 c hc
    omega
  obtain ⟨c, hc, hmin⟩ := List.mem_map.1 (foldr_min_mem (by simpa using hne) hclass)
  exact ⟨c, hc, by rw [baseClass, ← hmin]⟩

theorem class_le_base (h : cemFormOk cems.length false cems = true) (hpc : cems.length ≠ 1) {c : Nat} (hc : c ∈ cems) :
    c / 4 ≤ baseClass cems + 1 := by
  have hmax := le_foldr_max 0 (l := cems.map (· / 4)) _ (List.mem_map_of_mem hc)
  simp only [cemFormOk, Bool.or_eq_true, beq_iff_eq, hpc, false_or, Bool.false_eq_true, if_false,
    decide_eq_true_eq] at h
  omega

theorem classField_mod : classField cems % 4 = baseClass cems + 1 := by
  have := baseClass_le (cems := cems)
  rw [classField, Nat.add_mul_mod_self_right, Nat.mod_eq_of_lt (by omega)]

/-- The class bits and the low CEM bits, above the base. -/
theorem classField_div : classField cems / 4 =
    packFields ((cems.map fun c => (c / 4 - baseClass cems, 1)) ++ cems.map fun c => (c % 4, 2)) := by
  have := baseClass_le (cems := cems)
  rw [classField, Nat.add_mul_div_right _ _ (by decide), Nat.div_eq_of_lt (by omega), Nat.zero_add]

theorem classField_lt : classField cems < 2 ^ (3 * cems.length + 2) := by
  have hlt := packFields_lt ((cems.map fun c => (c / 4 - baseClass cems, 1)) ++ cems.map fun c => (c % 4, 2))
  rw [← classField_div, List.map_append, List.sum_append, sum_widths, sum_widths, ← Nat.add_mul] at hlt
  rw [Nat.pow_add]
  exact (Nat.div_lt_iff_lt_mul (by decide)).1 hlt

theorem classField_class {p : Nat} (hp : p < cems.length) :
    classField cems / 2 ^ (2 + p) % 2 = (cems.getD p 0 / 4 - baseClass cems) % 2 := by
  have hrun := packFields_run (fun c => c / 4 - baseClass cems) 1 cems (cems.map fun c => (c % 4, 2)) hp
  rw [← classField_div, Nat.one_mul, Nat.div_div_eq_div_mul] at hrun
  rwa [Nat.pow_add]

theorem classField_low {p : Nat} (hp : p < cems.length) :
    classField cems / 2 ^ (2 + cems.length + 2 * p) % 4 = cems.getD p 0 % 4 := by
  have hbits := packFields_lt (cems.map fun c => (c / 4 - baseClass cems, 1))
  have hrun := packFields_run (fun c => c % 4) 2 cems [] hp
  rw [sum_widths, Nat.one_mul] at hbits
  rw [List.append_nil] at hrun
  rw [Nat.pow_add, Nat.pow_add, ← Nat.div_div_eq_div_mul, ← Nat.div_div_eq_div_mul]
  rw [show 2 ^ 2 = 4 from rfl, classField_div, packFields_append, sum_widths, Nat.one_mul,
    Nat.add_mul_div_left _ _ (Nat.two_pow_pos _), Nat.div_eq_of_lt hbits, Nat.zero_add]
  exact hrun.trans (Nat.mod_mod _ 4)

end ClassForm

/-! ## The layout of a normal block -/

theorem iseBits_pos {n q : Nat} (hn : 1 ≤ n) (hq : 4 ≤ q) (hq' : q < 21) : 1 ≤ iseBits n q := by
  have hbits : ∀ q < 21, 4 ≤ q → 1 ≤ (level q).bits := by decide
  have hmul : 1 * 1 ≤ n * (level q).bits := Nat.mul_le_mul hn (hbits q hq' hq)
  unfold iseBits
  dsimp only
  split_ifs <;> omega

theorem colorLevel_some {nvals avail q : Nat} (h : colorLevel nvals avail = some q) :
    q < 21 ∧ iseBits nvals q ≤ avail := by
  have hmem := List.mem_of_getLast? h
  simpa [Config.numQuantLevels] using hmem

theorem colorCount_pos {cems : List Nat} (h : 1 ≤ cems.length) : 1 ≤ colorCount cems := by
  cases cems with
  | nil => simp at h
  | cons c cems =>
    simp only [colorCount, List.map_cons, List.sum_cons, cemValues]
    omega

/-- The bits of the CEM field under the weights: those of the class form (R305). -/
def cemExtra (n : NormalSym) : Nat := if n.pc = 1 ∨ n.matched = true then 0 else 3 * n.pc - 4

/-- Where the CEM bits under the weights begin (R296, R305). -/
def fieldsBelow (b : BlockMode) (n : NormalSym) : Nat := 128 - b.weightBits - cemExtra n

/-- The width of the color sequence (R311). -/
def colorBits (n : NormalSym) : Nat := iseBits n.colors.length n.cq.toNat

theorem colorEnd_eq (b : BlockMode) (n : NormalSym) :
    colorEnd b.weightBits n.pc n.matched b.dual = fieldsBelow b n - (if b.dual then 2 else 0) := by
  simp [colorEnd, fieldsBelow, cemExtra, extraCemBits]

/-- The fields of a block stand one above the other. -/
structure FieldsFit (b : BlockMode) (n : NormalSym) : Prop where
  pc_pos : 1 ≤ n.pc
  pc_le : n.pc ≤ 4
  start_le : 17 ≤ colorStart n.pc
  colors : colorStart n.pc + colorBits n + (if b.dual then 2 else 0) ≤ fieldsBelow b n
  weights : fieldsBelow b n + cemExtra n + b.weightBits = 128

theorem cemNats_length (n : NormalSym) : (cemNats n).length = n.pc := List.length_map _

/-- The header of a well-formed block, condition by condition (R320). -/
theorem normalWf_header {fp : Footprint} {n : NormalSym} {b : BlockMode} (h : normalWf fp n = true)
    (hb : blockMode fp n.mode.toNat = some b) :
    (1 ≤ n.pc ∧ n.pc ≤ 4) ∧ (b.dual = true → n.pc ≠ 4) ∧ cemFormOk n.pc n.matched (cemNats n) = true ∧
      4 ≤ n.cq.toNat ∧ colorLevel (colorCount (cemNats n))
        (colorEnd b.weightBits n.pc n.matched b.dual - colorStart n.pc) = some n.cq.toNat := by
  obtain ⟨b', hb', hh, -⟩ := normalWf_some h
  obtain rfl := Option.some.inj (hb.symm.trans hb')
  simp only [headerOk, Bool.and_eq_true, decide_eq_true_eq, beq_iff_eq, cemNats_length, Bool.not_eq_true',
    Bool.and_eq_false_imp, beq_eq_false_iff_ne] at hh
  obtain ⟨⟨⟨⟨⟨⟨⟨hpc, hpc4⟩, hdual⟩, -⟩, hform⟩, -⟩, hcq⟩, hlevel⟩ := hh
  exact ⟨⟨hpc, hpc4⟩, hdual, hform, hcq, hlevel⟩

/-- The lengths of the color values and of the weights of a well-formed block. -/
theorem normalWf_lengths {fp : Footprint} {n : NormalSym} {b : BlockMode} (h : normalWf fp n = true)
    (hb : blockMode fp n.mode.toNat = some b) : n.colors.length = colorCount (cemNats n) ∧
      n.w0.length = b.grid.w * b.grid.h ∧ n.w1.length = if b.dual then b.grid.w * b.grid.h else 0 := by
  obtain ⟨b', hb', -, hv⟩ := normalWf_some h
  obtain rfl := Option.some.inj (hb.symm.trans hb')
  simp only [valuesOk, Bool.and_eq_true, beq_iff_eq] at hv
  obtain ⟨⟨⟨⟨⟨hcolors, -⟩, hw0⟩, -⟩, hw1⟩, -⟩ := hv
  exact ⟨hcolors, hw0, hw1⟩

theorem normalWf_fieldsFit {fp : Footprint} {n : NormalSym} {b : BlockMode} (h : normalWf fp n = true)
    (hb : blockMode fp n.mode.toNat = some b) : FieldsFit b n := by
  obtain ⟨⟨hpc, hpc4⟩, hdual, -, hcq, hlevel⟩ := normalWf_header h hb
  obtain ⟨hq, havail⟩ := colorLevel_some hlevel
  have hpos := iseBits_pos (colorCount_pos (by rwa [cemNats_length])) hcq hq
  obtain ⟨-, -, -, hwb, -⟩ := blockMode_some_iff.1 hb
  have hbits : colorBits n = iseBits (colorCount (cemNats n)) n.cq.toNat := by
    rw [colorBits, (normalWf_lengths h hb).1]
  have hextra : cemExtra n ≤ 8 := by
    unfold cemExtra
    split <;> omega
  rw [colorEnd_eq] at havail
  have hstart : 17 ≤ colorStart n.pc := by
    unfold colorStart
    split <;> omega
  refine ⟨hpc, hpc4, hstart, by omega, ?_⟩
  unfold fieldsBelow
  omega

/-! ## Reading a packed block -/

/-- The weights in the order in which they are packed (R318, R322). -/
def packedWeights (b : BlockMode) (n : NormalSym) : List Nat :=
  if b.dual then interleave (toNats n.w0) (toNats n.w1) else toNats n.w0

/-- The block with the weights, the mode and the partition count in place (R322). -/
def packedHead (b : BlockMode) (n : NormalSym) : Block :=
  writeBits (writeBits (BitVec.ofNat 128 (reverseBits 128 (iseEncode (packedWeights b n) b.wq))) 0 11 n.mode.toNat) 11 2
    (n.pc - 1)

/-- The block with all but the colors in place (R322). -/
def packedFields (b : BlockMode) (n : NormalSym) : Block :=
  let blk := writeCems (packedHead b n) n b.weightBits
  if b.dual then writeBits blk (colorEnd b.weightBits n.pc n.matched b.dual) 2 n.ccs.toNat else blk

theorem writeNormal_eq (b : BlockMode) (n : NormalSym) : writeNormal b n =
    writeBits (packedFields b n) (colorStart n.pc) (colorBits n) (iseEncode (toNats n.colors) n.cq.toNat) := rfl

section Reading

variable {b : BlockMode} {n : NormalSym} {lo k : Nat}

/-- Where the CEMs stand: between the partition count and the colors, and under the weights. -/
theorem readBits_writeCems (blk : Block) (hf : FieldsFit b n) (hk : lo + k ≤ 128)
    (h : lo + k ≤ 13 ∨ (colorStart n.pc ≤ lo ∧ lo + k ≤ fieldsBelow b n) ∨ fieldsBelow b n + cemExtra n ≤ lo) :
    readBits (writeCems blk n b.weightBits) lo k = readBits blk lo k := by
  obtain ⟨hpc, -, -, hcolors, hweights⟩ := hf
  unfold writeCems
  dsimp only
  by_cases h1 : n.pc = 1
  · simp only [colorStart, cemExtra, h1, if_true, true_or] at *
    rw [readBits_writeBits_apart (by omega) hk]
  · simp only [colorStart, cemExtra, fieldsBelow, extraCemBits, h1, if_false, false_or] at *
    cases hm : n.matched with
    | true =>
      simp only [hm, if_true] at *
      rw [readBits_writeBits_apart (by omega) hk, readBits_writeBits_apart (by omega) hk]
    | false =>
      simp only [hm, Bool.false_eq_true, if_false] at *
      rw [readBits_writeBits_apart (by omega) hk, readBits_writeBits_apart (by omega) hk,
        readBits_writeBits_apart (by omega) hk]

/-- Where the CCS stands. -/
theorem readBits_packedFields (hf : FieldsFit b n) (hk : lo + k ≤ 128)
    (h : lo + k ≤ fieldsBelow b n - (if b.dual then 2 else 0) ∨ fieldsBelow b n ≤ lo) :
    readBits (packedFields b n) lo k = readBits (writeCems (packedHead b n) n b.weightBits) lo k := by
  have hcolors := hf.colors
  unfold packedFields
  dsimp only
  rw [colorEnd_eq]
  cases hd : b.dual with
  | false => rw [if_neg (by decide)]
  | true =>
    simp only [hd, if_true] at *
    exact readBits_writeBits_apart (by omega) hk

/-- Fields beside the colors and the CCS are those of the block with its CEMs written. -/
theorem readBits_writeNormal (hf : FieldsFit b n) (hk : lo + k ≤ 128)
    (hcolors : lo + k ≤ colorStart n.pc ∨ colorStart n.pc + colorBits n ≤ lo)
    (hccs : lo + k ≤ fieldsBelow b n - (if b.dual then 2 else 0) ∨ fieldsBelow b n ≤ lo) :
    readBits (writeNormal b n) lo k = readBits (writeCems (packedHead b n) n b.weightBits) lo k := by
  rw [writeNormal_eq, readBits_writeBits_apart hcolors hk, readBits_packedFields hf hk hccs]

/-- Fields below the colors. -/
theorem readBits_writeNormal_low (hf : FieldsFit b n) (h : lo + k ≤ colorStart n.pc) :
    readBits (writeNormal b n) lo k = readBits (writeCems (packedHead b n) n b.weightBits) lo k := by
  have hfit := hf.colors
  have := hf.weights
  exact readBits_writeNormal hf (by omega) (.inl h) (.inl (by omega))

/-- Bits above the partition count that no field but the weights may fill. -/
theorem readBits_packedHead {i : Nat} (h : 13 ≤ i) (hi : i < 128) :
    readBits (packedHead b n) i 1 = bit (iseEncode (packedWeights b n) b.wq) (127 - i) := by
  rw [packedHead, readBits_writeBits_apart (.inr h) hi, readBits_writeBits_apart (.inr (by omega)) hi,
    readBits_reversed hi]

theorem readBits_mode (hf : FieldsFit b n) : readBits (writeNormal b n) 0 11 = n.mode.toNat := by
  have := hf.start_le
  rw [readBits_writeNormal_low hf (by omega), readBits_writeCems _ hf (by decide) (.inl (by decide)), packedHead,
    readBits_writeBits_apart (.inl (by decide)) (by decide),
    readBits_writeBits_inside (by decide) (by decide) (by decide)]
  exact field_zero n.mode.isLt

theorem readBits_partitionCount (hf : FieldsFit b n) : readBits (writeNormal b n) 11 2 = n.pc - 1 := by
  have := hf.start_le
  have := hf.pc_le
  rw [readBits_writeNormal_low hf (by omega), readBits_writeCems _ hf (by decide) (.inl (by decide)), packedHead,
    readBits_writeBits_inside (by decide) (by decide) (by decide)]
  exact field_zero (by omega)

theorem readBits_ccs (hf : FieldsFit b n) (hd : b.dual = true) :
    readBits (writeNormal b n) (fieldsBelow b n - 2) 2 = n.ccs.toNat := by
  have hfit := hf.colors
  have := hf.weights
  rw [hd, if_pos rfl] at hfit
  rw [writeNormal_eq, readBits_writeBits_apart (.inr (by omega)) (by omega), packedFields]
  rw [colorEnd_eq, hd, if_pos rfl, if_pos rfl, readBits_writeBits_inside (by omega) (by omega) (by omega), Nat.sub_self]
  exact field_zero n.ccs.isLt

theorem readBits_color (hf : FieldsFit b n) {i : Nat} (hi : i < colorBits n) :
    readBits (writeNormal b n) (colorStart n.pc + i) 1 = bit (iseEncode (toNats n.colors) n.cq.toNat) i := by
  have hfit := hf.colors
  have := hf.weights
  rw [writeNormal_eq, readBits_writeBits_inside (by omega) (by omega) (by omega), Nat.add_sub_cancel_left]
  rfl

/-- From the end of the colors to the fields below the weights the block is 0, and so it is where the weights do not
reach (R323). -/
theorem readBits_gap (hf : FieldsFit b n) (hw : iseEncode (packedWeights b n) b.wq < 2 ^ b.weightBits) {i : Nat}
    (hlo : colorStart n.pc + colorBits n ≤ i) (hhi : i < fieldsBelow b n - (if b.dual then 2 else 0)) :
    readBits (writeNormal b n) i 1 = 0 := by
  have := hf.weights
  have := hf.start_le
  rw [readBits_writeNormal hf (by omega) (.inr hlo) (.inl hhi),
    readBits_writeCems _ hf (by omega) (.inr (.inl ⟨by omega, by omega⟩)), readBits_packedHead (by omega) (by omega)]
  exact bit_of_lt hw (by omega)

theorem readBits_weight (hf : FieldsFit b n) {i : Nat} (hi : i < b.weightBits) :
    readBits (writeNormal b n) (127 - i) 1 = bit (iseEncode (packedWeights b n) b.wq) i := by
  have := hf.weights
  have := hf.start_le
  have := hf.colors
  rw [readBits_writeNormal hf (by omega) (.inr (by omega)) (.inr (by omega)),
    readBits_writeCems _ hf (by omega) (.inr (.inr (by omega))), readBits_packedHead (by omega) (by omega),
    show 127 - (127 - i) = i by omega]

/-! ## The CEM field -/

theorem cemNats_headD (n : NormalSym) : (cemNats n).headD 0 = (cemNats n).getD 0 0 := by
  cases cemNats n <;> rfl

theorem cemNats_getD_lt (n : NormalSym) (p : Nat) : (cemNats n).getD p 0 < 16 := by
  by_cases hp : p < (cemNats n).length
  · rw [List.getD_eq_getElem _ _ hp]
    exact cemNats_lt n _ (List.getElem_mem hp)
  · rw [List.getD_eq_default _ _ (Nat.not_lt.1 hp)]
    decide

theorem cemExtra_class (hpc : n.pc > 1) (hm : n.matched = false) : cemExtra n = 3 * n.pc - 4 := by
  simp [cemExtra, hm, show n.pc ≠ 1 by omega]

/-- The class form is written in two parts (R305). -/
theorem writeCems_class (hpc : n.pc > 1) (hm : n.matched = false) (blk : Block) : writeCems blk n b.weightBits =
    writeBits (writeBits (writeBits blk 13 10 n.partIndex.toNat) 23 6 (classField (cemNats n)))
      (fieldsBelow b n) (cemExtra n) (classField (cemNats n) / 2 ^ 6) := by
  unfold writeCems
  dsimp only
  rw [if_neg (show n.pc ≠ 1 by omega), hm, if_neg (by decide), fieldsBelow, cemExtra_class hpc hm]
  rfl

theorem readBits_cem_one (hf : FieldsFit b n) (hpc : n.pc = 1) :
    readBits (writeNormal b n) 13 4 = (cemNats n).getD 0 0 := by
  rw [readBits_writeNormal_low hf (by rw [colorStart, if_pos hpc]), writeCems]
  dsimp only
  rw [if_pos hpc, readBits_writeBits_inside (by decide) (by decide) (by decide), cemNats_headD]
  exact field_zero (cemNats_getD_lt n 0)

theorem readBits_partIndex (hf : FieldsFit b n) (hpc : n.pc > 1) :
    readBits (writeNormal b n) 13 10 = n.partIndex.toNat := by
  have hfit := hf.colors
  have hsum := hf.weights
  have hpc1 : n.pc ≠ 1 := by omega
  have hstart : colorStart n.pc = 29 := if_neg hpc1
  have hindex : field n.partIndex.toNat (13 - 13) 10 = n.partIndex.toNat := field_zero n.partIndex.isLt
  rw [readBits_writeNormal_low hf (by omega)]
  cases hm : n.matched with
  | true =>
    unfold writeCems
    dsimp only
    rw [if_neg hpc1, if_pos hm, readBits_writeBits_apart (.inl (by decide)) (by decide),
      readBits_writeBits_inside (by decide) (by decide) (by decide), hindex]
  | false =>
    rw [writeCems_class hpc hm, readBits_writeBits_apart (.inl (by omega)) (by decide),
      readBits_writeBits_apart (.inl (by decide)) (by decide),
      readBits_writeBits_inside (by decide) (by decide) (by decide), hindex]

theorem readBits_cem_shared (hf : FieldsFit b n) (hpc : n.pc > 1) (hm : n.matched = true) :
    readBits (writeNormal b n) 23 6 = 4 * (cemNats n).getD 0 0 := by
  have hpc1 : n.pc ≠ 1 := by omega
  have hcem := cemNats_getD_lt n 0
  rw [readBits_writeNormal_low hf (by rw [colorStart, if_neg hpc1]), writeCems]
  dsimp only
  rw [if_neg hpc1, if_pos hm, readBits_writeBits_inside (by decide) (by decide) (by decide), cemNats_headD,
    Nat.mul_comm]
  exact field_zero (by omega)

/-- The class form is read back whole, its high bits from under the weights (R305). -/
theorem readBits_cem_class (hf : FieldsFit b n) (hpc : n.pc > 1) (hm : n.matched = false) :
    readBits (writeNormal b n) 23 6 + 2 ^ 6 * readBits (writeNormal b n) (fieldsBelow b n) (cemExtra n) =
      classField (cemNats n) := by
  have hextra := cemExtra_class hpc hm
  have hsum := hf.weights
  have hfit := hf.colors
  have hstart : colorStart n.pc = 29 := if_neg (by omega)
  have hlt : classField (cemNats n) / 2 ^ 6 < 2 ^ cemExtra n := by
    have := classField_lt (cems := cemNats n)
    rw [cemNats_length, show 3 * n.pc + 2 = 6 + cemExtra n by omega, Nat.pow_add] at this
    exact Nat.div_lt_of_lt_mul this
  rw [readBits_writeNormal_low hf (by omega), readBits_writeNormal hf (by omega) (.inr (by omega)) (.inr (by omega)),
    writeCems_class hpc hm,
    readBits_writeBits_apart (.inl (by omega)) (by decide),
    readBits_writeBits_inside (by decide) (by decide) (by decide),
    readBits_writeBits_inside (Nat.le_refl _) (Nat.le_refl _) (by omega), Nat.sub_self, Nat.sub_self, field_zero hlt,
    field, Nat.pow_zero, Nat.div_one]
  exact Nat.mod_add_div _ _

end Reading

theorem interleave_length : ∀ l l' : List Nat, (interleave l l').length = l.length + l'.length
  | [], [] => rfl
  | [], _ :: _ => by simp [interleave]
  | _ :: _, [] => by simp [interleave]
  | _ :: l, _ :: l' => by
    simp only [interleave, List.length_cons, interleave_length l l']
    omega

/-- The weights of a well-formed block fill `weight_bits` (R180, R251). -/
theorem iseEncode_packedWeights_lt {fp : Footprint} {n : NormalSym} {b : BlockMode} (h : normalWf fp n = true)
    (hb : blockMode fp n.mode.toNat = some b) : iseEncode (packedWeights b n) b.wq < 2 ^ b.weightBits := by
  obtain ⟨-, hw0, hw1⟩ := normalWf_lengths h hb
  have hlength : (packedWeights b n).length = b.weightCount := by
    rw [packedWeights, b.weightCount_eq]
    cases hd : b.dual with
    | false => simp [toNats, hw0]
    | true =>
      rw [hd, if_pos rfl] at hw1
      simp only [if_true, interleave_length, toNats, List.length_map, hw0, hw1]
      omega
  rw [iseEncode, hlength]
  exact Nat.mod_lt _ (Nat.two_pow_pos _)

/-- The class form says the CEM of each partition (R305, R322). -/
theorem classForm_cems {fp : Footprint} {n : NormalSym} {b : BlockMode} (h : normalWf fp n = true)
    (hb : blockMode fp n.mode.toNat = some b) (hpc : n.pc > 1) (hm : n.matched = false) :
    let cem := fun p => (cemNats n).getD p 0
    let enc := classField (cemNats n)
    let base := enc % 4 - 1
    enc % 4 ≠ 0 ∧ (∀ p < n.pc, min (cem p / 4) 2 ≥ base) ∧ (∃ p < n.pc, min (cem p / 4) 2 = base) ∧
      ∀ p < n.pc, cem p / 4 = base + enc / 2 ^ (2 + p) % 2 ∧ cem p % 4 = enc / 2 ^ (2 + n.pc + 2 * p) % 4 := by
  intro cem enc base
  have hmem (p : Nat) (hp : p < n.pc) : cem p ∈ cemNats n := by
    rw [← cemNats_length] at hp
    simp only [cem, List.getD_eq_getElem _ _ hp, List.getElem_mem]
  have hmod : enc % 4 = baseClass (cemNats n) + 1 := classField_mod
  have hbase : base = baseClass (cemNats n) := by simp only [base, hmod, Nat.add_sub_cancel]
  obtain ⟨-, -, hform, -⟩ := normalWf_header h hb
  rw [hm, ← cemNats_length] at hform
  have hle : baseClass (cemNats n) ≤ 2 := baseClass_le
  refine ⟨by omega, fun p hp => ?_, ?_, fun p hp => ⟨?_, ?_⟩⟩
  · have := baseClass_le_class (hmem p hp)
    omega
  · have hne : cemNats n ≠ [] := List.ne_nil_of_length_pos (by rw [cemNats_length]; omega)
    obtain ⟨c, hc, hmin⟩ := baseClass_attained hne (cemNats_lt n)
    obtain ⟨p, hp, rfl⟩ := List.mem_iff_getElem.1 hc
    refine ⟨p, by rwa [← cemNats_length], ?_⟩
    simp only [cem, hbase, List.getD_eq_getElem _ _ hp, hmin]
  · have hge := baseClass_le_class (hmem p hp)
    have hle := class_le_base hform (by rw [cemNats_length]; omega) (hmem p hp)
    have hbit := classField_class (cems := cemNats n) (p := p) (by rwa [cemNats_length])
    simp only [cem, enc] at *
    omega
  · have hlow := classField_low (cems := cemNats n) (p := p) (by rwa [cemNats_length])
    rw [cemNats_length] at hlow
    exact hlow.symm

theorem packBlock_normal {fp : Footprint} {n : NormalSym} {b : BlockMode} (hb : blockMode fp n.mode.toNat = some b) :
    packBlock fp (.normal n) = writeNormal b n := by
  simp [packBlock, hb]

/-- Settles O38: the fields of a packed block do not overlap, so each is read back where it was written. -/
theorem packLayout : Obligations.PackLayout := by
  refine ⟨fun fp fp16 c => writeVoidExtent_eq fp16 c, fun fp n b hwf hb => ?_⟩
  have hf := normalWf_fieldsFit hwf hb
  rw [packBlock_normal hb]
  intro blk cem extra below start
  refine ⟨?_, ?_, fun hpc => ?_, fun hpc => ?_, fun hpc hm => ?_, fun hpc hm => ?_, readBits_ccs hf,
    fun i hi => readBits_color hf hi, fun i hlo hhi => readBits_gap hf (iseEncode_packedWeights_lt hwf hb) hlo hhi,
    fun i hi => readBits_weight hf hi⟩
  · rw [extractLsb'_eq_readBits, readBits_mode hf, BitVec.ofNat_toNat, BitVec.setWidth_eq]
  · rw [← readBits_eq]
    exact readBits_partitionCount hf
  · rw [← readBits_eq]
    exact readBits_cem_one hf hpc
  · rw [extractLsb'_eq_readBits, readBits_partIndex hf hpc, BitVec.ofNat_toNat, BitVec.setWidth_eq]
  · rw [← readBits_eq]
    exact readBits_cem_shared hf hpc hm
  · intro enc base
    have henc : enc = classField (cemNats n) := readBits_cem_class hf hpc hm
    simp only [base, henc]
    exact classForm_cems hwf hb hpc hm

end Sys2Proof.Machine
end

section
/-! SUPPORT. The choice of a candidate of least cost, and the table entries made by it: the links of the weight levels
(R214), the nearest weight and color (R215, R216); the obligations on them. -/

namespace Sys2Proof.Machine

/-! ## Costs -/

/-- One cost beats another if it is less in the lexicographic order. -/
theorem beats_iff (x y : Nat × Nat) : beats x y = true ↔ toLex x < toLex y := by
  simp [beats, Prod.Lex.toLex_lt_toLex]

/-- What wins a step costs no more than either of the two. -/
theorem winner_le {α : Type} (cost : α → Nat × Nat) (a b : α) :
    toLex (cost (if beats (cost a) (cost b) then a else b)) ≤ toLex (cost a) ∧
      toLex (cost (if beats (cost a) (cost b) then a else b)) ≤ toLex (cost b) := by
  by_cases h : beats (cost a) (cost b) = true
  · rw [if_pos h]
    exact ⟨le_rfl, ((beats_iff _ _).1 h).le⟩
  · rw [if_neg h]
    exact ⟨le_of_not_gt fun hlt => h ((beats_iff _ _).2 hlt), le_rfl⟩

section LeastBy

variable (cost : Nat → Nat × Nat)

theorem leastBy_mem (best : Nat) (l : List Nat) : leastBy cost best l = best ∨ leastBy cost best l ∈ l := by
  induction l generalizing best with
  | nil => exact .inl rfl
  | cons i l ih =>
    rw [leastBy]
    split
    · exact .inr (List.mem_cons.2 (ih i))
    · exact (ih best).imp_right (List.mem_cons_of_mem i)

theorem leastBy_le (best : Nat) (l : List Nat) :
    toLex (cost (leastBy cost best l)) ≤ toLex (cost best) ∧
      ∀ i ∈ l, toLex (cost (leastBy cost best l)) ≤ toLex (cost i) := by
  induction l generalizing best with
  | nil => exact ⟨le_rfl, nofun⟩
  | cons i l ih =>
    obtain ⟨hbest, hl⟩ := ih (if beats (cost i) (cost best) then i else best)
    obtain ⟨hi, hb⟩ := winner_le cost i best
    exact ⟨hbest.trans hb, List.forall_mem_cons.2 ⟨hbest.trans hi, hl⟩⟩

/-- Among the indices below `n > 0`, the one chosen is of least cost. -/
theorem leastBy_range {n : Nat} (hn : 0 < n) : leastBy cost 0 (List.range n) < n ∧
    ∀ i < n, toLex (cost (leastBy cost 0 (List.range n))) ≤ toLex (cost i) := by
  refine ⟨?_, fun i hi => (leastBy_le cost 0 _).2 i (List.mem_range.2 hi)⟩
  obtain h | h := leastBy_mem cost 0 (List.range n)
  · rwa [h]
  · exact List.mem_range.1 h

/-- The best of a list, `i` if there is none. -/
def leastOr (i : Nat) : List Nat → Nat
  | [] => i
  | j :: rest => leastBy cost j rest

theorem leastOr_best (i : Nat) {l : List Nat} (hl : l ≠ []) :
    leastOr cost i l ∈ l ∧ ∀ k ∈ l, toLex (cost (leastOr cost i l)) ≤ toLex (cost k) := by
  cases l with
  | nil => exact absurd rfl hl
  | cons j l => exact ⟨List.mem_cons.2 (leastBy_mem cost j l), List.forall_mem_cons.2 (leastBy_le cost j l)⟩

end LeastBy

/-! ## The links (R214) -/

section Links

variable {q i : Nat}

theorem weightPrev_eq (q i : Nat) : weightPrev q i = leastOr (fun k => (unqWeight q i - unqWeight q k, k)) i
    ((List.range (levelValues q)).filter fun j => unqWeight q j < unqWeight q i) := by
  unfold weightPrev leastOr
  rfl

theorem weightNext_eq (q i : Nat) : weightNext q i = leastOr (fun k => (unqWeight q k - unqWeight q i, k)) i
    ((List.range (levelValues q)).filter fun j => unqWeight q i < unqWeight q j) := by
  unfold weightNext leastOr
  rfl

/-- The index on one side at the least distance, and the index itself if that side is empty. -/
theorem leastOr_side (n : Nat) (side : Nat → Prop) [DecidablePred side] (dist : Nat → Nat) (i : Nat) :
    let c := leastOr (fun k => (dist k, k)) i ((List.range n).filter fun j => side j)
    ((∀ j < n, ¬side j) → c = i) ∧ ((∃ j < n, side j) → c < n ∧ side c ∧ ∀ j < n, side j → dist c ≤ dist j) := by
  have hmem {j : Nat} : j ∈ (List.range n).filter (fun j => side j) ↔ j < n ∧ side j := by simp
  refine ⟨fun hnone => ?_, fun ⟨j, hj⟩ => ?_⟩
  · have hnil : (List.range n).filter (fun j => side j) = [] := by simpa using hnone
    rw [hnil, leastOr]
  · obtain ⟨hin, hleast⟩ := leastOr_best (fun k => (dist k, k)) i (List.ne_nil_of_mem (hmem.2 hj))
    obtain ⟨hlt, hside⟩ := hmem.1 hin
    refine ⟨hlt, hside, fun k hk hk' => ?_⟩
    obtain h | ⟨h, -⟩ := Prod.Lex.toLex_le_toLex.1 (hleast k (hmem.2 ⟨hk, hk'⟩))
    · exact h.le
    · exact h.le

theorem weightPrev_neighbour : ((∀ j < levelValues q, unqWeight q i ≤ unqWeight q j) → weightPrev q i = i) ∧
    ((∃ j < levelValues q, unqWeight q j < unqWeight q i) →
      weightPrev q i < levelValues q ∧ unqWeight q (weightPrev q i) < unqWeight q i ∧
      ∀ j < levelValues q, unqWeight q j < unqWeight q i → unqWeight q j ≤ unqWeight q (weightPrev q i)) := by
  obtain ⟨hself, hleast⟩ := leastOr_side (levelValues q) (fun j => unqWeight q j < unqWeight q i)
    (fun k => unqWeight q i - unqWeight q k) i
  rw [weightPrev_eq]
  refine ⟨fun h => hself fun j hj => Nat.not_lt.2 (h j hj), fun h => ?_⟩
  obtain ⟨hlt, hbelow, hnear⟩ := hleast h
  refine ⟨hlt, hbelow, fun j hj hji => ?_⟩
  have := hnear j hj hji
  omega

theorem weightNext_neighbour : ((∀ j < levelValues q, unqWeight q j ≤ unqWeight q i) → weightNext q i = i) ∧
    ((∃ j < levelValues q, unqWeight q i < unqWeight q j) →
      weightNext q i < levelValues q ∧ unqWeight q i < unqWeight q (weightNext q i) ∧
      ∀ j < levelValues q, unqWeight q i < unqWeight q j → unqWeight q (weightNext q i) ≤ unqWeight q j) := by
  obtain ⟨hself, hleast⟩ := leastOr_side (levelValues q) (fun j => unqWeight q i < unqWeight q j)
    (fun k => unqWeight q k - unqWeight q i) i
  rw [weightNext_eq]
  refine ⟨fun h => hself fun j hj => Nat.not_lt.2 (h j hj), fun h => ?_⟩
  obtain ⟨hlt, habove, hnear⟩ := hleast h
  refine ⟨hlt, habove, fun j hj hij => ?_⟩
  have := hnear j hj hij
  omega

end Links

/-- Settles O20: a link is the index chosen by least distance among those on its side, which is the neighbour. -/
theorem weightLinks : Obligations.WeightLinks := fun _ _ _ _ =>
  ⟨weightPrev_neighbour.1, weightPrev_neighbour.2, weightNext_neighbour⟩

/-! ## The nearest weight and color (R215, R216) -/

theorem levelValues_pos {q : Nat} (hq : q ≤ 20) : 0 < levelValues q := by
  have table : ∀ q < 21, 0 < levelValues q := by decide
  exact table q (by omega)

theorem absDiff_eq (a b : Nat) : (absDiff a b : Int) = |(a : Int) - b| := by
  unfold absDiff
  rcases abs_cases ((a : Int) - b) with ⟨h, _⟩ | ⟨h, _⟩ <;> omega

/-- Of indices below `n` with the values `u`, the one nearest to a target, ties to the smaller value. -/
theorem leastBy_nearest (f u : Nat → Nat) (target : Nat) {n : Nat} (hn : 0 < n) :
    let c := leastBy (fun i => (absDiff (f i) target, u i)) 0 (List.range n)
    c < n ∧ ∀ i < n, |(f c : Int) - target| < |(f i : Int) - target| ∨
      (|(f c : Int) - target| = |(f i : Int) - target| ∧ u c ≤ u i) := by
  obtain ⟨hlt, hleast⟩ := leastBy_range (fun i => (absDiff (f i) target, u i)) hn
  refine ⟨hlt, fun i hi => ?_⟩
  simp only [← absDiff_eq, Nat.cast_lt, Nat.cast_inj]
  exact Prod.Lex.toLex_le_toLex.1 (hleast i hi)

/-- `round_half_up` is the integer within half a unit, the upper one of two. -/
theorem roundHalfUp_near (x : ℚ) : -(1 / 2) < (roundHalfUp x : ℚ) - x ∧ (roundHalfUp x : ℚ) - x ≤ 1 / 2 := by
  have hle := Int.floor_le (x + 1 / 2)
  have hlt := Int.lt_floor_add_one (x + 1 / 2)
  unfold roundHalfUp
  constructor <;> linarith

/-- A value in `0..n` is rounded to a number in `0..n`. -/
theorem roundHalfUp_range {x : ℚ} {n : Nat} (h0 : 0 ≤ x) (hn : x ≤ n) :
    ∃ k ≤ n, roundHalfUp x = (k : Int) := by
  have hpos : 0 ≤ roundHalfUp x := Int.floor_nonneg.2 (by linarith)
  have hlt : roundHalfUp x < (n : Int) + 1 := Int.floor_lt.2 (by push_cast; linarith)
  exact ⟨(roundHalfUp x).toNat, by omega, by omega⟩

theorem weightBucket_eq (w : ℚ) : weightBucket w = min (roundHalfUp (w * 1024)).toNat 1024 := by
  norm_num [weightBucket, Config.qlookupBuckets]

/-- Settles O21: the choice is by least distance, then least value; the bucket is the one rounding gives, clamped. -/
theorem weightClosest_nearest : Obligations.WeightClosest := by
  refine ⟨fun q hq k _ => ?_, fun q w => ⟨weightBucket w, ?_, rfl, fun h => ?_, fun h => ?_, fun h0 h1 => ?_⟩⟩
  · have hnear := leastBy_nearest (fun i => 16 * unqWeight q i) (unqWeight q) k (levelValues_pos (q := q) (by omega))
    push_cast at hnear
    exact hnear
  all_goals rw [weightBucket_eq]
  · exact Nat.min_le_right _ _
  · have : roundHalfUp (w * 1024) < 1 := Int.floor_lt.2 (by push_cast; linarith)
    omega
  · have : 1024 ≤ roundHalfUp (w * 1024) := Int.le_floor.2 (by push_cast; linarith)
    omega
  · obtain ⟨k, hk, hround⟩ := roundHalfUp_range (x := w * 1024) (n := 1024) (by linarith) (by push_cast; linarith)
    have hnear := roundHalfUp_near (w * 1024)
    rw [hround] at hnear ⊢
    simpa [Nat.min_eq_left hk] using hnear

theorem colorLevelDefined_iff {q : Nat} : colorLevelDefined q = true ↔ q ≤ 20 ∧ q ≠ 1 ∧ q ≠ 3 := by
  simp [colorLevelDefined, and_assoc]

/-- Settles O22: the choice is by least distance, then least value, where the level has color values; elsewhere it is an
index modulo their number. -/
theorem colorQuant_nearest : Obligations.ColorQuant := by
  refine ⟨fun q x h0 h255 => ?_, fun q hq v _ => ?_⟩
  · obtain ⟨v, hv, hround⟩ := roundHalfUp_range (n := 255) h0 (by exact_mod_cast h255)
    have hnear := roundHalfUp_near x
    rw [hround] at hnear
    exact ⟨v, hv, by rw [quantizeEndpoint, hround]; rfl, by simpa using hnear⟩
  · have hpos := levelValues_pos hq
    obtain ⟨hlt, hleast⟩ := leastBy_nearest (unqColor q) (unqColor q) v hpos
    by_cases hd : colorLevelDefined q = true
    · rw [colorQuant, if_pos hd]
      exact ⟨hlt, fun _ _ => hleast⟩
    · rw [colorQuant, if_neg hd]
      exact ⟨Nat.mod_lt _ hpos, fun h1 h3 => absurd (colorLevelDefined_iff.2 ⟨hq, h1, h3⟩) hd⟩

end Sys2Proof.Machine
end

section
/-! SUPPORT. The table commands: what NOP, BUILD_TABLES and the lookups answer (R230 to R235), and the obligations on
them. -/

namespace Sys2Proof.Machine

variable {s : State} {fp : Footprint}

/-! ## NOP and BUILD_TABLES -/

/-- Settles O14: NOP ends with its code; a word of opcode 0 is rejected for any operand bit. -/
theorem nopWritesStatus : Obligations.NopWritesStatus := by
  refine ⟨fun _ => rfl, by decide, fun w hop hbits => ⟨.operandBits (w.extractLsb' 0 8), ?_⟩⟩
  simpa [decode_bytesOfWord, decodeCommand, hop, requireZero] using hbits

/-- The configuration that BUILD_TABLES accepts, in the registers (R48, R170). -/
theorem cfgFootprint_valid_iff : (s.cfgFootprint.valid && s.profile != .reserved) = true ↔
    (s.cfgBw.toNat, s.cfgBh.toNat) ∈ [(4, 4), (5, 4), (5, 5), (6, 5), (6, 6), (8, 5), (8, 6), (8, 8), (10, 5), (10, 6),
      (10, 8), (10, 10), (12, 10), (12, 12)] ∧ s.cfgProfile ≠ 3 := by
  have hprofile : ∀ p : BitVec 2, (Profile.ofBits p != .reserved) = true ↔ p ≠ 3 := by decide
  rw [Bool.and_eq_true, State.profile, hprofile]
  simp [Footprint.valid, Footprint.all, State.cfgFootprint]

/-- The cutoff that `quality_map` gives fits its register (R54). -/
theorem qualityCut_fits (q : Nat) : (BitVec.ofNat 17 (Config.qualityCut q).val).toNat = (Config.qualityCut q).val := by
  have := (Config.qualityCut q).isLt
  rw [BitVec.toNat_ofNat, Nat.mod_eq_of_lt (by omega)]

theorem TableMem.invalidate_isValid (t : TableMem) : t.invalidate.isValid = false := by
  cases t <;> rfl

/-- Settles O15: both outcomes of the check of the configuration. -/
theorem buildTables : Obligations.BuildTables := by
  intro s fp good q
  have hgood : (s.cfgFootprint.valid && s.profile != .reserved) = true ↔ good := cfgFootprint_valid_iff
  refine ⟨fun h => ⟨_, qualityCut_fits q, ?_⟩, fun h => ⟨s.tables.invalidate_isValid, ?_⟩⟩
  · exact if_pos (hgood.2 h)
  · exact if_neg (mt hgood.1 h)

/-! ## The lookups behind the tables guard -/

theorem State.answerOrBad_of_some {o : Option Nat} {v : Nat} (h : o = some v) :
    s.answerOrBad o = .next { s with inst := { s.inst.ended .ok with result := BitVec.ofNat 32 v } } := h ▸ rfl

theorem State.answerOrBad_of_none {o : Option Nat} (h : o = none) :
    s.answerOrBad o = .next { s with inst := s.inst.ended .badOperand } := h ▸ rfl

/-- A lookup that answers under a condition. -/
theorem State.answerOrBad_of_ite {o : Option Nat} {p : Prop} [Decidable p] {v : Nat}
    (h : o = if p then some v else none) :
    if p then s.answerOrBad o = .next { s with inst := { s.inst.ended .ok with result := BitVec.ofNat 32 v } }
    else s.answerOrBad o = .next { s with inst := s.inst.ended .badOperand } := by
  subst h
  split_ifs <;> rfl

section Lookups

variable (h : s.tables = .valid fp)
include h

theorem exec_qlookup (q : BitVec 5) (sel : BitVec 3) (k : BitVec 11) :
    exec (.qlookup q sel k) s = s.answerOrBad (qlookupValue q.toNat sel.toNat k.toNat) :=
  State.withTables_valid h _

theorem exec_plookup (pc : BitVec 3) (index : BitVec 10) (c : BitVec 8) :
    exec (.plookup pc index c) s = s.answerOrBad (plookupValue fp pc.toNat index.toNat c.toNat) :=
  State.withTables_valid h _

theorem exec_modeinfo (m : BitVec 11) : exec (.modeinfo m) s = s.answer (modeinfoValue fp s.effCut m.toNat) :=
  State.withTables_valid h _

theorem exec_dlookup (d t : BitVec 8) (k : BitVec 2) (g : BitVec 1) :
    exec (.dlookup d t k g) s = s.answerOrBad (dlookupValue fp d.toNat t.toNat k.toNat (g == 1)) :=
  State.withTables_valid h _

end Lookups

/-! ## QLOOKUP (R232) -/

theorem qlookupValue_level {q : Nat} (hq : 20 < q) (sel k : Nat) : qlookupValue q sel k = none := by
  simp [qlookupValue, hq]

section Tables

variable {q : Nat} (hq : q ≤ 20) (k : Nat)
include hq

theorem qlookupValue_unq : qlookupValue q 0 k =
    if q ≤ 11 ∧ k < levelValues q then some (unqWeight q k) else none := by
  simp [qlookupValue, hq]

theorem qlookupValue_prev : qlookupValue q 1 k =
    if q ≤ 11 ∧ k < levelValues q then some (weightPrev q k) else none := by
  simp [qlookupValue, hq]

theorem qlookupValue_next : qlookupValue q 2 k =
    if q ≤ 11 ∧ k < levelValues q then some (weightNext q k) else none := by
  simp [qlookupValue, hq]

theorem qlookupValue_closest : qlookupValue q 3 k =
    if q ≤ 11 ∧ k ≤ 1024 then some (weightClosest q k) else none := by
  simp [qlookupValue, hq]

theorem qlookupValue_color : qlookupValue q 4 k =
    if q ≠ 1 ∧ q ≠ 3 ∧ k < levelValues q then some (unqColor q k) else none := by
  simp [qlookupValue, hq, colorLevelDefined_iff, and_assoc]

theorem qlookupValue_quant : qlookupValue q 5 k =
    if k ≤ 255 then some (colorQuant q k) else none := by
  simp [qlookupValue, hq]

theorem qlookupValue_row : qlookupValue q 6 k =
    if k = 0 then some (levelValues q * 65536 + (level q).quints * 512 + (level q).trits * 256 + (level q).bits)
    else none := by
  simp [qlookupValue, hq]

end Tables

theorem qlookupValue_noTable (q k : Nat) : qlookupValue q 7 k = none := by
  simp [qlookupValue]

/-- Settles O18: one equation for each table. -/
theorem qlookup : Obligations.Qlookup := by
  intro q sel k s fp h
  dsimp only
  rw [exec_qlookup h]
  refine ⟨fun hq => State.answerOrBad_of_none (qlookupValue_level hq _ _), fun hq => ⟨?_, ?_, ?_, ?_, ?_, ?_, ?_, ?_⟩⟩
  all_goals rintro rfl
  · exact State.answerOrBad_of_ite (qlookupValue_unq hq _)
  · exact State.answerOrBad_of_ite (qlookupValue_prev hq _)
  · exact State.answerOrBad_of_ite (qlookupValue_next hq _)
  · exact State.answerOrBad_of_ite (qlookupValue_closest hq _)
  · exact State.answerOrBad_of_ite (qlookupValue_color hq _)
  · exact State.answerOrBad_of_ite (qlookupValue_quant hq _)
  · exact State.answerOrBad_of_ite (qlookupValue_row hq _)
  · exact State.answerOrBad_of_none (qlookupValue_noTable _ _)

/-! ## DLOOKUP (R235) -/

section Decimation

variable {d t k : Nat} {g : Grid}

theorem dlookupValue_noMode (hd : (decimationModes fp).length ≤ d) (gridQuery : Bool) :
    dlookupValue fp d t k gridQuery = none := by
  rw [dlookupValue, List.getElem?_eq_none hd]

theorem dlookupValue_grid (hd : (decimationModes fp)[d]? = some g) :
    dlookupValue fp d t k true = some (g.w + g.h * 256) := by
  simp [dlookupValue, hd]

theorem dlookupValue_noTexel (hd : (decimationModes fp)[d]? = some g) (ht : fp.texels ≤ t) :
    dlookupValue fp d t k false = none := by
  simp [dlookupValue, hd, ht]

theorem dlookupValue_entry {i f : Nat} (hd : (decimationModes fp)[d]? = some g) (ht : t < fp.texels)
    (he : (texelEntries fp g t)[k]? = some (i, f)) :
    dlookupValue fp d t k false = some ((if f = 0 then 0 else i) + f * 256) := by
  simp [dlookupValue, hd, ht, he]

end Decimation

/-- Settles O28: the mode is looked up by its id, then its grid or the entry of a texel. -/
theorem dlookup : Obligations.Dlookup := by
  intro d t k g s fp h
  dsimp only
  rw [exec_dlookup h]
  refine ⟨fun hd => State.answerOrBad_of_none (dlookupValue_noMode hd _), fun grid hgrid => ⟨?_, ?_, ?_⟩⟩
  · rintro rfl
    exact State.answerOrBad_of_some (dlookupValue_grid hgrid)
  · rintro rfl ht
    exact State.answerOrBad_of_none (dlookupValue_noTexel hgrid ht)
  · rintro rfl ht idx f he
    exact State.answerOrBad_of_some (dlookupValue_entry hgrid ht he)

end Sys2Proof.Machine
end

section
/-! SUPPORT. Partitionings (R190 to R194): the texels of the partitions, which partitionings are encodable, what PLOOKUP
answers (R233); the obligations on them. -/

namespace Sys2Proof.Machine

variable {fp : Footprint} {pc index : Nat}

/-! ## Counts -/

theorem partitionTexels_ne_zero {p : Nat} :
    partitionTexels fp pc index p ≠ 0 ↔ ∃ t < fp.texels, partitionOf fp pc index t = p := by
  simp [partitionTexels, coverage]

theorem actualPartitions_eq_iff :
    actualPartitions fp pc index = pc ↔ ∀ p < pc, ∃ t < fp.texels, partitionOf fp pc index t = p := by
  have hall := List.length_filter_eq_length_iff (l := List.range pc) (p := fun p => partitionTexels fp pc index p != 0)
  rw [List.length_range] at hall
  simp only [actualPartitions, hall, List.mem_range, bne_iff_ne, partitionTexels_ne_zero]

theorem encodablePartitioning_iff :
    encodablePartitioning fp pc index = true ↔ ∀ p < pc, ∃ t < fp.texels, partitionOf fp pc index t = p :=
  beq_iff_eq.trans actualPartitions_eq_iff

/-- The partitions share out the texels, each having one. -/
theorem partitionTexels_sum (hpc : 1 ≤ pc) :
    ((List.range pc).map (partitionTexels fp pc index)).sum = fp.texels := by
  have hfibers := Finset.card_eq_sum_card_fiberwise (s := Finset.range fp.texels) (t := Finset.range pc)
    (f := partitionOf fp pc index) fun t _ => Finset.mem_coe.2 (Finset.mem_range.2 (partitionOf_lt fp index t hpc))
  rw [Finset.card_range] at hfibers
  exact hfibers.symm

/-- Settles O24: the fibers of `partitionOf` below the count cover the texels; the values of section 7 by evaluation. -/
theorem partitions : Obligations.Partitions := by
  refine ⟨fun fp _ pc h1 _ index _ => ⟨fun t _ => partitionOf_lt fp index t h1, partitionTexels_sum h1,
    encodablePartitioning_iff, fun hpc t => if_pos hpc⟩, by decide, ?_⟩
  decide +kernel

/-! ## PLOOKUP (R233) -/

section Queries

theorem plookupValue_noCount (h : pc < 1 ∨ pc > 4) (query : Nat) : plookupValue fp pc index query = none := if_pos h

variable (h : ¬(pc < 1 ∨ pc > 4)) {query : Nat}
include h

theorem plookupValue_texel (hq : query < fp.texels) :
    plookupValue fp pc index query = some (partitionOf fp pc index query) := by
  simp only [plookupValue, if_neg h, if_pos hq]

theorem plookupValue_counts (hq : ¬0xFE < fp.texels) : plookupValue fp pc index 0xFE =
    let count := fun p => if p < pc then partitionTexels fp pc index p else 0
    some (count 0 + count 1 * 2 ^ 8 + count 2 * 2 ^ 16 + count 3 * 2 ^ 24) := by
  simp only [plookupValue, if_neg h, if_neg hq, if_true]

theorem plookupValue_encodable (hq : ¬0xFF < fp.texels) : plookupValue fp pc index 0xFF =
    some (if actualPartitions fp pc index = pc then 1 else 0) := by
  have hbit : (encodablePartitioning fp pc index).toNat = if actualPartitions fp pc index = pc then 1 else 0 := by
    by_cases hall : actualPartitions fp pc index = pc <;> simp [encodablePartitioning, hall]
  simp only [plookupValue, if_neg h, if_neg hq, hbit, Nat.reduceEqDiff, if_true, if_false]

theorem plookupValue_noQuery (hq : ¬query < fp.texels) (hFE : query ≠ 0xFE) (hFF : query ≠ 0xFF) :
    plookupValue fp pc index query = none := by
  simp only [plookupValue, if_neg h, if_neg hq, if_neg hFE, if_neg hFF]

end Queries

/-- Settles O23: the query picks a texel's partition, the counts, or whether the partitioning is encodable. -/
theorem plookup : Obligations.Plookup := by
  intro pc index c s fp h
  dsimp only
  rw [exec_plookup h]
  by_cases hpc : pc.toNat < 1 ∨ pc.toNat > 4
  · rw [if_pos hpc]
    exact State.answerOrBad_of_none (plookupValue_noCount hpc _)
  rw [if_neg hpc]
  by_cases ht : c.toNat < fp.bw * fp.bh
  · rw [if_pos ht]
    exact State.answerOrBad_of_some (plookupValue_texel hpc ht)
  rw [if_neg ht]
  by_cases hFE : c = 0xFE
  · subst hFE
    exact State.answerOrBad_of_some (plookupValue_counts hpc ht)
  rw [if_neg hFE]
  by_cases hFF : c = 0xFF
  · subst hFF
    exact State.answerOrBad_of_some (plookupValue_encodable hpc ht)
  rw [if_neg hFF]
  exact State.answerOrBad_of_none (plookupValue_noQuery hpc ht (fun he => hFE (BitVec.eq_of_toNat_eq he))
    fun he => hFF (BitVec.eq_of_toNat_eq he))

end Sys2Proof.Machine
end

section
/-! SUPPORT. MODEINFO (R234): its word field by field, and the obligation on it. -/

namespace Sys2Proof.Machine

variable {fp : Footprint} {m : Nat} {b : BlockMode}

theorem Footprint.valid_iff : fp.valid = true ↔ fp ∈ Footprint.all := List.contains_iff_mem

/-- No footprint has more than 87 decimation modes (R172). -/
theorem decimationModes_length_le (hfp : fp.valid = true) : (decimationModes fp).length ≤ 87 := by
  have table : ∀ fp ∈ Footprint.all, (decimationModes fp).length ≤ 87 := by decide +kernel
  exact table fp (Footprint.valid_iff.1 hfp)

/-- The decimation id of a valid mode fits its field. -/
theorem decimationId_lt (hfp : fp.valid = true) (h : blockMode fp m = some b) : decimationId fp b.grid < 128 := by
  obtain ⟨-, -, -, -, -, -, -, -, hid⟩ := blockMode_bounds hfp h
  obtain ⟨hlt, -⟩ := List.getElem?_eq_some_iff.1 hid
  have := decimationModes_length_le hfp
  omega

theorem modeinfoValue_void (cut : BitVec 17) (h : field m 0 9 = 0x1FC) : modeinfoValue fp cut m = 2 ^ 31 := if_pos h

theorem modeinfoValue_none (cut : BitVec 17) (h : field m 0 9 ≠ 0x1FC) (hb : blockMode fp m = none) :
    modeinfoValue fp cut m = 0 := by
  simp [modeinfoValue, h, hb]

theorem modeinfoValue_some (cut : BitVec 17) (hb : blockMode fp m = some b) : modeinfoValue fp cut m =
    1 + b.dual.toNat * 2 ^ 1 + (permitEncode fp cut m).toNat * 2 ^ 2 + b.wq * 2 ^ 4 + b.grid.w * 2 ^ 8 +
      b.grid.h * 2 ^ 12 + b.weightBits * 2 ^ 16 + decimationId fp b.grid * 2 ^ 24 := by
  have hmark : field m 0 9 ≠ 0x1FC := fun hm => by
    have := (blockMode_some hb).1
    simp [decodeMode, hm] at this
  simp [modeinfoValue, hmark, hb]

theorem permitEncode_iff {cut : BitVec 17} (hb : blockMode fp m = some b) :
    permitEncode fp cut m = true ↔ (Config.blockModePercentile fp.bw fp.bh m).val ≤ cut.toNat := by
  simp [permitEncode, hb]

/-- A field of a word, as a number. -/
theorem toNat_extractLsb'_ofNat {x : Nat} (hx : x < 2 ^ 32) (lo n : Nat) :
    ((BitVec.ofNat 32 x).extractLsb' lo n).toNat = x / 2 ^ lo % 2 ^ n := by
  rw [BitVec.extractLsb'_toNat, BitVec.toNat_ofNat, Nat.mod_eq_of_lt hx, Nat.shiftRight_eq_div_pow]

/-- The fields of R234 one above the other, as numbers. -/
theorem modeinfoWord_fields {dual permit wq w h bits id : Nat} (hdual : dual < 2) (hpermit : permit < 2) (hwq : wq < 16)
    (hw : w < 16) (hh : h < 16) (hbits : bits < 128) (hid : id < 128) :
    let v := BitVec.ofNat 32
      (1 + dual * 2 ^ 1 + permit * 2 ^ 2 + wq * 2 ^ 4 + w * 2 ^ 8 + h * 2 ^ 12 + bits * 2 ^ 16 + id * 2 ^ 24)
    (v.extractLsb' 0 1).toNat = 1 ∧ (v.extractLsb' 1 1).toNat = dual ∧ (v.extractLsb' 2 1).toNat = permit ∧
      (v.extractLsb' 3 1).toNat = 0 ∧ (v.extractLsb' 4 4).toNat = wq ∧ (v.extractLsb' 8 4).toNat = w ∧
      (v.extractLsb' 12 4).toNat = h ∧ (v.extractLsb' 16 7).toNat = bits ∧ (v.extractLsb' 23 1).toNat = 0 ∧
      (v.extractLsb' 24 7).toNat = id ∧ (v.extractLsb' 31 1).toNat = 0 := by
  simp only [toNat_extractLsb'_ofNat (by omega :
    1 + dual * 2 ^ 1 + permit * 2 ^ 2 + wq * 2 ^ 4 + w * 2 ^ 8 + h * 2 ^ 12 + bits * 2 ^ 16 + id * 2 ^ 24 < 2 ^ 32)]
  refine ⟨?_, ?_, ?_, ?_, ?_, ?_, ?_, ?_, ?_, ?_, ?_⟩ <;> omega

/-- Settles O25: the fields do not overlap, each below the power of two it has room for. -/
theorem modeinfo : Obligations.Modeinfo := by
  intro m s fp h hfp
  have hmark : m.extractLsb' 0 9 = 0x1FC ↔ field m.toNat 0 9 = 0x1FC := by
    rw [← BitVec.toNat_inj, BitVec.extractLsb'_toNat, Nat.shiftRight_eq_div_pow]
    rfl
  refine ⟨BitVec.ofNat 32 (modeinfoValue fp s.effCut m.toNat), exec_modeinfo h m, fun hm => ?_, fun hm hb => ?_,
    fun b hb => ?_⟩
  · rw [modeinfoValue_void _ (hmark.1 hm)]
    rfl
  · rw [modeinfoValue_none _ (mt hmark.2 hm) hb]
    rfl
  · obtain ⟨-, hw, -, hh, -, hwq, -, hbits, -⟩ := blockMode_bounds hfp hb
    obtain ⟨hbw, hbh⟩ := Footprint.valid_le hfp
    have hid := decimationId_lt hfp hb
    rw [modeinfoValue_some _ hb, ← permitEncode_iff hb]
    obtain ⟨hvalid, hdual, hpermit, h3, hq, hgw, hgh, hwb, h23, hd, h31⟩ := modeinfoWord_fields b.dual.toNat_lt
      (permitEncode fp s.effCut m.toNat).toNat_lt (by omega : b.wq < 16) (by omega : b.grid.w < 16)
      (by omega : b.grid.h < 16) (by omega : b.weightBits < 128) hid
    refine ⟨BitVec.eq_of_toNat_eq hvalid, BitVec.eq_of_toNat_eq (hdual.trans (BitVec.toNat_ofBool _).symm), ?_,
      BitVec.eq_of_toNat_eq h3, hq, hgw, hgh, hwb, BitVec.eq_of_toNat_eq h23, hd, BitVec.eq_of_toNat_eq h31⟩
    rw [← BitVec.toNat_inj, hpermit]
    cases permitEncode fp s.effCut m.toNat <;> decide

end Sys2Proof.Machine
end

section
/-! SUPPORT. Weight infill (R360 to R362): where a texel stands on the weight grid, that the entries with a factor
lie in the grid, and the obligation on it. -/

namespace Sys2Proof.Machine

/-! ## The place of a texel on the grid -/

/-- The place of texel `s` of a row of `n` texels on a row of `w` weights, in sixteenths of their distance (R360). -/
def gridPlace (n w s : Nat) : Nat := ((1024 + n / 2) / (n - 1) * s * (w - 1) + 32) / 64

theorem texelEntries_eq (fp : Footprint) (g : Grid) (t : Nat) : texelEntries fp g t =
    let gs := gridPlace fp.bw g.w (t % fp.bw)
    let gt := gridPlace fp.bh g.h (t / fp.bw)
    let i := gs / 16 + gt / 16 * g.w
    let w11 := (gs % 16 * (gt % 16) + 8) / 16
    [(i, 16 + w11 - gs % 16 - gt % 16), (i + 1, gs % 16 - w11), (i + g.w, gt % 16 - w11), (i + g.w + 1, w11)] := rfl

theorem Footprint.valid_sides {fp : Footprint} (h : fp.valid = true) :
    fp.bw ∈ [4, 5, 6, 8, 10, 12] ∧ fp.bh ∈ [4, 5, 6, 8, 10, 12] := by
  have : ∀ fp ∈ Footprint.all, fp.bw ∈ [4, 5, 6, 8, 10, 12] ∧ fp.bh ∈ [4, 5, 6, 8, 10, 12] := by decide
  exact this fp (Footprint.valid_iff.1 h)

/-- No texel stands past the last weight; as many weights as texels stand at the texels. -/
theorem gridPlace_le {n w s : Nat} (hn : n ∈ [4, 5, 6, 8, 10, 12]) (hw : 2 ≤ w) (hwn : w ≤ n) (hs : s < n) :
    gridPlace n w s ≤ 16 * (w - 1) ∧ (w = n → gridPlace n w s = 16 * s) := by
  have table : ∀ n ∈ [4, 5, 6, 8, 10, 12], ∀ w ≤ n, 2 ≤ w → ∀ s < n,
      gridPlace n w s ≤ 16 * (w - 1) ∧ (w = n → gridPlace n w s = 16 * s) := by decide +kernel
  exact table n hn w hwn hw s hs

/-! ## The entries -/

/-- Column `i` of row `j` of a grid. -/
theorem gridIndex_lt {i j w h : Nat} (hi : i < w) (hj : j < h) : i + j * w < w * h := by
  calc i + j * w < w + j * w := by omega
    _ = w * (j + 1) := by ring
    _ ≤ w * h := Nat.mul_le_mul_left w hj

/-- A place between two weights is not that of the last one. -/
theorem place_inside {p w : Nat} (hw : 2 ≤ w) (hp : p ≤ 16 * (w - 1)) : p / 16 < w ∧ (p % 16 ≠ 0 → p / 16 + 1 < w) := by
  omega

section Texel

variable {fp : Footprint} {g : Grid} {t : Nat} (hfp : fp.valid = true) (hg : g ∈ decimationModes fp)
  (ht : t < fp.texels)
include hfp hg ht

/-- The texel's column and row on the grid. -/
theorem texel_place :
    (gridPlace fp.bw g.w (t % fp.bw) ≤ 16 * (g.w - 1) ∧
      (g.w = fp.bw → gridPlace fp.bw g.w (t % fp.bw) = 16 * (t % fp.bw))) ∧
    (gridPlace fp.bh g.h (t / fp.bw) ≤ 16 * (g.h - 1) ∧
      (g.h = fp.bh → gridPlace fp.bh g.h (t / fp.bw) = 16 * (t / fp.bw))) := by
  obtain ⟨hbw, hbh⟩ := Footprint.valid_sides hfp
  obtain ⟨⟨hw, -⟩, ⟨hh, -⟩, hwn, hhn, -⟩ := mem_decimationModes.1 hg
  exact ⟨gridPlace_le hbw hw hwn (Nat.mod_lt _ (by omega)), gridPlace_le hbh hh hhn (Nat.div_lt_of_lt_mul ht)⟩

/-- The entries that count name weights of the grid (R361). -/
theorem texelEntries_inside : ∀ e ∈ texelEntries fp g t, e.2 ≠ 0 → e.1 < g.w * g.h := by
  obtain ⟨⟨hgs, -⟩, hgt, -⟩ := texel_place hfp hg ht
  obtain ⟨⟨hw, -⟩, ⟨hh, -⟩, -⟩ := mem_decimationModes.1 hg
  obtain ⟨hs, hs'⟩ := place_inside hw hgs
  obtain ⟨ht, ht'⟩ := place_inside hh hgt
  rw [texelEntries_eq]
  generalize gridPlace fp.bw g.w _ = gs at *
  generalize gridPlace fp.bh g.h _ = gt at *
  simp only [List.forall_mem_cons]
  refine ⟨fun _ => gridIndex_lt hs ht, fun h01 => ?_, fun h10 => ?_, fun h11 => ?_, nofun⟩
  · have := gridIndex_lt (hs' (by omega)) ht
    omega
  · have := gridIndex_lt hs (ht' (by omega))
    rw [Nat.add_mul] at this
    omega
  · have hmul : gs % 16 * (gt % 16) ≠ 0 := fun h0 => h11 (by rw [h0])
    have := gridIndex_lt (hs' (left_ne_zero_of_mul hmul)) (ht' (right_ne_zero_of_mul hmul))
    rw [Nat.add_mul] at this
    omega

/-- On a grid of the footprint's size a texel has the weight of its own place. -/
theorem infilledWeight_full (hw : g.w = fp.bw) (hh : g.h = fp.bh) (u : List Nat) :
    infilledWeight fp g u t = u.getD t 0 := by
  obtain ⟨⟨-, hgs⟩, -, hgt⟩ := texel_place hfp hg ht
  have hindex : t % fp.bw + t / fp.bw * fp.bw = t := Nat.mod_add_div' t fp.bw
  rw [infilledWeight, texelEntries_eq, hgs hw, hgt hh, hw]
  simp [hindex]
  omega

end Texel

/-- Settles O29: the places on the grid bound the entries; the values of section 6 by evaluation. -/
theorem infill : Obligations.Infill := by
  refine ⟨fun fp hfp g hg t ht => ⟨rfl, texelEntries_factors fp g t, texelEntries_inside hfp hg ht, fun u hu =>
    ⟨infilledWeight_le fp g t fun i => ?_, fun hw hh => infilledWeight_full hfp hg ht hw hh u⟩⟩, by decide +kernel,
    by decide +kernel, by decide +kernel⟩
  rw [List.getD_eq_getElem?_getD]
  cases h : u[i]? with
  | none => exact Nat.zero_le _
  | some x => exact hu x (List.mem_of_getElem? h)

end Sys2Proof.Machine
end

section
/-! SUPPORT. The values of the tables that depend on no footprint (R208 to R217, R260 to R264) and the counts of R172,
and the obligations on them. -/

namespace Sys2Proof.Machine

/-- The color values of a level in rising order (R217). -/
def risingColors (q : Nat) : List Nat := ((List.range (levelValues q)).map (unqColor q)).insertionSort (· ≤ ·)

/-- At every level where `cunq` is defined the values in rising order are distinct, go from 0 to 255, and are the same
taken from 255 in falling order (R217). -/
theorem risingColors_table : ∀ q ≤ 20, q ≠ 1 → q ≠ 3 →
    (risingColors q).IsChain (· < ·) ∧ (risingColors q).head? = some 0 ∧ (risingColors q).getLast? = some 255 ∧
      (risingColors q).reverse = (risingColors q).map (255 - ·) := by
  decide +kernel

theorem risingColors_perm (q : Nat) : (risingColors q).Perm ((List.range (levelValues q)).map (unqColor q)) :=
  List.perm_insertionSort _ _

theorem risingColors_length (q : Nat) : (risingColors q).length = levelValues q := by
  simp [risingColors]

/-- A list that is itself taken from 255 backwards mirrors itself about its middle. -/
theorem getD_mirrored {u : List Nat} (h : u.reverse = u.map (255 - ·)) {k : Nat} (hk : k < u.length) :
    u.getD k 0 + u.getD (u.length - 1 - k) 0 = 255 := by
  have hle : u[k] ≤ 255 := by
    have hmem : u[k] ∈ u.map (255 - ·) := h ▸ List.mem_reverse.2 (List.getElem_mem hk)
    obtain ⟨x, -, hx⟩ := List.mem_map.1 hmem
    omega
  have hmirror : u[u.length - 1 - k] = 255 - u[k] := by
    rw [← List.getElem_reverse (by simpa using hk)]
    simp only [h, List.getElem_map]
  rw [List.getD_eq_getElem _ _ hk, List.getD_eq_getElem _ _ (by omega), hmirror]
  omega

/-- Settles O19: the tables are closed, so each is evaluated; the float form is a quotient by 64. -/
theorem unquantizedTables : Obligations.UnquantizedTables := by
  refine ⟨by decide, by decide +kernel, by decide +kernel, by decide +kernel, by decide +kernel, fun q i => ?_,
    by decide +kernel, by decide +kernel, by decide +kernel, by decide +kernel, fun q hq h1 h3 => ?_⟩
  · rw [unqWeightFloat, div_mul_cancel₀ _ (by norm_num)]
  · obtain ⟨hchain, hfirst, hlast, hmirror⟩ := risingColors_table q hq h1 h3
    refine ⟨risingColors q, risingColors_perm q, List.isChain_iff_pairwise.1 hchain, hfirst, hlast, fun k hk => ?_⟩
    rw [← risingColors_length] at hk ⊢
    exact getD_mirrored hmirror hk

/-- Settles O27: the counts of each footprint are evaluated. -/
theorem tableCounts : Obligations.TableCounts := by
  unfold Obligations.TableCounts
  decide +kernel

end Sys2Proof.Machine
end

section
/-! SUPPORT. The search (R410 to R415, R432): what a candidate is, that one is always there, that the block selected is
a best one; the obligation on it. -/

namespace Sys2Proof.Machine

variable {inp : SearchInput} {n : NormalSym}

/-! ## The conditions on a candidate (R410, R427, R432) -/

theorem permitEncode_eq_true {fp : Footprint} {cut : BitVec 17} {m : Nat} : permitEncode fp cut m = true ↔
    (∃ b, blockMode fp m = some b) ∧ (Config.blockModePercentile fp.bw fp.bh m).val ≤ cut.toNat := by
  simp [permitEncode, Option.isSome_iff_exists]

/-- Where a mode is permitted to encode only permitted modes are allowed, else every valid one. -/
theorem allowedMode_iff {m : Nat} : allowedMode inp m = true ↔
    (∃ b, blockMode ⟨inp.bw, inp.bh⟩ m = some b) ∧
      ((∃ k < 2048, permitEncode ⟨inp.bw, inp.bh⟩ inp.cut k = true) →
        permitEncode ⟨inp.bw, inp.bh⟩ inp.cut m = true) := by
  have hany : (List.range Config.blockModeCount).any (permitEncode ⟨inp.bw, inp.bh⟩ inp.cut) = true ↔
      ∃ k < 2048, permitEncode ⟨inp.bw, inp.bh⟩ inp.cut k = true := by simp [Config.blockModeCount]
  unfold allowedMode
  dsimp only
  by_cases h : ∃ k < 2048, permitEncode ⟨inp.bw, inp.bh⟩ inp.cut k = true
  · rw [if_pos (hany.2 h)]
    exact ⟨fun hm => ⟨(permitEncode_eq_true.1 hm).1, fun _ => hm⟩, fun hm => hm.2 h⟩
  · rw [if_neg (mt hany.1 h), Option.isSome_iff_exists]
    exact ⟨fun hm => ⟨hm, fun hk => absurd hk h⟩, And.left⟩

/-- The mode of a well-formed block is valid. -/
theorem allowedMode_iff_of_wf (hwf : normalWf ⟨inp.bw, inp.bh⟩ n = true) : allowedMode inp n.mode.toNat = true ↔
    ((∃ k < 2048, permitEncode ⟨inp.bw, inp.bh⟩ inp.cut k = true) →
      permitEncode ⟨inp.bw, inp.bh⟩ inp.cut n.mode.toNat = true) := by
  obtain ⟨b, hb, -⟩ := normalWf_some hwf
  exact allowedMode_iff.trans (and_iff_right ⟨b, hb⟩)

theorem partitioningAllowed_iff {fp : Footprint} : partitioningAllowed fp n = true ↔
    n.pc = 1 ∨ ∀ p < n.pc, ∃ t < fp.texels, partitionOf fp n.pc n.partIndex.toNat t = p := by
  rw [partitioningAllowed, Bool.or_eq_true, beq_iff_eq, encodablePartitioning_iff]

/-- No CEM is an HDR one (R426). -/
theorem usesHdr_eq_false_iff : usesHdr n = false ↔ ∀ c ∈ n.cems, c.toNat ∈ [0, 1, 4, 5, 6, 8, 9, 10, 12, 13] := by
  have hcem : ∀ c : BitVec 4, isHdrCem c.toNat = false ↔ c.toNat ∈ [0, 1, 4, 5, 6, 8, 9, 10, 12, 13] := by decide
  simp only [usesHdr, cemNats, List.any_eq_false, List.forall_mem_map, Bool.not_eq_true, hcem]

theorem matchedAsEmitted_iff : matchedAsEmitted n = true ↔ (n.matched = true ↔ ∀ c ∈ n.cems, ∀ d ∈ n.cems, c = d) := by
  have hall : (cemNats n).all (· == (cemNats n).headD 0) = true ↔ ∀ c ∈ n.cems, ∀ d ∈ n.cems, c = d := by
    unfold cemNats
    cases n.cems with
    | nil => simp
    | cons e cems =>
      rw [List.all_map, List.all_eq_true]
      simp only [Function.comp, List.map_cons, List.headD_cons, beq_iff_eq, BitVec.toNat_inj]
      exact ⟨fun h c hc d hd => (h c hc).trans (h d hd).symm, fun h c hc => h c hc e List.mem_cons_self⟩
  rw [matchedAsEmitted, beq_iff_eq, Bool.eq_iff_iff, hall]

theorem isCandidate_iff : isCandidate inp n = true ↔ normalWf ⟨inp.bw, inp.bh⟩ n = true ∧
    allowedMode inp n.mode.toNat = true ∧ partitioningAllowed ⟨inp.bw, inp.bh⟩ n = true ∧ usesHdr n = false ∧
    matchedAsEmitted n = true := by
  simp only [isCandidate, Bool.and_eq_true, Bool.not_eq_true', and_assoc]

/-! ## A candidate that is always there -/

/-- The color level is at least any that fits (R310). -/
theorem colorLevel_ge {nvals avail q : Nat} (hq : q < 21) (h : iseBits nvals q ≤ avail) :
    ∃ cq, colorLevel nvals avail = some cq ∧ q ≤ cq := by
  have hmem : q ∈ (List.range Config.numQuantLevels).filter fun q => iseBits nvals q ≤ avail :=
    List.mem_filter.2 ⟨List.mem_range.2 hq, decide_eq_true h⟩
  have hrising : ((List.range Config.numQuantLevels).filter fun q => iseBits nvals q ≤ avail).Pairwise (· ≤ ·) :=
    List.pairwise_le_range.filter _
  exact ⟨_, List.getLast?_eq_some_getLast (List.ne_nil_of_mem hmem), hrising.rel_getLast hmem⟩

/-- Every footprint has a valid mode: the 4x4 grid at level 2. -/
theorem blockMode_4x4 {fp : Footprint} (hfp : fp.valid = true) : ∃ b, blockMode fp 0x042 = some b := by
  have table : ∀ fp ∈ Footprint.all, (blockMode fp 0x042).isSome = true := by decide
  exact Option.isSome_iff_exists.1 (table fp (Footprint.valid_iff.1 hfp))

theorem allowedMode_exists (hfp : (⟨inp.bw, inp.bh⟩ : Footprint).valid = true) :
    ∃ m < 2048, allowedMode inp m = true := by
  by_cases h : ∃ k < 2048, permitEncode ⟨inp.bw, inp.bh⟩ inp.cut k = true
  · obtain ⟨m, hm, hp⟩ := h
    exact ⟨m, hm, allowedMode_iff.2 ⟨(permitEncode_eq_true.1 hp).1, fun _ => hp⟩⟩
  · exact ⟨0x042, by decide, allowedMode_iff.2 ⟨blockMode_4x4 hfp, fun hk => absurd hk h⟩⟩

section Plain

variable {fp : Footprint} {m : Nat} {b : BlockMode} (hb : blockMode fp m = some b) (hm : m < 2048)
include hb

/-- The fields of the plain candidate of a valid mode, with the color level that fits two values. -/
theorem plainCandidate_fields : ∃ cq, 4 ≤ cq ∧ cq < 21 ∧
    colorLevel 2 (colorEnd b.weightBits 1 true b.dual - colorStart 1) = some cq ∧ plainCandidate fp m =
      { mode := BitVec.ofNat 11 m, partIndex := 0, matched := true, ccs := 0, cq := BitVec.ofNat 5 cq, cems := [0],
        colors := [0, 0], w0 := List.replicate (b.grid.w * b.grid.h) 0,
        w1 := if b.dual then List.replicate (b.grid.w * b.grid.h) 0 else [] } := by
  obtain ⟨-, -, -, hbits, -⟩ := blockMode_some_iff.1 hb
  have hroom : iseBits 2 4 ≤ colorEnd b.weightBits 1 true b.dual - colorStart 1 := by
    have hneed : iseBits 2 4 = 6 := by decide
    have hend : colorEnd b.weightBits 1 true b.dual = 128 - b.weightBits - 0 - (if b.dual then 2 else 0) := rfl
    have hstart : colorStart 1 = 17 := rfl
    rw [hneed, hend, hstart]
    split <;> omega
  obtain ⟨cq, hcq, hge⟩ := colorLevel_ge (by decide) hroom
  refine ⟨cq, hge, (colorLevel_some hcq).1, hcq, ?_⟩
  simp [plainCandidate, hb, hcq]

include hm

theorem plainCandidate_mode : (plainCandidate fp m).mode.toNat = m := by
  obtain ⟨cq, -, -, -, heq⟩ := plainCandidate_fields hb
  rw [heq]
  exact Nat.mod_eq_of_lt hm

theorem plainCandidate_wf : normalWf fp (plainCandidate fp m) = true := by
  obtain ⟨cq, hge, hlt, hcq, heq⟩ := plainCandidate_fields hb
  have hlevel : (BitVec.ofNat 5 cq).toNat = cq := by rw [BitVec.toNat_ofNat, Nat.mod_eq_of_lt (by omega)]
  have hheader : headerOk b 0 true cq [0] = true := by
    simp [headerOk, cemFormOk, colorCount, cemValues, hcq, Config.maxPartitions, Config.maxColorValues,
      Config.minColorLevel, hge]
  have hcolor : 0 < levelValues cq := levelValues_pos (by omega)
  have hweight : 0 < levelValues b.wq := levelValues_pos (by have := decodeMode_wq_lt (blockMode_some hb).1; omega)
  have hvalues : valuesOk b (plainCandidate fp m) = true := by
    cases hd : b.dual <;> simp [heq, valuesOk, cemNats, colorCount, cemValues, hlevel, hcolor, hweight, hd]
  simp only [normalWf, plainCandidate_mode hb hm, hb, hvalues, Bool.and_true]
  simp only [heq, hlevel]
  exact hheader

end Plain

theorem someCandidate_isCandidate (hfp : (⟨inp.bw, inp.bh⟩ : Footprint).valid = true) :
    isCandidate inp (someCandidate inp) = true := by
  obtain ⟨k, hk, hk'⟩ := allowedMode_exists hfp
  obtain ⟨m, hfind⟩ := Option.isSome_iff_exists.1 (List.find?_isSome.2 ⟨k, List.mem_range.2 hk, hk'⟩)
  have hm : m < 2048 := List.mem_range.1 (List.mem_of_find?_eq_some hfind)
  have hallowed : allowedMode inp m = true := List.find?_some hfind
  obtain ⟨b, hb⟩ := (allowedMode_iff.1 hallowed).1
  have hsome : someCandidate inp = plainCandidate ⟨inp.bw, inp.bh⟩ m := by
    simp only [someCandidate, Config.blockModeCount, hfind, Option.getD_some]
  obtain ⟨cq, -, -, -, heq⟩ := plainCandidate_fields hb
  rw [hsome]
  refine isCandidate_iff.2 ⟨plainCandidate_wf hb hm, ?_, partitioningAllowed_iff.2 (.inl ?_), usesHdr_eq_false_iff.2 ?_,
    matchedAsEmitted_iff.2 ?_⟩
  · rw [plainCandidate_mode hb hm]
    exact hallowed
  all_goals simp [heq, NormalSym.pc]

/-! ## The evaluated set -/

theorem filter_subset_evaluated : (Config.searchPolicy inp).filter (isCandidate inp) ⊆ evaluated inp := by
  unfold evaluated
  split
  · rename_i h
    simp [h]
  · exact fun _ h => h

theorem evaluated_ne_nil : evaluated inp ≠ [] := by
  unfold evaluated
  split
  · simp
  · assumption

theorem evaluated_isCandidate (hfp : (⟨inp.bw, inp.bh⟩ : Footprint).valid = true) :
    ∀ n ∈ evaluated inp, isCandidate inp n = true := by
  intro n hn
  unfold evaluated at hn
  split at hn
  · rw [List.mem_singleton.1 hn]
    exact someCandidate_isCandidate hfp
  · exact (List.mem_filter.1 hn).2

/-! ## Selection (R413, R415) -/

theorem leastOf_le (cost : NormalSym → Nat × Nat) (best : NormalSym) (l : List NormalSym) :
    ∀ k ∈ best :: l, toLex (cost (leastOf cost best l)) ≤ toLex (cost k) := by
  induction l generalizing best with
  | nil => simp [leastOf]
  | cons n l ih =>
    obtain ⟨hbest, hl⟩ := List.forall_mem_cons.1 (ih (if beats (cost n) (cost best) then n else best))
    obtain ⟨hn, hb⟩ := winner_le cost n best
    exact List.forall_mem_cons.2 ⟨hbest.trans hb, List.forall_mem_cons.2 ⟨hbest.trans hn, hl⟩⟩

theorem minOf_le (l : List Nat) : ∀ x ∈ l, minOf l ≤ x := foldr_min_le _

theorem minOf_mem {l : List Nat} (h : l ≠ []) : minOf l ∈ l := by
  have hfold (a : Nat) (l : List Nat) : l.foldr min a ∈ a :: l := by
    induction l with
    | nil => exact List.mem_singleton_self a
    | cons x l ih =>
      rw [List.foldr_cons]
      obtain hx | hx := min_choice x (l.foldr min a)
      · simp [hx]
      · rw [hx]
        simp only [List.mem_cons] at ih ⊢
        tauto
  cases l with
  | nil => exact absurd rfl h
  | cons x l => simpa [minOf] using hfold x (x :: l)

/-- The block selected is one whose error counts as least, of least partition count and packed value among those. -/
theorem selectFrom_best {E : List NormalSym} (hE : E ≠ []) :
    let err := fun n => weightedError inp (.normal n)
    let cost := fun k : NormalSym => toLex (k.pc, packKey ⟨inp.bw, inp.bh⟩ k)
    let least := minOf (E.map err)
    (selectFrom inp E ∈ E ∧ nearLeast least (err (selectFrom inp E)) = true) ∧
      ∀ k ∈ E, nearLeast least (err k) = true → cost (selectFrom inp E) ≤ cost k := by
  intro err cost least
  obtain ⟨k₀, hk₀, hleast⟩ := List.mem_map.1 (minOf_mem (by simpa using hE : E.map err ≠ []))
  have hnear₀ : k₀ ∈ E.filter fun n => nearLeast least (err n) := by
    refine List.mem_filter.2 ⟨hk₀, ?_⟩
    simp [nearLeast, hleast, least]
  have hmem {k : NormalSym} : k ∈ E.filter (fun n => nearLeast least (err n)) ↔
      k ∈ E ∧ nearLeast least (err k) = true :=
    List.mem_filter
  unfold selectFrom
  dsimp only
  split
  · rename_i hnil
    exact absurd (hnil ▸ hnear₀) List.not_mem_nil
  · rename_i n rest hcons
    have hcons : E.filter (fun n => nearLeast least (err n)) = n :: rest := hcons
    rw [hcons] at hmem
    exact ⟨hmem.1 (List.mem_cons.2 (leastOf_mem _ n rest)),
      fun k hk hnear => leastOf_le (fun k => (k.pc, packKey _ k)) n rest k (hmem.2 ⟨hk, hnear⟩)⟩

/-- Settles O50: a candidate condition by condition, and the selection among the candidates evaluated. -/
theorem searchSelects : Obligations.SearchSelects := by
  refine ⟨fun inp n => ⟨filter_subset_evaluated, ?_⟩, fun inp hfp => ⟨evaluated_ne_nil, evaluated_isCandidate hfp, ?_⟩⟩
  · refine isCandidate_iff.trans (and_congr_right fun hwf => and_congr ?_
      (and_congr partitioningAllowed_iff (and_congr usesHdr_eq_false_iff matchedAsEmitted_iff)))
    simpa only [permitEncode_eq_true] using allowedMode_iff_of_wf hwf
  · intro err key
    obtain ⟨⟨hmem, hnear⟩, hbest⟩ := selectFrom_best (inp := inp) evaluated_ne_nil
    refine ⟨_, hmem, rfl, minOf ((evaluated inp).map err), ?_, ?_, of_decide_eq_true hnear, fun k hk hk' => ?_⟩
    · exact List.mem_map.1 (minOf_mem (by simpa using evaluated_ne_nil))
    · exact fun k hk => minOf_le _ _ (List.mem_map_of_mem hk)
    · exact Prod.Lex.toLex_le_toLex.1 (hbest k hk (decide_eq_true hk'))

end Sys2Proof.Machine
end

section
/-! SUPPORT. ISE_BITCOUNT (R241, R245), and the obligation on it. -/

namespace Sys2Proof.Machine

variable {n q : Nat}

theorem iseBits_trits (h : (level q).trits = 1) : iseBits n q = n * (level q).bits + (8 * n + 4) / 5 := if_pos h

theorem iseBits_quints (ht : (level q).trits ≠ 1) (h : (level q).quints = 1) :
    iseBits n q = n * (level q).bits + (7 * n + 2) / 3 := (if_neg ht).trans (if_pos h)

theorem iseBits_plain (ht : (level q).trits ≠ 1) (h : (level q).quints ≠ 1) :
    iseBits n q = n * (level q).bits := (if_neg ht).trans (if_neg h)

/-- No level has both a trit and a quint (R208). -/
theorem trits_ne_of_quints (hq : q ≤ 20) (h : (level q).quints = 1) : (level q).trits ≠ 1 := by
  have table : ∀ q < 21, (level q).quints = 1 → (level q).trits ≠ 1 := by decide
  exact table q (by omega) h

/-- The cost of as many items as a command can name fits `RESULT`. -/
theorem iseBits_lt (hn : n < 256) (hq : q ≤ 20) : iseBits n q < 2 ^ 32 := by
  have table : ∀ q < 21, (level q).bits ≤ 8 := by decide
  have hbits : n * (level q).bits ≤ n * 8 := Nat.mul_le_mul_left n (table q (by omega))
  simp only [iseBits]
  split_ifs <;> omega

theorem exec_iseBitcount (n : BitVec 8) (q : BitVec 5) (s : State) : exec (.iseBitcount n q) s =
    s.answerOrBad (if q.toNat > 20 then none else some (iseBits n.toNat q.toNat)) := rfl

/-- Settles O17: above level 20 the command raises; up to it, `RESULT` is the cost, which fits, kind by kind. -/
theorem iseBitcount : Obligations.IseBitcount := by
  intro n q s
  refine ⟨fun hq => ?_, fun hq => ⟨BitVec.ofNat 32 (iseBits n.toNat q.toNat), ?_, ?_⟩⟩
  · exact (exec_iseBitcount n q s).trans (State.answerOrBad_of_none (if_pos hq))
  · exact (exec_iseBitcount n q s).trans (State.answerOrBad_of_some (if_neg (Nat.not_lt.2 hq)))
  rw [BitVec.toNat_ofNat, Nat.mod_eq_of_lt (iseBits_lt n.isLt hq)]
  exact ⟨fun ht hu => iseBits_plain (by simp [ht]) (by simp [hu]), iseBits_trits,
    fun hu => iseBits_quints (trits_ne_of_quints hq hu) hu⟩

end Sys2Proof.Machine
end

section
/-! SUPPORT. Integer sequences (R240 to R253): the trits and quints of a group, the bits of a group at every level, and
a sequence encoded and decoded; and the obligations on them. -/

namespace Sys2Proof.Machine

/-! ## Trits and quints (R247 to R250) -/

theorem unpackTrits_packTrits : ∀ t : Fin 5 → Fin 3,
    unpackTrits (packTrits (t 0) (t 1) (t 2) (t 3) (t 4)) = [(t 0).val, t 1, t 2, t 3, t 4] := by
  decide +kernel

/-- With no trit from the `n`-th on, `T` has only the bits that the first `n` items carry (R243, R251). -/
theorem packTrits_lt : ∀ t : Fin 5 → Fin 3, ∀ n : Nat, n ≤ 5 → (∀ k : Fin 5, n ≤ k.val → t k = 0) →
    packTrits (t 0) (t 1) (t 2) (t 3) (t 4) < 2 ^ ([2, 2, 1, 2, 1].take n).sum := by
  decide +kernel

theorem unpackTrits_digits : ∀ T < 256, (unpackTrits T).length = 5 ∧ ∀ t ∈ unpackTrits T, t < 3 := by
  decide +kernel

theorem unpackQuints_packQuints : ∀ d : Fin 3 → Fin 5,
    unpackQuints (packQuints (d 0) (d 1) (d 2)) = [(d 0).val, d 1, d 2] := by
  decide +kernel

/-- With no quint from the `n`-th on, `Q` has only the bits that the first `n` items carry (R244, R251). -/
theorem packQuints_lt : ∀ d : Fin 3 → Fin 5, ∀ n : Nat, n ≤ 3 → (∀ k : Fin 3, n ≤ k.val → d k = 0) →
    packQuints (d 0) (d 1) (d 2) < 2 ^ ([3, 2, 2].take n).sum := by
  decide +kernel

theorem unpackQuints_digits : ∀ Q < 128, (unpackQuints Q).length = 3 ∧ ∀ d ∈ unpackQuints Q, d < 5 := by
  decide +kernel

/-- Settles O40: the inverses and the digits over every tuple and packed value; the values of 95_test_vectors.md and the
aliases by evaluation. -/
theorem tritsAndQuints : Obligations.TritsAndQuints := by
  refine ⟨fun t0 h0 t1 h1 t2 h2 t3 h3 t4 h4 => ?_, unpackTrits_digits, fun q0 h0 q1 h1 q2 h2 => ?_,
    unpackQuints_digits, by decide, by decide, by decide +kernel, by decide +kernel⟩
  · let t : Fin 5 → Fin 3 := ![⟨t0, h0⟩, ⟨t1, h1⟩, ⟨t2, h2⟩, ⟨t3, h3⟩, ⟨t4, h4⟩]
    exact ⟨packTrits_lt t 5 le_rfl fun k hk => absurd k.isLt (Nat.not_lt.2 hk), unpackTrits_packTrits t⟩
  · let d : Fin 3 → Fin 5 := ![⟨q0, h0⟩, ⟨q1, h1⟩, ⟨q2, h2⟩]
    exact ⟨packQuints_lt d 3 le_rfl fun k hk => absurd k.isLt (Nat.not_lt.2 hk), unpackQuints_packQuints d⟩

/-! ## The digits of a level -/

/-- What the items of a group carry beside their low bits: five trits, three quints or nothing (R243, R244, R246). -/
inductive Coding where
  | trits
  | quints
  | plain

/-- How many values a digit has. -/
def Coding.radix : Coding → Nat
  | .trits => 3
  | .quints => 5
  | .plain => 1

/-- The widths of the parts of the code (`T` or `Q`), one above the low bits of each item. -/
def Coding.widths : Coding → List Nat
  | .trits => [2, 2, 1, 2, 1]
  | .quints => [3, 2, 2]
  | .plain => [0]

/-- The code of the digits `d` (R248, R250). -/
def Coding.pack : Coding → (Nat → Nat) → Nat
  | .trits, d => packTrits (d 0) (d 1) (d 2) (d 3) (d 4)
  | .quints, d => packQuints (d 0) (d 1) (d 2)
  | .plain, _ => 0

/-- The digits of a code (R247, R249). -/
def Coding.unpack : Coding → Nat → List Nat
  | .trits, T => unpackTrits T
  | .quints, Q => unpackQuints Q
  | .plain, _ => [0]

/-- The coding of level `q`. -/
def coding (q : Nat) : Coding :=
  if (level q).trits = 1 then .trits else if (level q).quints = 1 then .quints else .plain

theorem coding_trits {q : Nat} (h : (level q).trits = 1) : coding q = .trits := if_pos h

theorem coding_quints {q : Nat} (ht : (level q).trits ≠ 1) (h : (level q).quints = 1) : coding q = .quints :=
  (if_neg ht).trans (if_pos h)

theorem coding_plain {q : Nat} (ht : (level q).trits ≠ 1) (h : (level q).quints ≠ 1) : coding q = .plain :=
  (if_neg ht).trans (if_neg h)

theorem getD_lt_of_forall {l : List Nat} {r : Nat} (hr : 0 < r) (h : ∀ x ∈ l, x < r) (k : Nat) :
    l.getD k 0 < r := by
  by_cases hk : k < l.length
  · rw [List.getD_eq_getElem _ _ hk]
    exact h _ (List.getElem_mem hk)
  · rwa [List.getD_eq_default _ _ (Nat.not_lt.1 hk)]

namespace Coding

variable {c : Coding} {d : Nat → Nat}

theorem pack_congr {d' : Nat → Nat} (h : ∀ k < c.widths.length, d k = d' k) : c.pack d = c.pack d' := by
  cases c with
  | trits => simp only [pack, h 0 (by decide), h 1 (by decide), h 2 (by decide), h 3 (by decide), h 4 (by decide)]
  | quints => simp only [pack, h 0 (by decide), h 1 (by decide), h 2 (by decide)]
  | plain => rfl

/-- With no digit from the `n`-th on, the code has only the bits that the first `n` items carry. -/
theorem pack_lt (hd : ∀ k, d k < c.radix) {n : Nat} (hn : n ≤ c.widths.length)
    (h0 : ∀ k < c.widths.length, n ≤ k → d k = 0) : c.pack d < 2 ^ (c.widths.take n).sum := by
  cases c with
  | trits => exact packTrits_lt (fun k => ⟨d k, hd k⟩) n hn fun k hk => Fin.ext (h0 k k.isLt hk)
  | quints => exact packQuints_lt (fun k => ⟨d k, hd k⟩) n hn fun k hk => Fin.ext (h0 k k.isLt hk)
  | plain => exact Nat.two_pow_pos _

theorem unpack_pack (hd : ∀ k, d k < c.radix) : c.unpack (c.pack d) = (List.range c.widths.length).map d := by
  cases c with
  | trits => exact unpackTrits_packTrits fun k => ⟨d k, hd k⟩
  | quints => exact unpackQuints_packQuints fun k => ⟨d k, hd k⟩
  | plain =>
    have hzero : d 0 = 0 := Nat.lt_one_iff.1 (hd 0)
    simp [unpack, widths, hzero]

theorem unpack_lt {C : Nat} (hC : C < 2 ^ c.widths.sum) (k : Nat) : (c.unpack C).getD k 0 < c.radix := by
  cases c with
  | trits => exact getD_lt_of_forall (by decide) (unpackTrits_digits C hC).2 k
  | quints => exact getD_lt_of_forall (by decide) (unpackQuints_digits C hC).2 k
  | plain => exact getD_lt_of_forall (l := [0]) (by decide) (by decide) k

end Coding

section Level

variable {q n : Nat}

theorem levelValues_eq (hq : q ≤ 20) : levelValues q = (coding q).radix * 2 ^ (level q).bits := by
  have table : ∀ q < 21, levelValues q = (coding q).radix * 2 ^ (level q).bits := by decide
  exact table q (by omega)

theorem groupItems_eq (q : Nat) : groupItems q = (coding q).widths.length := by
  simp only [groupItems, coding]
  split_ifs <;> rfl

theorem groupItems_pos (q : Nat) : 0 < groupItems q := by
  simp only [groupItems]
  split_ifs <;> decide

theorem groupBits_eq (q : Nat) : groupBits q = groupItems q * (level q).bits + (coding q).widths.sum := by
  simp only [groupBits, groupItems, coding]
  split_ifs
  · rfl
  · rfl
  · simp [Coding.widths]

/-- The cost of a part of a group is its bits (R241). -/
theorem iseBits_part (hn : n ≤ groupItems q) :
    iseBits n q = n * (level q).bits + ((coding q).widths.take n).sum := by
  by_cases ht : (level q).trits = 1
  · have hcost : ∀ n ≤ 5, (8 * n + 4) / 5 = (Coding.trits.widths.take n).sum := by decide
    rw [groupItems_eq, coding_trits ht] at hn
    rw [iseBits_trits ht, coding_trits ht, hcost n hn]
  by_cases hu : (level q).quints = 1
  · have hcost : ∀ n ≤ 3, (7 * n + 2) / 3 = (Coding.quints.widths.take n).sum := by decide
    rw [groupItems_eq, coding_quints ht hu] at hn
    rw [iseBits_quints ht hu, coding_quints ht hu, hcost n hn]
  · have hcost : ∀ n ≤ 1, 0 = (Coding.plain.widths.take n).sum := by decide
    rw [groupItems_eq, coding_plain ht hu] at hn
    rw [iseBits_plain ht hu, coding_plain ht hu, ← hcost n hn, Nat.add_zero]

theorem iseBits_group (q : Nat) : iseBits (groupItems q) q = groupBits q := by
  rw [iseBits_part le_rfl, groupBits_eq, groupItems_eq, List.take_length]

theorem iseBits_add_group (n q : Nat) : iseBits (groupItems q + n) q = groupBits q + iseBits n q := by
  simp only [iseBits, groupItems, groupBits]
  split_ifs <;> rw [Nat.add_mul] <;> omega

end Level

/-! ## The bits of a group (R243, R244, R246) -/

/-- Items of low bits `m`, each with its share of the code `C` above it. -/
def layGroup (b : Nat) : List Nat → (Nat → Nat) → Nat → Nat
  | [], _, _ => 0
  | w :: ws, m, C => m 0 + 2 ^ b * (C % 2 ^ w + 2 ^ w * layGroup b ws (fun k => m (k + 1)) (C / 2 ^ w))

section Layout

variable {b : Nat} {m : Nat → Nat}

theorem low_mod {x : Nat} (h : x < 2 ^ b) (y : Nat) : (x + 2 ^ b * y) % 2 ^ b = x := by
  rw [Nat.add_mul_mod_self_left, Nat.mod_eq_of_lt h]

theorem low_div {x : Nat} (h : x < 2 ^ b) (y : Nat) : (x + 2 ^ b * y) / 2 ^ b = y := by
  rw [Nat.add_mul_div_left _ _ (Nat.two_pow_pos b), Nat.div_eq_of_lt h, Nat.zero_add]

theorem low_lt {x y n : Nat} (hx : x < 2 ^ b) (hy : y < 2 ^ n) : x + 2 ^ b * y < 2 ^ (b + n) := by
  have : 2 ^ b * (y + 1) ≤ 2 ^ b * 2 ^ n := Nat.mul_le_mul_left _ hy
  rw [Nat.pow_add]
  rw [Nat.mul_add] at this
  omega

theorem layGroup_zero (ws : List Nat) (hm : ∀ k < ws.length, m k = 0) : layGroup b ws m 0 = 0 := by
  induction ws generalizing m with
  | nil => rfl
  | cons w ws ih =>
    have hrest := ih (m := fun k => m (k + 1)) fun k hk => hm (k + 1) (by simpa using hk)
    simp [layGroup, hm 0, hrest]

theorem layGroup_congr (ws : List Nat) {m' : Nat → Nat} {C : Nat} (h : ∀ k < ws.length, m k = m' k) :
    layGroup b ws m C = layGroup b ws m' C := by
  induction ws generalizing m m' C with
  | nil => rfl
  | cons w ws ih =>
    rw [layGroup, layGroup, h 0 (by simp), ih fun k hk => h (k + 1) (by simpa using hk)]

/-- With no item from the `n`-th on, the bits of the first `n`. -/
theorem layGroup_lt (ws : List Nat) {n C : Nat} (hm : ∀ k, m k < 2 ^ b) (h0 : ∀ k < ws.length, n ≤ k → m k = 0)
    (hC : C < 2 ^ (ws.take n).sum) (hn : n ≤ ws.length) :
    layGroup b ws m C < 2 ^ (n * b + (ws.take n).sum) := by
  induction ws generalizing m n C with
  | nil => exact Nat.two_pow_pos _
  | cons w ws ih =>
    cases n with
    | zero =>
      obtain rfl : C = 0 := by simpa using hC
      rw [layGroup_zero _ fun k hk => h0 k hk (Nat.zero_le k)]
      exact Nat.two_pow_pos _
    | succ n =>
      rw [List.take_succ_cons, List.sum_cons] at hC ⊢
      have hrest := ih (m := fun k => m (k + 1)) (n := n) (C := C / 2 ^ w) (fun k => hm (k + 1))
        (fun k hk hn => h0 (k + 1) (by simpa using hk) (by omega)) (Nat.div_lt_of_lt_mul (by rwa [← Nat.pow_add]))
        (by simpa using hn)
      rw [layGroup, show (n + 1) * b + (w + (ws.take n).sum) = b + (w + (n * b + (ws.take n).sum)) by
        rw [Nat.succ_mul]; omega]
      exact low_lt (hm 0) (low_lt (Nat.mod_lt _ (Nat.two_pow_pos w)) hrest)

theorem unpackFields_layGroup (hm : ∀ k, m k < 2 ^ b) (w C : Nat) (ws fields : List Nat) :
    unpackFields (b :: w :: fields) (layGroup b (w :: ws) m C) =
      m 0 :: C % 2 ^ w :: unpackFields fields (layGroup b ws (fun k => m (k + 1)) (C / 2 ^ w)) := by
  simp only [unpackFields, layGroup, low_mod (hm 0), low_div (hm 0), low_mod (Nat.mod_lt _ (Nat.two_pow_pos w)),
    low_div (Nat.mod_lt _ (Nat.two_pow_pos w))]

/-- The code of a group can be read off its bits. -/
theorem layGroup_inj (ws : List Nat) {C C' : Nat} (hm : ∀ k, m k < 2 ^ b) (hC : C < 2 ^ ws.sum)
    (hC' : C' < 2 ^ ws.sum) (h : layGroup b ws m C = layGroup b ws m C') : C = C' := by
  induction ws generalizing m C C' with
  | nil =>
    simp only [List.sum_nil, Nat.pow_zero] at hC hC'
    omega
  | cons w ws ih =>
    rw [List.sum_cons, Nat.pow_add] at hC hC'
    have hfields := congrArg (unpackFields [b, w]) h
    have hrest := congrArg (fun x => x / 2 ^ b / 2 ^ w) h
    simp only [unpackFields_layGroup hm, List.cons.injEq] at hfields
    obtain ⟨-, hmod, -⟩ := hfields
    simp only [layGroup, low_div (hm 0), low_div (Nat.mod_lt _ (Nat.two_pow_pos w))] at hrest
    have hdiv := ih (fun k => hm (k + 1)) (Nat.div_lt_of_lt_mul hC) (Nat.div_lt_of_lt_mul hC') hrest
    rw [← Nat.mod_add_div C (2 ^ w), ← Nat.mod_add_div C' (2 ^ w), hmod, hdiv]

/-- Every number of a group's bits is a group. -/
theorem exists_layGroup (b : Nat) (ws : List Nat) {x : Nat} (hx : x < 2 ^ (ws.length * b + ws.sum)) :
    ∃ m C, (∀ k, m k < 2 ^ b) ∧ C < 2 ^ ws.sum ∧ x = layGroup b ws m C := by
  induction ws generalizing x with
  | nil => exact ⟨fun _ => 0, 0, fun _ => Nat.two_pow_pos b, by simp, by simpa [layGroup] using hx⟩
  | cons w ws ih =>
    have hrest : x / 2 ^ b / 2 ^ w < 2 ^ (ws.length * b + ws.sum) := by
      rw [Nat.div_div_eq_div_mul, ← Nat.pow_add]
      refine Nat.div_lt_of_lt_mul ?_
      rwa [← Nat.pow_add, show b + w + (ws.length * b + ws.sum) = (w :: ws).length * b + (w :: ws).sum by
        rw [List.length_cons, List.sum_cons, Nat.succ_mul]; omega]
    obtain ⟨m, C, hm, hC, hx'⟩ := ih hrest
    have hlow : x / 2 ^ b % 2 ^ w < 2 ^ w := Nat.mod_lt _ (Nat.two_pow_pos w)
    refine ⟨fun | 0 => x % 2 ^ b | k + 1 => m k, x / 2 ^ b % 2 ^ w + 2 ^ w * C, ?_, ?_, ?_⟩
    · rintro (_ | k)
      · exact Nat.mod_lt _ (Nat.two_pow_pos b)
      · exact hm k
    · exact low_lt hlow hC
    · rw [layGroup, low_mod hlow, low_div hlow, ← hx', Nat.mod_add_div, Nat.mod_add_div]

end Layout

section Group

variable {q : Nat} {m : Nat → Nat} {C : Nat}

theorem encodeGroup_eq (q : Nat) (v : List Nat) : encodeGroup q v = layGroup (level q).bits (coding q).widths
    (fun k => v.getD k 0 % 2 ^ (level q).bits) ((coding q).pack fun k => v.getD k 0 / 2 ^ (level q).bits) := by
  by_cases ht : (level q).trits = 1
  · simp [encodeGroup, ht, coding_trits ht, Coding.widths, Coding.pack, layGroup, packFields, field, bit,
      Nat.div_div_eq_div_mul]
  by_cases hu : (level q).quints = 1
  · simp [encodeGroup, ht, hu, coding_quints ht hu, Coding.widths, Coding.pack, layGroup, packFields, field,
      Nat.div_div_eq_div_mul]
  · simp [encodeGroup, ht, hu, coding_plain ht hu, Coding.widths, Coding.pack, layGroup, packFields]

theorem decodeGroup_layGroup (hm : ∀ k, m k < 2 ^ (level q).bits) (hC : C < 2 ^ (coding q).widths.sum) :
    decodeGroup q (layGroup (level q).bits (coding q).widths m C) =
      (List.range (groupItems q)).map fun k => ((coding q).unpack C).getD k 0 * 2 ^ (level q).bits + m k := by
  by_cases ht : (level q).trits = 1
  · rw [coding_trits ht] at hC ⊢
    have hcode : C % 2 ^ 2 + C / 2 ^ 2 % 2 ^ 2 * 4 + C / 2 ^ 2 / 2 ^ 2 % 2 ^ 1 * 16 +
        C / 2 ^ 2 / 2 ^ 2 / 2 ^ 1 % 2 ^ 2 * 32 + C / 2 ^ 2 / 2 ^ 2 / 2 ^ 1 / 2 ^ 2 % 2 ^ 1 * 128 = C := by
      have : C < 256 := hC
      omega
    simp only [decodeGroup, groupItems, ht, if_true, Coding.widths, unpackFields_layGroup, hm, implies_true,
      List.getD_cons_succ, List.getD_cons_zero, hcode]
    rfl
  by_cases hu : (level q).quints = 1
  · rw [coding_quints ht hu] at hC ⊢
    have hcode : C % 2 ^ 3 + C / 2 ^ 3 % 2 ^ 2 * 8 + C / 2 ^ 3 / 2 ^ 2 % 2 ^ 2 * 32 = C := by
      have : C < 128 := hC
      omega
    simp only [decodeGroup, groupItems, if_neg ht, hu, if_true, Coding.widths, unpackFields_layGroup, hm, implies_true,
      List.getD_cons_succ, List.getD_cons_zero, hcode]
    rfl
  · rw [coding_plain ht hu]
    simp [decodeGroup, ht, hu, groupItems, Coding.widths, Coding.unpack, layGroup, low_mod (hm 0)]

/-- The digits of items in the level (R208). -/
theorem digit_lt (hq : q ≤ 20) {x : Nat} (hx : x < levelValues q) : x / 2 ^ (level q).bits < (coding q).radix :=
  Nat.div_lt_of_lt_mul (by rwa [Nat.mul_comm, ← levelValues_eq hq])

/-- A digit above low bits lies in the level (R208, R252). -/
theorem item_lt (hq : q ≤ 20) {d x : Nat} (hd : d < (coding q).radix) (hx : x < 2 ^ (level q).bits) :
    d * 2 ^ (level q).bits + x < levelValues q := by
  have : (d + 1) * 2 ^ (level q).bits ≤ levelValues q := levelValues_eq hq ▸ Nat.mul_le_mul_right _ hd
  rw [Nat.succ_mul] at this
  omega

theorem item_div {d x b : Nat} (hx : x < 2 ^ b) : (d * 2 ^ b + x) / 2 ^ b = d := by
  rw [Nat.add_comm, Nat.mul_comm, low_div hx]

theorem item_mod {d x b : Nat} (hx : x < 2 ^ b) : (d * 2 ^ b + x) % 2 ^ b = x := by
  rw [Nat.add_comm, Nat.mul_comm, low_mod hx]

/-- The code of digits has the bits of a group. -/
theorem pack_lt_group {d : Nat → Nat} (hd : ∀ k, d k < (coding q).radix) :
    (coding q).pack d < 2 ^ (coding q).widths.sum := by
  have := Coding.pack_lt hd le_rfl fun k hk hk' => absurd hk (Nat.not_lt.2 hk')
  rwa [List.take_length] at this

theorem layGroup_lt_group (hm : ∀ k, m k < 2 ^ (level q).bits) (hC : C < 2 ^ (coding q).widths.sum) :
    layGroup (level q).bits (coding q).widths m C < 2 ^ groupBits q := by
  rw [← List.take_length (l := (coding q).widths)] at hC
  have := layGroup_lt _ hm (fun k hk hk' => absurd hk (Nat.not_lt.2 hk')) hC le_rfl
  rwa [List.take_length, ← groupItems_eq, ← groupBits_eq] at this

/-- A whole group, its items given by a function. -/
theorem encodeGroup_map (q : Nat) (f : Nat → Nat) : encodeGroup q ((List.range (groupItems q)).map f) =
    layGroup (level q).bits (coding q).widths (fun k => f k % 2 ^ (level q).bits)
      ((coding q).pack fun k => f k / 2 ^ (level q).bits) := by
  have hget (k : Nat) (hk : k < (coding q).widths.length) :
      ((List.range (groupItems q)).map f).getD k 0 = f k := by
    rw [← groupItems_eq] at hk
    simp [List.getD, hk]
  rw [encodeGroup_eq, Coding.pack_congr fun k hk => by rw [hget k hk],
    layGroup_congr _ fun k hk => by rw [hget k hk]]

section Items

variable (hq : q ≤ 20) {v : List Nat} (hv : ∀ x ∈ v, x < levelValues q)
include hq hv

theorem getD_lt_levelValues (k : Nat) : v.getD k 0 < levelValues q := getD_lt_of_forall (levelValues_pos hq) hv k

theorem encodeGroup_lt_group : encodeGroup q v < 2 ^ groupBits q := by
  rw [encodeGroup_eq]
  exact layGroup_lt_group (fun k => Nat.mod_lt _ (Nat.two_pow_pos _))
    (pack_lt_group fun k => digit_lt hq (getD_lt_levelValues hq hv k))

/-- The bits of a group past the cost of its items are 0, so R251 drops nothing of them. -/
theorem encodeGroup_lt (hlen : v.length ≤ groupItems q) : encodeGroup q v < 2 ^ iseBits v.length q := by
  have habsent (k : Nat) (hk : v.length ≤ k) : v.getD k 0 = 0 := List.getD_eq_default _ _ hk
  have hlen' := groupItems_eq q ▸ hlen
  rw [encodeGroup_eq, iseBits_part hlen]
  refine layGroup_lt _ (fun k => Nat.mod_lt _ (Nat.two_pow_pos _)) (fun k _ hk => ?_) ?_ hlen'
  · rw [habsent k hk, Nat.zero_mod]
  · refine Coding.pack_lt (fun k => digit_lt hq (getD_lt_levelValues hq hv k)) hlen' fun k _ hk => ?_
    rw [habsent k hk, Nat.zero_div]

/-- A group decoded: its items, and 0 for each absent one (R251, R252). -/
theorem decodeGroup_encodeGroup (hlen : v.length ≤ groupItems q) :
    decodeGroup q (encodeGroup q v) = v ++ List.replicate (groupItems q - v.length) 0 := by
  have hdigit (k : Nat) := digit_lt hq (getD_lt_levelValues hq hv k)
  rw [encodeGroup_eq, decodeGroup_layGroup (fun k => Nat.mod_lt _ (Nat.two_pow_pos _)) (pack_lt_group hdigit),
    Coding.unpack_pack hdigit, ← groupItems_eq]
  refine List.ext_getElem (by simp; omega) fun k hk _ => ?_
  rw [List.length_map, List.length_range] at hk
  have hitem : ((List.range (groupItems q)).map fun k => v.getD k 0 / 2 ^ (level q).bits).getD k 0 =
      v.getD k 0 / 2 ^ (level q).bits := by
    simp [List.getD, hk]
  rw [List.getElem_map, List.getElem_range, hitem, Nat.div_add_mod', List.getElem_append]
  split_ifs with hin
  · rw [List.getD_eq_getElem _ _ hin]
  · rw [List.getD_eq_default _ _ (Nat.not_lt.1 hin), List.getElem_replicate]

end Items

/-- What a group decodes to, whatever its bits: as many items, each in the level (R252). -/
theorem decodeGroup_items (hq : q ≤ 20) {x : Nat} (hx : x < 2 ^ groupBits q) :
    (decodeGroup q x).length = groupItems q ∧ ∀ y ∈ decodeGroup q x, y < levelValues q := by
  rw [groupBits_eq, groupItems_eq] at hx
  obtain ⟨m, C, hm, hC, rfl⟩ := exists_layGroup _ _ hx
  rw [decodeGroup_layGroup hm hC]
  refine ⟨by simp, fun y hy => ?_⟩
  obtain ⟨k, -, rfl⟩ := List.mem_map.1 hy
  exact item_lt hq (Coding.unpack_lt hC k) (hm k)

end Group

/-! ## Sequences (R251, R252) -/

section Sequence

variable {q : Nat}

theorem length_le_groups (n q : Nat) : n ≤ groupCount n q * groupItems q := by
  rw [groupCount, ← Nat.ceilDiv_eq_add_pred_div, Nat.mul_comm]
  exact le_smul_ceilDiv (groupItems_pos q)

theorem groupCount_group (q : Nat) : groupCount (groupItems q) q = 1 := by
  have := groupItems_pos q
  exact Nat.div_eq_of_lt_le (by omega) (by omega)

theorem decodeGroups_items (hq : q ≤ 20) (g x : Nat) :
    (decodeGroups q g x).length = g * groupItems q ∧ ∀ y ∈ decodeGroups q g x, y < levelValues q := by
  induction g generalizing x with
  | zero => simp [decodeGroups]
  | succ g ih =>
    obtain ⟨hlen, hlt⟩ := decodeGroup_items hq (Nat.mod_lt x (Nat.two_pow_pos (groupBits q)))
    obtain ⟨hlens, hlts⟩ := ih (x / 2 ^ groupBits q)
    rw [decodeGroups]
    refine ⟨by rw [List.length_append, hlen, hlens, Nat.succ_mul, Nat.add_comm], fun y hy => ?_⟩
    exact (List.mem_append.1 hy).elim (hlt y) (hlts y)

theorem iseDecode_items (hq : q ≤ 20) (n x : Nat) :
    (iseDecode n q x).length = n ∧ ∀ y ∈ iseDecode n q x, y < levelValues q := by
  obtain ⟨hlen, hlt⟩ := decodeGroups_items hq (groupCount n q) (x % 2 ^ iseBits n q)
  refine ⟨?_, fun y hy => hlt y (List.mem_of_mem_take hy)⟩
  rw [iseDecode, List.length_take, hlen, Nat.min_eq_left (length_le_groups n q)]

section Items

variable (hq : q ≤ 20) {v : List Nat} (hv : ∀ x ∈ v, x < levelValues q)
include hq hv

/-- The groups of a sequence decode to it, followed by a 0 for each absent item of the last. -/
theorem decodeGroups_encodeGroups {g : Nat} (hlen : v.length ≤ g * groupItems q) :
    decodeGroups q g (encodeGroups q g v) = v ++ List.replicate (g * groupItems q - v.length) 0 := by
  induction g generalizing v with
  | zero =>
    obtain rfl : v = [] := by simpa using hlen
    simp [decodeGroups]
  | succ g ih =>
    have htake : ∀ x ∈ v.take (groupItems q), x < levelValues q := fun x hx => hv x (List.mem_of_mem_take hx)
    have hdrop : ∀ x ∈ v.drop (groupItems q), x < levelValues q := fun x hx => hv x (List.mem_of_mem_drop hx)
    have hgroup := encodeGroup_lt_group hq htake
    rw [Nat.succ_mul] at hlen ⊢
    rw [encodeGroups, decodeGroups, low_mod hgroup, low_div hgroup,
      decodeGroup_encodeGroup hq htake (List.length_take_le _ _), ih hdrop (by rw [List.length_drop]; omega)]
    obtain hshort | hlong := Nat.le_total v.length (groupItems q)
    · rw [List.take_of_length_le hshort, List.drop_of_length_le hshort, List.nil_append, List.append_assoc,
        List.replicate_append_replicate, List.length_nil]
      congr 2
      omega
    · rw [List.length_take, Nat.min_eq_left hlong, Nat.sub_self, List.replicate_zero, List.append_nil,
        ← List.append_assoc, List.take_append_drop, List.length_drop]
      congr 2
      omega

/-- The bits of the groups past the cost of the sequence are 0 (R241, R251). -/
theorem encodeGroups_lt {g : Nat} (hlen : v.length ≤ g * groupItems q) :
    encodeGroups q g v < 2 ^ iseBits v.length q := by
  induction g generalizing v with
  | zero => exact Nat.two_pow_pos _
  | succ g ih =>
    have hdrop : ∀ x ∈ v.drop (groupItems q), x < levelValues q := fun x hx => hv x (List.mem_of_mem_drop hx)
    rw [Nat.succ_mul] at hlen
    have hrest := ih hdrop (by rw [List.length_drop]; omega)
    rw [encodeGroups]
    obtain hshort | hlong := Nat.le_total v.length (groupItems q)
    · rw [List.drop_of_length_le hshort] at hrest ⊢
      have hnil : iseBits 0 q = 0 := by rw [iseBits_part (Nat.zero_le _)]; simp
      rw [List.length_nil, hnil, Nat.pow_zero, Nat.lt_one_iff] at hrest
      rw [hrest, Nat.mul_zero, Nat.add_zero, List.take_of_length_le hshort]
      exact encodeGroup_lt hq hv hshort
    · have hlength : v.length = groupItems q + (v.drop (groupItems q)).length := by
        rw [List.length_drop, Nat.add_sub_cancel' hlong]
      rw [hlength, iseBits_add_group]
      exact low_lt (encodeGroup_lt_group hq fun x hx => hv x (List.mem_of_mem_take hx)) hrest

theorem iseEncode_eq : iseEncode v q = encodeGroups q (groupCount v.length q) v :=
  Nat.mod_eq_of_lt (encodeGroups_lt hq hv (length_le_groups _ _))

theorem iseDecode_iseEncode (above : Nat) :
    iseDecode v.length q (iseEncode v q + above * 2 ^ iseBits v.length q) = v := by
  rw [iseEncode_eq hq hv, iseDecode, Nat.add_mul_mod_self_right,
    Nat.mod_eq_of_lt (encodeGroups_lt hq hv (length_le_groups _ _)),
    decodeGroups_encodeGroups hq hv (length_le_groups _ _), List.take_left]

theorem iseEncode_whole (hlen : v.length = groupItems q) : iseEncode v q = encodeGroup q v := by
  rw [iseEncode_eq hq hv, hlen, groupCount_group, encodeGroups, encodeGroups, Nat.mul_zero, Nat.add_zero, ← hlen,
    List.take_length]

end Items

theorem iseDecode_whole {x : Nat} (hq : q ≤ 20) (hx : x < 2 ^ groupBits q) :
    iseDecode (groupItems q) q x = decodeGroup q x := by
  rw [iseDecode, groupCount_group, iseBits_group, decodeGroups, decodeGroups, List.append_nil, Nat.mod_eq_of_lt hx,
    Nat.mod_eq_of_lt hx, ← (decodeGroup_items hq hx).1, List.take_length]

end Sequence

/-! ## Whole groups of a level whose coding is `c` (R253) -/

section Whole

variable {q : Nat} (hq : q ≤ 20) {c : Coding} (hc : coding q = c)
include hq hc

/-- A whole group encoded, and its code, which has no bits beyond the group's. -/
theorem iseEncode_group {v : Nat → Nat} (hv : ∀ k, v k < levelValues q) :
    let code := c.pack fun k => v k / 2 ^ (level q).bits
    iseEncode ((List.range c.widths.length).map v) q =
      layGroup (level q).bits c.widths (fun k => v k % 2 ^ (level q).bits) code ∧ code < 2 ^ c.widths.sum := by
  subst hc
  refine ⟨?_, pack_lt_group fun k => digit_lt hq (hv k)⟩
  rw [← groupItems_eq, iseEncode_whole hq (by simp [hv]) (by simp), encodeGroup_map]

variable {m : Nat → Nat} {C : Nat} (hm : ∀ k, m k < 2 ^ (level q).bits) (hC : C < 2 ^ c.widths.sum)
include hm hC

theorem iseDecode_group : iseDecode c.widths.length q (layGroup (level q).bits c.widths m C) =
    (List.range c.widths.length).map fun k => (c.unpack C).getD k 0 * 2 ^ (level q).bits + m k := by
  subst hc
  rw [← groupItems_eq, iseDecode_whole hq (layGroup_lt_group hm hC), decodeGroup_layGroup hm hC]

/-- A whole group decoded and encoded is itself exactly if its code is no alias. -/
theorem iseEncode_iseDecode_group :
    let x := layGroup (level q).bits c.widths m C
    iseEncode (iseDecode c.widths.length q x) q = x ↔ (c.pack fun k => (c.unpack C).getD k 0) = C := by
  have hdigit : ∀ k, (c.unpack C).getD k 0 < (coding q).radix := by
    subst hc
    exact Coding.unpack_lt hC
  obtain ⟨hencode, hlt⟩ := iseEncode_group hq hc fun k => item_lt hq (hdigit k) (hm k)
  simp only [item_div (hm _), item_mod (hm _)] at hencode hlt
  dsimp only
  rw [iseDecode_group hq hc hm hC, hencode]
  exact ⟨layGroup_inj _ hm hlt hC, fun h => by rw [h]⟩

end Whole

/-! ## The groups as the statement writes them -/

section Written

variable {b : Nat} (m : Nat → Nat) {C : Nat}

theorem layGroup_trits (hC : C < 256) : layGroup b Coding.trits.widths m C =
    m 0 + 2 ^ b * (C % 4 + 4 * (m 1 + 2 ^ b * (C / 4 % 4 + 4 * (m 2 + 2 ^ b * (C / 16 % 2 + 2 * (m 3 + 2 ^ b *
      (C / 32 % 4 + 4 * (m 4 + 2 ^ b * (C / 128))))))))) := by
  have htop : C / 128 % 2 = C / 128 := by omega
  simp [Coding.widths, layGroup, Nat.div_div_eq_div_mul, htop]

theorem layGroup_quints (hC : C < 128) : layGroup b Coding.quints.widths m C =
    m 0 + 2 ^ b * (C % 8 + 8 * (m 1 + 2 ^ b * (C / 8 % 4 + 4 * (m 2 + 2 ^ b * (C / 32))))) := by
  have htop : C / 32 % 4 = C / 32 := by omega
  simp [Coding.widths, layGroup, Nat.div_div_eq_div_mul, htop]

end Written

section Plain

variable {q : Nat}

theorem levelValues_plain (hq : q ≤ 20) (ht : (level q).trits ≠ 1) (hu : (level q).quints ≠ 1) :
    levelValues q = 2 ^ (level q).bits := by
  rw [levelValues_eq hq, coding_plain ht hu, Coding.radix, Nat.one_mul]

variable (ht : (level q).trits ≠ 1) (hu : (level q).quints ≠ 1)
include ht hu

theorem groupItems_plain : groupItems q = 1 := by rw [groupItems_eq, coding_plain ht hu]; rfl

theorem groupBits_plain : groupBits q = (level q).bits := (if_neg ht).trans (if_neg hu)

theorem encodeGroup_plain (x : Nat) : encodeGroup q [x] = x % 2 ^ (level q).bits := by
  simp [encodeGroup, ht, hu, packFields]

theorem decodeGroup_plain (x : Nat) : decodeGroup q x = [x % 2 ^ (level q).bits] := by
  simp [decodeGroup, ht, hu]

/-- Two items of a plain level stand one above the other (R246). -/
theorem iseEncode_pair {x y : Nat} (hx : x < 2 ^ (level q).bits) (hy : y < 2 ^ (level q).bits) :
    iseEncode [x, y] q = x + 2 ^ (level q).bits * y := by
  have hlt := low_lt hx hy
  rw [← Nat.two_mul] at hlt
  simp [iseEncode, groupCount, groupItems_plain ht hu, encodeGroups, encodeGroup_plain ht hu, groupBits_plain ht hu,
    iseBits_plain ht hu, Nat.mod_eq_of_lt hx, Nat.mod_eq_of_lt hy, Nat.mod_eq_of_lt hlt]

theorem iseDecode_pair {x y : Nat} (hx : x < 2 ^ (level q).bits) (hy : y < 2 ^ (level q).bits) :
    iseDecode 2 q (x + 2 ^ (level q).bits * y) = [x, y] := by
  have hlt := low_lt hx hy
  rw [← Nat.two_mul] at hlt
  simp [iseDecode, groupCount, groupItems_plain ht hu, decodeGroups, decodeGroup_plain ht hu, groupBits_plain ht hu,
    iseBits_plain ht hu, Nat.mod_eq_of_lt hlt, low_div hx, Nat.mod_eq_of_lt hx, Nat.mod_eq_of_lt hy]

end Plain

/-- Settles O41: the groups at every level by its coding, the sequences by the groups; the values of 95_test_vectors.md
and the trit stored as 11 by evaluation. -/
theorem iseRoundTrip : Obligations.IseRoundTrip := by
  refine ⟨by decide, fun q hq => ?_, fun q hq => ?_, by decide⟩
  · dsimp only
    refine ⟨fun v hv => ⟨fun ht => ?_, fun hu => ?_, fun ht hu => ?_⟩, fun m hm => ⟨fun ht T hT => ?_,
      fun hu Q hQ => ?_, fun ht hu => ?_⟩⟩
    · obtain ⟨hencode, hlt⟩ := iseEncode_group hq (coding_trits ht) hv
      exact hencode.trans (layGroup_trits _ hlt)
    · obtain ⟨hencode, hlt⟩ := iseEncode_group hq (coding_quints (trits_ne_of_quints hq hu) hu) hv
      exact hencode.trans (layGroup_quints _ hlt)
    · have ht : (level q).trits ≠ 1 := by simp [ht]
      have hu : (level q).quints ≠ 1 := by simp [hu]
      have hv' (k : Nat) := levelValues_plain hq ht hu ▸ hv k
      exact iseEncode_pair ht hu (hv' 0) (hv' 1)
    · have hc := coding_trits ht
      rw [← layGroup_trits m hT]
      exact ⟨iseDecode_group hq hc hm hT, iseEncode_iseDecode_group hq hc hm hT⟩
    · have hc := coding_quints (trits_ne_of_quints hq hu) hu
      rw [← layGroup_quints m hQ]
      exact ⟨iseDecode_group hq hc hm hQ, iseEncode_iseDecode_group hq hc hm hQ⟩
    · exact iseDecode_pair (by simp [ht]) (by simp [hu]) (hm 0) (hm 1)
  · exact ⟨fun v hv above => ⟨Nat.mod_lt _ (Nat.two_pow_pos _), iseDecode_iseEncode hq hv above⟩,
      fun n x => iseDecode_items hq n x⟩

end Sys2Proof.Machine
end

section
/-! SUPPORT. UNPACK and PACK as commands (R290, R291), void-extent blocks (R292), and the obligations on them. -/

namespace Sys2Proof.Machine

open BitVec (extractLsb'_append_eq_of_le extractLsb'_append_eq_of_add_le
  extractLsb'_append_extractLsb'_eq_extractLsb')

/-! ## The commands -/

section Commands

variable {s : State} {fp : Footprint} (hfp : s.tables = .valid fp)
include hfp

theorem exec_unpack : exec .unpack s = withBytes s.readPhys fun blk => (s.unpacked (readBlock fp blk)).complete :=
  State.withTables_valid hfp _

theorem exec_pack : exec .pack s = s.withSym fp fun sym =>
    if symWf fp sym then (s.writePhys (packBlock fp sym)).complete else s.raise .badOperand :=
  State.withTables_valid hfp _

end Commands

/-- Settles O30: UNPACK is its effect on the block in PHYS, behind the guard of R478. -/
theorem unpackWritesSym : Obligations.UnpackWritesSym := by
  intro s fp hfp
  refine ⟨fun blk hblk => ?_, fun a ha => ?_⟩
  · rw [exec_unpack hfp, hblk]
    exact s.unpacked_complete _
  · rw [exec_unpack hfp, ha]
    rfl

/-- Settles O37: PACK is a choice by what it finds in SYM. -/
theorem packWritesPhys : Obligations.PackWritesPhys := by
  intro s fp hfp
  refine ⟨fun sym hsym hwf => ?_, fun sym hsym hwf => ?_, fun hill => ?_, fun a ha => ?_⟩
  · rw [exec_pack hfp, State.withSym, hsym]
    exact if_pos hwf
  · rw [exec_pack hfp, State.withSym, hsym]
    exact if_neg (by simp [hwf])
  · rw [exec_pack hfp, State.withSym, hill]
    rfl
  · rw [exec_pack hfp, State.withSym, ha]

/-! ## Void extents -/

section VoidExtent

variable (f : BitVec 1) (v : BitVec 2) (s0 s1 t0 t1 : BitVec 13) (r g b a : BitVec 16)

/-- The fields of a void-extent block stand where R136 puts them. -/
theorem voidExtentBlock_extract :
    let blk := voidExtentBlock f v s0 s1 t0 t1 r g b a
    blk.extractLsb' 0 9 = 0x1FC#9 ∧ blk.extractLsb' 9 1 = f ∧ blk.extractLsb' 10 2 = v ∧
      blk.extractLsb' 12 13 = s0 ∧ blk.extractLsb' 25 13 = s1 ∧ blk.extractLsb' 38 13 = t0 ∧
      blk.extractLsb' 51 13 = t1 ∧ blk.extractLsb' 64 16 = r ∧ blk.extractLsb' 80 16 = g ∧
      blk.extractLsb' 96 16 = b ∧ blk.extractLsb' 112 16 = a := by
  simp [voidExtentBlock, extractLsb'_append_eq_of_le, extractLsb'_append_eq_of_add_le, -Nat.reduceAdd]

/-- The three parts of a void extent: mark and format, extents, color (R136). -/
theorem voidExtentBlock_parts :
    let blk := voidExtentBlock f v s0 s1 t0 t1 r g b a
    blk.extractLsb' 0 12 = v ++ f ++ 0x1FC#9 ∧ blk.extractLsb' 12 52 = t1 ++ t0 ++ s1 ++ s0 ∧
      blk.extractLsb' 64 64 = a ++ b ++ g ++ r := by
  obtain ⟨hmark, hf, hv, hs0, hs1, ht0, ht1, hr, hg, hb, ha⟩ := voidExtentBlock_extract f v s0 s1 t0 t1 r g b a
  generalize voidExtentBlock f v s0 s1 t0 t1 r g b a = blk at *
  refine ⟨?_, ?_, ?_⟩
  · rw [← hmark, ← hf, ← hv]
    simp [extractLsb'_append_extractLsb'_eq_extractLsb', -Nat.reduceAdd]
  · rw [← hs0, ← hs1, ← ht0, ← ht1]
    simp [extractLsb'_append_extractLsb'_eq_extractLsb', -Nat.reduceAdd]
  · rw [← hr, ← hg, ← hb, ← ha]
    simp [extractLsb'_append_extractLsb'_eq_extractLsb', -Nat.reduceAdd]

end VoidExtent

/-- Settles O32: each field of the block is read where R136 puts it. -/
theorem voidExtent : Obligations.VoidExtent := by
  intro f v s0 s1 t0 t1 r g b a fp allOnes
  obtain ⟨hmark, hf, hv, hs0, hs1, ht0, ht1, hr, hg, hb, ha⟩ := voidExtentBlock_extract f v s0 s1 t0 t1 r g b a
  have hones (x : BitVec 13) : x.toNat = 0x1FFF ↔ x = 0x1FFF := BitVec.toNat_inj (y := 0x1FFF#13)
  have hreserved : v.toNat = 3 ↔ v = 3 := BitVec.toNat_inj (y := 3#2)
  have hformat : ∀ f : BitVec 1, (f.toNat == 1) = decide (f = 1) := by decide
  rw [readBlock, readVoidExtent]
  simp only [readBits_eq, hmark, hf, hv, hs0, hs1, ht0, ht1, hr, hg, hb, ha, Rgba.ofFn, BitVec.ofNat_toNat,
    BitVec.setWidth_eq, hones, hformat, ne_eq, hreserved]
  rfl

end Sys2Proof.Machine
end

section
/-! SUPPORT. Reading a normal block (R294 to R319): what is read of its CEMs, values and weights, said once field by
field, and the obligation on it. -/

namespace Sys2Proof.Machine

/-! ## Values and bytes -/

theorem toBytes_toNats (l : List Byte) : toBytes (toNats l) = l := by
  simp only [toBytes, toNats, List.map_map, Function.comp_def, BitVec.ofNat_toNat, BitVec.setWidth_eq, List.map_id']

theorem toNats_toBytes {l : List Nat} (h : ∀ x ∈ l, x < 256) : toNats (toBytes l) = l := by
  rw [toNats, toBytes, List.map_map]
  exact List.map_congr_left (fun x hx => Nat.mod_eq_of_lt (h x hx)) |>.trans (List.map_id l)

theorem levelValues_le {q : Nat} (hq : q ≤ 20) : levelValues q ≤ 256 := by
  have table : ∀ q < 21, levelValues q ≤ 256 := by decide
  exact table q (by omega)

/-- What a sequence decodes to fits bytes. -/
theorem toNats_toBytes_iseDecode {q : Nat} (hq : q ≤ 20) (n x : Nat) :
    toNats (toBytes (iseDecode n q x)) = iseDecode n q x :=
  toNats_toBytes fun v hv => ((iseDecode_items hq n x).2 v hv).trans_le (levelValues_le hq)

/-- A sequence is decoded from its own bits alone (R252). -/
theorem iseDecode_mod (n q x : Nat) : iseDecode n q (x % 2 ^ iseBits n q) = iseDecode n q x := by
  rw [iseDecode, Nat.mod_mod, iseDecode]

theorem revBlock_eq (blk : Block) : revBlock blk = blk.reverse.toNat := by
  apply Nat.eq_of_testBit_eq
  intro i
  rw [BitVec.testBit_toNat, BitVec.getLsbD_reverse, revBlock, BitVec.getMsbD]
  by_cases hi : i < 128
  · rw [testBit_reverseBits hi, BitVec.testBit_toNat]
    simp [hi]
  · rw [Nat.testBit_lt_two_pow ((reverseBits_lt 128 _).trans_le (Nat.pow_le_pow_right (by decide) (by omega)))]
    simp [hi]

/-! ## The two planes of weights (R318) -/

theorem evens_length : ∀ l : List Nat, (evens l).length = (l.length + 1) / 2
  | [] => rfl
  | [_] => by simp [evens]
  | _ :: _ :: l => by
    rw [evens, List.length_cons, evens_length l, List.length_cons, List.length_cons]
    omega

theorem odds_length : ∀ l : List Nat, (odds l).length = l.length / 2
  | [] => rfl
  | [_] => by simp [odds]
  | _ :: _ :: l => by
    rw [odds, List.length_cons, odds_length l, List.length_cons, List.length_cons]
    omega

theorem evens_getD : ∀ (l : List Nat) (i : Nat), (evens l).getD i 0 = l.getD (2 * i) 0
  | [], _ => rfl
  | [_], 0 => rfl
  | [_], _ + 1 => rfl
  | _ :: _ :: _, 0 => rfl
  | _ :: _ :: l, i + 1 => by
    rw [evens, List.getD_cons_succ, evens_getD l i, Nat.mul_succ, List.getD_cons_succ, List.getD_cons_succ]

theorem odds_getD : ∀ (l : List Nat) (i : Nat), (odds l).getD i 0 = l.getD (2 * i + 1) 0
  | [], _ => rfl
  | [_], _ => rfl
  | _ :: _ :: _, 0 => rfl
  | _ :: _ :: l, i + 1 => by
    rw [odds, List.getD_cons_succ, odds_getD l i, Nat.mul_succ, Nat.add_right_comm, List.getD_cons_succ,
      List.getD_cons_succ]

theorem interleave_evens_odds : ∀ l : List Nat, interleave (evens l) (odds l) = l
  | [] => rfl
  | [_] => rfl
  | _ :: _ :: l => by rw [evens, odds, interleave, interleave_evens_odds l]

theorem evens_odds_interleave : ∀ {l l' : List Nat}, l.length = l'.length →
    evens (interleave l l') = l ∧ odds (interleave l l') = l'
  | [], [], _ => ⟨rfl, rfl⟩
  | x :: l, y :: l', h => by
    obtain ⟨hl, hl'⟩ := evens_odds_interleave (Nat.succ.inj h)
    rw [interleave, evens, odds, hl, hl']
    exact ⟨rfl, rfl⟩

theorem mem_evens_or_odds {x : Nat} : ∀ {l : List Nat}, x ∈ evens l ∨ x ∈ odds l → x ∈ l
  | [], h => by simp [evens, odds] at h
  | [_], h => by simpa [evens, odds] using h
  | _ :: _ :: l, h => by
    have ih := mem_evens_or_odds (x := x) (l := l)
    simp only [evens, odds, List.mem_cons] at h ⊢
    tauto

/-! ## The CEMs (R296, R305) -/

/-- The CEM field of the class form with its bits under the weights. -/
def classFieldOf (blk : Block) (pc weightBits : Nat) : Nat :=
  readBits blk 23 6 + 2 ^ 6 * readBits blk (128 - weightBits - extraCemBits pc) (extraCemBits pc)

theorem classFieldOf_mod (blk : Block) (pc weightBits : Nat) :
    classFieldOf blk pc weightBits % 4 = readBits blk 23 6 % 4 := by
  unfold classFieldOf
  omega

section Cems

variable {blk : Block} {pc weightBits enc : Nat}

theorem readBits_lt (blk : Block) (lo n : Nat) : readBits blk lo n < 2 ^ n := field_lt _ _ _

theorem readCems_one : readCems blk 1 weightBits = ([readBits blk 13 4], true) := rfl

theorem readCems_shared (hpc : pc ≠ 1) (h : readBits blk 23 6 % 4 = 0) :
    readCems blk pc weightBits = (List.replicate pc (readBits blk 23 6 / 4), true) := by
  have hlow := readBits_lt blk 23 6
  rw [readCems, if_neg hpc, if_pos (by rw [field, Nat.pow_zero, Nat.div_one]; exact h), field,
    Nat.mod_eq_of_lt (by omega)]
  rfl

theorem readCems_class (hpc : pc ≠ 1) (h : readBits blk 23 6 % 4 ≠ 0) :
    readCems blk pc weightBits = (classCems pc (classFieldOf blk pc weightBits), false) := by
  rw [readCems, if_neg hpc, if_neg (by rw [field, Nat.pow_zero, Nat.div_one]; exact h), classFieldOf, Nat.mul_comm]

/-- A class is the base or one above it; the base is at most 2 (R305). -/
theorem classCems_bounds (pc enc : Nat) :
    ∀ c ∈ classCems pc enc, c < 16 ∧ enc % 4 - 1 ≤ c / 4 ∧ c / 4 ≤ enc % 4 - 1 + 1 := by
  intro c hc
  obtain ⟨p, -, rfl⟩ := List.mem_map.1 hc
  have hbit : bit enc (2 + p) < 2 := field_lt _ _ 1
  have hlow : field enc (2 + pc + 2 * p) 2 < 4 := field_lt _ _ 2
  rw [show field enc 0 2 = enc % 4 by simp [field]]
  omega

theorem readCems_lt : ∀ c ∈ (readCems blk pc weightBits).1, c < 16 := by
  have hlow := readBits_lt blk 23 6
  by_cases hpc : pc = 1
  · subst hpc
    simpa [readCems_one] using readBits_lt blk 13 4
  by_cases h : readBits blk 23 6 % 4 = 0
  · rw [readCems_shared hpc h]
    intro c hc
    rw [List.eq_of_mem_replicate hc]
    omega
  · rw [readCems_class hpc h]
    exact fun c hc => (classCems_bounds _ _ c hc).1

theorem readCems_snd_false : (readCems blk pc weightBits).2 = false ↔ pc ≠ 1 ∧ readBits blk 23 6 % 4 ≠ 0 := by
  by_cases hpc : pc = 1
  · subst hpc
    simp [readCems_one]
  by_cases h : readBits blk 23 6 % 4 = 0
  · simp [readCems_shared hpc h, h]
  · simp [readCems_class hpc h, hpc, h]

theorem le_foldr_min {a x : Nat} {l : List Nat} (ha : x ≤ a) (h : ∀ y ∈ l, x ≤ y) : x ≤ l.foldr min a := by
  induction l with
  | nil => exact ha
  | cons y l ih => exact Nat.le_min.2 ⟨h y (by simp), ih fun z hz => h z (List.mem_cons_of_mem _ hz)⟩

theorem foldr_max_le {a x : Nat} {l : List Nat} (ha : a ≤ x) (h : ∀ y ∈ l, y ≤ x) : l.foldr max a ≤ x := by
  induction l with
  | nil => exact ha
  | cons y l ih => exact Nat.max_le.2 ⟨h y (by simp), ih fun z hz => h z (List.mem_cons_of_mem _ hz)⟩

/-- Classes that are a base up to 2 or one above it can be written in the class form (R320). -/
theorem cemFormOk_class {base : Nat} {cems : List Nat} (hbase : base ≤ 2)
    (h : ∀ c ∈ cems, base ≤ c / 4 ∧ c / 4 ≤ base + 1) : cemFormOk pc false cems = true := by
  have hmin : base ≤ baseClass cems := Nat.le_min.2 ⟨le_foldr_min (by omega) fun x hx => by
    obtain ⟨c, hc, rfl⟩ := List.mem_map.1 hx
    exact (h c hc).1, hbase⟩
  have hmax : (cems.map (· / 4)).foldr max 0 ≤ base + 1 := foldr_max_le (Nat.zero_le _) fun x hx => by
    obtain ⟨c, hc, rfl⟩ := List.mem_map.1 hx
    exact (h c hc).2
  simp only [cemFormOk, Bool.or_eq_true, Bool.false_eq_true, if_false, decide_eq_true_eq]
  exact .inr (by omega)

/-- The CEMs of any block have the form that PACK asks for (R320). -/
theorem readCems_formOk :
    cemFormOk pc (readCems blk pc weightBits).2 (readCems blk pc weightBits).1 = true := by
  by_cases hpc : pc = 1
  · simp [cemFormOk, hpc]
  by_cases h : readBits blk 23 6 % 4 = 0
  · rw [readCems_shared hpc h]
    cases pc with
    | zero => rfl
    | succ pc => simp [cemFormOk, List.replicate_succ]
  · rw [readCems_class hpc h]
    exact cemFormOk_class (base := classFieldOf blk pc weightBits % 4 - 1) (by omega) fun c hc =>
      (classCems_bounds _ _ c hc).2

end Cems

/-! ## The block that is read -/

/-- `n` is the normal block read from `blk`, its mode `b`: each field from its bits (R294 to R319). -/
structure ReadsAs (fp : Footprint) (blk : Block) (b : BlockMode) (n : NormalSym) : Prop where
  mode : readBits blk 0 11 = n.mode.toNat
  entry : blockMode fp n.mode.toNat = some b
  pc : readBits blk 11 2 + 1 = n.pc
  dual : ¬(b.dual = true ∧ n.pc = 4)
  cems : readCems blk n.pc b.weightBits = (cemNats n, n.matched)
  partIndex : n.partIndex = if n.pc = 1 then 0 else BitVec.ofNat 10 (readBits blk 13 10)
  ccs : n.ccs = if b.dual then BitVec.ofNat 2 (readBits blk (colorEnd b.weightBits n.pc n.matched b.dual) 2) else 0
  count : colorCount (cemNats n) ≤ 18
  level : colorLevel (colorCount (cemNats n)) (colorEnd b.weightBits n.pc n.matched b.dual - colorStart n.pc) =
    some n.cq.toNat
  level_ge : 4 ≤ n.cq.toNat
  colors : toNats n.colors = iseDecode (colorCount (cemNats n)) n.cq.toNat (blk.toNat / 2 ^ colorStart n.pc)
  weights : packedWeights b n = iseDecode b.weightCount b.wq (revBlock blk)
  w0_length : n.w0.length = b.grid.w * b.grid.h
  w1_length : n.w1.length = if b.dual then b.grid.w * b.grid.h else 0

theorem map_ofNat_cemNats (n : NormalSym) : (cemNats n).map (BitVec.ofNat 4) = n.cems := by
  simp only [cemNats, List.map_map, Function.comp_def, BitVec.ofNat_toNat, BitVec.setWidth_eq, List.map_id']

theorem blockMode_wq_le {fp : Footprint} {m : Nat} {b : BlockMode} (h : blockMode fp m = some b) : b.wq ≤ 20 := by
  have := decodeMode_wq_lt (blockMode_some h).1
  omega

/-! ## The planes of a block that is read -/

section Planes

variable {b : BlockMode} {n : NormalSym}

/-- The planes are the weights taken apart. -/
theorem planes_of_lengths (h0 : n.w0.length = b.grid.w * b.grid.h)
    (h1 : n.w1.length = if b.dual then b.grid.w * b.grid.h else 0) :
    n.w0 = toBytes (if b.dual then evens (packedWeights b n) else packedWeights b n) ∧
      n.w1 = toBytes (if b.dual then odds (packedWeights b n) else []) := by
  unfold packedWeights
  cases hd : b.dual with
  | false =>
    rw [hd] at h1
    exact ⟨(toBytes_toNats _).symm, List.eq_nil_of_length_eq_zero h1⟩
  | true =>
    rw [hd] at h1
    have hlengths : (toNats n.w0).length = (toNats n.w1).length := by
      simp only [toNats, List.length_map, h0, h1, if_true]
    obtain ⟨heven, hodd⟩ := evens_odds_interleave hlengths
    simp only [if_true, heven, hodd, toBytes_toNats, and_self]

/-- Planes that were taken apart make the weights again. -/
theorem packedWeights_of_planes {l : List Nat} (hlen : l.length = b.weightCount) (hfit : ∀ x ∈ l, x < 256)
    (h0 : n.w0 = toBytes (if b.dual then evens l else l)) (h1 : n.w1 = toBytes (if b.dual then odds l else [])) :
    packedWeights b n = l ∧ n.w0.length = b.grid.w * b.grid.h ∧
      n.w1.length = if b.dual then b.grid.w * b.grid.h else 0 := by
  rw [b.weightCount_eq] at hlen
  rw [packedWeights, h0, h1]
  cases hd : b.dual with
  | false =>
    rw [hd, if_neg (by decide), Nat.mul_one] at hlen
    exact ⟨toNats_toBytes hfit, (List.length_map _).trans hlen, rfl⟩
  | true =>
    rw [hd, if_pos rfl] at hlen
    simp only [if_true, toBytes, List.length_map, evens_length, odds_length, hlen]
    refine ⟨?_, by omega, by omega⟩
    rw [← toBytes, ← toBytes, toNats_toBytes fun x hx => hfit x (mem_evens_or_odds (.inl hx)),
      toNats_toBytes fun x hx => hfit x (mem_evens_or_odds (.inr hx)), interleave_evens_odds]

end Planes

section Read

variable {fp : Footprint} {blk : Block} {b : BlockMode} {n : NormalSym}

/-- A valid mode is no void extent (R132). -/
theorem readBlock_of_mode (h : blockMode fp (readBits blk 0 11) = some b) : readBlock fp blk = readNormal fp blk := by
  refine if_neg fun hmark => ?_
  have hfield : field (readBits blk 0 11) 0 9 = 0x1FC := by
    rw [← hmark]
    simp only [readBits, field]
    omega
  obtain ⟨hlow, -, hA, hB⟩ := field_mark hfield
  have hnone := decodeMode_reserved hlow (.inr ⟨hB, by omega⟩)
  rw [(blockMode_some h).1] at hnone
  cases hnone

theorem ReadsAs.readBlock_eq (h : ReadsAs fp blk b n) : readBlock fp blk = .normal n := by
  obtain ⟨hmode, hentry, hpc, hdual, hcems, hpart, hccs, hcount, hlevel, hge, hcolors, hweights, h0, h1⟩ := h
  rw [readBlock_of_mode (hmode ▸ hentry), readNormal]
  have hlen : (cemNats n).length = n.pc := cemNats_length n
  obtain ⟨hw0, hw1⟩ := planes_of_lengths h0 h1
  simp only [hmode, hentry, hpc, if_neg hdual, hcems, Config.maxColorValues, gt_iff_lt, Nat.not_lt.2 hcount, if_false,
    hlevel, Config.minColorLevel, Nat.not_lt.2 hge, readValues, hlen, ← hcolors, ← hweights, ← hw0, ← hw1,
    ← hpart, ← hccs, toBytes_toNats, BitVec.ofNat_toNat, BitVec.setWidth_eq, map_ofNat_cemNats]

/-- The way to a normal block: no step of `read_normal` returns ERROR (R294 to R310). -/
theorem readBlock_steps (h : readBlock fp blk = .normal n) :
    let pc := readBits blk 11 2 + 1
    ∃ b cems shared cq, blockMode fp (readBits blk 0 11) = some b ∧ ¬(b.dual = true ∧ pc = 4) ∧
      readCems blk pc b.weightBits = (cems, shared) ∧ colorCount cems ≤ 18 ∧
      colorLevel (colorCount cems) (colorEnd b.weightBits pc shared b.dual - colorStart pc) = some cq ∧ 4 ≤ cq ∧
      readValues blk b cems shared cq = .normal n := by
  unfold readBlock at h
  split at h
  · unfold readVoidExtent at h
    dsimp only at h
    split_ifs at h
  unfold readNormal at h
  split at h
  · cases h
  rename_i b hentry
  dsimp only at h
  split at h
  · cases h
  rename_i hdual
  split at h
  · cases h
  rename_i hcount
  split at h
  · cases h
  rename_i cq hlevel
  split at h
  · cases h
  rename_i hge
  exact ⟨b, _, _, cq, hentry, hdual, rfl, Nat.not_lt.1 hcount, hlevel, Nat.not_lt.1 hge, h⟩

theorem readsAs_of_readBlock (h : readBlock fp blk = .normal n) : ∃ b, ReadsAs fp blk b n := by
  obtain ⟨b, cems, shared, cq, hentry, hdual, hform, hcount, hlevel, hge, hvalues⟩ := readBlock_steps h
  have hwq := blockMode_wq_le hentry
  obtain ⟨hcq, -⟩ := colorLevel_some hlevel
  obtain ⟨hwlen, hwlt⟩ := iseDecode_items hwq b.weightCount (revBlock blk)
  have hlen : cems.length = readBits blk 11 2 + 1 := by
    rw [← readCems_length blk (readBits blk 11 2 + 1) b.weightBits, hform]
  have hlt : ∀ c ∈ cems, c < 16 := by
    have := readCems_lt (blk := blk) (pc := readBits blk 11 2 + 1) (weightBits := b.weightBits)
    rwa [hform] at this
  rw [readValues, Sym.normal.injEq] at hvalues
  have hcems : cemNats n = cems := by
    rw [← hvalues, cemNats, List.map_map]
    exact (List.map_congr_left fun c hc => Nat.mod_eq_of_lt (hlt c hc)).trans (List.map_id _)
  have hpc : n.pc = readBits blk 11 2 + 1 := by rw [← cemNats_length, hcems, hlen]
  have hmode : n.mode.toNat = readBits blk 0 11 := by
    rw [← hvalues]
    exact Nat.mod_eq_of_lt (readBits_lt _ _ _)
  have hcq' : n.cq.toNat = cq := by
    rw [← hvalues]
    exact Nat.mod_eq_of_lt (by omega)
  have hmatched : n.matched = shared := by rw [← hvalues]
  obtain ⟨hweights, h0, h1⟩ := packedWeights_of_planes (n := n) hwlen
    (fun x hx => (hwlt x hx).trans_le (levelValues_le hwq)) (by rw [← hvalues]) (by rw [← hvalues])
  rw [← hlen] at hdual hlevel hform
  rw [← hlen] at hpc
  exact ⟨b, {
    mode := hmode.symm
    entry := hmode ▸ hentry
    pc := hpc ▸ hlen.symm
    dual := hpc ▸ hdual
    cems := by rw [hpc, hcems, hmatched, hform]
    partIndex := by rw [hpc, ← hvalues]
    ccs := by rw [hpc, hmatched, ← hvalues]
    count := by rwa [hcems]
    level := by rw [hcems, hpc, hmatched, hcq', hlevel]
    level_ge := hcq' ▸ hge
    colors := by
      rw [hcems, hcq', hpc, ← hvalues]
      exact toNats_toBytes_iseDecode (by omega) _ _
    weights := hweights
    w0_length := h0
    w1_length := h1 }⟩

end Read

end Sys2Proof.Machine
end

section
/-! SUPPORT. What is read from a block is well formed, each field from its bits (R291 to R320); the obligation on it. -/

namespace Sys2Proof.Machine

/-! ## Well-formedness, condition by condition (R320) -/

theorem headerOk_iff {b : BlockMode} {part cq : Nat} {matched : Bool} {cems : List Nat} :
    headerOk b part matched cq cems = true ↔ (1 ≤ cems.length ∧ cems.length ≤ 4) ∧
      ¬(b.dual = true ∧ cems.length = 4) ∧ (cems.length = 1 → part = 0) ∧ cemFormOk cems.length matched cems = true ∧
      colorCount cems ≤ 18 ∧ 4 ≤ cq ∧ colorLevel (colorCount cems)
        (colorEnd b.weightBits cems.length matched b.dual - colorStart cems.length) = some cq := by
  simp only [headerOk, Bool.and_eq_true, Bool.or_eq_true, Bool.not_eq_true', Bool.and_eq_false_imp, decide_eq_true_eq,
    bne_iff_ne, beq_iff_eq, beq_eq_false_iff_ne, not_and, and_assoc, ne_eq, ← imp_iff_not_or]
  rfl

theorem valuesOk_iff {b : BlockMode} {n : NormalSym} : valuesOk b n = true ↔
    n.colors.length = colorCount (cemNats n) ∧ (∀ v ∈ n.colors, v.toNat < levelValues n.cq.toNat) ∧
      n.w0.length = b.grid.w * b.grid.h ∧ (∀ v ∈ n.w0, v.toNat < levelValues b.wq) ∧
      (n.w1.length = if b.dual then b.grid.w * b.grid.h else 0) ∧ ∀ v ∈ n.w1, v.toNat < levelValues b.wq := by
  simp only [valuesOk, Bool.and_eq_true, beq_iff_eq, List.all_eq_true, decide_eq_true_eq, and_assoc]

theorem normalWf_iff {fp : Footprint} {n : NormalSym} {b : BlockMode} (hb : blockMode fp n.mode.toNat = some b) :
    normalWf fp n = true ↔
      headerOk b n.partIndex.toNat n.matched n.cq.toNat (cemNats n) = true ∧ valuesOk b n = true := by
  simp only [normalWf, hb, Bool.and_eq_true]

/-- The greatest level that fits (R310). -/
theorem colorLevel_eq_some_iff {nvals avail cq : Nat} : colorLevel nvals avail = some cq ↔
    cq ≤ 20 ∧ iseBits nvals cq ≤ avail ∧ ∀ q ≤ 20, cq < q → iseBits nvals q > avail := by
  constructor
  · intro h
    obtain ⟨hlt, hfits⟩ := colorLevel_some h
    refine ⟨Nat.le_of_lt_succ hlt, hfits, fun q hq hgt => ?_⟩
    by_contra hle
    obtain ⟨cq', hcq', hge⟩ := colorLevel_ge (by omega) (Nat.not_lt.1 hle)
    rw [h] at hcq'
    cases hcq'
    omega
  · rintro ⟨hlt, hfits, hmax⟩
    obtain ⟨cq', hcq', hge⟩ := colorLevel_ge (by omega) hfits
    obtain ⟨hlt', hfits'⟩ := colorLevel_some hcq'
    obtain rfl : cq = cq' := by
      by_contra hne
      have := hmax cq' (by omega) (by omega)
      omega
    exact hcq'

/-! ## What is read is well formed (R291) -/

section Read

variable {fp : Footprint} {blk : Block} {b : BlockMode} {n : NormalSym} (h : ReadsAs fp blk b n)
include h

theorem ReadsAs.pc_bounds : 1 ≤ n.pc ∧ n.pc ≤ 4 := by
  have hpc := h.pc
  have : readBits blk 11 2 < 4 := readBits_lt _ _ _
  omega

/-- The level read is one of R208. -/
theorem ReadsAs.level_le : n.cq.toNat ≤ 20 := Nat.le_of_lt_succ (colorLevel_some h.level).1

theorem ReadsAs.colors_items : n.colors.length = colorCount (cemNats n) ∧
    ∀ v ∈ n.colors, v.toNat < levelValues n.cq.toNat := by
  obtain ⟨hlen, hlt⟩ := iseDecode_items h.level_le (colorCount (cemNats n)) (blk.toNat / 2 ^ colorStart n.pc)
  rw [← h.colors] at hlen hlt
  exact ⟨by rwa [toNats, List.length_map] at hlen, fun v hv => hlt _ (List.mem_map_of_mem hv)⟩

theorem ReadsAs.weights_items : (packedWeights b n).length = b.weightCount ∧
    ∀ x ∈ packedWeights b n, x < levelValues b.wq :=
  h.weights ▸ iseDecode_items (blockMode_wq_le h.entry) _ _

theorem ReadsAs.planes_lt : (∀ v ∈ n.w0, v.toNat < levelValues b.wq) ∧ ∀ v ∈ n.w1, v.toNat < levelValues b.wq := by
  have hlt := h.weights_items.2
  have hw1 := h.w1_length
  unfold packedWeights at hlt
  cases hd : b.dual with
  | false =>
    rw [hd] at hlt hw1
    rw [List.eq_nil_of_length_eq_zero hw1]
    exact ⟨fun v hv => hlt _ (List.mem_map_of_mem hv), nofun⟩
  | true =>
    rw [hd] at hlt hw1
    have hlengths : (toNats n.w0).length = (toNats n.w1).length := by
      rw [toNats, toNats, List.length_map, List.length_map, h.w0_length, hw1, if_pos rfl]
    obtain ⟨heven, hodd⟩ := evens_odds_interleave hlengths
    refine ⟨fun v hv => hlt _ (mem_evens_or_odds (.inl ?_)), fun v hv => hlt _ (mem_evens_or_odds (.inr ?_))⟩
    · exact heven.symm ▸ List.mem_map_of_mem hv
    · exact hodd.symm ▸ List.mem_map_of_mem hv

/-- What is read meets the conditions of R320. -/
theorem ReadsAs.wf : normalWf fp n = true := by
  obtain ⟨hpc, hpc4⟩ := h.pc_bounds
  obtain ⟨hclen, hclt⟩ := h.colors_items
  obtain ⟨hw0, hw1⟩ := h.planes_lt
  have hform : cemFormOk n.pc n.matched (cemNats n) = true := by
    have := readCems_formOk (blk := blk) (pc := n.pc) (weightBits := b.weightBits)
    rwa [h.cems] at this
  have hpart : n.pc = 1 → n.partIndex = 0#10 := fun h1 => by rw [h.partIndex, if_pos h1]; rfl
  refine (normalWf_iff h.entry).2 ⟨headerOk_iff.2 ?_, valuesOk_iff.2 ⟨hclen, hclt, h.w0_length, hw0, h.w1_length, hw1⟩⟩
  rw [cemNats_length]
  exact ⟨⟨hpc, hpc4⟩, h.dual, fun h1 => by rw [hpart h1]; rfl, hform, h.count, h.level_ge, h.level⟩

/-- The forms of the CEM field (R296, R305). -/
theorem ReadsAs.matched_false : n.matched = false ↔ n.pc > 1 ∧ readBits blk 23 6 % 4 ≠ 0 := by
  have hform := readCems_snd_false (blk := blk) (pc := n.pc) (weightBits := b.weightBits)
  have := h.pc_bounds
  rw [h.cems] at hform
  exact hform.trans (and_congr_left' (by omega))

theorem ReadsAs.cem_one (h1 : n.pc = 1) : cemNats n = [readBits blk 13 4] := by
  have hform := h.cems
  rw [h1, readCems_one] at hform
  exact (congrArg Prod.fst hform).symm

theorem ReadsAs.cem_shared (hpc : n.pc > 1) (hlow : readBits blk 23 6 % 4 = 0) :
    cemNats n = List.replicate n.pc (readBits blk 23 6 / 4) := by
  have hform := h.cems
  rw [readCems_shared (by omega) hlow] at hform
  exact (congrArg Prod.fst hform).symm

theorem ReadsAs.cem_class (hm : n.matched = false) {p : Nat} (hp : p < n.pc) :
    let enc := classFieldOf blk n.pc b.weightBits
    (cemNats n).getD p 0 =
      4 * (enc % 4 - 1 + enc / 2 ^ (2 + p) % 2) + enc / 2 ^ (2 + n.pc + 2 * p) % 4 := by
  intro enc
  obtain ⟨hpc, hlow⟩ := h.matched_false.1 hm
  have hform := h.cems
  rw [readCems_class (by omega) hlow] at hform
  have hcems : cemNats n = classCems n.pc enc := (congrArg Prod.fst hform).symm
  rw [hcems, classCems]
  simp [List.getD, hp, field, bit, Nat.mul_comm 4]

/-- The color sequence stands at its start (R311). -/
theorem ReadsAs.colors_bits : toNats n.colors = iseDecode (colorCount (cemNats n)) n.cq.toNat
    (readBits blk (colorStart n.pc) (iseBits (colorCount (cemNats n)) n.cq.toNat)) := by
  rw [h.colors, readBits, field, iseDecode_mod]

/-- A weight of each plane (R318). -/
theorem ReadsAs.plane_getD (hd : b.dual = true) (i : Nat) :
    (n.w0.getD i 0).toNat = (iseDecode b.weightCount b.wq (revBlock blk)).getD (2 * i) 0 ∧
      (n.w1.getD i 0).toNat = (iseDecode b.weightCount b.wq (revBlock blk)).getD (2 * i + 1) 0 := by
  have hlengths : (toNats n.w0).length = (toNats n.w1).length := by
    rw [toNats, toNats, List.length_map, List.length_map, h.w0_length, h.w1_length, hd, if_pos rfl]
  obtain ⟨heven, hodd⟩ := evens_odds_interleave hlengths
  have hget (l : List Byte) : (l.getD i 0).toNat = (toNats l).getD i 0 :=
    (List.getD_map (l := l) (d := 0#8) (n := i) BitVec.toNat).symm
  have hweights : packedWeights b n = interleave (toNats n.w0) (toNats n.w1) := if_pos hd
  rw [← h.weights, hweights, ← evens_getD, ← odds_getD, heven, hodd, hget, hget]
  exact ⟨rfl, rfl⟩

end Read

theorem colorCount_cemNats (n : NormalSym) :
    colorCount (cemNats n) = (n.cems.map fun c => 2 * (c.toNat / 4 + 1)).sum := by
  rw [colorCount, cemNats, List.map_map]
  rfl

/-- The CEM bits under the weights are there in the class form. -/
theorem cemExtra_eq {n : NormalSym} (hpc : 1 ≤ n.pc) :
    cemExtra n = if n.pc > 1 ∧ n.matched = false then 3 * n.pc - 4 else 0 := by
  unfold cemExtra
  by_cases hclass : n.pc > 1 ∧ n.matched = false
  · rw [if_pos hclass, if_neg]
    rintro (h1 | hm)
    · omega
    · simp [hm] at hclass
  · rw [if_neg hclass, if_pos]
    cases hm : n.matched with
    | true => exact .inr rfl
    | false => exact .inl (by simp only [hm, and_true] at hclass; omega)

theorem cemNats_getD (n : NormalSym) (p : Nat) : (cemNats n).getD p 0 = (n.cems.getD p 0).toNat :=
  List.getD_map (l := n.cems) (d := 0#4) (n := p) BitVec.toNat

/-- Settles O34: a block that is no error is read as a constant block or by `ReadsAs`, which says each field. -/
theorem unpackTotal : Obligations.UnpackTotal := by
  refine ⟨fun fp _ blk => ?_, fun fp blk n hn => ?_⟩
  · cases hread : readBlock fp blk with
    | error => exact .inl rfl
    | const f c => exact .inr ⟨rfl, .inl ⟨f, c, rfl⟩⟩
    | normal n =>
      obtain ⟨b, h⟩ := readsAs_of_readBlock hread
      obtain ⟨hpc, hpc4⟩ := h.pc_bounds
      exact .inr ⟨h.wf, .inr ⟨n, rfl, hpc, hpc4, Option.isSome_of_eq_some h.entry⟩⟩
  · obtain ⟨b, h⟩ := readsAs_of_readBlock hn
    refine ⟨b, by rw [← readBits_eq, h.mode, h.entry], ?_⟩
    intro pc low classForm extra below enc start avail count weights
    obtain ⟨hpc1, hpc4⟩ := h.pc_bounds
    obtain ⟨hcq, hfits, hmax⟩ := colorLevel_eq_some_iff.1 h.level
    have hpc : pc = n.pc := by rw [← h.pc, readBits_eq]
    have hlow : low = readBits blk 23 6 := (readBits_eq _ _ _).symm
    have hclass : classForm ↔ n.matched = false := by rw [h.matched_false, ← hlow, ← hpc]
    have hextra : extra = cemExtra n := by
      rw [cemExtra_eq hpc1, ← hpc]
      refine if_congr (hclass.trans ⟨fun hm => ⟨?_, hm⟩, And.right⟩) rfl rfl
      rw [hpc]
      exact (h.matched_false.1 hm).1
    have hbelow : below = fieldsBelow b n := by simp only [below, hextra, fieldsBelow]
    have havail : avail = colorEnd b.weightBits n.pc n.matched b.dual - colorStart n.pc := by
      simp only [avail, hbelow, start, hpc, colorEnd_eq, colorStart]
    have hcount : count = colorCount (cemNats n) := (colorCount_cemNats n).symm
    have hweights : weights = iseDecode b.weightCount b.wq (revBlock blk) := by rw [revBlock_eq]
    have henc : n.matched = false → enc = classFieldOf blk n.pc b.weightBits := fun hm => by
      simp only [enc, hbelow, hextra, hlow, fieldsBelow, cemExtra_class (h.matched_false.1 hm).1 hm]
      rfl
    refine ⟨?_, hpc.symm, ?_, ?_, fun h1 => ?_, fun hgt hlow0 => ?_, fun hc p hp => ?_, ?_, h.level_ge, hcq, ?_,
      fun q hq hlt => ?_, ?_, h.w0_length, h.w1_length, fun hd => ?_, fun hd i _ => ?_⟩
    · rw [extractLsb'_eq_readBits, h.mode, BitVec.ofNat_toNat, BitVec.setWidth_eq]
    · rw [extractLsb'_eq_readBits, hpc]
      exact h.partIndex
    · rw [hclass]
      cases n.matched <;> decide
    · rw [extractLsb'_eq_readBits, ← map_ofNat_cemNats, h.cem_one (hpc ▸ h1)]
      rfl
    · have hfield : readBits blk 25 4 = readBits blk 23 6 / 4 := by
        simp only [readBits, field]
        omega
      rw [extractLsb'_eq_readBits, hfield, ← map_ofNat_cemNats, h.cem_shared (hpc ▸ hgt) (hlow ▸ hlow0),
        List.map_replicate, hpc]
    · have hm := hclass.1 hc
      rw [← cemNats_getD, henc hm, hpc, hlow, ← classFieldOf_mod blk n.pc b.weightBits]
      exact h.cem_class hm (hpc ▸ hp)
    · rw [h.ccs, colorEnd_eq, hbelow]
      cases b.dual with
      | false => rfl
      | true => exact Nat.mod_eq_of_lt (readBits_lt _ _ _)
    · rwa [hcount, havail]
    · rw [hcount, havail]
      exact hmax q hq hlt
    · simp only [hcount, start, hpc]
      exact h.colors_bits
    · rw [hweights, ← h.weights, packedWeights, hd, if_neg (by decide)]
    · rw [hweights]
      exact h.plane_getD hd i

end Sys2Proof.Machine
end

section
/-! SUPPORT. PACK and UNPACK invert each other (R325), and the obligation on it. -/

namespace Sys2Proof.Machine

/-! ## A packed block is read as it was packed (R325 (a)) -/

/-- The block on the fields in use, its mode known (R325; log entry 31). -/
def blockInUse (b : BlockMode) (n : NormalSym) : NormalSym :=
  { n with matched := n.matched || n.pc == 1, ccs := if b.dual then n.ccs else 0 }

theorem testBit_eq_bit (v i : Nat) : v.testBit i = decide (bit v i = 1) := Nat.testBit_eq_decide_div_mod_eq

/-- The weights are the low bits of the block reversed (R17, R318). -/
theorem revBlock_mod_of_bits {blk : Block} {k v : Nat} (hk : k ≤ 128) (hv : v < 2 ^ k)
    (h : ∀ i < k, readBits blk (127 - i) 1 = bit v i) : revBlock blk % 2 ^ k = v := by
  apply Nat.eq_of_testBit_eq
  intro i
  rw [Nat.testBit_mod_two_pow]
  by_cases hi : i < k
  · have hbit : bit blk.toNat (127 - i) = bit v i := h i hi
    rw [revBlock, testBit_reverseBits (by omega), decide_eq_true hi, Bool.true_and, testBit_eq_bit, testBit_eq_bit v,
      ← hbit]
  · rw [Nat.testBit_lt_two_pow (hv.trans_le (Nat.pow_le_pow_right (by decide) (by omega)))]
    simp [hi]

theorem mem_interleave {v : Nat} : ∀ {l l' : List Nat}, v ∈ interleave l l' → v ∈ l ∨ v ∈ l'
  | [], [], h => .inl h
  | [], _ :: _, h => .inr h
  | _ :: _, [], h => .inl h
  | _ :: l, _ :: l', h => by
    have ih := mem_interleave (v := v) (l := l) (l' := l')
    simp only [interleave, List.mem_cons] at h ⊢
    tauto

section Packed

variable {fp : Footprint} {b : BlockMode} {n : NormalSym} (h : normalWf fp n = true)
  (hb : blockMode fp n.mode.toNat = some b)
include h hb

/-- The header beyond `normalWf_header` (R320). -/
theorem normalWf_limits : colorCount (cemNats n) ≤ 18 ∧ (n.pc = 1 → n.partIndex = 0) := by
  obtain ⟨hheader, -⟩ := (normalWf_iff hb).1 h
  obtain ⟨-, -, hpart, -, hcount, -⟩ := headerOk_iff.1 hheader
  rw [cemNats_length] at hpart
  exact ⟨hcount, fun h1 => BitVec.eq_of_toNat_eq (hpart h1)⟩

/-- The values of a well-formed block lie in their levels (R320). -/
theorem normalWf_items : n.cq.toNat ≤ 20 ∧ (∀ v ∈ toNats n.colors, v < levelValues n.cq.toNat) ∧
    (packedWeights b n).length = b.weightCount ∧ ∀ v ∈ packedWeights b n, v < levelValues b.wq := by
  obtain ⟨-, hvalues⟩ := (normalWf_iff hb).1 h
  obtain ⟨-, hcolors, hlen0, h0, hlen1, h1⟩ := valuesOk_iff.1 hvalues
  obtain ⟨-, -, -, -, hlevel⟩ := normalWf_header h hb
  have hall (l : List Byte) (m : Nat) (hl : ∀ v ∈ l, v.toNat < m) : ∀ v ∈ toNats l, v < m := by
    simpa [toNats] using hl
  refine ⟨Nat.le_of_lt_succ (colorLevel_some hlevel).1, hall _ _ hcolors, ?_⟩
  rw [packedWeights, b.weightCount_eq]
  cases hd : b.dual with
  | false =>
    rw [if_neg (by decide), if_neg (by decide), toNats, List.length_map, hlen0, Nat.mul_one]
    exact ⟨rfl, hall _ _ h0⟩
  | true =>
    rw [hd, if_pos rfl] at hlen1
    rw [if_pos rfl, if_pos rfl, interleave_length, toNats, toNats, List.length_map, List.length_map, hlen0, hlen1]
    exact ⟨by omega, fun v hv => (mem_interleave hv).elim (hall _ _ h0 v) (hall _ _ h1 v)⟩

/-- The color sequence as one run of bits. -/
theorem readBits_colors : readBits (writeNormal b n) (colorStart n.pc) (colorBits n) =
    iseEncode (toNats n.colors) n.cq.toNat := by
  have hf := normalWf_fieldsFit h hb
  have hfit := hf.colors
  have hsum := hf.weights
  have hlt : iseEncode (toNats n.colors) n.cq.toNat < 2 ^ colorBits n := by
    rw [iseEncode, toNats, List.length_map]
    exact Nat.mod_lt _ (Nat.two_pow_pos _)
  rw [writeNormal_eq, readBits_writeBits_inside le_rfl le_rfl (by omega), Nat.sub_self, field_zero hlt]

theorem revBlock_weights : revBlock (writeNormal b n) % 2 ^ b.weightBits = iseEncode (packedWeights b n) b.wq := by
  have hf := normalWf_fieldsFit h hb
  exact revBlock_mod_of_bits (by have := hf.weights; omega) (iseEncode_packedWeights_lt h hb) fun i hi =>
    readBits_weight hf hi

/-- The CEMs of the class form are found again (R305, R322). -/
theorem classCems_classField (hpc : n.pc > 1) (hm : n.matched = false) :
    classCems n.pc (classField (cemNats n)) = cemNats n := by
  obtain ⟨-, -, -, hcems⟩ := classForm_cems h hb hpc hm
  refine List.ext_getElem (by simp [classCems, cemNats_length]) fun p hp hp' => ?_
  rw [cemNats_length] at hp'
  obtain ⟨hclass, hlow⟩ := hcems p hp'
  dsimp only at hclass hlow
  rw [List.getD_eq_getElem _ _ (by rwa [cemNats_length])] at hclass hlow
  simp only [classCems, List.getElem_map, List.getElem_range, field, bit, Nat.pow_zero, Nat.div_one, Nat.pow_one]
  simp only [Nat.reducePow]
  omega

theorem classFieldOf_writeNormal (hpc : n.pc > 1) (hm : n.matched = false) :
    classFieldOf (writeNormal b n) n.pc b.weightBits = classField (cemNats n) := by
  rw [← readBits_cem_class (normalWf_fieldsFit h hb) hpc hm, fieldsBelow, cemExtra_class hpc hm]
  rfl

/-- The CEM field of a packed block says its CEMs and its form. -/
theorem readCems_writeNormal : readCems (writeNormal b n) n.pc b.weightBits = (cemNats n, n.matched || n.pc == 1) := by
  have hf := normalWf_fieldsFit h hb
  obtain ⟨⟨hpc1, -⟩, -, hform, -, -⟩ := normalWf_header h hb
  have hlen := cemNats_length n
  by_cases h1 : n.pc = 1
  · obtain ⟨c, hc⟩ := List.length_eq_one_iff.1 (hlen.trans h1)
    have hcem := readBits_cem_one hf h1
    rw [hc] at hcem
    rw [h1, readCems_one, hcem, hc]
    simp
  have hpc : n.pc > 1 := by omega
  cases hm : n.matched with
  | true =>
    have hlow := readBits_cem_shared hf hpc hm
    simp only [cemFormOk, hm, if_true, Bool.or_eq_true, beq_iff_eq, h1, false_or, List.all_eq_true,
      cemNats_headD] at hform
    rw [readCems_shared h1 (by omega), hlow, Nat.mul_div_cancel_left _ (by decide), ← hlen,
      ← List.eq_replicate_of_mem hform]
    rfl
  | false =>
    obtain ⟨hmod, -⟩ := classForm_cems h hb hpc hm
    have hfield := classFieldOf_writeNormal h hb hpc hm
    rw [readCems_class h1 (by rwa [← classFieldOf_mod _ n.pc b.weightBits, hfield]), hfield,
      classCems_classField h hb hpc hm]
    simp [h1]

theorem readsAs_writeNormal : ReadsAs fp (writeNormal b n) b (blockInUse b n) := by
  have hf := normalWf_fieldsFit h hb
  obtain ⟨⟨hpc1, -⟩, hdual, -, hge, hlevel⟩ := normalWf_header h hb
  obtain ⟨hcq, hcolors, hwlen, hweights⟩ := normalWf_items h hb
  obtain ⟨hclen, hw0, hw1⟩ := normalWf_lengths h hb
  have hend : colorEnd b.weightBits n.pc (n.matched || n.pc == 1) b.dual =
      colorEnd b.weightBits n.pc n.matched b.dual := by
    by_cases h1 : n.pc = 1 <;> simp [colorEnd, h1]
  obtain ⟨hcount, hpart⟩ := normalWf_limits h hb
  exact {
    mode := readBits_mode hf
    entry := hb
    pc := by
      rw [readBits_partitionCount hf]
      exact Nat.sub_add_cancel hpc1
    dual := fun hd => hdual hd.1 hd.2
    cems := readCems_writeNormal h hb
    partIndex := by
      show n.partIndex = if n.pc = 1 then 0 else _
      split
      · exact hpart ‹_›
      · rw [readBits_partIndex hf (by omega), BitVec.ofNat_toNat, BitVec.setWidth_eq]
    ccs := by
      show (if b.dual then n.ccs else 0) = _
      refine if_ctx_congr Iff.rfl (fun hd => ?_) fun _ => rfl
      show n.ccs = BitVec.ofNat 2 (readBits _ (colorEnd b.weightBits n.pc (n.matched || n.pc == 1) b.dual) 2)
      rw [hend, colorEnd_eq, hd, if_pos rfl, readBits_ccs hf hd, BitVec.ofNat_toNat, BitVec.setWidth_eq]
    count := hcount
    level := (congrArg (fun e => colorLevel _ (e - colorStart n.pc)) hend).trans hlevel
    level_ge := hge
    colors := by
      have hread := readBits_colors h hb
      have hlen : (toNats n.colors).length = colorCount (cemNats n) := by rw [toNats, List.length_map, hclen]
      have hself := iseDecode_iseEncode hcq hcolors 0
      rw [← hread, Nat.zero_mul, Nat.add_zero, hlen] at hself
      rw [colorBits, hclen, readBits, field, iseDecode_mod] at hself
      exact hself.symm
    weights := by
      have hself := iseDecode_iseEncode (blockMode_wq_le hb) hweights 0
      rw [← revBlock_weights h hb, Nat.zero_mul, Nat.add_zero, hwlen, BlockMode.weightBits, iseDecode_mod] at hself
      exact hself.symm
    w0_length := hw0
    w1_length := hw1 }

end Packed

theorem symInUse_normal {fp : Footprint} {b : BlockMode} {n : NormalSym} (hb : blockMode fp n.mode.toNat = some b) :
    symInUse fp (.normal n) = .normal (blockInUse b n) := by
  simp [symInUse, blockInUse, hb]

/-! ## A block unpacked and packed again (R325 (b)) -/

theorem getLsbD_eq_of_readBits {x y : Block} {lo k i : Nat} (h : readBits x lo k = readBits y lo k) (hlo : lo ≤ i)
    (hi : i < lo + k) : x.getLsbD i = y.getLsbD i := by
  have hbit := congrArg (fun v => v.testBit (i - lo)) h
  simp only [testBit_readBits, Nat.add_sub_cancel' hlo] at hbit
  simpa [show i - lo < k by omega] using hbit

theorem classFieldOf_lt {blk : Block} {pc weightBits : Nat} (hpc : 2 ≤ pc) :
    classFieldOf blk pc weightBits < 2 ^ (3 * pc + 2) := by
  rw [show 3 * pc + 2 = 6 + extraCemBits pc by unfold extraCemBits; omega]
  exact low_lt (readBits_lt _ _ _) (readBits_lt _ _ _)

section Again

variable {fp : Footprint} {blk : Block} {b : BlockMode} {n : NormalSym} (h : ReadsAs fp blk b n)
include h

/-- What is read has no field that is not in use. -/
theorem ReadsAs.inUse : blockInUse b n = n := by
  have hmatched : (n.matched || n.pc == 1) = n.matched := by
    by_cases h1 : n.pc = 1
    · have hform := h.cems
      rw [h1, readCems_one] at hform
      rw [← (Prod.mk.inj hform).2, Bool.true_or]
    · simp [h1]
  have hccs : (if b.dual then n.ccs else 0) = n.ccs := by
    have := h.ccs
    cases hd : b.dual with
    | false => rw [this, hd]; rfl
    | true => rfl
  rw [blockInUse, hmatched, hccs]

theorem ReadsAs.again : ReadsAs fp (writeNormal b n) b n := by
  have := readsAs_writeNormal h.wf h.entry
  rwa [h.inUse] at this

/-- Two blocks that are read the same have the same bits in the fields that stand for themselves. -/
theorem ReadsAs.same_bits {blk' : Block} (h' : ReadsAs fp blk' b n) {i : Nat}
    (hi : i < (if n.pc > 1 ∧ n.matched = false then 23 else colorStart n.pc) ∨
      colorEnd b.weightBits n.pc n.matched b.dual ≤ i ∧ i < fieldsBelow b n) : blk'.getLsbD i = blk.getLsbD i := by
  have hfit := (normalWf_fieldsFit h.wf h.entry).colors
  obtain ⟨hpc1, -⟩ := h.pc_bounds
  by_cases hccs : colorEnd b.weightBits n.pc n.matched b.dual ≤ i ∧ i < fieldsBelow b n
  · have hfield := h'.ccs.symm.trans h.ccs
    rw [colorEnd_eq] at hccs hfield
    cases hd : b.dual with
    | false =>
      rw [hd, if_neg (by decide)] at hccs
      omega
    | true =>
      rw [hd, if_pos rfl] at hccs hfit
      rw [hd, if_pos rfl, if_pos rfl, if_pos rfl, ← extractLsb'_eq_readBits, ← extractLsb'_eq_readBits,
        ← BitVec.toNat_inj, ← readBits_eq, ← readBits_eq] at hfield
      exact getLsbD_eq_of_readBits hfield hccs.1 (by omega)
  have hlow := hi.resolve_right hccs
  by_cases hmode : i < 11
  · exact getLsbD_eq_of_readBits (h'.mode.trans h.mode.symm) (Nat.zero_le i) (by omega)
  by_cases hcount : i < 13
  · exact getLsbD_eq_of_readBits (Nat.succ.inj (h'.pc.trans h.pc.symm)) (Nat.not_lt.1 hmode) (by omega)
  by_cases h1 : n.pc = 1
  · have hcem := List.head_eq_of_cons_eq ((h'.cem_one h1).symm.trans (h.cem_one h1))
    have hstart : colorStart n.pc = 17 := if_pos h1
    exact getLsbD_eq_of_readBits hcem (Nat.not_lt.1 hcount) (by split at hlow <;> omega)
  have hstart : colorStart n.pc = 29 := if_neg h1
  by_cases hindex : i < 23
  · have hfield := h'.partIndex.symm.trans h.partIndex
    rw [if_neg h1, if_neg h1, ← extractLsb'_eq_readBits, ← extractLsb'_eq_readBits, ← BitVec.toNat_inj, ← readBits_eq,
      ← readBits_eq] at hfield
    exact getLsbD_eq_of_readBits hfield (Nat.not_lt.1 hcount) (by omega)
  · have hclass : ¬(n.pc > 1 ∧ n.matched = false) := fun hclass => by
      rw [if_pos hclass] at hlow
      omega
    rw [if_neg hclass] at hlow
    have hshared (x : Block) (hx : ReadsAs fp x b n) : readBits x 23 6 = 4 * (cemNats n).getD 0 0 := by
      have hzero : readBits x 23 6 % 4 = 0 := by
        by_contra hne
        exact hclass ⟨by omega, hx.matched_false.2 ⟨by omega, hne⟩⟩
      have hget : (cemNats n).getD 0 0 = readBits x 23 6 / 4 := by
        rw [hx.cem_shared (by omega) hzero, List.getD_replicate]
        omega
      omega
    exact getLsbD_eq_of_readBits ((hshared _ h').trans (hshared _ h).symm) (Nat.not_lt.1 hindex) (by omega)

section ClassForm

variable (hm : n.matched = false)
include hm

/-- The low bits of the CEMs are kept by the class form. -/
theorem ReadsAs.classField_high :
    classField (cemNats n) / 2 ^ (2 + n.pc) = classFieldOf blk n.pc b.weightBits / 2 ^ (2 + n.pc) := by
  obtain ⟨hpc, -⟩ := h.matched_false.1 hm
  obtain ⟨-, -, -, hcems⟩ := classForm_cems h.wf h.entry hpc hm
  have hlt := classField_lt (cems := cemNats n)
  have hlt' : classFieldOf blk n.pc b.weightBits < 2 ^ (3 * n.pc + 2) := classFieldOf_lt hpc
  rw [cemNats_length] at hlt
  apply Nat.eq_of_testBit_eq
  intro j
  simp only [Nat.testBit_div_two_pow]
  by_cases hj : j < 2 * n.pc
  · have hp : j / 2 < n.pc := by omega
    have hcem := h.cem_class hm hp
    obtain ⟨-, hlow⟩ := hcems _ hp
    dsimp only at hcem hlow
    have hdigit : classField (cemNats n) / 2 ^ (2 + n.pc + 2 * (j / 2)) % 2 ^ 2 =
        classFieldOf blk n.pc b.weightBits / 2 ^ (2 + n.pc + 2 * (j / 2)) % 2 ^ 2 := by omega
    have hbit := congrArg (fun x => x.testBit (j % 2)) hdigit
    simp only [Nat.testBit_mod_two_pow, Nat.testBit_div_two_pow, Nat.mod_lt j (show 2 > 0 by decide), decide_true,
      Bool.true_and, show j % 2 + (2 + n.pc + 2 * (j / 2)) = j + (2 + n.pc) by omega] at hbit
    exact hbit
  · have hle : 2 ^ (3 * n.pc + 2) ≤ 2 ^ (j + (2 + n.pc)) := Nat.pow_le_pow_right (by decide) (by omega)
    rw [Nat.testBit_lt_two_pow (hlt.trans_le hle), Nat.testBit_lt_two_pow (hlt'.trans_le hle)]

/-- The base is kept but where one class up to 2 is stored above the base below it. -/
theorem ReadsAs.classField_base : classField (cemNats n) % 4 = classFieldOf blk n.pc b.weightBits % 4 ∨
    (∀ p < n.pc, (cemNats n).getD p 0 / 4 = classFieldOf blk n.pc b.weightBits % 4) ∧
      classFieldOf blk n.pc b.weightBits % 4 ≤ 2 := by
  obtain ⟨hpc, hlow⟩ := h.matched_false.1 hm
  obtain ⟨hne, hge, ⟨p, hp, hbase⟩, -⟩ := classForm_cems h.wf h.entry hpc hm
  rw [← classFieldOf_mod blk n.pc b.weightBits] at hlow
  have hclass (p : Nat) (hp : p < n.pc) := h.cem_class hm hp
  dsimp only at hge hbase hclass
  have hp' := hclass p hp
  by_cases hmod : classField (cemNats n) % 4 = classFieldOf blk n.pc b.weightBits % 4
  · exact .inl hmod
  · refine .inr ⟨fun q hq => ?_, by omega⟩
    have := hge q hq
    have := hclass q hq
    omega

/-- With the same base the class form is the same. -/
theorem ReadsAs.classField_eq (hmod : classField (cemNats n) % 4 = classFieldOf blk n.pc b.weightBits % 4) :
    classField (cemNats n) = classFieldOf blk n.pc b.weightBits := by
  obtain ⟨hpc, -⟩ := h.matched_false.1 hm
  obtain ⟨-, -, -, hcems⟩ := classForm_cems h.wf h.entry hpc hm
  apply Nat.eq_of_testBit_eq
  intro j
  by_cases hsel : j < 2
  · have hbit := congrArg (fun x => x.testBit j) hmod
    simpa [show 4 = 2 ^ 2 from rfl, Nat.testBit_mod_two_pow, hsel, -Nat.reducePow] using hbit
  by_cases hclass : j < 2 + n.pc
  · obtain ⟨p, rfl⟩ := Nat.exists_eq_add_of_le (Nat.not_lt.1 hsel)
    have hcem := h.cem_class hm (p := p) (by omega)
    obtain ⟨hcls, -⟩ := hcems p (by omega)
    dsimp only at hcem hcls
    have hbit : bit (classField (cemNats n)) (2 + p) = bit (classFieldOf blk n.pc b.weightBits) (2 + p) := by
      simp only [bit, field, Nat.pow_one]
      omega
    rw [testBit_eq_bit, testBit_eq_bit, hbit]
  · have hbit := congrArg (fun x => x.testBit (j - (2 + n.pc))) (h.classField_high hm)
    simpa [Nat.testBit_div_two_pow, Nat.sub_add_cancel (Nat.not_lt.1 hclass)] using hbit

/-- One class up to 2 is its own base. -/
theorem ReadsAs.classField_oneClass {k : Nat} (hk : k ≤ 2) (hone : ∀ p < n.pc, (cemNats n).getD p 0 / 4 = k) :
    classField (cemNats n) % 4 = k + 1 ∧ ∀ p < n.pc, classField (cemNats n) / 2 ^ (2 + p) % 2 = 0 := by
  obtain ⟨hpc, -⟩ := h.matched_false.1 hm
  obtain ⟨hne, -, ⟨p, hp, hbase⟩, hcems⟩ := classForm_cems h.wf h.entry hpc hm
  dsimp only at hbase hcems
  rw [hone p hp] at hbase
  refine ⟨by omega, fun q hq => ?_⟩
  have := (hcems q hq).1
  rw [hone q hq] at this
  omega

end ClassForm

/-- A color sequence that R251 makes is packed as it was read. -/
theorem ReadsAs.colors_again {v : List Nat} (hlen : v.length = n.colors.length)
    (hv : ∀ x ∈ v, x < levelValues n.cq.toNat)
    (hbits : readBits blk (colorStart n.pc) (colorBits n) = iseEncode v n.cq.toNat) :
    readBits (writeNormal b n) (colorStart n.pc) (colorBits n) = readBits blk (colorStart n.pc) (colorBits n) := by
  have hread := h.colors_bits
  have hself := iseDecode_iseEncode h.level_le hv 0
  rw [Nat.zero_mul, Nat.add_zero, ← hbits, hlen, colorBits, h.colors_items.1] at hself
  rw [readBits_colors h.wf h.entry, hread, hself, hbits]

/-- A weight sequence that R251 makes is packed as it was read. -/
theorem ReadsAs.weights_again {v : List Nat} (hlen : v.length = b.weightCount) (hv : ∀ x ∈ v, x < levelValues b.wq)
    (hbits : revBlock blk % 2 ^ b.weightBits = iseEncode v b.wq) :
    revBlock (writeNormal b n) % 2 ^ b.weightBits = revBlock blk % 2 ^ b.weightBits := by
  have hself := iseDecode_iseEncode (blockMode_wq_le h.entry) hv 0
  rw [Nat.zero_mul, Nat.add_zero, ← hbits, hlen, BlockMode.weightBits, iseDecode_mod] at hself
  rw [revBlock_weights h.wf h.entry, h.weights, hself, hbits]

end Again

/-! ## Constant blocks -/

theorem readNormal_ne_const (fp : Footprint) (blk : Block) (f : Bool) (c : Rgba (BitVec 16)) :
    readNormal fp blk ≠ .const f c := by
  intro h
  unfold readNormal at h
  split at h
  · cases h
  dsimp only at h
  split at h
  · cases h
  split at h
  · cases h
  split at h
  · cases h
  split at h <;> cases h

/-- A block that is read as a constant block is a void extent without reserved bits (R292). -/
theorem readBlock_const {fp : Footprint} {blk : Block} {f : Bool} {c : Rgba (BitVec 16)}
    (h : readBlock fp blk = .const f c) :
    ∃ s0 s1 t0 t1, blk = voidExtentBlock (BitVec.ofBool f) 3 s0 s1 t0 t1 c.r c.g c.b c.a := by
  have hmark : blk.extractLsb' 0 9 = 0x1FC#9 := by
    by_contra hne
    have hbits : readBits blk 0 9 ≠ 0x1FC := fun hb => hne (BitVec.eq_of_toNat_eq (readBits_eq blk 0 9 ▸ hb))
    rw [readBlock, if_neg hbits] at h
    exact readNormal_ne_const fp blk f c h
  have hblk := voidExtentBlock_fields hmark
  rw [← hblk, voidExtent] at h
  split_ifs at h with hreserved hextent
  obtain ⟨rfl, rfl⟩ := Sym.const.inj h
  have hformat : ∀ x : BitVec 1, BitVec.ofBool (decide (x = 1)) = x := by decide
  rw [Decidable.not_not.1 hreserved, ← hformat (blk.extractLsb' 9 1)] at hblk
  exact ⟨_, _, _, _, hblk.symm⟩

theorem readBlock_writeVoidExtent (fp : Footprint) (f : Bool) (c : Rgba (BitVec 16)) :
    readBlock fp (writeVoidExtent f c) = .const f c := by
  rw [writeVoidExtent_eq, voidExtent, if_neg (by decide), if_neg (by decide)]
  cases f <;> rfl

/-- Settles O39: a packed block is read field by field as it was packed; and a block that is read is well formed, so
what is said of packed blocks holds of it packed again. -/
theorem packUnpack : Obligations.PackUnpack := by
  refine ⟨fun fp _ sym hwf => ?_, fun fp blk f c hread => ?_, fun fp _ blk n b hread hb => ?_⟩
  · cases sym with
    | error => cases hwf
    | const f c => exact readBlock_writeVoidExtent fp f c
    | normal n =>
      obtain ⟨b, hb, -⟩ := normalWf_some hwf
      rw [packBlock_normal hb, symInUse_normal hb]
      exact (readsAs_writeNormal hwf hb).readBlock_eq
  · obtain ⟨s0, s1, t0, t1, rfl⟩ := readBlock_const hread
    obtain ⟨hmark, -, hcolor⟩ := voidExtentBlock_parts (BitVec.ofBool f) 3 s0 s1 t0 t1 c.r c.g c.b c.a
    obtain ⟨hmark', hextent', hcolor'⟩ :=
      voidExtentBlock_parts (BitVec.ofBool f) 3 0x1FFF 0x1FFF 0x1FFF 0x1FFF c.r c.g c.b c.a
    rw [hread, packBlock]
    refine ⟨readBlock_writeVoidExtent fp f c, ?_, ?_, ?_⟩ <;> rw [writeVoidExtent_eq]
    · exact hmark'.trans hmark.symm
    · exact hextent'
    · exact hcolor'.trans hcolor.symm
  · obtain ⟨b', h⟩ := readsAs_of_readBlock hread
    obtain rfl := Option.some.inj (hb.symm.trans h.entry)
    obtain ⟨hpc1, -⟩ := h.pc_bounds
    have hf := normalWf_fieldsFit h.wf hb
    rw [hread, packBlock_normal hb]
    intro re classForm extra below under start bits enc weightsOf oneClass
    have hextra : extra = cemExtra n := (cemExtra_eq hpc1).symm
    have hbelow : below = fieldsBelow b n := by rw [fieldsBelow, ← hextra]
    have hunder : under = colorEnd b.weightBits n.pc n.matched b.dual := by rw [colorEnd_eq, ← hbelow]
    have hagain : ReadsAs fp re b n := h.again
    have henc (x : Block) (hx : classForm) : enc x = classFieldOf x n.pc b.weightBits := by
      simp only [enc, hbelow, hextra, fieldsBelow, cemExtra_class hx.1 hx.2]
      rfl
    have hencRe (hx : classForm) : enc re = classField (cemNats n) :=
      (henc re hx).trans (classFieldOf_writeNormal h.wf hb hx.1 hx.2)
    have hweightsOf (x : Block) : weightsOf x = revBlock x % 2 ^ b.weightBits := by rw [revBlock_eq]
    refine ⟨hagain.readBlock_eq, fun i _ hi => h.same_bits hagain (hunder ▸ hbelow ▸ hi), fun hx hno => ?_,
      fun hx k hone => ?_, fun v hlen hv hbits => h.colors_again hlen hv hbits,
      fun v hlen hv hbits => ?_, fun i hlo hhi => ?_⟩
    · rw [hencRe hx, henc blk hx]
      refine h.classField_eq hx.2 ((h.classField_base hx.2).resolve_right fun hone => hno (enc blk % 4) ?_)
      rw [← henc blk hx] at hone
      exact ⟨hone.1, rfl, hone.2⟩
    · obtain ⟨hclass, -, hk⟩ := hone
      obtain ⟨hbase, hbits⟩ := h.classField_oneClass hx.2 hk hclass
      rw [hencRe hx, henc blk hx]
      exact ⟨hbase, hbits, h.classField_high hx.2⟩
    · rw [hweightsOf] at hbits ⊢
      rw [hweightsOf]
      exact h.weights_again hlen hv hbits
    · have hgap : readBits re i 1 = 0 := readBits_gap hf (iseEncode_packedWeights_lt h.wf hb) hlo (by
        rwa [← colorEnd_eq, ← hunder])
      exact (testBit_eq_bit re.toNat i).trans (decide_eq_false (by rw [show bit re.toNat i = 0 from hgap]; decide))

end Sys2Proof.Machine
end

section
/-! SUPPORT. What a command finds in SYM (R57 to R62, R320, R477): every way that reading it can end, said once. -/

namespace Sys2Proof.Machine

section Sym

variable (s : State) {fp : Footprint}

/-! ## Bytes of the window -/

/-- The byte at an offset as a number, 0 where none is held. -/
def State.symByte (off : Nat) : Nat := ((s.mem.read (s.base + off)).getD 0).toNat

/-- `n` bytes as a little-endian number (R90). -/
def State.symNumber (off : Nat) : Nat → Nat
  | 0 => 0
  | n + 1 => s.symByte off + 2 ^ 8 * State.symNumber (off + 1) n

/-- Every one of `n` bytes holds a value. -/
def State.heldAt (off n : Nat) : Prop := ∀ k < n, (s.mem.read (s.base + (off + k))).isSome = true

/-- The bytes from an offset on are `bs`. -/
def State.runAt (off : Nat) (bs : List Byte) : Prop := ∀ i < bs.length, s.mem.read (s.base + (off + i)) = bs[i]?

/-- A byte of SYM that holds no value. -/
def State.missing (a : Nat) : Prop :=
  s.mem.read a = none ∧ ∃ q ∈ symSizes, s.base + q.1 ≤ a ∧ a < s.base + (q.1 + q.2)

/-- `n` bytes at an offset lie in one of the pieces of SYM. -/
def inSym (off n : Nat) : Prop := ∃ q ∈ symSizes, q.1 ≤ off ∧ off + n ≤ q.1 + q.2

/-- The color values from partition `p` on are `vals` (R61). -/
def State.colorsAt (p : Nat) (cems : List Nat) (vals : List Byte) : Prop :=
  vals.length = colorCount cems ∧ ∀ j < cems.length, ∀ k < cemValues (cems.getD j 0),
    s.mem.read (s.base + (offSymColor + 8 * (p + j) + k)) = vals[((cems.take j).map cemValues).sum + k]?

variable {s} {off n : Nat} {bs : List Byte}

theorem State.load_eq_ok : s.load off n = .ok bs ↔ bs.length = n ∧ s.runAt off bs := by
  simp only [State.load, Memory.readList_eq_ok, Nat.add_assoc]
  constructor <;> (rintro ⟨rfl, h⟩; exact ⟨rfl, h⟩)

theorem State.load_error {a : Nat} (hin : inSym off n) (h : s.load off n = .error a) : s.missing a := by
  obtain ⟨hlo, hhi, hnone⟩ := Memory.readList_error h
  obtain ⟨q, hq, hqlo, hqhi⟩ := hin
  exact ⟨hnone, q, hq, by omega, by omega⟩

theorem State.runAt.held (h : s.runAt off bs) : s.heldAt off bs.length := by
  intro k hk
  rw [h k hk]
  simp [hk]

theorem State.heldAt.append {m : Nat} (h : s.heldAt off n) (h' : s.heldAt (off + n) m) : s.heldAt off (n + m) := by
  intro k hk
  by_cases hkn : k < n
  · exact h k hkn
  · have := h' (k - n) (by omega)
    rwa [Nat.add_assoc off, Nat.add_sub_cancel' (Nat.not_lt.1 hkn)] at this

theorem State.runAt_cons {b : Byte} :
    s.runAt off (b :: bs) ↔ s.mem.read (s.base + off) = some b ∧ s.runAt (off + 1) bs := by
  constructor
  · intro h
    refine ⟨h 0 (by simp), fun i hi => ?_⟩
    rw [Nat.add_assoc, Nat.add_comm 1]
    exact h (i + 1) (by simpa using hi)
  · rintro ⟨h0, h⟩ i hi
    cases i with
    | zero => exact h0
    | succ i =>
      have := h i (by simpa using hi)
      rwa [Nat.add_assoc, Nat.add_comm 1] at this

theorem State.runAt.number (h : s.runAt off bs) : leNat bs = s.symNumber off bs.length := by
  induction bs generalizing off with
  | nil => rfl
  | cons b bs ih =>
    obtain ⟨h0, h⟩ := State.runAt_cons.1 h
    rw [List.length_cons, State.symNumber, ← ih h, State.symByte, h0]
    rfl

theorem State.runAt_append {bs' : List Byte} :
    s.runAt off (bs ++ bs') ↔ s.runAt off bs ∧ s.runAt (off + bs.length) bs' := by
  induction bs generalizing off with
  | nil => simp [State.runAt]
  | cons b bs ih =>
    rw [List.cons_append, State.runAt_cons, State.runAt_cons, ih, and_assoc, List.length_cons, Nat.add_right_comm off,
      Nat.add_assoc]

/-- The values of a partition stand before those of the next. -/
theorem State.colorsAt_cons {p c : Nat} {cems : List Nat} {vals rest : List Byte} (hlen : vals.length = cemValues c) :
    s.colorsAt p (c :: cems) (vals ++ rest) ↔ s.runAt (offSymColor + 8 * p) vals ∧ s.colorsAt (p + 1) cems rest := by
  have hfirst : ∀ k < cemValues c, (vals ++ rest)[k]? = vals[k]? := fun k hk => List.getElem?_append_left (hlen ▸ hk)
  have hnext (j k : Nat) : (vals ++ rest)[(((c :: cems).take (j + 1)).map cemValues).sum + k]? =
      rest[((cems.take j).map cemValues).sum + k]? := by
    rw [List.take_succ_cons, List.map_cons, List.sum_cons, ← hlen, Nat.add_assoc, List.getElem?_append_right (by omega),
      Nat.add_sub_cancel_left]
  have hplace (j : Nat) : 8 * (p + (j + 1)) = 8 * (p + 1 + j) := by omega
  unfold State.colorsAt State.runAt
  rw [List.length_cons, Nat.forall_lt_succ_left, List.length_append, colorCount, List.map_cons, List.sum_cons, ← hlen,
    Nat.add_left_cancel_iff, ← colorCount]
  simp only [hnext, hplace, List.getD_cons_succ, List.getD_cons_zero, List.take_zero, List.map_nil, List.sum_nil,
    Nat.zero_add, Nat.add_zero, hlen]
  constructor
  · rintro ⟨hrest, h0, h1⟩
    exact ⟨fun k hk => (h0 k hk).trans (hfirst k hk), hrest, h1⟩
  · rintro ⟨h0, hrest, h1⟩
    exact ⟨hrest, fun k hk => (h0 k hk).trans (hfirst k hk).symm, h1⟩

/-! ## The fields of SYM (R57 to R60) -/

variable (s)

/-- `SYM_CTRL.ERROR`. -/
def State.symError : Prop := s.symByte 0x100 % 2 = 1

/-- `SYM_CTRL.MATCHED`. -/
def State.symMatched : Bool := s.symByte 0x100 / 8 % 2 == 1

/-- `SYM_CTRL.PC`. -/
def State.symPc : Nat := s.symByte 0x101 % 8

/-- `SYM_CTRL.CQ`. -/
def State.symCq : Nat := s.symByte 0x102 % 32

/-- The half-word at an offset. -/
def State.symHalf (off : Nat) : Nat := s.symByte off + 2 ^ 8 * s.symByte (off + 1)

/-- `SYM_MODE`. -/
def State.symMode : Nat := s.symHalf 0x104 + 2 ^ 16 * s.symHalf 0x106

/-- `SYM_PART`. -/
def State.symPart : Nat := s.symHalf 0x108 % 2 ^ 10

/-- `SYM_CEM` of partition `p`. -/
def State.symCem (p : Nat) : Nat := s.symHalf 0x10C / 16 ^ p % 16

/-- The CEMs of the partitions. -/
def State.symCems : List Nat := (List.range s.symPc).map s.symCem

theorem State.symByte_lt (off : Nat) : s.symByte off < 256 := BitVec.isLt _

/-- The fields of `SYM_CTRL` as a command takes them out of its three bytes. -/
theorem State.symNumber_ctrl :
    let ctrl := s.symNumber offSymCtrl 3
    (bit ctrl 0 = 1 ↔ s.symError) ∧ (bit ctrl 3 == 1) = s.symMatched ∧ field ctrl 8 3 = s.symPc ∧
      field ctrl 12 2 = s.symByte 0x101 / 16 % 4 ∧ field ctrl 16 5 = s.symCq := by
  intro ctrl
  have h0 := s.symByte_lt 0x100
  have h1 := s.symByte_lt 0x101
  have h2 := s.symByte_lt 0x102
  have hctrl : ctrl = s.symByte 0x100 + 256 * (s.symByte 0x101 + 256 * s.symByte 0x102) := by
    simp [ctrl, State.symNumber, offSymCtrl]
  have hmatched : bit ctrl 3 = s.symByte 0x100 / 8 % 2 := by
    simp only [bit, field]
    omega
  refine ⟨?_, by rw [hmatched]; rfl, ?_, ?_, ?_⟩
  · simp only [State.symError, bit, field]
    omega
  · simp only [State.symPc, field]
    omega
  · simp only [field]
    omega
  · simp only [State.symCq, field]
    omega

theorem State.symNumber_add_two (off n : Nat) :
    s.symNumber off (n + 2) = s.symHalf off + 2 ^ 16 * s.symNumber (off + 2) n := by
  simp only [State.symNumber, State.symHalf, Nat.add_assoc off, Nat.reduceAdd]
  omega

theorem State.symHalf_lt (off : Nat) : s.symHalf off < 2 ^ 16 := by
  have := s.symByte_lt off
  have := s.symByte_lt (off + 1)
  simp only [State.symHalf]
  omega

theorem State.symNumber_mode : s.symNumber offSymMode 4 = s.symMode := by
  rw [s.symNumber_add_two, s.symNumber_add_two, State.symNumber, Nat.mul_zero, Nat.add_zero]
  rfl

theorem State.symNumber_half (off : Nat) : s.symNumber off 2 = s.symHalf off := by
  simp only [State.symNumber, State.symHalf, Nat.mul_zero, Nat.add_zero]

theorem State.symNumber_const {c : Nat} (hc : c < 4) :
    field (s.symNumber offSymConst 8) (16 * c) 16 = s.symHalf (0x110 + 2 * c) := by
  have hnumber : s.symNumber offSymConst 8 = s.symHalf 0x110 + 2 ^ 16 * (s.symHalf 0x112 +
      2 ^ 16 * (s.symHalf 0x114 + 2 ^ 16 * s.symHalf 0x116)) := by
    rw [s.symNumber_add_two, s.symNumber_add_two, s.symNumber_add_two, s.symNumber_add_two, State.symNumber,
      Nat.mul_zero, Nat.add_zero]
    rfl
  have := s.symHalf_lt 0x110
  have := s.symHalf_lt 0x112
  have := s.symHalf_lt 0x114
  have := s.symHalf_lt 0x116
  rw [hnumber, field]
  obtain rfl | rfl | rfl | rfl : c = 0 ∨ c = 1 ∨ c = 2 ∨ c = 3 := by omega
  all_goals
    simp only [Nat.reduceMul, Nat.reduceAdd]
    omega

theorem State.symNumber_part : s.symNumber offSymPart 2 % 2 ^ 10 = s.symPart := by
  rw [s.symNumber_half]
  rfl

theorem State.symNumber_cems : (List.range s.symPc).map (fun p => field (s.symNumber offSymCem 2) (4 * p) 4) =
    s.symCems := by
  refine List.map_congr_left fun p _ => ?_
  rw [s.symNumber_half, field, State.symCem, Nat.pow_mul]
  rfl

/-! ## What is found (R320) -/

/-- The header in the bytes of SYM is that of a well-formed block of mode `b` (R320, conditions 3 to 5). -/
def State.headerHeld (b : BlockMode) : Prop := headerOk b s.symPart s.symMatched s.symCq s.symCems = true

/-- The fields of `n` are those that the bytes of SYM hold (R57 to R62). -/
structure State.HoldsNormal (b : BlockMode) (n : NormalSym) : Prop where
  held_mode : s.heldAt 0x104 6
  held_cem : s.heldAt 0x10C 2
  mode : n.mode.toNat = s.symMode
  partIndex : n.partIndex.toNat = s.symPart
  matched : n.matched = s.symMatched
  ccs : n.ccs.toNat = s.symByte 0x101 / 16 % 4
  cq : n.cq.toNat = s.symCq
  cems : cemNats n = s.symCems
  colors : s.colorsAt 0 (cemNats n) n.colors
  w0 : n.w0.length = b.grid.w * b.grid.h ∧ s.runAt 0x140 n.w0
  w1 : (n.w1.length = if b.dual then b.grid.w * b.grid.h else 0) ∧ s.runAt 0x180 n.w1

variable (fp) in
/-- Every way in which reading SYM can end. -/
inductive State.Finds : SymRead → Prop
  | noValue {a : Nat} (h : s.missing a) : State.Finds (.noValue a)
  | error (held : s.heldAt 0x100 3) (h : s.symError) : State.Finds (.found .error)
  | const (held : s.heldAt 0x100 3) (h : ¬s.symError) (heldMode : s.heldAt 0x104 4) (fp16 : Bool)
    (mode : s.symMode = if fp16 then 2 ^ 32 - 2 else 2 ^ 32 - 1) (pc : s.symPc = 0) (heldConst : s.heldAt 0x110 8)
    (color : Rgba (BitVec 16)) (hcolor : ∀ c < 4, (color.chan c).toNat = s.symHalf (0x110 + 2 * c)) :
    State.Finds (.found (.const fp16 color))
  | badHeader (h : ¬s.symError) (hconst : ¬((s.symMode = 2 ^ 32 - 1 ∨ s.symMode = 2 ^ 32 - 2) ∧ s.symPc = 0))
    (hheader : ∀ b, s.symMode < 2048 → blockMode fp s.symMode = some b → ¬s.headerHeld b) : State.Finds .illFormed
  | badValues (h : ¬s.symError) (hmode : s.symMode < 2048) {b : BlockMode} (hb : blockMode fp s.symMode = some b)
    (hheader : s.headerHeld b) {n : NormalSym} (hn : s.HoldsNormal b n) (hvalues : valuesOk b n = false) :
    State.Finds .illFormed
  | normal (held : s.heldAt 0x100 3) (h : ¬s.symError) (hmode : s.symMode < 2048) {b : BlockMode}
    (hb : blockMode fp s.symMode = some b) (hheader : s.headerHeld b) {n : NormalSym} (hn : s.HoldsNormal b n)
    (hvalues : valuesOk b n = true) : State.Finds (.found (.normal n))

variable {s} {r : SymRead}

theorem State.Finds.of_field {f : Nat → SymRead} (hin : inSym off n)
    (hf : s.heldAt off n → s.Finds fp (f (s.symNumber off n))) : s.Finds fp (s.symField off n f) := by
  unfold State.symField
  split
  · exact .noValue (State.load_error hin ‹_›)
  · rename_i bs hbs
    obtain ⟨rfl, hrun⟩ := State.load_eq_ok.1 hbs
    rw [hrun.number]
    exact hf hrun.held

theorem State.Finds.of_bytes {f : List Byte → SymRead} (hin : inSym off n)
    (hf : ∀ bs, bs.length = n → s.runAt off bs → s.Finds fp (f bs)) : s.Finds fp (s.symBytes off n f) := by
  unfold State.symBytes
  split
  · exact .noValue (State.load_error hin ‹_›)
  · rename_i bs hbs
    obtain ⟨hlen, hrun⟩ := State.load_eq_ok.1 hbs
    exact hf bs hlen hrun

theorem State.Finds.of_colors {cems : List Nat} {p : Nat} {f : List Byte → SymRead} (hp : p + cems.length ≤ 4)
    (h16 : ∀ c ∈ cems, c < 16) (hf : ∀ vals, s.colorsAt p cems vals → s.Finds fp (f vals)) :
    s.Finds fp (s.symColors p cems f) := by
  induction cems generalizing p f with
  | nil => exact hf [] ⟨rfl, nofun⟩
  | cons c cems ih =>
    rw [List.length_cons] at hp
    have hc : cemValues c ≤ 8 := by
      have := h16 c (by simp)
      unfold cemValues
      omega
    refine .of_bytes ⟨(offSymColor, 32), by decide, ?_, ?_⟩ fun vals hlen hvals => ?_
    · dsimp only
      omega
    · dsimp only
      omega
    · refine ih (by omega) (fun x hx => h16 x (List.mem_cons_of_mem _ hx)) fun rest hrest => hf _ ?_
      exact (State.colorsAt_cons hlen).2 ⟨hvals, hrest⟩

theorem State.symCems_lt : ∀ c ∈ s.symCems, c < 16 := by
  intro c hc
  obtain ⟨p, -, rfl⟩ := List.mem_map.1 hc
  exact Nat.mod_lt _ (by decide)

/-- A block whose fields are in SYM is found or ill formed by its values alone. -/
theorem State.Finds.of_values (held : s.heldAt 0x100 3) (h : ¬s.symError) (hmode : s.symMode < 2048) {b : BlockMode}
    (hb : blockMode fp s.symMode = some b) (hheader : s.headerHeld b) {n : NormalSym} (hn : s.HoldsNormal b n) :
    s.Finds fp (if valuesOk b n then .found (.normal n) else .illFormed) := by
  split
  · exact .normal held h hmode hb hheader hn ‹_›
  · exact .badValues h hmode hb hheader hn (Bool.eq_false_iff.2 ‹_›)

theorem State.Finds.of_normalSym (held : s.heldAt 0x100 3) (h : ¬s.symError) (hmode : s.symMode < 2048)
    (heldMode : s.heldAt 0x104 4) :
    s.Finds fp (s.readNormalSym fp (s.symNumber offSymCtrl 3) s.symMode) := by
  have hconst : ¬((s.symMode = 2 ^ 32 - 1 ∨ s.symMode = 2 ^ 32 - 2) ∧ s.symPc = 0) := by omega
  obtain ⟨-, hmatched, hpc, hccs, hcq⟩ := s.symNumber_ctrl
  have hpart : field (s.symNumber offSymPart 2) 0 10 = s.symPart := by
    rw [field, Nat.pow_zero, Nat.div_one, s.symNumber_part]
  unfold State.readNormalSym
  split
  · rename_i hnone
    exact .badHeader h hconst fun b _ hb => by simp [hnone] at hb
  rename_i b hb
  refine .of_field ⟨(offSymPart, 2), by decide, by decide, by decide⟩ fun heldPart =>
    .of_field ⟨(offSymCem, 2), by decide, by decide, by decide⟩ fun heldCem => ?_
  simp only [hmatched, hpc, hccs, hcq, hpart, s.symNumber_cems]
  split
  · rename_i hheader
    have hlen := (headerOk_iff.1 hheader).1.2
    have hweights := (blockMode_weights hb).2
    refine .of_colors (by omega) State.symCems_lt fun colors hcolors =>
      .of_bytes ⟨(offSymW0, 64), by decide, le_rfl, Nat.add_le_add_left hweights _⟩ fun w0 hlen0 hw0 =>
      .of_bytes ⟨(offSymW1, 64), by decide, le_rfl, Nat.add_le_add_left (by split <;> omega) _⟩ fun w1 hlen1 hw1 => ?_
    have hcems : (s.symCems.map (BitVec.ofNat 4)).map BitVec.toNat = s.symCems := by
      rw [List.map_map]
      exact (List.map_congr_left fun c hc => Nat.mod_eq_of_lt (State.symCems_lt c hc)).trans (List.map_id _)
    refine .of_values held h hmode hb hheader {
      held_mode := ?_
      held_cem := heldCem
      mode := Nat.mod_eq_of_lt hmode
      partIndex := s.symNumber_part
      matched := rfl
      ccs := Nat.mod_eq_of_lt (Nat.mod_lt _ (by decide))
      cq := Nat.mod_eq_of_lt (Nat.mod_lt _ (by decide))
      cems := hcems
      colors := ?_
      w0 := ⟨hlen0, hw0⟩
      w1 := ⟨hlen1, hw1⟩ }
    · exact heldMode.append heldPart
    · rwa [cemNats, hcems]
  · rename_i hheader
    refine .badHeader h hconst fun b' _ hb' => ?_
    obtain rfl := Option.some.inj (hb.symm.trans hb')
    exact hheader

/-- Reading SYM ends in one of these ways. -/
theorem State.finds_readSym (s : State) (fp : Footprint) : s.Finds fp (s.readSym fp) := by
  obtain ⟨herror, -, hpc, -, -⟩ := s.symNumber_ctrl
  refine .of_field ⟨(offSymCtrl, 3), by decide, by decide, by decide⟩ fun held => ?_
  split
  · exact .error held (herror.1 ‹_›)
  rename_i hzero
  have h : ¬s.symError := mt herror.2 hzero
  refine .of_field ⟨(offSymMode, 4), by decide, by decide, by decide⟩ fun heldMode => ?_
  rw [s.symNumber_mode, hpc]
  split
  · rename_i hmode
    split
    · exact .badHeader h (fun hc => absurd hc.2 ‹_›) fun b hlt => by omega
    · rename_i hpc0
      refine .of_field ⟨(offSymConst, 8), by decide, by decide, by decide⟩ fun heldConst => ?_
      refine .const held h heldMode _ ?_ (Decidable.not_not.1 hpc0) heldConst _ fun c hc => ?_
      · obtain hm | hm := hmode <;> simp [hm]
      · rw [chan_ofFn _ hc, s.symNumber_const hc]
        exact Nat.mod_eq_of_lt (s.symHalf_lt _)
  · rename_i hmode
    split
    · exact .of_normalSym held h ‹_› heldMode
    · exact .badHeader h (fun hc => hmode hc.1) fun b hlt => absurd hlt ‹_›

end Sym

end Sys2Proof.Machine
end

section
/-! SUPPORT. A block put in SYM is found there (R320, R477). -/

namespace Sys2Proof.Machine

/-! ## The bytes of the image -/

section Written

variable (s : State) {sym : Sym} (hs : symFits sym)
include hs

theorem State.runAt_writeSym {off : Nat} {bs : List Byte} (hp : (off, bs) ∈ symImage sym) :
    (s.writeSym sym).runAt off bs := by
  intro i hi
  rw [State.writeSym_mem, State.writeSym_base, ← Nat.add_assoc]
  exact storePieces_inside s.mem s.base (symImage_disjoint hs) hp hi

theorem State.not_missing_writeSym (a : Nat) : ¬(s.writeSym sym).missing a := by
  rintro ⟨hnone, q, hq, hlo, hhi⟩
  rw [← symImage_sizes hs] at hq
  obtain ⟨⟨off, bs⟩, hp, rfl⟩ := List.mem_map.1 hq
  dsimp only at hlo hhi
  have hbyte := s.runAt_writeSym hs hp (a - ((s.writeSym sym).base + off)) (by omega)
  rw [show (s.writeSym sym).base + (off + (a - ((s.writeSym sym).base + off))) = a by omega, hnone, eq_comm,
    List.getElem?_eq_none_iff] at hbyte
  omega

theorem State.symNumber_writeSym {off n v : Nat} (hp : (off, leBytes n v) ∈ symImage sym) :
    (s.writeSym sym).symNumber off n = v % 256 ^ n := by
  have hnumber := (s.runAt_writeSym hs hp).number
  rwa [leBytes_length, leNat_leBytes, eq_comm] at hnumber

/-- `SYM_CTRL` in the fields it was stored with (R57). -/
theorem State.ctrl_writeSym {e m : Bool} {pc ccs cq : Nat}
    (hp : (offSymCtrl, symCtrlBytes e m pc ccs cq) ∈ symImage sym)
    (hpc : pc < 8) (hccs : ccs < 4) (hcq : cq < 32) :
    let t := s.writeSym sym
    (t.symError ↔ e = true) ∧ t.symMatched = m ∧ t.symPc = pc ∧ t.symByte 0x101 / 16 % 4 = ccs ∧ t.symCq = cq := by
  intro t
  obtain ⟨herror, hmatched, hpc', hccs', hcq'⟩ := t.symNumber_ctrl
  have he := e.toNat_lt
  have hm := m.toNat_lt
  rw [s.symNumber_writeSym hs hp, Nat.mod_eq_of_lt (by omega)] at herror hmatched hpc' hccs' hcq'
  refine ⟨herror.symm.trans ?_, hmatched.symm.trans ?_, hpc'.symm.trans ?_, hccs'.symm.trans ?_, hcq'.symm.trans ?_⟩
  · rw [← Bool.toNat_eq_one, bit, field]
    omega
  · rw [show bit _ 3 = m.toNat by rw [bit, field]; omega]
    cases m <;> rfl
  all_goals
    rw [field]
    omega

end Written

/-! ## A normal block in SYM -/

section Normal

variable {s : State} {b : BlockMode} {n n' : NormalSym}

theorem State.runAt.unique {off : Nat} {bs bs' : List Byte} (h : s.runAt off bs) (h' : s.runAt off bs')
    (hlen : bs.length = bs'.length) : bs = bs' := by
  refine List.ext_getElem? fun i => ?_
  by_cases hi : i < bs.length
  · rw [← h i hi, h' i (hlen ▸ hi)]
  · rw [List.getElem?_eq_none (by omega), List.getElem?_eq_none (by omega)]

theorem State.colorsAt.unique {cems : List Nat} {p : Nat} {vals vals' : List Byte} (h : s.colorsAt p cems vals)
    (h' : s.colorsAt p cems vals') : vals = vals' := by
  induction cems generalizing p vals vals' with
  | nil => rw [List.eq_nil_of_length_eq_zero h.1, List.eq_nil_of_length_eq_zero h'.1]
  | cons c cems ih =>
    have hsplit (l : List Byte) (hl : l.length = colorCount (c :: cems)) :
        ∃ v rest, v.length = cemValues c ∧ l = v ++ rest := by
      refine ⟨_, _, ?_, (List.take_append_drop (cemValues c) l).symm⟩
      rw [List.length_take, hl, colorCount, List.map_cons, List.sum_cons]
      omega
    obtain ⟨v, rest, hv, rfl⟩ := hsplit vals h.1
    obtain ⟨v', rest', hv', rfl⟩ := hsplit vals' h'.1
    obtain ⟨hrun, hrest⟩ := (State.colorsAt_cons hv).1 h
    obtain ⟨hrun', hrest'⟩ := (State.colorsAt_cons hv').1 h'
    rw [hrun.unique hrun' (hv.trans hv'.symm), ih hrest hrest']

/-- The fields in SYM are those of one block. -/
theorem State.HoldsNormal.unique (h : s.HoldsNormal b n) (h' : s.HoldsNormal b n') : n = n' := by
  have hcems : cemNats n = cemNats n' := h.cems.trans h'.cems.symm
  have hcems' : n.cems = n'.cems := by rw [← map_ofNat_cemNats, hcems, map_ofNat_cemNats]
  have hcolors := h.colors.unique (hcems ▸ h'.colors)
  have hw0 := h.w0.2.unique h'.w0.2 (h.w0.1.trans h'.w0.1.symm)
  have hw1 := h.w1.2.unique h'.w1.2 (h.w1.1.trans h'.w1.1.symm)
  have hmode := BitVec.eq_of_toNat_eq (h.mode.trans h'.mode.symm)
  have hpart := BitVec.eq_of_toNat_eq (h.partIndex.trans h'.partIndex.symm)
  have hccs := BitVec.eq_of_toNat_eq (h.ccs.trans h'.ccs.symm)
  have hcq := BitVec.eq_of_toNat_eq (h.cq.trans h'.cq.symm)
  have hmatched := h.matched.trans h'.matched.symm
  cases n
  cases n'
  simp only at *
  subst_vars
  rfl

/-- The color values of a partition are among those of the block. -/
theorem colorIndex_lt {cems : List Nat} {j k : Nat} (hj : j < cems.length) (hk : k < cemValues (cems.getD j 0)) :
    ((cems.take j).map cemValues).sum + k < colorCount cems := by
  have hsum : colorCount cems = ((cems.take j).map cemValues).sum + ((cems.drop j).map cemValues).sum := by
    rw [colorCount, ← List.sum_append, ← List.map_append, List.take_append_drop]
  rw [List.drop_eq_getElem_cons hj, List.map_cons, List.sum_cons] at hsum
  rw [List.getD_eq_getElem _ _ hj] at hk
  omega

/-- A well-formed block put in SYM is the block that its bytes hold. -/
theorem State.holdsNormal_writeSym (s : State) {fp : Footprint} (hwf : normalWf fp n = true)
    (hb : blockMode fp n.mode.toNat = some b) : (s.writeSym (.normal n)).HoldsNormal b n := by
  have hs := normalWf_fits hwf
  obtain ⟨hcems4, -, -⟩ := id hs
  obtain ⟨hlen, hw0, hw1⟩ := normalWf_lengths hwf hb
  have run {off : Nat} {bs : List Byte} (hp : (off, bs) ∈ symImage (.normal n)) := s.runAt_writeSym hs hp
  have hmode : (offSymMode, leBytes 4 n.mode.toNat) ∈ symImage (.normal n) := by simp [symImage]
  have hpart : (offSymPart, leBytes 2 n.partIndex.toNat) ∈ symImage (.normal n) := by simp [symImage]
  have hcem : (offSymCem, symCemBytes (cemNats n)) ∈ symImage (.normal n) := by simp [symImage]
  have hcolor : (offSymColor, symColorBytes (cemNats n) n.colors) ∈ symImage (.normal n) := by simp [symImage]
  obtain ⟨-, hmatched, hpc, hccs, hcq⟩ := s.ctrl_writeSym hs (e := false) (m := n.matched) (pc := n.pc)
    (ccs := n.ccs.toNat) (cq := n.cq.toNat) (by simp [symImage]) (Nat.lt_of_le_of_lt hcems4 (by decide)) n.ccs.isLt
    n.cq.isLt
  exact {
    held_mode := (run hmode).held.append (run hpart).held
    held_cem := (run hcem).held
    mode := by
      rw [← State.symNumber_mode, s.symNumber_writeSym hs hmode, Nat.mod_eq_of_lt (by omega)]
    partIndex := by
      rw [← State.symNumber_part, s.symNumber_writeSym hs hpart]
      omega
    matched := hmatched.symm
    ccs := hccs.symm
    cq := hcq.symm
    cems := by
      have hnibbles := packFields_lt ((cemNats n).map fun c => (c, 4))
      have hle : 2 ^ (4 * (cemNats n).length) ≤ 2 ^ 16 := by
        rw [cemNats_length]
        exact Nat.pow_le_pow_right (by decide) (Nat.mul_le_mul_left 4 hcems4)
      rw [sum_widths] at hnibbles
      refine List.ext_getElem (by simp [State.symCems, hpc, cemNats_length]) fun p hp _ => ?_
      have hfield := s.symNumber_writeSym hs hcem
      rw [State.symNumber_half, Nat.mod_eq_of_lt (show _ < 256 ^ 2 from hnibbles.trans_le hle)] at hfield
      simp only [State.symCems, List.getElem_map, List.getElem_range, State.symCem]
      exact (List.getD_eq_getElem _ _ hp).symm.trans ((packFields_nibble (cemNats_lt n) p).symm.trans (hfield ▸ rfl))
    colors := by
      refine ⟨hlen, fun j hj k hk => ?_⟩
      have hindex := colorIndex_lt hj hk
      have hvalues : cemValues ((cemNats n).getD j 0) ≤ 8 := by
        have := cemNats_getD_lt n j
        unfold cemValues
        omega
      have hj4 : j < 4 := by
        rw [cemNats_length] at hj
        exact hj.trans_le hcems4
      have hsize : (symColorBytes (cemNats n) n.colors).length = 32 :=
        padTo_length (by
          rw [symColorBytes_go_length (cemNats_lt n), cemNats_length]
          exact Nat.mul_le_mul_left 8 hcems4)
      rw [Nat.zero_add, Nat.add_assoc, run hcolor (8 * j + k) (by omega), symColorBytes, padTo_getElem? _ (by omega),
        symColorBytes_go_getD (cemNats_lt n) _ _ (by omega), if_pos ⟨hj, hk⟩,
        List.getD_eq_getElem _ _ (hlen ▸ hindex), List.getElem?_eq_getElem]
    w0 := ⟨hw0, (State.runAt_append.1 (run (off := offSymW0) (bs := padTo 64 n.w0) (by simp [symImage]))).1⟩
    w1 := ⟨hw1, (State.runAt_append.1 (run (off := offSymW1) (bs := padTo 64 n.w1) (by simp [symImage]))).1⟩ }

theorem State.headerHeld_of_holds {fp : Footprint} (hn : s.HoldsNormal b n) (hwf : normalWf fp n = true)
    (hb : blockMode fp n.mode.toNat = some b) : s.headerHeld b := by
  obtain ⟨hheader, -⟩ := (normalWf_iff hb).1 hwf
  rwa [hn.partIndex, hn.matched, hn.cq, hn.cems] at hheader

end Normal

/-! ## A block put in SYM is found there -/

theorem rgba_ext {α : Type} {x y : Rgba α} (h : ∀ c < 4, x.chan c = y.chan c) : x = y := by
  obtain ⟨r, g, b, a⟩ := x
  obtain ⟨r', g', b', a'⟩ := y
  obtain rfl : r = r' := h 0 (by decide)
  obtain rfl : g = g' := h 1 (by decide)
  obtain rfl : b = b' := h 2 (by decide)
  obtain rfl : a = a' := h 3 (by decide)
  rfl

/-- A color of a constant block stands in SYM_CONST, channel by channel (R58). -/
theorem State.symHalf_writeSym_const (s : State) (fp16 : Bool) (color : Rgba (BitVec 16)) {c : Nat} (hc : c < 4) :
    (s.writeSym (.const fp16 color)).symHalf (0x110 + 2 * c) = (color.chan c).toNat := by
  have hrun := s.runAt_writeSym (sym := .const fp16 color) trivial (off := offSymConst)
    (bs := (color.toList.map fun c => leBytes 2 c.toNat).flatten) (by simp [symImage])
  simp only [Rgba.toList, List.map_cons, List.map_nil, List.flatten_cons, List.flatten_nil, State.runAt_append,
    leBytes_length] at hrun
  obtain ⟨hr, hg, hb, ha, -⟩ := hrun
  have half {off : Nat} {x : BitVec 16} (h : (s.writeSym (.const fp16 color)).runAt off (leBytes 2 x.toNat)) :
      (s.writeSym (.const fp16 color)).symHalf off = x.toNat := by
    have hnumber := h.number
    rw [leBytes_length, leNat_leBytes, State.symNumber_half, Nat.mod_eq_of_lt (show _ < 256 ^ 2 from x.isLt)] at hnumber
    exact hnumber.symm
  match c with
  | 0 => exact half hr
  | 1 => exact half hg
  | 2 => exact half hb
  | 3 => exact half ha

/-- A block put in SYM is found there. -/
theorem State.readSym_writeSym (s : State) (fp : Footprint) {sym : Sym} (h : sym = .error ∨ symWf fp sym = true) :
    (s.writeSym sym).readSym fp = .found sym := by
  have hs : symFits sym := h.elim (fun he => he ▸ trivial) symWf_fits
  have hfinds := (s.writeSym sym).finds_readSym fp
  generalize (s.writeSym sym).readSym fp = r at hfinds
  have hmissing := s.not_missing_writeSym hs
  cases sym with
  | error =>
    obtain ⟨herror, -⟩ := s.ctrl_writeSym hs (e := true) (m := false) (pc := 0) (ccs := 0) (cq := 0)
      (by simp [symImage]) (by decide) (by decide) (by decide)
    cases hfinds with
    | noValue h => exact absurd h (hmissing _)
    | error => rfl
    | const | badHeader | badValues | normal => exact absurd (herror.2 rfl) ‹_›
  | const fp16 color =>
    obtain ⟨herror, -, hpc, -⟩ := s.ctrl_writeSym hs (e := false) (m := false) (pc := 0) (ccs := 0) (cq := 0)
      (by simp [symImage]) (by decide) (by decide) (by decide)
    have hmode : (s.writeSym (.const fp16 color)).symMode = if fp16 then 0xFFFFFFFE else 0xFFFFFFFF := by
      rw [← State.symNumber_mode, s.symNumber_writeSym hs (v := if fp16 then 0xFFFFFFFE else 0xFFFFFFFF)
        (by simp [symImage])]
      cases fp16 <;> rfl
    have hlarge : ¬(s.writeSym (.const fp16 color)).symMode < 2048 := by
      rw [hmode]
      cases fp16 <;> decide
    cases hfinds with
    | noValue h => exact absurd h (hmissing _)
    | error _ h => simp [herror] at h
    | const _ _ _ fp16' hmode' _ _ color' hcolor =>
      obtain rfl : color' = color := rgba_ext fun c hc =>
        BitVec.eq_of_toNat_eq ((hcolor c hc).trans (s.symHalf_writeSym_const fp16 color hc))
      rw [hmode] at hmode'
      cases fp16 <;> cases fp16' <;> simp_all
    | badHeader _ hconst =>
      refine absurd ⟨?_, hpc⟩ hconst
      rw [hmode]
      cases fp16 <;> decide
    | badValues _ hmode' | normal _ _ hmode' => exact absurd hmode' hlarge
  | normal n =>
    have hwf : normalWf fp n = true := h.resolve_left nofun
    obtain ⟨b, hb, -⟩ := normalWf_some hwf
    obtain ⟨-, hvalues⟩ := (normalWf_iff hb).1 hwf
    have hn := s.holdsNormal_writeSym hwf hb
    have hmode : (s.writeSym (.normal n)).symMode < 2048 := hn.mode ▸ n.mode.isLt
    have hfound {b' : BlockMode} {n' : NormalSym} (hb' : blockMode fp (s.writeSym (.normal n)).symMode = some b')
        (hn' : (s.writeSym (.normal n)).HoldsNormal b' n') : b' = b ∧ n' = n := by
      rw [← hn.mode, hb] at hb'
      cases hb'
      exact ⟨rfl, hn'.unique hn⟩
    obtain ⟨herror, -⟩ := s.ctrl_writeSym hs (e := false) (m := n.matched) (pc := n.pc) (ccs := n.ccs.toNat)
      (cq := n.cq.toNat) (by simp [symImage]) (Nat.lt_of_le_of_lt hs.1 (by decide)) n.ccs.isLt n.cq.isLt
    cases hfinds with
    | noValue h => exact absurd h (hmissing _)
    | error _ h => simp [herror] at h
    | const _ _ _ fp16 hconst =>
      rw [hconst] at hmode
      cases fp16 <;> simp at hmode
    | badHeader _ _ hheader =>
      exact absurd (State.headerHeld_of_holds hn hwf hb) (hheader b hmode (hn.mode ▸ hb))
    | badValues _ _ hb' _ hn' hbad =>
      obtain ⟨rfl, rfl⟩ := hfound hb' hn'
      rw [hvalues] at hbad
      cases hbad
    | normal _ _ _ hb' _ hn' => rw [(hfound hb' hn').2]

end Sys2Proof.Machine
end

section
/-! SUPPORT. The conditions of R320 on the bytes of SYM, and the obligation on what a command finds there. -/

namespace Sys2Proof.Machine

/-! ## The conditions as R320 has them -/

/-- Condition 4 of R320 in the class form. -/
theorem cemFormOk_class_iff {cems : List Nat} (hlen : cems.length > 1) (h16 : ∀ c ∈ cems, c < 16) :
    cemFormOk cems.length false cems = true ↔ ∀ c ∈ cems, ∀ d ∈ cems, c / 4 - min (d / 4) 2 ≤ 1 := by
  constructor
  · intro h c hc d hd
    have := class_le_base h (by omega) hc
    have := baseClass_le_class hd
    have := baseClass_le (cems := cems)
    omega
  · intro h
    obtain ⟨d, hd, hbase⟩ := baseClass_attained (List.ne_nil_of_length_pos (by omega)) h16
    refine cemFormOk_class baseClass_le fun c hc => ⟨baseClass_le_class hc, ?_⟩
    have := h c hc d hd
    omega

/-- Condition 4 of R320 in the shared form. -/
theorem cemFormOk_shared_iff {cems : List Nat} (hlen : cems.length > 1) :
    cemFormOk cems.length true cems = true ↔ ∀ c ∈ cems, c = cems.getD 0 0 := by
  have hhead : cems.headD 0 = cems.getD 0 0 := by cases cems <;> rfl
  have hne : cems.length ≠ 1 := by omega
  simp only [cemFormOk, hhead, hne, if_true, Bool.or_eq_true, beq_iff_eq, false_or, List.all_eq_true]

/-- Every color value belongs to a partition (R311). -/
theorem exists_colorIndex {cems : List Nat} {i : Nat} (hi : i < colorCount cems) : ∃ j < cems.length,
    ∃ k < cemValues (cems.getD j 0), i = ((cems.take j).map cemValues).sum + k := by
  induction cems generalizing i with
  | nil => cases hi
  | cons c cems ih =>
    by_cases hic : i < cemValues c
    · exact ⟨0, by simp, i, hic, by simp⟩
    · rw [colorCount, List.map_cons, List.sum_cons] at hi
      obtain ⟨j, hj, k, hk, hijk⟩ := ih (i := i - cemValues c) (by rw [colorCount]; omega)
      refine ⟨j + 1, by simpa using hj, k, by simpa using hk, ?_⟩
      rw [List.take_succ_cons, List.map_cons, List.sum_cons]
      omega

section Sym

variable {s : State} {fp : Footprint} {b : BlockMode} {n : NormalSym}

theorem State.symCems_length (s : State) : s.symCems.length = s.symPc := by simp [State.symCems]

theorem State.symCems_getD {p : Nat} (hp : p < s.symPc) : s.symCems.getD p 0 = s.symCem p := by
  simp [State.symCems, List.getD, hp]

theorem State.mem_symCems {P : Nat → Prop} : (∀ c ∈ s.symCems, P c) ↔ ∀ p < s.symPc, P (s.symCem p) := by
  simp [State.symCems]

theorem State.symCems_take_sum {p : Nat} (hp : p < s.symPc) :
    ((s.symCems.take p).map cemValues).sum = ((List.range p).map fun q => cemValues (s.symCem q)).sum := by
  rw [State.symCems, ← List.map_take, List.take_range, Nat.min_eq_left hp.le, List.map_map]
  rfl

theorem State.colorCount_symCems :
    colorCount s.symCems = ((List.range s.symPc).map fun p => cemValues (s.symCem p)).sum := by
  rw [colorCount, State.symCems, List.map_map]
  rfl

theorem State.symMatched_iff : s.symMatched = true ↔ s.symByte 0x100 / 8 % 2 = 1 := beq_iff_eq

theorem State.HoldsNormal.pc (h : s.HoldsNormal b n) : n.pc = s.symPc := by
  rw [← cemNats_length, h.cems, s.symCems_length]

theorem State.HoldsNormal.matched_iff (h : s.HoldsNormal b n) : n.matched = true ↔ s.symByte 0x100 / 8 % 2 = 1 := by
  rw [h.matched, State.symMatched_iff]

/-- The color values of partition `p` in SYM are those of the block found (R61). -/
theorem State.HoldsNormal.color (h : s.HoldsNormal b n) {p k : Nat} (hp : p < s.symPc)
    (hk : k < cemValues (s.symCem p)) :
    s.mem.read (s.base + (0x120 + 8 * p + k)) =
      n.colors[((List.range p).map fun q => cemValues (s.symCem q)).sum + k]? := by
  have hread := h.colors.2 p (by rwa [h.cems, s.symCems_length]) k (by rwa [h.cems, State.symCems_getD hp])
  rwa [h.cems, State.symCems_take_sum hp, Nat.zero_add] at hread

/-- The bits between the header and the fields below the weights (R296, R305, R307). -/
theorem colorRoom_eq {weightBits pc : Nat} {shared dual : Bool} {P : Prop} [Decidable P] (hP : shared = true ↔ P) :
    colorEnd weightBits pc shared dual - colorStart pc =
      128 - weightBits - (if pc = 1 ∨ P then 0 else 3 * pc - 4) - (if dual then 2 else 0) -
        (if pc = 1 then 17 else 29) := by
  simp only [colorEnd, colorStart, extraCemBits, Bool.or_eq_true, decide_eq_true_eq, hP]

/-- The header in the bytes of SYM, condition by condition (R320, 3 to 5). -/
theorem State.headerHeld_iff : s.headerHeld b ↔
    1 ≤ s.symPc ∧ s.symPc ≤ 4 ∧ ¬(b.dual = true ∧ s.symPc = 4) ∧ (s.symPc = 1 → s.symPart = 0) ∧
      (s.symPc > 1 → s.symMatched = true → ∀ p < s.symPc, s.symCem p = s.symCem 0) ∧
      (s.symPc > 1 → ¬s.symMatched = true → ∀ p < s.symPc, ∀ p' < s.symPc,
        s.symCem p / 4 - min (s.symCem p' / 4) 2 ≤ 1) ∧
      colorCount s.symCems ≤ 18 ∧ 4 ≤ s.symCq ∧ s.symCq ≤ 20 ∧
      iseBits (colorCount s.symCems) s.symCq ≤
        colorEnd b.weightBits s.symPc s.symMatched b.dual - colorStart s.symPc ∧
      ∀ q ≤ 20, s.symCq < q → iseBits (colorCount s.symCems) q >
        colorEnd b.weightBits s.symPc s.symMatched b.dual - colorStart s.symPc := by
  have hform : 1 ≤ s.symPc → (cemFormOk s.symPc s.symMatched s.symCems = true ↔
      (s.symPc > 1 → s.symMatched = true → ∀ p < s.symPc, s.symCem p = s.symCem 0) ∧
      (s.symPc > 1 → ¬s.symMatched = true → ∀ p < s.symPc, ∀ p' < s.symPc,
        s.symCem p / 4 - min (s.symCem p' / 4) 2 ≤ 1)) := by
    intro hpc
    by_cases h1 : s.symPc = 1
    · simp [h1, cemFormOk]
    have hlen : s.symCems.length > 1 := by
      rw [s.symCems_length]
      omega
    have hgt : s.symPc > 1 := by omega
    cases hm : s.symMatched with
    | true =>
      rw [← s.symCems_length, cemFormOk_shared_iff hlen, State.mem_symCems, State.symCems_getD (by omega),
        s.symCems_length]
      simp [hgt]
    | false =>
      rw [← s.symCems_length, cemFormOk_class_iff hlen State.symCems_lt]
      simp only [State.mem_symCems, s.symCems_length]
      simp [hgt]
  rw [State.headerHeld, headerOk_iff, s.symCems_length, colorLevel_eq_some_iff, and_assoc]
  refine and_congr_right fun hpc => ?_
  rw [hform hpc, and_assoc]

theorem State.symByte_of_read {off : Nat} {v : Byte} (h : s.mem.read (s.base + off) = some v) :
    s.symByte off = v.toNat := by
  rw [State.symByte, h]
  rfl

theorem State.runAt.forall_lt {off L : Nat} {bs : List Byte} (h : s.runAt off bs) :
    (∀ v ∈ bs, v.toNat < L) ↔ ∀ i < bs.length, s.symByte (off + i) < L := by
  have hbyte (i : Nat) (hi : i < bs.length) : s.symByte (off + i) = bs[i].toNat :=
    State.symByte_of_read ((h i hi).trans (List.getElem?_eq_getElem hi))
  constructor
  · intro hv i hi
    rw [hbyte i hi]
    exact hv _ (List.getElem_mem hi)
  · intro hall v hv
    obtain ⟨i, hi, rfl⟩ := List.mem_iff_getElem.1 hv
    rw [← hbyte i hi]
    exact hall i hi

theorem State.colorsAt.forall_lt {L : Nat} {cems : List Nat} {vals : List Byte} (h : s.colorsAt 0 cems vals) :
    (∀ v ∈ vals, v.toNat < L) ↔
      ∀ p < cems.length, ∀ k < cemValues (cems.getD p 0), s.symByte (0x120 + 8 * p + k) < L := by
  obtain ⟨hlen, hread⟩ := h
  have hbyte (p : Nat) (hp : p < cems.length) (k : Nat) (hk : k < cemValues (cems.getD p 0)) :
      s.symByte (0x120 + 8 * p + k) =
        (vals[((cems.take p).map cemValues).sum + k]'(hlen ▸ colorIndex_lt hp hk)).toNat := by
    have := hread p hp k hk
    rw [Nat.zero_add, List.getElem?_eq_getElem (hlen ▸ colorIndex_lt hp hk)] at this
    exact State.symByte_of_read this
  constructor
  · intro hv p hp k hk
    rw [hbyte p hp k hk]
    exact hv _ (List.getElem_mem _)
  · intro hall v hv
    obtain ⟨i, hi, rfl⟩ := List.mem_iff_getElem.1 hv
    obtain ⟨p, hp, k, hk, rfl⟩ := exists_colorIndex (hlen ▸ hi)
    rw [← hbyte p hp k hk]
    exact hall p hp k hk

/-- The values in the bytes of SYM lie in their levels (R320, condition 6). -/
def State.valuesHeld (s : State) (b : BlockMode) : Prop :=
  (∀ p < s.symPc, ∀ k < cemValues (s.symCem p), s.symByte (0x120 + 8 * p + k) < levelValues s.symCq) ∧
    ∀ i < b.grid.w * b.grid.h, s.symByte (0x140 + i) < levelValues b.wq ∧
      (b.dual = true → s.symByte (0x180 + i) < levelValues b.wq)

theorem State.HoldsNormal.valuesOk_iff (h : s.HoldsNormal b n) : valuesOk b n = true ↔ s.valuesHeld b := by
  obtain ⟨hlen0, hw0⟩ := h.w0
  obtain ⟨hlen1, hw1⟩ := h.w1
  have hcolors := h.colors.forall_lt (L := levelValues n.cq.toNat)
  rw [Machine.valuesOk_iff, hcolors, hw0.forall_lt, hw1.forall_lt, State.valuesHeld, h.cq, h.cems, s.symCems_length]
  constructor
  · rintro ⟨-, hc, -, h0, -, h1⟩
    refine ⟨fun p hp k hk => hc p hp k (by rwa [State.symCems_getD hp]), fun i hi => ⟨h0 i (hlen0.symm ▸ hi), ?_⟩⟩
    exact fun hd => h1 i (by rwa [hlen1, if_pos hd])
  · rintro ⟨hc, hw⟩
    refine ⟨h.cems ▸ h.colors.1, fun p hp k hk => hc p hp k (by rwa [State.symCems_getD hp] at hk), hlen0,
      fun i hi => (hw i (hlen0 ▸ hi)).1, hlen1, fun i hi => ?_⟩
    rw [hlen1] at hi
    split at hi
    · exact (hw i hi).2 ‹_›
    · omega

theorem State.HoldsNormal.wf (h : s.HoldsNormal b n) (hb : blockMode fp s.symMode = some b) (hheader : s.headerHeld b)
    (hvalues : valuesOk b n = true) : normalWf fp n = true := by
  refine (normalWf_iff (h.mode ▸ hb)).2 ⟨?_, hvalues⟩
  rw [h.partIndex, h.matched, h.cq, h.cems]
  exact hheader

theorem State.heldAt.sub {off n : Nat} (h : s.heldAt off n) (i m : Nat) (him : i + m ≤ n) : s.heldAt (off + i) m := by
  intro k hk
  rw [Nat.add_assoc]
  exact h (i + k) (by omega)

/-- With every byte of SYM held none is missing. -/
theorem State.not_missing_of_held (h0 : s.heldAt 0x100 3) (h4 : s.heldAt 0x104 6) (hC : s.heldAt 0x10C 2)
    (h10 : s.heldAt 0x110 8) (h20 : s.heldAt 0x120 160) (a : Nat) : ¬s.missing a := by
  rintro ⟨hnone, q, hq, hlo, hhi⟩
  have hall : ∀ q ∈ symSizes, s.heldAt q.1 q.2 := by
    simp only [symSizes, List.forall_mem_cons]
    exact ⟨h0, h4.sub 0 4 (by decide), h4.sub 4 2 (by decide), hC, h10, h20.sub 0 32 (by decide),
      h20.sub 32 64 (by decide), h20.sub 96 64 (by decide), nofun⟩
  have hbyte := hall q hq (a - (s.base + q.1)) (by omega)
  rw [show s.base + (q.1 + (a - (s.base + q.1))) = a by omega, hnone] at hbyte
  cases hbyte

/-- What is found with every byte of SYM held (R320, R351; log entry 9). -/
theorem State.readSym_of_held (hmissing : ∀ a, ¬s.missing a) :
    let constant := (s.symMode = 2 ^ 32 - 1 ∨ s.symMode = 2 ^ 32 - 2) ∧ s.symPc = 0
    let normal := s.symMode < 2048 ∧ ∃ b, blockMode fp s.symMode = some b ∧ s.headerHeld b ∧ s.valuesHeld b
    (s.symError → s.readSym fp = .found .error) ∧
    (¬s.symError → constant ∨ normal → ∃ sym, s.readSym fp = .found sym ∧ symWf fp sym = true) ∧
    (¬s.symError → ¬(constant ∨ normal) → s.readSym fp = .illFormed) := by
  intro constant normal
  have hfinds := s.finds_readSym fp
  generalize s.readSym fp = r at hfinds
  cases hfinds with
  | noValue h => exact absurd h (hmissing _)
  | error held h => exact ⟨fun _ => rfl, fun hn => absurd h hn, fun hn => absurd h hn⟩
  | const held h heldMode fp16 hmode hpc heldConst color =>
    have hconst : constant := ⟨by rw [hmode]; cases fp16 <;> simp, hpc⟩
    exact ⟨fun he => absurd he h, fun _ _ => ⟨_, rfl, rfl⟩, fun _ hno => absurd (.inl hconst) hno⟩
  | badHeader h hconst hheader =>
    refine ⟨fun he => absurd he h, fun _ hc => ?_, fun _ _ => rfl⟩
    obtain hc | ⟨hmode, b, hb, hok, -⟩ := hc
    · exact absurd hc hconst
    · exact absurd hok (hheader b hmode hb)
  | badValues h hmode hb hheader hn hvalues =>
    refine ⟨fun he => absurd he h, fun _ hc => ?_, fun _ _ => rfl⟩
    obtain hc | ⟨-, b', hb', -, hok⟩ := hc
    · omega
    · obtain rfl := Option.some.inj (hb.symm.trans hb')
      rw [hn.valuesOk_iff.2 hok] at hvalues
      cases hvalues
  | normal held h hmode hb hheader hn hvalues =>
    have hnormal : normal := ⟨hmode, _, hb, hheader, hn.valuesOk_iff.1 hvalues⟩
    exact ⟨fun he => absurd he h, fun _ _ => ⟨_, rfl, hn.wf hb hheader hvalues⟩,
      fun _ hno => absurd (.inr hnormal) hno⟩

end Sym

/-- Settles O36: reading SYM can end in the ways of `State.Finds`, each with the bytes that it says. -/
theorem symReadBack : Obligations.SymReadBack := by
  refine ⟨fun s fp sym h => s.readSym_writeSym fp h, fun s fp => ?_⟩
  intro cell held byte half isError matched pc cq mode part cem values count
  have hfinds := s.finds_readSym fp
  refine ⟨fun sym hsym => ?_, fun a ha => ?_, fun h0 h4 hC h10 h20 => ?_⟩
  · rw [hsym] at hfinds
    cases hfinds with
    | error held h => exact ⟨held, h⟩
    | const held h heldMode fp16 hmode hpc heldConst color hcolor =>
      exact ⟨held, h, heldMode, hmode, hpc, heldConst, hcolor⟩
    | normal held h hmode hb hheader hn hvalues =>
      exact ⟨held, h, hn.wf hb hheader hvalues, hn.held_mode, hn.held_cem, hn.mode, hn.pc, hn.partIndex, hn.matched_iff,
        hn.ccs, hn.cq, hn.cems, fun p hp k hk => hn.color hp hk, hn.w0.2, hn.w1.2⟩
  · rw [ha] at hfinds
    cases hfinds with
    | noValue h =>
      have hbounds : ∀ q ∈ symSizes, 0x100 ≤ q.1 ∧ q.1 + q.2 ≤ 0x1C0 := by decide
      obtain ⟨hnone, q, hq, hlo, hhi⟩ := h
      have := hbounds q hq
      exact ⟨hnone, by omega, by omega⟩
  · have hread := State.readSym_of_held (fp := fp) (State.not_missing_of_held h0 h4 hC h10 h20)
    intro constant normal
    have hnormal : (s.symMode < 2048 ∧ ∃ b, blockMode fp s.symMode = some b ∧ s.headerHeld b ∧ s.valuesHeld b) ↔
        normal := by
      refine and_congr_right fun _ => exists_congr fun b => and_congr_right fun _ => ?_
      rw [State.headerHeld_iff, colorRoom_eq State.symMatched_iff, State.colorCount_symCems, State.symMatched_iff]
      simp only [and_assoc]
      rfl
    rwa [hnormal] at hread

end Sys2Proof.Machine
end

section
/-! SUPPORT. The texels of error blocks and of constant blocks (R355, R385), DECODE_TEXELS as a command (R350), and the
obligations on them. -/

namespace Sys2Proof.Machine

/-! ## The texels of error blocks and of constant blocks -/

section Texels

variable (fp : Footprint) {profile : Profile} (ec : Rgba Byte)

theorem decodedTexels_error {sym : Sym} (h : blockIsError profile sym = true) :
    decodedTexels fp profile ec sym = List.replicate fp.texels ec := by
  simp [decodedTexels, h]

theorem decodedTexels_const {fp16 : Bool} {color : Rgba (BitVec 16)}
    (h : blockIsError profile (.const fp16 color) = false) :
    decodedTexels fp profile ec (.const fp16 color) =
      List.replicate fp.texels (color.map (constByte profile fp16)) := by
  simp [decodedTexels, h]

end Texels

/-- Settles O43: a block that is no error block is a constant one, or a normal one whose block mode is valid. -/
theorem errorColor : Obligations.ErrorColor := by
  intro fp profile color sym
  refine ⟨decodedTexels_error fp color, fun hwf he color' => ?_⟩
  cases sym with
  | error => cases he
  | const fp16 c => rw [decodedTexels_const fp color he, decodedTexels_const fp color' he]
  | normal n =>
    obtain ⟨b, hb, -⟩ := normalWf_some hwf
    simp only [decodedTexels, he, hb, Bool.false_eq_true, if_false]

/-! ## DECODE_TEXELS -/

theorem exec_decodeTexels {s : State} {fp : Footprint} (hfp : s.tables = .valid fp) (kind : BitVec 2) :
    exec (.decodeTexels kind) s = if kind ≠ 0 then s.raise .unsupportedOutput else s.withSym fp fun sym =>
      ((s.writeTexout (decodedTexels fp s.profile s.cfgErrorColor sym)).setErrblk
        (blockIsError s.profile sym)).complete :=
  State.withTables_valid hfp _

/-- Byte `c` of texel `t` in `TEXOUT` is its channel `c` (R64). -/
theorem texelBytes_getElem? (l : List (Rgba Byte)) (t : Nat) {c : Nat} (hc : c < 4) :
    (l.map Rgba.toList).flatten[4 * t + c]? = l[t]?.map fun x => x.chan c := by
  induction l generalizing t with
  | nil => rfl
  | cons x l ih =>
    cases t with
    | zero =>
      match c with
      | 0 | 1 | 2 | 3 => rfl
    | succ t =>
      rw [show 4 * (t + 1) + c = 4 * t + c + 4 by omega]
      exact ih t

/-- Settles O42: the arms of the command, and the bytes of the texels it stores. -/
theorem decodeTexels : Obligations.DecodeTexels := by
  intro kind s fp hfp
  rw [exec_decodeTexels hfp]
  refine ⟨fun hk => if_pos hk, fun hk hsym => ?_, fun hk a hsym => ?_, fun hk sym hsym => ?_⟩
  all_goals rw [if_neg (not_not_intro hk), State.withSym, hsym]
  · rfl
  · have hlen : ((decodedTexels fp s.profile s.cfgErrorColor sym).map Rgba.toList).flatten.length =
        4 * (fp.bw * fp.bh) := by
      rw [texelBytes_length, decodedTexels_length, Footprint.texels]
    refine ⟨_, rfl, fun t ht c hc => ?_, fun a ha => ?_⟩
    · have hindex : s.base + 0x800 + 4 * t + c - (s.base + 0x800) = 4 * t + c := by omega
      rw [State.setErrblk_mem, State.writeTexout, State.store_mem, offTexout, Memory.read_writeList,
        if_pos ⟨by omega, by omega⟩, hindex, texelBytes_getElem? _ _ hc]
    · exact Memory.read_writeList_bytesAt ha hlen _

/-! ## Constant blocks in binary16 -/

/-- A bit field of a word is the field of its number (R15). -/
theorem toNat_extractLsb'_eq_field {w : Nat} (x : BitVec w) (lo n : Nat) :
    (x.extractLsb' lo n).toNat = field x.toNat lo n := by
  rw [BitVec.extractLsb'_toNat, Nat.shiftRight_eq_div_pow, field]

/-- A finite binary16 number of no sign, by its exponent and fraction, in units of 2^-24. -/
def fp16Units (e f : Nat) : Nat := if e = 0 then f else (1024 + f) * 2 ^ (e - 1)

theorem fp16Units_value (e f : Nat) :
    (fp16Units e f : ℚ) / 2 ^ 24 =
      if e = 0 then (f : ℚ) / 2 ^ 24 else (1 + f / 1024 : ℚ) * 2 ^ (e : ℤ) / 2 ^ 15 := by
  cases e with
  | zero => rfl
  | succ e =>
    rw [fp16Units, if_neg (by omega), if_neg (by omega), Nat.add_sub_cancel, zpow_natCast, pow_succ]
    push_cast
    ring

/-- The rounding of R355, counted in units of 2^-24. -/
theorem unitsByte_eq_floor (u : Nat) :
    (((min u (2 ^ 24) * 255 * 2 + 2 ^ 24) / 2 ^ 25 : ℕ) : ℤ) = ⌊min ((u : ℚ) / 2 ^ 24) 1 * 255 + 1 / 2⌋ := by
  have hmin : min ((u : ℚ) / 2 ^ 24) 1 = ((min u (2 ^ 24) : ℕ) : ℚ) / 2 ^ 24 := by
    rw [Nat.cast_min, ← min_div_div_right (by positivity)]
    norm_num
  have h : min ((u : ℚ) / 2 ^ 24) 1 * 255 + 1 / 2 =
      ((min u (2 ^ 24) * 255 * 2 + 2 ^ 24 : ℕ) : ℚ) / (2 ^ 25 : ℕ) := by
    rw [hmin]
    push_cast
    ring
  rw [h, Rat.floor_natCast_div_natCast]
  rfl

/-- The cases of R355, a NaN first. -/
theorem fp16Byte_eq (x : Nat) : fp16Byte x =
    if field x 10 5 = 31 ∧ field x 0 10 ≠ 0 then 0
    else if bit x 15 = 1 then 0
    else if field x 10 5 = 31 then 255
    else (min (fp16Units (field x 10 5) (field x 0 10)) (2 ^ 24) * 255 * 2 + 2 ^ 24) / 2 ^ 25 := by
  rw [fp16Byte, fp16Units]
  by_cases he : field x 10 5 = 31
  · by_cases hf : field x 0 10 = 0 <;> simp [he, hf]
  · simp only [he, if_false, false_and]

theorem fp16Byte_le (x : Nat) : fp16Byte x ≤ 255 := by
  rw [fp16Byte_eq]
  generalize fp16Units _ _ = u
  split_ifs <;> omega

/-- R355 for one channel of an FP16 block in profile HDR. -/
theorem fp16Byte_value (v : BitVec 16) :
    let e := (v.extractLsb' 10 5).toNat
    let f := (v.extractLsb' 0 10).toNat
    let value : ℚ := if e = 0 then f / 2 ^ 24 else (1 + f / 1024) * 2 ^ (e : ℤ) / 2 ^ 15
    (fp16Byte v.toNat : ℤ) =
      if e = 31 ∧ f ≠ 0 then 0
      else if v.extractLsb' 15 1 = 1 then 0
      else if e = 31 then 255
      else ⌊min value 1 * 255 + 1 / 2⌋ := by
  intro e f value
  have hsign : v.extractLsb' 15 1 = 1 ↔ bit v.toNat 15 = 1 := by
    rw [bit, ← toNat_extractLsb'_eq_field]
    exact BitVec.toNat_inj.symm
  have hvalue : value = fp16Units e f / 2 ^ 24 := (fp16Units_value e f).symm
  rw [fp16Byte_eq, ← toNat_extractLsb'_eq_field, ← toNat_extractLsb'_eq_field, hvalue, ← unitsByte_eq_floor]
  simp only [hsign, Nat.cast_ite]
  rfl

/-- Settles O44: a constant block has one color, each channel of it the byte of R355. -/
theorem constantBlocks : Obligations.ConstantBlocks := by
  intro fp color ec t ht out
  have hconst {profile : Profile} {fp16 : Bool} (h : blockIsError profile (.const fp16 color) = false) :
      out profile fp16 = some (color.map (constByte profile fp16)) := by
    rw [← List.getElem?_replicate_of_lt ht]
    exact congrArg (·[t]?) (decodedTexels_const fp ec h)
  have herror {profile : Profile} (h : blockIsError profile (.const true color) = true) :
      out profile true = some ec := by
    rw [← List.getElem?_replicate_of_lt ht]
    exact congrArg (·[t]?) (decodedTexels_error fp ec h)
  refine ⟨hconst rfl, (hconst rfl).trans (hconst rfl).symm, (hconst rfl).trans ?_, herror rfl, herror rfl,
    _, hconst rfl, fun c _ => ?_⟩
  · have hhigh : constByte .ldrSrgb false = fun x => x.extractLsb' 8 8 :=
      funext fun x => congrArg (BitVec.ofNat 8) (Nat.shiftRight_eq_div_pow x.toNat 8).symm
    rw [hhigh]
  · rw [chan_map]
    refine Eq.trans (congrArg Nat.cast ?_) (fp16Byte_value (color.chan c))
    exact Nat.mod_eq_of_lt (Nat.lt_succ_of_le (fp16Byte_le _))

end Sys2Proof.Machine
end

section
/-! SUPPORT. The endpoints of the LDR CEMs (R365 to R375), and the obligation on them. -/

namespace Sys2Proof.Machine

theorem toNats_getD (v : List Byte) (k : Nat) : (toNats v).getD k 0 = (v.getD k 0).toNat :=
  List.getD_map (l := v) (d := 0#8) (n := k) BitVec.toNat

theorem clamp8_of_le {x : Nat} (h : x ≤ 255) : clamp8 x = x := by
  unfold clamp8
  omega

/-- R365: the offset is the six middle bits as a signed number, and the base takes the top bit of `a`. -/
theorem bitTransferSigned_bytes (a b : Byte) : bitTransferSigned a.toNat b.toNat =
    ((a.extractLsb' 1 6).toInt, ((a.extractLsb' 7 1 ++ b.extractLsb' 1 7).toNat : ℤ)) := by
  have hoffset : ∀ a : Byte, (bitTransferSigned a.toNat 0).1 = (a.extractLsb' 1 6).toInt := by decide
  have htop : ∀ a : Byte, (a.extractLsb' 7 1).toNat <<< 7 = a.toNat &&& 0x80 := by decide
  have hlow : (b.extractLsb' 1 7).toNat = b.toNat / 2 := by
    rw [toNat_extractLsb'_eq_field, field]
    omega
  refine Prod.ext (hoffset a) ?_
  rw [BitVec.toNat_append, htop, hlow, Nat.lor_comm]
  rfl

theorem map_clamp8_of_le {r g b a : Nat} (hr : r ≤ 255) (hg : g ≤ 255) (hb : b ≤ 255) (ha : a ≤ 255) :
    (⟨r, g, b, a⟩ : Rgba Int).map clamp8 = ⟨r, g, b, a⟩ := by
  simp only [Rgba.map, clamp8_of_le, hr, hg, hb, ha]

/-- The last step of every LDR CEM. -/
def clampEndpoints (e : Rgba Int × Rgba Int) : Rgba Nat × Rgba Nat := (e.1.map clamp8, e.2.map clamp8)

section Endpoints

variable {v : Nat → Nat} (hv : ∀ k, v k ≤ 255) {a0 a1 : Nat} (h0 : a0 ≤ 255) (h1 : a1 ≤ 255)
include hv h0 h1

theorem scaleEndpoints_clamped : clampEndpoints (scaleEndpoints v a0 a1) =
    (⟨v 0 * v 3 / 256, v 1 * v 3 / 256, v 2 * v 3 / 256, a0⟩, ⟨v 0, v 1, v 2, a1⟩) := by
  have hscaled (k : Nat) : v k * v 3 / 256 ≤ 255 := by
    have := Nat.mul_le_mul (hv k) (hv 3)
    omega
  exact Prod.ext (map_clamp8_of_le (hscaled 0) (hscaled 1) (hscaled 2) h0) (map_clamp8_of_le (hv 0) (hv 1) (hv 2) h1)

theorem directEndpoints_clamped : clampEndpoints (directEndpoints v a0 a1) =
    if v 1 + v 3 + v 5 ≥ v 0 + v 2 + v 4 then (⟨v 0, v 2, v 4, a0⟩, ⟨v 1, v 3, v 5, a1⟩)
    else clampEndpoints (blueContract (v 1) (v 3) (v 5) a1, blueContract (v 0) (v 2) (v 4) a0) := by
  rw [directEndpoints, apply_ite clampEndpoints]
  congr 1
  exact Prod.ext (map_clamp8_of_le (hv 0) (hv 2) (hv 4) h0) (map_clamp8_of_le (hv 1) (hv 3) (hv 5) h1)

end Endpoints

theorem offsetEndpoints_clamped (v : Nat → Nat) (a da : Int) :
    let base := fun k => (bitTransferSigned (v (k + 1)) (v k)).2
    let off := fun k => (bitTransferSigned (v (k + 1)) (v k)).1
    clampEndpoints (offsetEndpoints v a da) =
      if off 0 + off 2 + off 4 ≥ 0 then
        clampEndpoints (⟨base 0, base 2, base 4, a⟩, ⟨base 0 + off 0, base 2 + off 2, base 4 + off 4, a + da⟩)
      else clampEndpoints (blueContract (base 0 + off 0) (base 2 + off 2) (base 4 + off 4) (a + da),
        blueContract (base 0) (base 2) (base 4) a) :=
  apply_ite clampEndpoints _ _ _

/-- R367: the base of CEM 1 takes six bits of one value and two of the other. -/
theorem luminanceBase_le {x : Nat} (hx : x ≤ 255) (y : Nat) : x / 4 ||| (y &&& 0xC0) ≤ 255 :=
  Nat.le_of_lt_succ (Nat.or_lt_two_pow (n := 8) (by omega) (Nat.and_lt_two_pow (n := 8) _ (by decide)))

/-- Settles O46: the endpoints CEM by CEM; clamping leaves alone what is no sum or difference. -/
theorem ldrEndpoints_eq : Obligations.LdrEndpoints := by
  refine ⟨bitTransferSigned_bytes, fun v => ?_⟩
  have hle (k : Nat) : (toNats v).getD k 0 ≤ 255 := by
    have := (v.getD k 0).isLt
    rw [toNats_getD]
    omega
  simp only [← toNats_getD]
  generalize toNats v = vals at hle
  have h255 : 255 ≤ 255 := le_rfl
  have hl0 := luminanceBase_le (hle 0) (vals.getD 1 0)
  have hl1 := Nat.min_le_right ((vals.getD 0 0 / 4 ||| (vals.getD 1 0 &&& 0xC0)) + (vals.getD 1 0 &&& 0x3F)) 255
  have hcem0 := congrArg₂ Prod.mk (map_clamp8_of_le (hle 0) (hle 0) (hle 0) h255)
    (map_clamp8_of_le (hle 1) (hle 1) (hle 1) h255)
  have hcem1 := congrArg₂ Prod.mk (map_clamp8_of_le hl0 hl0 hl0 h255) (map_clamp8_of_le hl1 hl1 hl1 h255)
  have hcem4 := congrArg₂ Prod.mk (map_clamp8_of_le (hle 0) (hle 0) (hle 0) (hle 2))
    (map_clamp8_of_le (hle 1) (hle 1) (hle 1) (hle 3))
  have hcem6 := scaleEndpoints_clamped hle h255 h255
  have hcem8 := directEndpoints_clamped hle h255 h255
  have hcem10 := scaleEndpoints_clamped hle (hle 4) (hle 5)
  have hcem12 := directEndpoints_clamped hle (hle 6) (hle 7)
  exact ⟨hcem0, hcem1, hcem4, rfl, hcem6, hcem8, offsetEndpoints_clamped _ 255 0, hcem10, hcem12,
    offsetEndpoints_clamped _ _ _, fun cem c => ldrEndpoints_le cem vals c⟩

end Sys2Proof.Machine
end

section
/-! SUPPORT. A block of one color through ENCODE_BLOCK and DECODE_TEXELS (R356, R407), and the obligation on it. -/

namespace Sys2Proof.Machine

theorem minOf_replicate {n : Nat} (hn : n ≠ 0) (x : Nat) : minOf (List.replicate n x) = x :=
  List.eq_of_mem_replicate (minOf_mem (by simpa using hn))

theorem maxOf_replicate {n : Nat} (hn : n ≠ 0) (x : Nat) : maxOf (List.replicate n x) = x :=
  le_antisymm (foldr_max_le (Nat.zero_le _) fun _ hy => (List.eq_of_mem_replicate hy).le)
    (le_foldr_max _ _ (List.mem_replicate.2 ⟨hn, rfl⟩))

/-- The extremes and the middle color of a block of one color are that color (R401, R405). -/
theorem imageBlock_replicate {n : Nat} (hn : n ≠ 0) (v : Rgba Byte) :
    let blk := imageBlock (List.replicate n v)
    blk.lo = v.map unorm16 ∧ blk.hi = v.map unorm16 ∧ midColor blk = v.map unorm16 := by
  intro blk
  have hlo : blk.lo = v.map unorm16 := by
    simp only [blk, imageBlock, channel, List.map_replicate, minOf_replicate hn]
    rfl
  have hhi : blk.hi = v.map unorm16 := by
    simp only [blk, imageBlock, channel, List.map_replicate, maxOf_replicate hn]
    rfl
  refine ⟨hlo, hhi, rgba_ext fun c hc => ?_⟩
  rw [midColor, chan_ofFn _ hc, hlo, hhi]
  omega

theorem encodedSym_replicate {inp : SearchInput} {v : Rgba Byte} {n : Nat} (hn : n ≠ 0)
    (h : inp.texels = List.replicate n v) (tol : Nat) :
    encodedSym inp tol = .const false (v.map fun x => BitVec.ofNat 16 (257 * x.toNat)) := by
  obtain ⟨hlo, hhi, hmid⟩ := imageBlock_replicate hn v
  have hok : constOk (imageBlock inp.texels) tol = true := by
    simp [constOk, h, hlo, hhi, hmid]
  rw [encodedSym, if_pos hok, constSym, h, hmid]
  rfl

theorem toNat_unorm16 (x : Byte) : (BitVec.ofNat 16 (257 * x.toNat)).toNat = 257 * x.toNat := by
  rw [BitVec.toNat_ofNat]
  omega

/-- R356: the byte of a UNORM16 channel undoes the widening by 257, in LDR_SRGB as its high byte, else by rounding. -/
theorem constByte_unorm16 (profile : Profile) (x : Byte) :
    constByte profile false (BitVec.ofNat 16 (257 * x.toNat)) = x := by
  have hshift : 257 * x.toNat / 256 = x.toNat := by omega
  have hround : out8 (257 * x.toNat) = x.toNat := by
    unfold out8
    omega
  rw [constByte, toNat_unorm16, hshift, hround]
  simp

/-- R425: a block whose 16-bit values are 257 times the texels has no error, whatever the weights. -/
theorem weightedError_eq_zero {inp : SearchInput} {sym : Sym} (h : ∀ t < inp.texels.length,
    reconstructed ⟨inp.bw, inp.bh⟩ inp.profile sym t = (inp.texels.getD t ⟨0, 0, 0, 0⟩).map unorm16) :
    weightedError inp sym = 0 := by
  refine List.sum_eq_zero fun x hx => ?_
  obtain ⟨t, ht, rfl⟩ := List.mem_map.1 hx
  simp [h t (List.mem_range.1 ht), absDiff]

/-- Settles O49: the constant block holds each channel times 257, which is what the error measures against and what the
output step undoes. -/
theorem constantRoundTrip : Obligations.ConstantRoundTrip := by
  intro inp v ec profile htexels hn
  have hsym := encodedSym_replicate hn htexels 0
  refine ⟨hsym, ?_, ?_⟩
  · refine weightedError_eq_zero fun t ht => ?_
    rw [htexels, List.length_replicate] at ht
    rw [hsym, htexels, List.getD_replicate _ ht]
    exact rgba_ext fun c _ => by simp only [reconstructed, chan_map, toNat_unorm16, unorm16]
  · rw [hsym, decodedTexels_const _ ec rfl, htexels]
    congr 1
    exact rgba_ext fun c _ => by rw [chan_map, chan_map, constByte_unorm16]

end Sys2Proof.Machine
end

section
/-! SUPPORT. ENCODE_BLOCK as a command (R400, R478): what it does in each case, and every way in which it can end, said
once. -/

namespace Sys2Proof.Machine

section Command

variable {s : State} {fp : Footprint} (hfp : s.tables = .valid fp)
include hfp

theorem exec_encodeBlock (p : BitVec 1) (kind : BitVec 2) :
    exec (.encodeBlock p kind) s = if kind ≠ 0 then s.raise .unsupportedInput
      else withBytes (s.readEwb fp.texels) fun ewb =>
        if ewb.all weightLegal then withBytes (s.readTexin fp.texels) fun texels =>
          (s.encoded fp (p == 1) (s.searchInput fp texels ewb)).complete
        else s.raise .badOperand :=
  State.withTables_valid hfp _

variable (p : BitVec 1) {ewb : List Nat} (hewb : s.readEwb fp.texels = .ok ewb)
include hewb

theorem exec_encodeBlock_illegal (h : ∃ w ∈ ewb, weightLegal w = false) :
    exec (.encodeBlock p 0) s = .next { s with inst := s.inst.ended .badOperand } := by
  have hall : ¬ewb.all weightLegal = true := by simpa using h
  rw [exec_encodeBlock hfp, if_neg (by decide), hewb, withBytes, if_neg hall, State.raise_eq]

theorem exec_encodeBlock_legal (h : ∀ w ∈ ewb, weightLegal w = true) :
    exec (.encodeBlock p 0) s = withBytes (s.readTexin fp.texels) fun texels =>
      (s.encoded fp (p == 1) (s.searchInput fp texels ewb)).complete := by
  rw [exec_encodeBlock hfp, if_neg (by decide), hewb, withBytes, if_pos (List.all_eq_true.2 h)]

theorem exec_encodeBlock_ok (h : ∀ w ∈ ewb, weightLegal w = true) {texels : List (Rgba Byte)}
    (htexels : s.readTexin fp.texels = .ok texels) :
    exec (.encodeBlock p 0) s = .next ((s.encoded fp (p == 1) (s.searchInput fp texels ewb)).finish .ok) := by
  rw [exec_encodeBlock_legal hfp p hewb h, htexels]
  rfl

omit hewb in
/-- With an input kind that is supported, the command ends with the weights refused or with a block encoded. -/
theorem exec_encodeBlock_next {t : State} (h : exec (.encodeBlock p 0) s = .next t) :
    ∃ ewb, s.readEwb fp.texels = .ok ewb ∧
      (((∃ w ∈ ewb, weightLegal w = false) ∧ t = { s with inst := s.inst.ended .badOperand }) ∨
        (∀ w ∈ ewb, weightLegal w = true) ∧ ∃ texels, s.readTexin fp.texels = .ok texels ∧
          t = (s.encoded fp (p == 1) (s.searchInput fp texels ewb)).finish .ok) := by
  obtain ⟨ewb, hewb, -⟩ := withBytes_next (((exec_encodeBlock hfp p 0).trans (if_neg (by decide))).symm.trans h)
  refine ⟨ewb, hewb, ?_⟩
  by_cases hlegal : ∀ w ∈ ewb, weightLegal w = true
  · rw [exec_encodeBlock_legal hfp p hewb hlegal] at h
    obtain ⟨texels, htexels, h⟩ := withBytes_next h
    exact .inr ⟨hlegal, texels, htexels, (Host.Outcome.next.inj h).symm⟩
  · have hill : ∃ w ∈ ewb, weightLegal w = false := by simpa using hlegal
    rw [exec_encodeBlock_illegal hfp p hewb hill] at h
    exact .inl ⟨hill, (Host.Outcome.next.inj h).symm⟩

end Command

@[simp] theorem State.encoded_base (s : State) (fp : Footprint) (pack : Bool) (inp : SearchInput) :
    (s.encoded fp pack inp).base = s.base := by
  cases pack <;> simp [State.encoded, State.base]

/-- What ENCODE_BLOCK ends in when it has encoded a block (R400). -/
theorem State.encoded_finish (s : State) (fp : Footprint) (p : BitVec 1) (inp : SearchInput) :
    (s.encoded fp (p == 1) inp).finish .ok =
      let sym := encodedSym inp s.cfgConstTol.toNat
      let m := (s.writeSym sym).mem
      { s with
        mem := if p = 1 then m.writeList (s.base + offPhys) (bytesOfBlock (packBlock fp sym)) else m
        inst := { s.inst.ended .ok with errOut := toBinary64 (weightedError inp sym) } } := by
  obtain rfl | rfl : p = 0 ∨ p = 1 := by
    revert p
    decide
  all_goals
    simp [State.encoded, State.writeSym_eq, State.writePhys, State.store, State.finish, Inst.ended, State.base]

/-- The block encoded is a constant one or the one the search selects (R406). -/
theorem encodedSym_wf {inp : SearchInput} (hfp : (⟨inp.bw, inp.bh⟩ : Footprint).valid = true) (tol : Nat) :
    symWf ⟨inp.bw, inp.bh⟩ (encodedSym inp tol) = true := by
  unfold encodedSym
  dsimp only
  split
  · rfl
  · obtain ⟨⟨hmem, -⟩, -⟩ := selectFrom_best (inp := inp) evaluated_ne_nil
    exact (isCandidate_iff.1 (evaluated_isCandidate hfp _ hmem)).1

end Sys2Proof.Machine
end

section
/-! SUPPORT. UNPACK of the block that ENCODE_BLOCK has packed (R432 to R435), and the obligation on it. -/

namespace Sys2Proof.Machine

/-! ## What is found in SYM is a matter of the bytes that a read returns -/

section Congr

variable {s t : State} (hload : t.load = s.load)
include hload

theorem State.symField_congr : t.symField = s.symField := by
  funext off n f
  simp only [State.symField, hload]

theorem State.symBytes_congr : t.symBytes = s.symBytes := by
  funext off n f
  simp only [State.symBytes, hload]

theorem State.symColors_congr (p : Nat) (cems : List Nat) (f : List Byte → SymRead) :
    t.symColors p cems f = s.symColors p cems f := by
  induction cems generalizing p f with
  | nil => rfl
  | cons cem cems ih => simp only [State.symColors, State.symBytes_congr hload, ih]

theorem State.readSym_congr (fp : Footprint) : t.readSym fp = s.readSym fp := by
  simp only [State.readSym, State.readNormalSym, State.symField_congr hload, State.symBytes_congr hload,
    State.symColors_congr hload]

end Congr

theorem State.load_congr {s t : State} (hbase : t.base = s.base) (hread : ∀ a, t.mem.read a = s.mem.read a) :
    t.load = s.load := by
  funext off n
  rw [State.load, State.load, hbase]
  exact Memory.readList_congr _ n fun i _ => hread _

/-! ## PHYS and SYM lie apart -/

/-- A byte after pieces are stored depends on the memory before by that byte alone. -/
theorem storePieces_read_congr {m m' : Memory} {a : Nat} (h : m.read a = m'.read a) (base : Nat)
    (pieces : List (Nat × List Byte)) : (storePieces m base pieces).read a = (storePieces m' base pieces).read a := by
  induction pieces generalizing m m' with
  | nil => exact h
  | cons p ps ih => exact ih (by rw [Memory.read_writeList, Memory.read_writeList, h])

theorem State.not_symAddress_phys (s : State) {a : Nat} (h : s.bytesAt offPhys 16 a) : ¬s.symAddress a := by
  rintro ⟨off, rfl, hlo, -⟩
  unfold State.bytesAt offPhys at h
  unfold offSymCtrl at hlo
  omega

/-- A block in SYM stays there when PHYS is written. -/
theorem State.readSym_writePhys_writeSym (s : State) (fp : Footprint) (blk : Block) {sym : Sym}
    (h : symWf fp sym = true) : ((s.writeSym sym).writePhys blk).readSym fp = .found sym := by
  have hbytes (a : Nat) : ((s.writeSym sym).writePhys blk).mem.read a = ((s.writePhys blk).writeSym sym).mem.read a := by
    rw [State.writePhys_mem, State.writeSym_mem, State.writeSym_base, State.writeSym_mem]
    by_cases ha : s.bytesAt offPhys 16 a
    · have hout : ¬(s.writePhys blk).symAddress a :=
        (s.writePhys blk).not_symAddress_phys (by rwa [State.bytesAt, State.writePhys_base])
      have hin : s.base + offPhys ≤ a ∧ a < s.base + offPhys + (bytesOfBlock blk).length := by
        rwa [bytesOfBlock_length]
      rw [symMemory_outside _ (symWf_fits h) hout, State.writePhys_mem, Memory.read_writeList, if_pos hin,
        Memory.read_writeList, if_pos hin]
    · rw [Memory.read_writeList_bytesAt ha (bytesOfBlock_length blk), State.writePhys_base, State.writePhys_mem]
      exact storePieces_read_congr (Memory.read_writeList_bytesAt ha (bytesOfBlock_length blk) _).symm _ _
  rw [State.readSym_congr (State.load_congr (by simp) hbytes) fp]
  exact State.readSym_writeSym _ fp (.inr h)

/-! ## A block packed and read again -/

/-- A block on the fields in use is as well formed as it was (R320, R325). -/
theorem symInUse_wf {fp : Footprint} {sym : Sym} (h : symWf fp sym = true) : symWf fp (symInUse fp sym) = true := by
  cases sym with
  | error => cases h
  | const => rfl
  | normal n =>
    obtain ⟨b, hb, -⟩ := normalWf_some h
    rw [symInUse_normal hb]
    exact (readsAs_writeNormal h hb).wf

theorem symInUse_ne_error {fp : Footprint} {sym : Sym} (h : symWf fp sym = true) : symInUse fp sym ≠ .error := by
  cases sym with
  | error => cases h
  | const | normal => nofun

/-- Settles O52: the block encoded is well formed, so it is found in SYM, and PHYS holds it packed, which UNPACK reads as
the same block on the fields in use. -/
theorem encodeUnpacks : Obligations.EncodeUnpacks := by
  intro s t fp hfp hvalid hexec hok
  obtain ⟨ewb, -, ⟨-, rfl⟩ | ⟨-, texels, -, rfl⟩⟩ := exec_encodeBlock_next hfp 1 hexec
  · cases hok
  let inp := s.searchInput fp texels ewb
  let sym := encodedSym inp s.cfgConstTol.toNat
  set t := (s.encoded fp (1 == 1) inp).finish .ok
  have hwf : symWf fp sym = true := encodedSym_wf (inp := inp) hvalid _
  have hload : t.load = ((s.writeSym sym).writePhys (packBlock fp sym)).load :=
    State.load_congr (by simp [t]) fun a => by simp [t, sym]
  have hphys : t.readPhys = .ok (packBlock fp sym) := by
    rw [State.readPhys, hload, ← State.readPhys, State.readPhys_writePhys]
  have htables : t.tables = .valid fp := by simp [t, hfp]
  have hread : readBlock fp (packBlock fp sym) = symInUse fp sym := packUnpack.1 fp hvalid sym hwf
  refine ⟨(t.unpacked (symInUse fp sym)).finish .ok, sym, ?_, hwf, ?_, rfl, ?_, ?_⟩
  · refine (State.readSym_congr hload fp).trans ?_
    exact s.readSym_writePhys_writeSym fp _ hwf
  · rw [← hread]
    exact (exec_unpack htables).trans (by rw [hphys]; rfl)
  · simpa [State.unpacked] using symInUse_ne_error hwf
  · have hsame : ((t.unpacked (symInUse fp sym)).finish .ok).load = (t.writeSym (symInUse fp sym)).load :=
      State.load_congr (by simp [State.unpacked]) fun a => by simp [State.unpacked]
    rw [State.readSym_congr hsame]
    exact t.readSym_writeSym fp (.inr (symInUse_wf hwf))

end Sys2Proof.Machine
end

section
/-! SUPPORT. The error of a block (R425), its binary64 form (R53), the legal weights (R65). -/

namespace Sys2Proof.Machine

/-! ## The error as a sum (R425) -/

/-- The error is a function of the size, the profile, the texels and the weights of the block. -/
theorem weightedError_congr {inp inp' : SearchInput} (hw : inp.bw = inp'.bw) (hh : inp.bh = inp'.bh)
    (hprofile : inp.profile = inp'.profile) (htexels : inp.texels = inp'.texels) (hweights : inp.weights = inp'.weights)
    (sym : Sym) : weightedError inp sym = weightedError inp' sym := by
  simp only [weightedError, hw, hh, hprofile, htexels, hweights]

theorem absDiff_sq (a b : Nat) : ((absDiff a b : ℕ) : ℤ) ^ 2 = ((a : ℤ) - b) ^ 2 := by
  unfold absDiff
  obtain h | h := Nat.le_total a b
  · rw [Nat.sub_eq_zero_of_le h, Nat.zero_add, Nat.cast_sub h]
    ring
  · rw [Nat.sub_eq_zero_of_le h, Nat.add_zero, Nat.cast_sub h]

/-- The error over the integers, a square in place of the distance. -/
theorem weightedError_eq_sum (inp : SearchInput) (sym : Sym) :
    (weightedError inp sym : ℤ) = ((List.range inp.texels.length).map fun t => ((List.range 4).map fun c =>
      ((inp.weights.getD t ⟨0, 0, 0, 0⟩).chan c : ℤ) *
        (((reconstructed ⟨inp.bw, inp.bh⟩ inp.profile sym t).chan c : ℤ) -
          257 * (((inp.texels.getD t ⟨0, 0, 0, 0⟩).chan c).toNat : ℤ)) ^ 2).sum).sum := by
  have hrange : List.range 4 = [0, 1, 2, 3] := rfl
  simp only [weightedError, Nat.cast_list_sum, List.map_map, hrange]
  refine congrArg List.sum (List.map_congr_left fun t _ => ?_)
  simp only [Function.comp, Nat.cast_list_sum, List.map_map]
  refine congrArg List.sum (List.map_congr_left fun c _ => ?_)
  simp only [Function.comp, Nat.cast_mul, Nat.cast_pow, absDiff_sq, unorm16]
  rfl

/-- With one weight for every channel the error is that weight times the error with weight 1. -/
theorem weightedError_uniform {inp : SearchInput} {one : Nat}
    (h : inp.weights = List.replicate inp.texels.length ⟨one, one, one, one⟩) (sym : Sym) :
    weightedError inp sym =
      weightedError { inp with weights := List.replicate inp.texels.length ⟨1, 1, 1, 1⟩ } sym * one := by
  simp only [weightedError, ← List.sum_map_mul_right]
  refine congrArg List.sum (List.map_congr_left fun t ht => ?_)
  rw [List.mem_range] at ht
  simp only [h, List.getD_replicate _ ht]
  simp [Rgba.chan]
  ring

/-! ## The binary64 form (R53) -/

/-- The number that the bits of a normal binary64 value give, in units of 2^-149. -/
def binary64Value (b : BitVec 64) : ℚ :=
  (2 ^ 52 + (b.extractLsb' 0 52).toNat : ℚ) * 2 ^ ((b.extractLsb' 52 11).toNat - 1075 + 149 : ℤ)

/-- A significand of 53 bits, or the one past the largest, which carries into the exponent. -/
theorem binary64Value_of_toNat {b : BitVec 64} {e f : Nat} (hf : f ≤ 2 ^ 52) (he : e + 1 < 2 ^ 11)
    (h : b.toNat = e * 2 ^ 52 + f) : binary64Value b = (2 ^ 52 + f : ℚ) * 2 ^ ((e : ℤ) - 926) := by
  have hfields : (b.extractLsb' 0 52).toNat = b.toNat % 2 ^ 52 ∧
      (b.extractLsb' 52 11).toNat = b.toNat / 2 ^ 52 % 2 ^ 11 := by
    simp only [toNat_extractLsb'_eq_field, field, Nat.pow_zero, Nat.div_one, and_self]
  obtain ⟨hlow, hhigh⟩ := hfields
  rw [binary64Value, hlow, hhigh, h]
  obtain hlt | rfl := Nat.lt_or_eq_of_le hf
  · rw [show (e * 2 ^ 52 + f) % 2 ^ 52 = f by omega, show (e * 2 ^ 52 + f) / 2 ^ 52 % 2 ^ 11 = e by omega]
    congr 2
    ring
  · rw [show (e * 2 ^ 52 + 2 ^ 52) % 2 ^ 52 = 0 by omega, show (e * 2 ^ 52 + 2 ^ 52) / 2 ^ 52 % 2 ^ 11 = e + 1 by omega,
      show (((e + 1 : ℕ) : ℤ) - 1075 + 149) = ((e : ℤ) - 926) + 1 by push_cast; ring, zpow_add_one₀ (by norm_num)]
    push_cast
    ring

/-- The significand of an error: its highest 53 bits, shifted up where it has fewer. -/
def significand (err : Nat) : Nat := err * 2 ^ (52 - err.log2) / 2 ^ (err.log2 - 52)

/-- The unit of the significand's last bit, in units of 2^-149. -/
theorem two_zpow_shift (top : Nat) :
    (2 : ℚ) ^ ((top : ℤ) - 52) * ((2 ^ (52 - top) : ℕ) : ℚ) = ((2 ^ (top - 52) : ℕ) : ℚ) := by
  push_cast
  rw [← zpow_natCast, ← zpow_natCast, ← zpow_add₀ (by norm_num)]
  congr 1
  omega

section Significand

variable {err : Nat} (h0 : err ≠ 0)
include h0

theorem significand_bounds : 2 ^ 52 ≤ significand err ∧ significand err < 2 ^ 53 := by
  have hlo : 2 ^ err.log2 ≤ err := Nat.log2_self_le h0
  have hhi : err < 2 ^ (err.log2 + 1) := Nat.lt_log2_self
  have hshift : err.log2 + (52 - err.log2) = 52 + (err.log2 - 52) := by omega
  constructor
  · rw [significand, Nat.le_div_iff_mul_le (Nat.two_pow_pos _), ← Nat.pow_add, ← hshift, Nat.pow_add]
    exact Nat.mul_le_mul_right _ hlo
  · rw [significand, Nat.div_lt_iff_lt_mul (Nat.two_pow_pos _), ← Nat.pow_add,
      show 53 + (err.log2 - 52) = err.log2 + 1 + (52 - err.log2) by omega, Nat.pow_add]
    exact Nat.mul_lt_mul_of_pos_right hhi (Nat.two_pow_pos _)

omit h0 in
/-- The significand is the error rounded down, and the error itself where no bit is lost. -/
theorem significand_value : (significand err : ℚ) * 2 ^ ((err.log2 : ℤ) - 52) ≤ err ∧
    (err : ℚ) < (significand err + 1 : ℚ) * 2 ^ ((err.log2 : ℤ) - 52) ∧
    ((significand err : ℚ) * 2 ^ ((err.log2 : ℤ) - 52) = err → err % 2 ^ (err.log2 - 52) = 0) := by
  set up := 2 ^ (52 - err.log2)
  set down := 2 ^ (err.log2 - 52)
  have hup : (0 : ℚ) < (up : ℕ) := by exact_mod_cast Nat.two_pow_pos _
  have hscale : (2 : ℚ) ^ ((err.log2 : ℤ) - 52) * (up : ℕ) = (down : ℕ) := two_zpow_shift _
  have hmul (x : ℚ) : x * 2 ^ ((err.log2 : ℤ) - 52) * (up : ℕ) = x * (down : ℕ) := by rw [mul_assoc, hscale]
  have hdiv : significand err * down ≤ err * up := Nat.div_mul_le_self _ _
  have hrem : err * up < (significand err + 1) * down :=
    (Nat.div_lt_iff_lt_mul (Nat.two_pow_pos _)).1 (Nat.lt_succ_self _)
  refine ⟨?_, ?_, fun h => ?_⟩
  · rw [← mul_le_mul_iff_left₀ hup, hmul]
    exact_mod_cast hdiv
  · rw [← mul_lt_mul_iff_left₀ hup, hmul]
    exact_mod_cast hrem
  · have heq : significand err * down = err * up := by
      have := congrArg (· * ((up : ℕ) : ℚ)) h
      simp only [hmul] at this
      exact_mod_cast this
    obtain hle | hle := Nat.le_total err.log2 52
    · rw [show down = 1 by simp [down, Nat.sub_eq_zero_of_le hle], Nat.mod_one]
    · rw [show up = 1 by simp [up, Nat.sub_eq_zero_of_le hle], Nat.mul_one] at heq
      rw [← heq, Nat.mul_mod_left]

/-- The encoded error: exponent and significand, one more where it is rounded up. -/
theorem toBinary64_eq : toBinary64 err = BitVec.ofNat 64 ((err.log2 + 874) * 2 ^ 52 + (significand err - 2 ^ 52) +
    if err % 2 ^ (err.log2 - 52) = 0 then 0 else (Config.errRoundUp err).toNat) := by
  unfold toBinary64
  rw [if_neg h0]
  dsimp only
  split
  · rename_i hle
    rw [significand, Nat.sub_eq_zero_of_le hle, Nat.pow_zero, Nat.mod_one, if_pos rfl, Nat.div_one]
    exact congrArg (BitVec.ofNat 64) (Nat.add_zero _).symm
  · rename_i hgt
    rw [significand, Nat.sub_eq_zero_of_le (Nat.le_of_not_le hgt), Nat.pow_zero, Nat.mul_one]

/-- R53: the value is exact or one of the two neighbours of the error. -/
theorem toBinary64_near {k : Nat} (hlt : err < 2 ^ k) (hk : k ≤ 1172) : ∃ below : BitVec 64,
    0 < below.toNat / 2 ^ 52 ∧ below.toNat + 1 < 0x7FF * 2 ^ 52 ∧
      binary64Value below ≤ err ∧ err < binary64Value (below + 1) ∧
      (toBinary64 err = below ∨ toBinary64 err = below + 1) ∧
      (binary64Value below = err → toBinary64 err = below) := by
  obtain ⟨hlo, hhi⟩ := significand_bounds h0
  obtain ⟨hle, hgt, hexact⟩ := significand_value (err := err)
  have htop : err.log2 < 1172 := ((Nat.log2_lt h0).2 hlt).trans_le hk
  obtain ⟨f, hf⟩ := Nat.exists_eq_add_of_le hlo
  have hvalue {k : Nat} (hk : k ≤ 1) : binary64Value (BitVec.ofNat 64 ((err.log2 + 874) * 2 ^ 52 + (f + k))) =
      (significand err + k : ℚ) * 2 ^ ((err.log2 : ℤ) - 52) := by
    rw [binary64Value_of_toNat (e := err.log2 + 874) (f := f + k) (by omega) (by omega)
      (by rw [BitVec.toNat_ofNat]; omega), hf]
    push_cast
    ring_nf
  have hnext (x : Nat) : BitVec.ofNat 64 (x + (f + 0)) + 1 = BitVec.ofNat 64 (x + (f + 1)) :=
    (BitVec.ofNat_add (x + f) 1).symm
  have hround := toBinary64_eq h0
  rw [show significand err - 2 ^ 52 = f by omega, Nat.add_assoc] at hround
  refine ⟨BitVec.ofNat 64 ((err.log2 + 874) * 2 ^ 52 + (f + 0)), ?_, ?_, ?_, ?_, ?_, fun h => ?_⟩
  · rw [BitVec.toNat_ofNat]
    omega
  · rw [BitVec.toNat_ofNat]
    omega
  · rw [hvalue (Nat.zero_le 1)]
    simpa using hle
  · rw [hnext, hvalue le_rfl]
    simpa using hgt
  · rw [hnext, hround]
    split
    · exact .inl rfl
    · cases Config.errRoundUp err
      · exact .inl rfl
      · exact .inr rfl
  · rw [hvalue (Nat.zero_le 1)] at h
    rw [hround, if_pos (hexact (by simpa using h))]

end Significand

/-! ## The weights (R65) -/

theorem weightLegal_iff (w : Word) : weightLegal w.toNat = true ↔ w.toNat < 0x7F800000 ∨ w = 0x80000000 := by
  have hw := w.isLt
  have heq : w = 0x80000000 ↔ w.toNat = 0x80000000 := by
    rw [← BitVec.toNat_inj]
    rfl
  simp only [weightLegal, bit, field, Bool.and_eq_true, Bool.or_eq_true, bne_iff_ne, beq_iff_eq, heq]
  omega

/-! ## The blocks of R443 and of N4 in 95_test_vectors.md section 10 -/

/-- The input of the encoder for a 4x4 block of the two texels `x` and `y`, eight of each, every weight 1. -/
def halvesInput (profile : Profile) (x y : Rgba Byte) : SearchInput where
  bw := 4
  bh := 4
  profile := profile
  plimit := 0
  cut := 0
  iters := 0
  texels := List.replicate 8 x ++ List.replicate 8 y
  weights := List.replicate 16 ⟨1, 1, 1, 1⟩

theorem weightedError_halves {inp : SearchInput} {one : Nat} {x y : Rgba Byte} (hbw : inp.bw = 4) (hbh : inp.bh = 4)
    (hweights : inp.weights = List.replicate 16 ⟨one, one, one, one⟩)
    (htexels : inp.texels = List.replicate 8 x ++ List.replicate 8 y) (sym : Sym) :
    weightedError inp sym = weightedError (halvesInput inp.profile x y) sym * one := by
  have hlen : inp.texels.length = 16 := by simp [htexels]
  rw [weightedError_uniform (by rw [hlen, hweights]) sym, hlen]
  rw [weightedError_congr (inp' := halvesInput inp.profile x y)]
  · exact hbw
  · exact hbh
  · rfl
  · exact htexels
  · rfl

/-- The block of R443. -/
def twoColorSym : Sym :=
  readBlock ⟨4, 4⟩ (blockOfBytes [0x42, 0, 1, 0xFE, 1, 0xFE, 1, 0xFE, 1, 0, 0, 0, 0xFF, 0xFF, 0, 0])

theorem twoColorSym_error_ldr :
    weightedError (halvesInput .ldr ⟨0, 0, 0, 255⟩ ⟨255, 255, 255, 255⟩) twoColorSym = 0 := by
  decide +kernel

theorem twoColorSym_error_ldrSrgb :
    weightedError (halvesInput .ldrSrgb ⟨0, 0, 0, 255⟩ ⟨255, 255, 255, 255⟩) twoColorSym = 1038376 := by
  decide +kernel

/-- N4: red spans 25700..25957, both within 129 of the middle value. -/
theorem encodedSym_n4 {inp : SearchInput}
    (h : inp.texels = List.replicate 8 ⟨100, 0, 0, 255⟩ ++ List.replicate 8 ⟨101, 0, 0, 255⟩) :
    encodedSym inp 129 = .const false ⟨25828, 0, 0, 0xFFFF⟩ := by
  have hok : constOk (imageBlock inp.texels) 129 = true := by
    rw [h]
    decide +kernel
  rw [encodedSym, if_pos hok, h]
  decide +kernel

theorem n4_error (profile : Profile) :
    weightedError (halvesInput profile ⟨100, 0, 0, 255⟩ ⟨101, 0, 0, 255⟩) (.const false ⟨25828, 0, 0, 0xFFFF⟩) =
      264200 := by
  cases profile <;> decide +kernel

/-! ## ENCODE_BLOCK -/

/-- Settles O47: the command case by case, the error rounded to one of two neighbours, the error as a sum, and its values
for two blocks of two colors. -/
theorem encodeBlock : Obligations.EncodeBlock := by
  refine ⟨fun p kind s fp hfp => ⟨fun hk => ?_, ?_, ?_, ?_⟩, weightLegal_iff, rfl,
    fun err h0 hlt => toBinary64_near h0 hlt le_rfl, fun inp hlen => ⟨fun f color => ?_, fun n b hb => ?_⟩,
    fun inp one hbw hbh hweights => ⟨fun htexels => ?_, fun htexels => ?_⟩⟩
  · rw [exec_encodeBlock hfp, if_pos hk, State.raise_eq]
  · rintro rfl a ha
    rw [exec_encodeBlock hfp, if_neg (by decide), ha, withBytes]
  · rintro rfl ewb hewb hill
    exact exec_encodeBlock_illegal hfp p hewb hill
  · rintro rfl ewb hewb hlegal
    refine ⟨fun a ha => ?_, fun texels htexels => ?_⟩
    · rw [exec_encodeBlock_legal hfp p hewb hlegal, ha, withBytes]
    · rw [exec_encodeBlock_ok hfp p hewb hlegal htexels, State.encoded_finish]
  · rw [weightedError_eq_sum, hlen]
    rfl
  · rw [weightedError_eq_sum, hlen]
    simp only [reconstructed, hb]
  · refine ⟨fun hprofile => ?_, fun hprofile => ?_⟩
    · rw [weightedError_halves hbw hbh hweights htexels, hprofile]
      exact (congrArg (· * one) twoColorSym_error_ldr).trans (Nat.zero_mul one)
    · rw [weightedError_halves hbw hbh hweights htexels, hprofile]
      exact congrArg (· * one) twoColorSym_error_ldrSrgb
  · rw [encodedSym_n4 htexels, weightedError_halves hbw hbh hweights htexels, n4_error]

end Sys2Proof.Machine
end

section
/-! SUPPORT. The constant-color shortcut (R405 to R408), and the obligation on it. -/

namespace Sys2Proof.Machine

theorem maxOf_mem {l : List Nat} (h : l ≠ []) : maxOf l ∈ l := by
  induction l with
  | nil => exact absurd rfl h
  | cons x l ih =>
    rw [maxOf, List.foldr_cons]
    obtain hx | hx := max_choice x (l.foldr max 0)
    · simp [hx]
    · rw [hx]
      cases l with
      | nil => simp_all
      | cons y l => exact List.mem_cons_of_mem _ (ih nofun)

theorem le_maxOf (l : List Nat) : ∀ x ∈ l, x ≤ maxOf l := le_foldr_max 0

/-- The UNORM16 channel of a block is the channel of its texels times 257 (R401). -/
theorem channel_unorm16 (texels : List (Rgba Byte)) (c : Nat) :
    channel (texels.map fun x => x.map unorm16) c = (channel texels c).map unorm16 := by
  simp [channel, Function.comp_def]

/-- The extremes of a channel are those of two texels, and every texel lies between them (R401). -/
theorem imageBlock_extremes {texels : List (Rgba Byte)} (h : texels ≠ []) {c : Nat} (hc : c < 4) :
    ∃ lo ∈ channel texels c, ∃ hi ∈ channel texels c,
      (∀ x ∈ channel texels c, lo.toNat ≤ x.toNat ∧ x.toNat ≤ hi.toNat) ∧
      (imageBlock texels).lo.chan c = 257 * lo.toNat ∧ (imageBlock texels).hi.chan c = 257 * hi.toNat := by
  have hne : (channel texels c).map unorm16 ≠ [] := by simpa [channel] using h
  obtain ⟨lo, hlo, hlo'⟩ := List.mem_map.1 (minOf_mem hne)
  obtain ⟨hi, hhi, hhi'⟩ := List.mem_map.1 (maxOf_mem hne)
  refine ⟨lo, hlo, hi, hhi, fun x hx => ?_, ?_, ?_⟩
  · have hmin : unorm16 lo ≤ unorm16 x := hlo' ▸ minOf_le _ _ (List.mem_map_of_mem hx)
    have hmax : unorm16 x ≤ unorm16 hi := hhi' ▸ le_maxOf _ _ (List.mem_map_of_mem hx)
    unfold unorm16 at hmin hmax
    omega
  · rw [imageBlock, chan_ofFn _ hc, channel_unorm16, ← hlo', unorm16]
  · rw [imageBlock, chan_ofFn _ hc, channel_unorm16, ← hhi', unorm16]

theorem midColor_chan (blk : ImageBlock) {c : Nat} (hc : c < 4) :
    (midColor blk).chan c = (blk.lo.chan c + blk.hi.chan c) / 2 := by
  rw [midColor, chan_ofFn _ hc]

theorem constOk_iff {blk : ImageBlock} {tol : Nat} : constOk blk tol = true ↔ ∀ c < 4,
    blk.hi.chan c - (midColor blk).chan c ≤ tol ∧ (midColor blk).chan c - blk.lo.chan c ≤ tol := by
  have hrange : [0, 1, 2, 3] = List.range 4 := rfl
  simp only [constOk, hrange, List.all_eq_true, List.mem_range, Bool.and_eq_true, decide_eq_true_eq]

/-- A constant block is emitted only by the shortcut, which emits no other (R406). -/
theorem encodedSym_eq_const {inp : SearchInput} {tol : Nat} {f : Bool} {color : Rgba (BitVec 16)} :
    encodedSym inp tol = .const f color ↔ constOk (imageBlock inp.texels) tol = true ∧ f = false ∧
      color = (midColor (imageBlock inp.texels)).map (BitVec.ofNat 16) := by
  rw [encodedSym]
  split
  · rename_i hok
    rw [constSym, Sym.const.injEq, and_iff_right hok, eq_comm, eq_comm (b := color)]
  · rename_i hno
    exact iff_of_false nofun fun h => hno h.1

/-- Settles O48: the middle value lies halfway between the extremes of its channel, which two texels have; rounded down it
is no nearer to the upper one. -/
theorem constantShortcut : Obligations.ConstantShortcut := by
  intro inp tol hne
  refine ⟨fun f color h => ?_, fun h => ⟨_, encodedSym_eq_const.2 ⟨constOk_iff.2 fun c hc => ?_, rfl, rfl⟩⟩⟩
  · obtain ⟨hok, rfl, rfl⟩ := encodedSym_eq_const.1 h
    refine ⟨rfl, fun c hc => ?_⟩
    obtain ⟨lo, hlo, hi, hhi, hbetween, hlo', hhi'⟩ := imageBlock_extremes hne hc
    have hmid := midColor_chan (imageBlock inp.texels) hc
    obtain ⟨hupper, hlower⟩ := constOk_iff.1 hok c hc
    rw [hmid, hlo', hhi'] at hupper hlower
    refine ⟨lo, hlo, hi, hhi, hbetween, ?_, hupper, hlower⟩
    rw [chan_map, hmid, hlo', hhi', BitVec.toNat_ofNat]
    omega
  · obtain ⟨lo, hlo, hi, hhi, hbetween, hlo', hhi'⟩ := imageBlock_extremes hne hc
    have hupper := h c hc hi hhi lo hlo
    have hle := (hbetween hi hhi).1
    rw [midColor_chan _ hc, hlo', hhi']
    omega

end Sys2Proof.Machine
end

section
/-! SUPPORT. What ENCODE_BLOCK stores depends on the block alone (R420, R485), and the obligation on it. -/

namespace Sys2Proof.Machine

theorem Memory.readList_ok_moved {m m' : Memory} {a a' n : Nat} {bs : List Byte}
    (h : ∀ k < n, m.read (a + k) = m'.read (a' + k)) (hok : m.readList a n = .ok bs) : m'.readList a' n = .ok bs := by
  obtain ⟨hlen, hread⟩ := Memory.readList_eq_ok.1 hok
  exact Memory.readList_eq_ok.2 ⟨hlen, fun k hk => (h k hk).symm.trans (hread k hk)⟩

section Moved

variable {s s' : State} {n : Nat}

theorem State.readTexin_moved {texels : List (Rgba Byte)}
    (h : ∀ k < 4 * n, s.mem.read (s.base + offTexin + k) = s'.mem.read (s'.base + offTexin + k))
    (hok : s.readTexin n = .ok texels) : s'.readTexin n = .ok texels := by
  unfold State.readTexin at hok ⊢
  split at hok
  · cases hok
  · rename_i bs hbs
    rwa [State.load, Memory.readList_ok_moved h hbs]

theorem State.readEwb_moved {ewb : List Nat}
    (h : ∀ k < 16 * n, s.mem.read (s.base + offEwb + k) = s'.mem.read (s'.base + offEwb + k))
    (hok : s.readEwb n = .ok ewb) : s'.readEwb n = .ok ewb := by
  unfold State.readEwb at hok ⊢
  split at hok
  · cases hok
  · rename_i bs hbs
    rwa [State.load, Memory.readList_ok_moved h hbs]

end Moved

theorem State.searchInput_congr {s s' : State} (hprofile : s.cfgProfile = s'.cfgProfile)
    (hplimit : s.effPlimit = s'.effPlimit) (hcut : s.effCut = s'.effCut) (hiters : s.effIters = s'.effIters)
    (fp : Footprint) (texels : List (Rgba Byte)) (ewb : List Nat) :
    s.searchInput fp texels ewb = s'.searchInput fp texels ewb := by
  simp only [State.searchInput, State.profile, hprofile, hplimit, hcut, hiters]

/-- A byte of SYM that holds something is a byte of the image, whatever was there before (R56). -/
theorem read_writeSym {sym : Sym} (hs : symFits sym) {off : Nat} (hlo : offSymCtrl ≤ off) (hhi : off < offSymW1 + 64)
    (hmask : byteMask off ≠ 0) : ∃ b, ∀ s : State, (s.writeSym sym).mem.read (s.base + off) = some b := by
  obtain ⟨j, rfl⟩ := Nat.exists_eq_add_of_le hlo
  have hj : j < 0x0C0 := by
    unfold offSymCtrl offSymW1 at hhi
    omega
  obtain h0 | ⟨q, hq, hqlo, hqhi⟩ := symSizes_cover j hj
  · exact absurd h0 hmask
  rw [← symImage_sizes hs] at hq
  obtain ⟨p, hp, rfl⟩ := List.mem_map.1 hq
  obtain ⟨i, hi⟩ := Nat.exists_eq_add_of_le hqlo
  have hlen : i < p.2.length := by
    dsimp only at hqhi hi
    omega
  refine ⟨p.2[i], fun s => ?_⟩
  have hrun := s.runAt_writeSym hs hp i hlen
  rw [State.writeSym_base] at hrun
  exact (congrArg (fun off => (s.writeSym sym).mem.read (s.base + off)) hi).trans
    (hrun.trans (List.getElem?_eq_getElem hlen))

/-- The bytes that a command stores on any machine are the same (R400). -/
theorem read_encoded (fp : Footprint) (inp : SearchInput) (tol : BitVec 16) (p : BitVec 1) {off : Nat}
    (hoff : (offSymCtrl ≤ off ∧ off < offSymW1 + 64 ∧ byteMask off ≠ 0) ∨ (p = 1 ∧ offPhys ≤ off ∧ off < offPhys + 16)) :
    ∃ b, ∀ s : State, s.cfgConstTol = tol → (s.encoded fp (p == 1) inp).mem.read (s.base + off) = some b := by
  have hfits := encodedSym_fits inp tol.toNat
  obtain ⟨hlo, hhi, hmask⟩ | ⟨rfl, hlo, hhi⟩ := hoff
  · obtain ⟨b, hb⟩ := read_writeSym hfits hlo hhi hmask
    refine ⟨b, ?_⟩
    rintro s rfl
    have hb := hb s
    rw [State.writeSym_mem] at hb
    rw [State.encoded_mem]
    dsimp only
    split
    · rwa [Memory.read_writeList_outside _ (.inr ?_)]
      rw [bytesOfBlock_length]
      unfold offSymCtrl at hlo
      unfold offPhys
      omega
    · exact hb
  · obtain ⟨k, rfl⟩ := Nat.exists_eq_add_of_le hlo
    refine ⟨(packBlock fp (encodedSym inp tol.toNat)).extractLsb' (8 * k) 8, ?_⟩
    rintro s rfl
    rw [State.encoded_mem]
    dsimp only
    rw [beq_self_eq_true, if_pos rfl, Memory.read_writeList, bytesOfBlock_length, if_pos (by omega),
      show s.base + (offPhys + k) - (s.base + offPhys) = k by omega]
    simp [bytesOfBlock, Nat.lt_of_add_lt_add_left hhi]

/-- Settles O51: both machines read the same weights and texels, so both search the same input and store the same. -/
theorem encodeDeterminism : Obligations.EncodeDeterminism := by
  intro p s s' t fp hfp hfp' hprofile htol hplimit hcut hiters htexin hewb hexec
  obtain ⟨ewb, hread, ⟨hill, rfl⟩ | ⟨hlegal, texels, htexels, rfl⟩⟩ := exec_encodeBlock_next hfp p hexec
  · exact ⟨_, exec_encodeBlock_illegal hfp' p (State.readEwb_moved hewb hread) hill, rfl, nofun⟩
  refine ⟨_, exec_encodeBlock_ok hfp' p (State.readEwb_moved hewb hread) hlegal (State.readTexin_moved htexin htexels),
    by simp, fun _ => ?_⟩
  rw [← State.searchInput_congr hprofile hplimit hcut hiters]
  refine ⟨by simp [htol], fun off hoff => ?_⟩
  obtain ⟨b, hb⟩ := read_encoded fp (s.searchInput fp texels ewb) s.cfgConstTol p hoff
  simp only [State.finish_mem, State.finish_base, State.encoded_base, hb s rfl, hb s' htol.symm, Option.isSome_some,
    and_self]

end Sys2Proof.Machine
end

section
/-! SUPPORT. The error at a higher quality (R430), and the obligation on it. -/

namespace Sys2Proof.Machine

/-! ## Where at least the same blocks are evaluated -/

/-- The block selected has an error within the factor `1 + eps_tie` of any evaluated block's (R413, R415). -/
theorem search_error_le {inp : SearchInput} {n : NormalSym} (h : n ∈ evaluated inp) :
    weightedError inp (search inp) * (Config.epsTieDen + 1) ≤
      weightedError inp (.normal n) * (Config.epsTieDen + 1 + Config.epsTieNum) := by
  obtain ⟨⟨-, hnear⟩, -⟩ := selectFrom_best (inp := inp) evaluated_ne_nil
  have hleast := minOf_le _ _ (List.mem_map_of_mem (f := fun n => weightedError inp (.normal n)) h)
  have hnear := of_decide_eq_true hnear
  dsimp only at hnear hleast
  rw [search]
  generalize minOf ((evaluated inp).map fun n => weightedError inp (.normal n)) = least at *
  generalize weightedError inp (.normal (selectFrom inp (evaluated inp))) = err at *
  calc err * (Config.epsTieDen + 1)
      ≤ (least + (err - least)) * (Config.epsTieDen + 1) := Nat.mul_le_mul_right _ (by omega)
    _ = least * (Config.epsTieDen + 1) + (err - least) * (Config.epsTieDen + 1) := Nat.add_mul _ _ _
    _ ≤ least * (Config.epsTieDen + 1) + Config.epsTieNum * least := Nat.add_le_add_left hnear _
    _ = least * (Config.epsTieDen + 1 + Config.epsTieNum) := by ring
    _ ≤ _ := Nat.mul_le_mul_right _ hleast

/-- R430's sufficient condition. -/
theorem encodedSym_error_le {inp inp' : SearchInput} (hw : inp.bw = inp'.bw) (hh : inp.bh = inp'.bh)
    (hprofile : inp.profile = inp'.profile) (htexels : inp.texels = inp'.texels) (hweights : inp.weights = inp'.weights)
    (hmore : ∀ n ∈ evaluated inp, n ∈ evaluated inp') (tol : Nat) :
    weightedError inp' (encodedSym inp' tol) * (Config.epsTieDen + 1) ≤
      weightedError inp (encodedSym inp tol) * (Config.epsTieDen + 1 + Config.epsTieNum) := by
  rw [weightedError_congr hw hh hprofile htexels hweights, encodedSym, encodedSym, htexels]
  split
  · exact Nat.mul_le_mul_left _ (Nat.le_add_right _ _)
  · obtain ⟨⟨hmem, -⟩, -⟩ := selectFrom_best (inp := inp) evaluated_ne_nil
    exact search_error_le (hmore _ hmem)

/-! ## The unit at two qualities -/

/-- BUILD_TABLES leaves valid tables only where it accepts the configuration (R171, R231). -/
theorem exec_buildTables_accepted {s t : State} {fp : Footprint} (h : exec .buildTables s = .next t)
    (hfp : t.tables = .valid fp) : (s.cfgFootprint.valid && s.profile != .reserved) = true := by
  by_contra hbad
  obtain rfl := Host.Outcome.next.inj ((if_neg hbad : exec .buildTables s = .next _).symm.trans h)
  have hinvalid : s.tables.invalidate.isValid = true := congrArg TableMem.isValid hfp
  rw [TableMem.invalidate_isValid] at hinvalid
  cases hinvalid

/-- The unit when BUILD_TABLES has accepted its configuration at a quality. -/
def State.builtAt (s : State) (q : BitVec 8) : State := ({ s with cfgQuality := q } : State).buildTables.finish .ok

section BuiltAt

variable {s : State} (q : BitVec 8)

/-- The quality plays no part in the check of the configuration (R171). -/
theorem exec_buildTables_builtAt (h : (s.cfgFootprint.valid && s.profile != .reserved) = true) :
    exec .buildTables { s with cfgQuality := q } = .next (s.builtAt q) := if_pos h

/-- The search works on the same block with the cutoffs of the quality (R54, R412). -/
theorem State.builtAt_searchInput (fp : Footprint) (texels : List (Rgba Byte)) (ewb : List Nat) :
    (s.builtAt q).searchInput fp texels ewb = inputAtQuality (s.searchInput fp texels ewb) q := rfl

theorem exec_encodeBlock_builtAt (p : BitVec 1) {texels : List (Rgba Byte)} {ewb : List Nat}
    (hewb : s.readEwb s.cfgFootprint.texels = .ok ewb) (hlegal : ∀ w ∈ ewb, weightLegal w = true)
    (htexels : s.readTexin s.cfgFootprint.texels = .ok texels) :
    ∃ t, exec (.encodeBlock p 0) (s.builtAt q) = .next t ∧ t.inst.code = .ok ∧ t.inst.errOut =
      toBinary64 (errorAtQuality (s.searchInput s.cfgFootprint texels ewb) s.cfgConstTol.toNat q) := by
  have htables : (s.builtAt q).tables = .valid s.cfgFootprint := rfl
  refine ⟨_, exec_encodeBlock_ok htables p hewb hlegal htexels, by simp, ?_⟩
  rw [State.finish_inst_errOut, State.encoded_inst, State.builtAt_searchInput]
  rfl

end BuiltAt

/-- Settles O53: the sufficient condition; and on the unit the tables of a quality give the search the cutoffs of that
quality, the rest of its input being the same. -/
theorem monotone : Obligations.Monotone := by
  refine ⟨fun inp inp' => encodedSym_error_le, ?_⟩
  intro p s low high q1 q2 fp texels ewb hlow hhigh hfp hewb hlegal htexels hq hmono err
  have hgood : (s.cfgFootprint.valid && s.profile != .reserved) = true :=
    exec_buildTables_accepted (s := { s with cfgQuality := q1 }) hlow hfp
  obtain rfl := Host.Outcome.next.inj ((exec_buildTables_builtAt q1 hgood).symm.trans hlow)
  obtain rfl := Host.Outcome.next.inj ((exec_buildTables_builtAt q2 hgood).symm.trans hhigh)
  obtain rfl : s.cfgFootprint = fp := TableMem.valid.inj hfp
  refine ⟨hmono hq, ?_⟩
  simp only [List.forall_mem_cons]
  exact ⟨exec_encodeBlock_builtAt q1 p hewb hlegal htexels, exec_encodeBlock_builtAt q2 p hewb hlegal htexels, nofun⟩

end Sys2Proof.Machine
end

section
/-! SUPPORT. What a step does with nothing scheduled (R484, R531), and the obligation on it. -/

namespace Sys2Proof.Machine

variable {s t : State}

theorem step_idle (hs : s.script = []) (hb : s.busy = false) (ho : s.otherBusy = false) : step s = .next s := by
  have hnone : s.busyInstance = none := by
    rw [State.busyInstance, hb, if_neg (by decide), State.firstBusyOther_none]
    exact State.otherBusy_false_iff.1 ho
  rw [step_nil hs, State.settle, hnone]

/-- Whichever command completes, it leaves its instance idle and in hand. -/
theorem State.completion_idle {again : List Move} (h : s.completion again = .next t) : t.inst.running = none := by
  unfold State.completion at h
  split at h <;> exact State.runCommand_idle h

theorem State.busy_false_iff : s.busy = false ↔ s.inst.running = none := by
  rw [State.busy, Option.isSome_eq_false_iff, Option.isNone_iff_eq_none]

theorem lookupInst_append {k : Nat} {r : Inst} {before after : List (Nat × Inst)} (h : ∀ e ∈ before, e.1 ≠ k) :
    lookupInst k (before ++ (k, r) :: after) = r := by
  induction before with
  | nil => exact if_pos rfl
  | cons e before ih =>
    obtain ⟨he, h⟩ := List.forall_mem_cons.1 h
    exact (if_neg he.symm).trans (ih h)

/-- With the first busy instance brought in hand, the others are idle if those listed after it are. -/
theorem State.focus_others_idle {before after : List (Nat × Inst)} {k : Nat} {r : Inst} (hb : s.busy = false)
    (ho : s.others = before ++ (k, r) :: after) (hk : k ≠ s.cur) (hf : ∀ e ∈ before, e.2.running = none)
    (ha : ∀ e ∈ after, e.2.running = none) : ∀ e ∈ (s.focus k).others, e.2.running = none := by
  intro e he
  rw [State.focus, if_neg hk] at he
  obtain ⟨-, rfl⟩ | he := mem_putInst.1 he
  · exact State.busy_false_iff.1 hb
  · obtain ⟨he, hek⟩ := mem_dropInst.1 he
    rw [ho, List.mem_append, List.mem_cons] at he
    obtain he | rfl | he := he
    · exact hf e he
    · exact absurd rfl hek
    · exact ha e he

/-- The command of the first busy instance completes. -/
theorem completesIn_firstBusy {before after : List (Nat × Inst)} {k : Nat} {r : Inst} {w : Word} (hs : s.script = [])
    (hb : s.busy = false) (ho : s.others = before ++ (k, r) :: after) (hk : k ≠ s.cur)
    (hf : ∀ e ∈ before, e.1 ≠ k ∧ e.2.running = none) (hr : r.running = some w)
    (hw : w ≠ 0x00000001 ∨ ∀ e ∈ after, e.2.running = none) : s.CompletesIn (s.focus k) w := by
  have hidle : ∀ e ∈ before, e.2.running = none := fun e he => (hf e he).2
  refine .itself (.firstBusy hs hb ho hidle (by simp [hr])) ?_ (hw.imp_right (State.focus_others_idle hb ho hk hidle))
  rw [State.focus_inst, State.instOf, if_neg hk, ho, lookupInst_append fun e he => (hf e he).1, hr]

/-- Settles O4: with nothing scheduled a step is the completion of the first command that runs, or changes nothing. -/
theorem idleKeepsBusyEnds : Obligations.IdleKeepsBusyEnds := by
  refine ⟨fun s => step_idle, fun s t hs hb h => ?_, fun s before k r after w i hs hb ho hk hf hr hw hd => ?_,
    fun i s t h => State.busy_false_iff.2 (exec_frame h).1⟩
  · rw [step_asksFor (.inHand hs hb)] at h
    exact State.busy_false_iff.2 (State.completion_idle h)
  · have hc := completesIn_firstBusy hs hb ho hk hf hr hw
    rw [step_completesIn hc, State.runCommand_ok hc.running hd]

end Sys2Proof.Machine
end

section
/-! SUPPORT. What a command changes, and what a step changes beside a busy instance; the obligations on a command that
raises and on the isolation of the instances (R472, R479, R486, R520, R523). -/

namespace Sys2Proof.Machine

variable {i : Instr} {s t : State}

/-! ## A command that raises (R472) -/

/-- The effects of the commands, the failed BUILD_TABLES apart, end with OK. -/
theorem EndsAs.of_code_ne_ok (h : EndsAs s i t) (hc : t.inst.code ≠ .ok) :
    (i ≠ .buildTables ∧ t = s.finish t.inst.code) ∨ (i = .buildTables ∧ t = s.invalidate.finish .configError) := by
  cases h with
  | status _ hi => exact .inl ⟨hi, rfl⟩
  | notBuilt => exact .inr ⟨rfl, rfl⟩
  | _ => exact absurd rfl hc

theorem TableMem.invalidate_of_valid {m : TableMem} {fp : Footprint} (h : m = .valid fp) : m.invalidate = .stale fp := by
  rw [h, TableMem.invalidate]

/-- Settles O54: a code other than OK is raised, by a BUILD_TABLES that fails with `TABLES_VALID` cleared. -/
theorem raiseWritesNothing : Obligations.RaiseWritesNothing := by
  intro i s t h hc
  obtain ⟨-, hconfig, houtside⟩ := exec_frame h
  obtain ⟨hi, ht⟩ | ⟨rfl, rfl⟩ := (exec_endsAs h).of_code_ne_ok hc
  · exact ⟨congrArg State.inst ht, ht ▸ rfl, hconfig, houtside, exec_tables h, fun hb => absurd hb hi⟩
  · exact ⟨rfl, rfl, hconfig, houtside, nofun, fun _ => ⟨rfl, s.tables.invalidate_isValid,
      fun fp => TableMem.invalidate_of_valid, rfl, rfl, rfl⟩⟩

/-! ## What a command leaves alone (R479, R523) -/

theorem State.sameBytesBut.mono {stored stored' : Nat → Prop} (h : s.sameBytesBut t stored)
    (hle : ∀ a, stored a → stored' a) : s.sameBytesBut t stored' := fun a ha => h a (mt (hle a) ha)

/-- An instruction stores to its own instance alone. -/
theorem EndsAs.bytes_instance (h : EndsAs s i t) (hfp : ∀ fp, s.tables = .valid fp → fp.valid = true) :
    s.sameBytesBut t (s.bytesAt 0 instanceStride) := by
  have hphys {a : Nat} (ha : s.bytesAt offPhys 16 a) : s.bytesAt 0 instanceStride a :=
    State.bytesAt_instance ha (by decide)
  have hend := h
  cases h with
  | packed blk => exact hend.bytes_pack.mono fun a => hphys
  | unpacked hs hu => exact (hend.bytes_unpack hu).mono fun a => State.symAddress_instance
  | @decoded fp texels k b htables hl =>
    refine (EndsAs.bytes_decodeTexels htables hend).mono fun a ha => State.bytesAt_instance ha ?_
    have := Footprint.texels_le (hfp fp htables)
    simp only [offTexout, instanceStride]
    omega
  | encoded p k fp inp =>
    exact hend.bytes_encodeBlock.mono fun a ha => ha.elim State.symAddress_instance fun ha => hphys ha.2
  | _ => exact State.sameBytesBut_of_mem_eq rfl _

/-! ## What a step leaves alone beside a busy instance (R486, R520) -/

/-- What a step from `s` to `t` other than a reset may change (R520): neither the configuration nor the tables; either,
with every instance idle; or the tables, as the BUILD_TABLES completes of the one instance that is busy. -/
def State.isolates (s t : State) : Prop :=
  (s.sameConfig t ∧ s.sameTables t) ∨
  (∀ k, (s.instOf k).running = none ∧ (t.instOf k).running = none) ∨
  (s.sameConfig t ∧ (s.instOf t.cur).running = some 0x00000001 ∧
    ∀ k, k ≠ t.cur → (s.instOf k).running = none ∧ (t.instOf k).running = none)

theorem State.instOf_cur (s : State) : s.instOf s.cur = s.inst := if_pos rfl

section Isolates

variable {u : State}

/-- Which instance is in hand, and what is scheduled, is no matter. -/
theorem State.isolates_focus (h : ∀ e ∈ u.others, e.1 ≠ u.cur) {k : Nat} {moves : List Move} :
    (({ u with script := moves } : State).focus k).isolates t ↔ u.isolates t := by
  have hinst (j : Nat) : (({ u with script := moves } : State).focus k).instOf j = u.instOf j :=
    State.instOf_focus (s := { u with script := moves }) h k j
  have hunit : ((({ u with script := moves } : State).focus k).sameConfig t ↔ u.sameConfig t) ∧
      ((({ u with script := moves } : State).focus k).sameTables t ↔ u.sameTables t) := by
    unfold State.focus
    split <;> exact ⟨Iff.rfl, Iff.rfl⟩
  simp only [State.isolates, hinst, hunit.1, hunit.2]

/-- With no other instance busy, an operation on the one in hand leaves the others idle. -/
theorem State.others_idle (ho : u.otherBusy = false) (hothers : t.others = u.others) (hcur : t.cur = u.cur) :
    ∀ k, k ≠ t.cur → (u.instOf k).running = none ∧ (t.instOf k).running = none := by
  intro k hk
  rw [hcur] at hk
  rw [State.instOf_of_others hothers hcur hk, and_self]
  exact State.idle_of_otherBusy ho hk

/-- An operation that starts no command, with every instance idle. -/
theorem State.isolates_of_idle (hb : u.busy = false) (ho : u.otherBusy = false) (hinst : t.inst = u.inst)
    (hothers : t.others = u.others) (hcur : t.cur = u.cur) : u.isolates t := by
  refine .inr (.inl fun k => ?_)
  by_cases hk : k = t.cur
  · rw [hk, State.instOf_cur, hcur, State.instOf_cur, hinst, and_self]
    exact State.busy_false_iff.1 hb
  · exact State.others_idle ho hothers hcur k hk

/-- A BUILD_TABLES that completes has no other instance busy beside it. -/
theorem State.runCommand_isolates (h : u.runCommand = .next t) (hb : u.inst.running = some 1 → u.otherBusy = false) :
    u.isolates t := by
  obtain ⟨-, hcur, hothers, hconfig, hrun | htables⟩ := State.runCommand_frame h
  · refine .inr (.inr ⟨hconfig, ?_, State.others_idle (hb hrun) hothers hcur⟩)
    rw [hcur, State.instOf_cur]
    exact hrun
  · exact .inl ⟨hconfig, htables⟩

end Isolates

/-- A step is a reset or stays within what a step may change: no two instances run BUILD_TABLES at once, so the command
of an instance for which a BUILD_TABLES waits is another one. -/
theorem step_isolates (h : s.Inv) (ht : step s = .next t) : (∃ rest, s.script = .reset :: rest) ∨ s.isolates t := by
  obtain ⟨rest, hs, -⟩ | ⟨-, -, -, hconfig, htables⟩ | ⟨k, moves, hcases⟩ := step_cases h.others_ne ht
  · exact .inl ⟨rest, hs⟩
  · exact .inr (.inl ⟨hconfig, htables⟩)
  refine .inr ((State.isolates_focus h.others_ne (k := k) (moves := moves)).1 ?_)
  have hinst (j : Nat) : (({ s with script := moves } : State).focus k).instOf j = s.instOf j :=
    State.instOf_focus (s := { s with script := moves }) h.others_ne k j
  have hne := State.focus_others (s := { s with script := moves }) h.others_ne k
  have hinstk : (({ s with script := moves } : State).focus k).inst = s.instOf k := State.focus_inst _ k
  generalize ({ s with script := moves } : State).focus k = u at *
  obtain ⟨-, -, -, hconfig, htables⟩ | ⟨hb, ho, hi, hothers, hcur⟩ | ⟨w, -, -, -, -, -, hconfig, htables⟩ |
    ⟨hrun, hbuild⟩ | ⟨j, again, hjk, hbuild, hrun⟩ := hcases
  · exact .inl ⟨hconfig, htables⟩
  · exact State.isolates_of_idle hb ho hi hothers hcur
  · exact .inl ⟨hconfig, htables⟩
  · exact State.runCommand_isolates hrun hbuild
  · refine (State.isolates_focus hne (k := j) (moves := again)).1 (State.runCommand_isolates hrun fun hj => ?_)
    rw [State.focus_inst] at hj
    exact absurd (h.builds j k (hinst j ▸ hj) (hinstk ▸ hbuild)) hjk

/-- Settles O56: a step by what it may do, each instruction by the frame that all have and the bytes of its kind. -/
theorem commandIsolation : Obligations.CommandIsolation := by
  refine ⟨fun s t h ht => ?_, fun i s t h => ?_⟩
  · obtain hreset | hsame | hidle := step_isolates h ht
    · exact .inr (.inl hreset)
    · exact .inl hsame
    · exact .inr (.inr hidle)
  · obtain ⟨-, hconfig, houtside⟩ := exec_frame h
    exact ⟨hconfig, houtside, exec_tables h, (exec_endsAs h).bytes_instance⟩

end Sys2Proof.Machine
end

section
/-! SUPPORT. Where a command stops without a next state (R478), and the obligation on it. -/

namespace Sys2Proof.Machine

variable {i : Instr} {s : State}

/-- A bus address of the instance in hand whose byte holds no value: a byte of a buffer, where valid tables are of a valid
footprint. -/
def State.lacks (s : State) (a : Nat) : Prop :=
  ∃ off, a = s.base + off ∧ s.mem.read a = none ∧
    ((∀ fp, s.tables = .valid fp → fp.valid = true) → byteMask off ≠ 0)

/-- A result that stops for a byte that the instance in hand lacks, if at all. -/
def State.stopsOnlyLacking (s : State) : Result → Prop
  | .next _ => True
  | .fault (.readNoValue a) => s.lacks a
  | .refused _ => False

/-- Bytes that are no value, of a buffer where valid tables are of a valid footprint. -/
theorem State.load_lacks {off n a : Nat} (h : s.load off n = .error a)
    (hmask : (∀ fp, s.tables = .valid fp → fp.valid = true) → ∀ i < n, byteMask (off + i) ≠ 0) : s.lacks a := by
  obtain ⟨hlo, hhi, hnone⟩ := Memory.readList_error h
  refine ⟨off + (a - (s.base + off)), by omega, hnone, fun hfp => hmask hfp _ (by omega)⟩

theorem State.lacks_of_missing {a : Nat} (h : s.missing a) : s.lacks a := by
  obtain ⟨hnone, q, hq, hlo, hhi⟩ := h
  have hmask : ∀ q ∈ symSizes, ∀ i < q.2, byteMask (q.1 + i) ≠ 0 := by decide
  exact ⟨q.1 + (a - (s.base + q.1)), by omega, hnone, fun _ => hmask q hq _ (by omega)⟩

theorem byteMask_texin {i : Nat} (hi : i < 4 * 144) : byteMask (offTexin + i) = 0xFF := by
  unfold offTexin byteMask
  repeat rw [if_neg (by omega)]
  rw [if_pos (by omega)]

theorem byteMask_ewb {i : Nat} (hi : i < 16 * 144) : byteMask (offEwb + i) = 0xFF := by
  unfold offEwb byteMask
  repeat rw [if_neg (by omega)]
  rw [if_pos (by omega)]

theorem byte_ne_zero {b : Byte} (h : b = 0xFF) : b ≠ 0 := by
  rw [h]
  decide

/-! ## The operands that a command reads -/

theorem State.readPhys_lacks {a : Nat} (h : s.readPhys = .error a) : s.lacks a := by
  unfold State.readPhys at h
  split at h <;> cases h
  exact State.load_lacks ‹_› fun _ i hi => byte_ne_zero (byteMask_phys hi)

section Texels

variable {fp : Footprint} (hfp : s.tables = .valid fp) {a : Nat}
include hfp

theorem State.readTexin_lacks (h : s.readTexin fp.texels = .error a) : s.lacks a := by
  unfold State.readTexin at h
  split at h <;> cases h
  refine State.load_lacks ‹_› fun hvalid i hi => byte_ne_zero (byteMask_texin (hi.trans_le ?_))
  exact Nat.mul_le_mul_left 4 (Footprint.texels_le (hvalid fp hfp))

theorem State.readEwb_lacks (h : s.readEwb fp.texels = .error a) : s.lacks a := by
  unfold State.readEwb at h
  split at h <;> cases h
  refine State.load_lacks ‹_› fun hvalid i hi => byte_ne_zero (byteMask_ewb (hi.trans_le ?_))
  exact Nat.mul_le_mul_left 16 (Footprint.texels_le (hvalid fp hfp))

end Texels

/-! ## The guards -/

theorem State.stopsOnlyLacking_withTables {f : Footprint → Result}
    (h : ∀ fp, s.tables = .valid fp → s.stopsOnlyLacking (f fp)) : s.stopsOnlyLacking (s.withTables f) := by
  unfold State.withTables
  split
  · exact h _ ‹_›
  all_goals trivial

theorem State.stopsOnlyLacking_withBytes {α : Type} {r : Except Nat α} {f : α → Result}
    (hr : ∀ a, r = .error a → s.lacks a) (h : ∀ x, s.stopsOnlyLacking (f x)) : s.stopsOnlyLacking (withBytes r f) := by
  unfold withBytes
  split
  · exact h _
  · exact hr _ rfl

theorem State.stopsOnlyLacking_withSym {fp : Footprint} {f : Sym → Result} (h : ∀ sym, s.stopsOnlyLacking (f sym)) :
    s.stopsOnlyLacking (s.withSym fp f) := by
  have hfinds := s.finds_readSym fp
  unfold State.withSym
  split
  · rename_i a hread
    rw [hread] at hfinds
    cases hfinds with
    | noValue hmissing => exact State.lacks_of_missing hmissing
  · trivial
  · exact h _

/-! ## The commands -/

/-- The instructions that read the buffers (R478). -/
def readsBuffers : Instr → Bool
  | .pack | .unpack | .decodeTexels _ | .encodeBlock _ _ => true
  | _ => false

theorem exec_stopsOnlyLacking (hi : readsBuffers i = true) : s.stopsOnlyLacking (exec i s) := by
  cases i with
  | pack =>
    refine State.stopsOnlyLacking_withTables fun fp _ => State.stopsOnlyLacking_withSym fun sym => ?_
    split <;> trivial
  | unpack =>
    exact State.stopsOnlyLacking_withTables fun fp _ =>
      State.stopsOnlyLacking_withBytes (fun a => State.readPhys_lacks) fun blk => trivial
  | decodeTexels k =>
    refine State.stopsOnlyLacking_withTables fun fp _ => ?_
    split
    · trivial
    · exact State.stopsOnlyLacking_withSym fun sym => trivial
  | encodeBlock p k =>
    refine State.stopsOnlyLacking_withTables fun fp hfp => ?_
    split
    · trivial
    refine State.stopsOnlyLacking_withBytes (fun a => State.readEwb_lacks hfp) fun ewb => ?_
    split
    · exact State.stopsOnlyLacking_withBytes (fun a => State.readTexin_lacks hfp) fun texels => trivial
    · trivial
  | _ => cases hi

theorem State.withTables_ends {f : Footprint → Result} (h : ∀ fp, ∃ t, f fp = .next t) :
    ∃ t, s.withTables f = .next t := by
  unfold State.withTables
  split
  · exact h _
  all_goals exact ⟨_, rfl⟩

theorem State.answerOrBad_ends (o : Option Nat) : ∃ t, s.answerOrBad o = .next t := by
  cases o <;> exact ⟨_, rfl⟩

/-- An instruction that reads no buffer has a next state. -/
theorem exec_ends (s : State) (hi : readsBuffers i = false) : ∃ t, exec i s = .next t := by
  cases i with
  | nop | reservedOp => exact ⟨_, rfl⟩
  | buildTables =>
    show ∃ t, execBuildTables s = .next t
    unfold execBuildTables
    split <;> exact ⟨_, rfl⟩
  | iseBitcount => exact State.answerOrBad_ends _
  | qlookup | plookup | dlookup => exact State.withTables_ends fun fp => State.answerOrBad_ends _
  | modeinfo | physVoidExtent | physNormal1p | physNormalMp => exact State.withTables_ends fun fp => ⟨_, rfl⟩
  | _ => cases hi

theorem readsBuffers_iff :
    readsBuffers i = true ↔ i = .pack ∨ i = .unpack ∨ (∃ k, i = .decodeTexels k) ∨ ∃ p k, i = .encodeBlock p k := by
  cases i <;> simp [readsBuffers]

/-- Settles O55: an instruction that reads no buffer ends, and one that does stops only for a byte it finds lacking. -/
theorem faultsOnlyWithoutValue : Obligations.FaultsOnlyWithoutValue := by
  intro i s
  cases hi : readsBuffers i with
  | false =>
    obtain ⟨t, ht⟩ := exec_ends s hi
    rw [ht]
    exact ⟨nofun, nofun⟩
  | true =>
    have hstops := exec_stopsOnlyLacking (s := s) hi
    refine ⟨fun r hr => ?_, fun f hf => ⟨readsBuffers_iff.1 hi, ?_⟩⟩
    · rw [hr] at hstops
      exact hstops
    · obtain ⟨a⟩ := f
      rw [hf] at hstops
      obtain ⟨off, rfl, hnone, hmask⟩ := hstops
      exact ⟨off, rfl, hnone, fun hfp => ⟨byteMask_lt (hmask hfp), hmask hfp⟩⟩

end Sys2Proof.Machine
end

section
/-! SUPPORT. The error blocks (R475): the conditions under which reading a block ends in ERROR, to UNPACK and to
DECODE_TEXELS (R385), and the obligation on them. -/

namespace Sys2Proof.Machine

variable {fp : Footprint} {blk : Block} {b : BlockMode} {pc : Nat}

/-! ## A normal block -/

/-- No color level from 4 on fits exactly where the greatest level that fits, if there is one, is below 4 (R310). -/
theorem colorLevel_below_iff {nvals avail : Nat} :
    (∀ q, 4 ≤ q → q ≤ 20 → iseBits nvals q > avail) ↔ ∀ cq, colorLevel nvals avail = some cq → cq < 4 := by
  constructor
  · intro h cq hcq
    obtain ⟨hlt, hfits⟩ := colorLevel_some hcq
    by_contra hge
    have := h cq (by omega) (by omega)
    omega
  · intro h q hq hq'
    by_contra hfits
    obtain ⟨cq, hcq, hle⟩ := colorLevel_ge (by omega) (Nat.not_lt.1 hfits)
    have := h cq hcq
    omega

/-- The conditions on a block of a valid mode (R296 to R310). -/
theorem readNormal_error_iff_of_mode (hb : blockMode fp (readBits blk 0 11) = some b) :
    let pc := readBits blk 11 2 + 1
    let form := readCems blk pc b.weightBits
    readNormal fp blk = .error ↔ (b.dual = true ∧ pc = 4) ∨ colorCount form.1 > 18 ∨
      ∀ q, 4 ≤ q → q ≤ 20 → iseBits (colorCount form.1) q >
        colorEnd b.weightBits pc form.2 b.dual - colorStart pc := by
  intro pc form
  rw [colorLevel_below_iff, readNormal, hb]
  dsimp only
  split
  · exact iff_of_true rfl (.inl ‹_›)
  rename_i hdual
  split
  · exact iff_of_true rfl (.inr (.inl ‹_›))
  have hcount : ¬colorCount form.1 > 18 := ‹_›
  rw [or_iff_right hdual, or_iff_right hcount]
  split
  · rename_i hnone
    exact iff_of_true rfl fun cq hcq => absurd (hnone.symm.trans hcq) nofun
  rename_i cq hlevel
  simp only [pc, form, hlevel, Option.some.injEq, forall_eq']
  split
  · exact iff_of_true rfl ‹_›
  · exact iff_of_false nofun ‹_›

/-- A mode that is decoded is valid unless a bound of R180 is passed. -/
theorem blockMode_none_iff {m : Nat} (hm : decodeMode m = some b) : blockMode fp m = none ↔
    b.weightCount > 64 ∨ b.weightBits < 24 ∨ b.weightBits > 96 ∨ b.grid.w > fp.bw ∨ b.grid.h > fp.bh := by
  cases hb : blockMode fp m with
  | none =>
    refine iff_of_true rfl ?_
    by_contra hbounds
    have hvalid : blockMode fp m = some b := blockMode_some_iff.2 ⟨hm, by omega⟩
    rw [hb] at hvalid
    cases hvalid
  | some b' =>
    obtain ⟨hm', hbounds⟩ := blockMode_some_iff.1 hb
    obtain rfl := Option.some.inj (hm.symm.trans hm')
    exact iff_of_false nofun (by omega)

theorem readNormal_error_of_decodeMode_none (hm : decodeMode (readBits blk 0 11) = none) : readNormal fp blk = .error := by
  have hnone : blockMode fp (readBits blk 0 11) = none := by rw [blockMode, hm]; rfl
  rw [readNormal, hnone]

/-- The conditions on a block whose mode is decoded: the bounds of the mode, then those on the fields. -/
theorem readNormal_error_iff (hm : decodeMode (readBits blk 0 11) = some b) :
    let pc := readBits blk 11 2 + 1
    let form := readCems blk pc b.weightBits
    readNormal fp blk = .error ↔
      (b.weightCount > 64 ∨ b.weightBits < 24 ∨ b.weightBits > 96 ∨ b.grid.w > fp.bw ∨ b.grid.h > fp.bh) ∨
        (b.dual = true ∧ pc = 4) ∨ colorCount form.1 > 18 ∨ ∀ q, 4 ≤ q → q ≤ 20 →
          iseBits (colorCount form.1) q > colorEnd b.weightBits pc form.2 b.dual - colorStart pc := by
  intro pc form
  rw [← blockMode_none_iff hm]
  cases hb : blockMode fp (readBits blk 0 11) with
  | none => exact iff_of_true (by rw [readNormal, hb]) (.inl rfl)
  | some b' =>
    obtain rfl := Option.some.inj ((blockMode_some_iff.1 hb).1.symm.trans hm)
    rw [or_iff_right nofun]
    exact readNormal_error_iff_of_mode hb

/-- The CEM of partition `p` in the one-partition, the shared and the class form (R296, R305). -/
def cemAt (blk : Block) (pc weightBits p : Nat) : Nat :=
  let low := readBits blk 23 6
  let enc := classFieldOf blk pc weightBits
  if pc = 1 then readBits blk 13 4
  else if low % 4 = 0 then low / 4
  else 4 * (low % 4 - 1 + enc / 2 ^ (2 + p) % 2) + enc / 2 ^ (2 + pc + 2 * p) % 4

theorem readCems_fst (blk : Block) (pc weightBits : Nat) :
    (readCems blk pc weightBits).1 = (List.range pc).map (cemAt blk pc weightBits) := by
  by_cases hpc : pc = 1
  · subst hpc
    rfl
  by_cases hlow : readBits blk 23 6 % 4 = 0
  · rw [readCems_shared hpc hlow, ← List.length_range (n := pc), ← List.map_const', List.length_range]
    exact List.map_congr_left fun p _ => by simp only [cemAt, if_neg hpc, if_pos hlow]
  · rw [readCems_class hpc hlow]
    refine List.map_congr_left fun p _ => ?_
    simp only [cemAt, if_neg hpc, if_neg hlow, field, bit, Nat.pow_zero, Nat.div_one, Nat.reducePow,
      classFieldOf_mod, Nat.mul_comm 4, pow_one]

theorem readCems_snd (blk : Block) (pc weightBits : Nat) :
    (readCems blk pc weightBits).2 = true ↔ pc = 1 ∨ readBits blk 23 6 % 4 = 0 := by
  rw [← not_iff_not, Bool.not_eq_true, readCems_snd_false, not_or]

/-- A block without the mark of a void extent is a normal one (R132, R137). -/
theorem readBlock_of_unmarked (hmark : blk.extractLsb' 0 9 ≠ 0x1FC) : readBlock fp blk = readNormal fp blk := by
  refine if_neg fun h => hmark (BitVec.eq_of_toNat_eq ?_)
  rw [← readBits_eq, h]
  rfl

/-! ## A void extent (R292) -/

/-- The extents of a block are all ones where each of them is (R292). -/
theorem extents_ones_iff : blk.extractLsb' 12 52 = BitVec.allOnes 52 ↔
    blk.extractLsb' 12 13 = 0x1FFF ∧ blk.extractLsb' 25 13 = 0x1FFF ∧ blk.extractLsb' 38 13 = 0x1FFF ∧
      blk.extractLsb' 51 13 = 0x1FFF := by
  have hones : (0x1FFF : BitVec 13).toNat = 2 ^ 13 - 1 := rfl
  simp only [← BitVec.toNat_inj, ← readBits_eq, readBits, field, BitVec.toNat_allOnes, hones]
  omega

theorem voidExtent_error_iff (hmark : blk.extractLsb' 0 9 = 0x1FC) :
    let ones := blk.extractLsb' 12 52 = BitVec.allOnes 52
    readBlock fp blk = .error ↔ blk.extractLsb' 10 2 ≠ 3 ∨
      (¬ones ∧ ((blk.extractLsb' 12 13).toNat ≥ (blk.extractLsb' 25 13).toNat ∨
        (blk.extractLsb' 38 13).toNat ≥ (blk.extractLsb' 51 13).toNat)) := by
  intro ones
  have hread := voidExtent (blk.extractLsb' 9 1) (blk.extractLsb' 10 2) (blk.extractLsb' 12 13)
    (blk.extractLsb' 25 13) (blk.extractLsb' 38 13) (blk.extractLsb' 51 13) (blk.extractLsb' 64 16)
    (blk.extractLsb' 80 16) (blk.extractLsb' 96 16) (blk.extractLsb' 112 16) fp
  rw [voidExtentBlock_fields hmark] at hread
  dsimp only at hread
  have hones : ones ↔ _ := extents_ones_iff
  rw [hread, hones]
  split
  · exact iff_of_true rfl (.inl ‹_›)
  rename_i hreserved
  rw [or_iff_right hreserved]
  split
  · exact iff_of_true rfl ‹_›
  · exact iff_of_false nofun ‹_›

/-! ## DECODE_TEXELS (R385) -/

theorem blockIsError_const_iff {profile : Profile} {fp16 : Bool} {color : Rgba (BitVec 16)} :
    blockIsError profile (.const fp16 color) = true ↔ fp16 = true ∧ profile ≠ .hdr := by
  rw [blockIsError, Bool.and_eq_true, bne_iff_ne]

theorem blockIsError_normal_iff {profile : Profile} {n : NormalSym} :
    blockIsError profile (.normal n) = true ↔ (∃ c ∈ n.cems, c.toNat ∈ [2, 3, 7, 11, 14, 15]) ∧ profile ≠ .hdr := by
  simp only [blockIsError, Bool.and_eq_true, bne_iff_ne, usesHdr_iff, isHdrCem_iff, cemNats, List.mem_map,
    exists_exists_and_eq_and]

/-! ## The obligation -/

/-- Settles O33: reading a block is a sequence of checks, each condition one of them. -/
theorem errorBlocks : Obligations.ErrorBlocks := by
  refine ⟨fun fp blk hmark => ?_, fun fp blk => voidExtent_error_iff, fun profile sym => ?_⟩
  case refine_2 =>
    cases sym with
    | error => exact iff_of_true rfl trivial
    | const => exact blockIsError_const_iff
    | normal => exact blockIsError_normal_iff
  intro pc
  have hpc : pc = readBits blk 11 2 + 1 := by rw [readBits_eq]
  rw [readBlock_of_unmarked hmark, ← readBits_eq]
  cases hm : decodeMode (readBits blk 0 11) with
  | none => exact iff_of_true (readNormal_error_of_decodeMode_none hm) trivial
  | some b =>
    dsimp -zeta only
    extract_lets n low extra below enc cem values
    have hn : n = b.weightCount := b.weightCount_eq.symm
    have hlow : low = readBits blk 23 6 := (readBits_eq _ _ _).symm
    have hextra : extra = if pc = 1 ∨ readBits blk 23 6 % 4 = 0 then 0 else extraCemBits pc := by
      simp only [extra, hlow, extraCemBits]
      split_ifs <;> omega
    have henc (h1 : pc ≠ 1) (h0 : readBits blk 23 6 % 4 ≠ 0) : enc = classFieldOf blk pc b.weightBits := by
      rw [if_neg (not_or.2 ⟨h1, h0⟩)] at hextra
      simp only [enc, below, hextra, hn, hlow]
      rfl
    have hcem : cem = cemAt blk pc b.weightBits := by
      funext p
      simp only [cem, cemAt, hlow, ← readBits_eq]
      split_ifs with h1 h0
      · rfl
      · rfl
      · rw [henc h1 h0]
    have hvalues : values = colorCount (readCems blk pc b.weightBits).1 := by
      rw [readCems_fst, colorCount, List.map_map, ← hcem]
      rfl
    have havail : below - (if b.dual then 2 else 0) - (if pc = 1 then 17 else 29) =
        colorEnd b.weightBits pc (readCems blk pc b.weightBits).2 b.dual - colorStart pc := by
      rw [colorRoom_eq (readCems_snd blk pc b.weightBits)]
      simp only [below, hextra, hn, or_self_left]
      rfl
    have hread := readNormal_error_iff (fp := fp) hm
    simp only [or_assoc, ← hpc] at hread
    rwa [hvalues, havail, hn]

end Sys2Proof.Machine
end

section
/-! SUPPORT. The unit after reset, seen from each of its instances, and the obligations on reset and on the step that
completes a command (R510, R511, R530). -/

namespace Sys2Proof.Machine

/-! ## The reset state (R510) -/

/-- No instance but the one in hand is listed after reset, so another one comes in hand as it was (R485). -/
theorem State.reset_focus (k : Nat) : State.reset.focus k = { State.reset with cur := k } := by
  unfold State.focus
  split
  case isTrue hk => rw [hk]
  case isFalse => rfl

/-- A control register is read from the shared registers and those in hand, whatever the number of the instance. -/
theorem State.readControl_withCur (s : State) (k off : Nat) :
    ({ s with cur := k } : State).readControl off = s.readControl off := rfl

/-- Settles O1: with any instance in hand the registers are those of the reset state, which are evaluated. -/
theorem resetState : Obligations.ResetState := by
  intro k s
  have hs : s = { State.reset with cur := k } := State.reset_focus k
  have hstatus : s.statusWord = State.reset.statusWord := hs ▸ rfl
  have hcontrol (off : Nat) : s.readControl off = State.reset.readControl off := hs ▸ State.readControl_withCur _ k off
  have hinst : s.inst = Inst.reset := hs ▸ rfl
  have htables : s.tables = .noValue := State.focus_tables _ k
  have hmem : s.mem = [] := State.focus_mem _ k
  simp only [hstatus, hcontrol, hinst, htables, hmem]
  refine ⟨?_, ?_, ?_, ?_, ?_, ?_, ?_, ?_, ?_, ?_, ?_, ?_, ?_, rfl, trivial, fun _ => rfl⟩ <;> decide

/-! ## Steps (R511, R530) -/

theorem State.move_reset (s : State) : s.move .reset = .next s.afterReset := rfl

/-- Settles O2: the step is the reset move whatever runs, and the frame of every instruction has the count of resets. -/
theorem resetAbandonsAll : Obligations.ResetAbandonsAll := by
  refine ⟨fun s rest hs => ?_, fun i s t h => ?_⟩
  · rw [step_cons hs, State.move_reset, State.afterReset]
  · obtain ⟨-, -, -, -, -, -, -, hepoch⟩ := exec_frame h
    exact hepoch

/-- Settles O3: the step runs the command of the instance in hand, whose word decodes to the instruction. -/
theorem stepRunsDecoded : Obligations.StepRunsDecoded := by
  intro s u w i hc hd
  rw [step_completesIn hc, State.runCommand_ok hc.running hd]

/-! ## The invariants (R68, R476) -/

/-- Settles O59: a reset leaves the invariants, and none of them speaks of the count of resets. -/
theorem resetInv : Obligations.ResetInv := by
  have h : State.reset.afterReset.Inv := State.afterReset_inv State.reset
  exact ⟨h.memory, h.tables, h.codes, h.instances, h.reserved, h.builds⟩

end Sys2Proof.Machine
end
